-- ==== Sys2Proof/Word.lean ====
section
/-!
DEFINITION. The word types of the PICTS coding core (`00_scope.md` R7, R10): every quantity is an unsigned bit
vector of a fixed width, bit 0 the least significant.
-/

namespace Sys2Proof

/-- A byte of a stream, or an 8-bit operand field (`30_encoding.md` R71). -/
abbrev Byte := BitVec 8

/-- "an 8-bit value representing one quantized transform coefficient" (`00_scope.md` R7, R17), compared unsigned (R15). -/
abbrev Symbol := BitVec 8

/-- A 32-bit operand, header dimension or container field (`00_scope.md` R7). -/
abbrev Word32 := BitVec 32

/-- A 64-bit frequency count, tree weight or response value (`00_scope.md` R7, R47: sums wrap). -/
abbrev Word64 := BitVec 64

/-- One 64-bit command word (`30_encoding.md` R70). -/
abbrev Command := BitVec 64

end Sys2Proof
end

