-- ==== Sys2Proof/Syntax.lean ====
section
/-!
DEFINITION. The commands of PCC-CMD v1, one constructor per row of `spec/opcode_table.json` (`30_encoding.md` R75).
The operands are the fields of R71 as they stand (R81): `a` a bit length, layer, layer count, maximum layer or
register index; `b` a Symbol, value or selector; `d` a 32-bit datum.
-/

namespace Sys2Proof

/-- The 35 commands of `30_encoding.md` R75. -/
inductive Instr where
  /-- `NOP`, `46_system.md` R260. -/
  | nop
  /-- `HDR.SET`, `46_system.md` R261. -/
  | hdrSet (a : Byte) (d : Word32)
  /-- `HDR.GET`, `46_system.md` R262. -/
  | hdrGet (a : Byte)
  /-- `STAT.GET`, `46_system.md` R263. -/
  | statGet
  /-- `SRESET`, `46_system.md` R264. -/
  | sreset
  /-- `BW.WRITE`, `40_bitstream.md` R107. -/
  | bwWrite (a b : Byte)
  /-- `BW.FLUSH`, `40_bitstream.md` R108. -/
  | bwFlush
  /-- `BW.CLOSE`, `40_bitstream.md` R109. -/
  | bwClose
  /-- `BR.READ`, `40_bitstream.md` R110. -/
  | brRead (a : Byte)
  /-- `BR.BIT`, `40_bitstream.md` R111. -/
  | brBit
  /-- `BR.SKIP`, `40_bitstream.md` R112. -/
  | brSkip
  /-- `ZS.START`, `41_scanner.md` R127. -/
  | zsStart (a : Byte)
  /-- `ZS.NEXT`, `41_scanner.md` R128. -/
  | zsNext
  /-- `HF.BUILD`, `42_huffman.md` R150. -/
  | hfBuild (a : Byte)
  /-- `HF.TRAV`, `42_huffman.md` R151. -/
  | hfTrav (a : Byte)
  /-- `HF.DEC`, `42_huffman.md` R152. -/
  | hfDec (a : Byte)
  /-- `HF.ENC`, `42_huffman.md` R153. -/
  | hfEnc (a b : Byte)
  /-- `HF.CODE`, `42_huffman.md` R154. -/
  | hfCode (a b : Byte)
  /-- `LS.CLEAR`, `43_layerstore.md` R174. -/
  | lsClear
  /-- `LS.PUSH`, `43_layerstore.md` R175. -/
  | lsPush (a b : Byte)
  /-- `LS.POP`, `43_layerstore.md` R176. -/
  | lsPop (a : Byte)
  /-- `LS.REWIND`, `43_layerstore.md` R177. -/
  | lsRewind
  /-- `LS.FREQ`, `43_layerstore.md` R178. -/
  | lsFreq (a b : Byte)
  /-- `LS.SETF`, `43_layerstore.md` R179. -/
  | lsSetf (a b : Byte) (d : Word32)
  /-- `LS.INFO`, `43_layerstore.md` R180. -/
  | lsInfo (a b : Byte)
  /-- `CF.PUTHDR`, `44_container.md` R210. -/
  | cfPuthdr
  /-- `CF.GETHDR`, `44_container.md` R211. -/
  | cfGethdr
  /-- `CF.PUTLAYER`, `44_container.md` R212. -/
  | cfPutlayer (a : Byte)
  /-- `CF.GETLAYER`, `44_container.md` R213. -/
  | cfGetlayer (a : Byte)
  /-- `CF.SER`, `44_container.md` R214. -/
  | cfSer
  /-- `CF.DES`, `44_container.md` R215. -/
  | cfDes
  /-- `FS.ENCBLK`, `45_frame_sequencer.md` R240. -/
  | fsEncblk
  /-- `FS.DECBLK`, `45_frame_sequencer.md` R241. -/
  | fsDecblk (a : Byte)
  /-- `FS.ENC`, `45_frame_sequencer.md` R242. -/
  | fsEnc (a : Byte) (d : Word32)
  /-- `FS.REC`, `45_frame_sequencer.md` R243. -/
  | fsRec (a : Byte) (d : Word32)
  deriving DecidableEq, Repr

end Sys2Proof
end

