-- ==== Sys2Proof/Decode.lean ====
section
/-!
DEFINITION. Decoding and encoding of command words (`30_encoding.md` R70 to R72, R75, R76, R81). A word is split
into the five fields of R71 once; decoding is total on every 64-bit word and answers `none` exactly for the illegal
words of R76. An operand outside its range (R81) is NOT illegal: it decodes, and its command refuses it by its own
reason (R77).
-/

namespace Sys2Proof

/-- The five fields of a command word (`30_encoding.md` R71). -/
structure Fields where
  op : Byte
  a : Byte
  b : Byte
  rsv : Byte
  d : Word32
  deriving DecidableEq, Repr

/-- `op` [63:56], `a` [55:48], `b` [47:40], `rsv` [39:32], `d` [31:0] (`30_encoding.md` R71). -/
def fieldsOf (w : Command) : Fields where
  op := w.extractLsb' 56 8
  a := w.extractLsb' 48 8
  b := w.extractLsb' 40 8
  rsv := w.extractLsb' 32 8
  d := w.extractLsb' 0 32

/-- The word with the given fields (`30_encoding.md` R71). -/
def wordOf (f : Fields) : Command := f.op ++ f.a ++ f.b ++ f.rsv ++ f.d

/-- The five formats of `30_encoding.md` R72. -/
inductive Format where
  | f0
  | fa
  | fab
  | fad
  | fabd
  deriving DecidableEq, Repr

/-- The mask column of `30_encoding.md` R72. -/
def Format.mask : Format → Command
  | .f0 => 0xFFFFFFFFFFFFFFFF
  | .fa => 0xFF00FFFFFFFFFFFF
  | .fab => 0xFF0000FFFFFFFFFF
  | .fad => 0xFF00FFFF00000000
  | .fabd => 0xFF0000FF00000000

/-- The fields a format requires to be 0 are 0 ("must be 0" column of `30_encoding.md` R72). -/
def Format.admits : Format → Fields → Bool
  | .f0, f => f.a == 0 && f.b == 0 && f.rsv == 0 && f.d == 0
  | .fa, f => f.b == 0 && f.rsv == 0 && f.d == 0
  | .fab, f => f.rsv == 0 && f.d == 0
  | .fad, f => f.b == 0 && f.rsv == 0
  | .fabd, f => f.rsv == 0

/-- One row of the opcode map: mnemonic, opcode, format (`30_encoding.md` R75). -/
structure OpRow where
  mnemonic : String
  op : Byte
  format : Format
  deriving DecidableEq, Repr

/-- `match` of a row: the opcode at bits 63:56, all else 0 (`30_encoding.md` R72). -/
def OpRow.matchWord (r : OpRow) : Command := r.op ++ (0 : BitVec 56)

/-- The opcode map of `30_encoding.md` R75, in its order. -/
def opcodeTable : List OpRow :=
  [ ⟨"NOP", 0x00, .f0⟩,
    ⟨"HDR.SET", 0x01, .fad⟩,
    ⟨"HDR.GET", 0x02, .fa⟩,
    ⟨"STAT.GET", 0x03, .f0⟩,
    ⟨"SRESET", 0x04, .f0⟩,
    ⟨"BW.WRITE", 0x10, .fab⟩,
    ⟨"BW.FLUSH", 0x11, .f0⟩,
    ⟨"BW.CLOSE", 0x12, .f0⟩,
    ⟨"BR.READ", 0x18, .fa⟩,
    ⟨"BR.BIT", 0x19, .f0⟩,
    ⟨"BR.SKIP", 0x1A, .f0⟩ ] ++
  [ ⟨"ZS.START", 0x20, .fa⟩,
    ⟨"ZS.NEXT", 0x21, .f0⟩,
    ⟨"HF.BUILD", 0x30, .fa⟩,
    ⟨"HF.TRAV", 0x31, .fa⟩,
    ⟨"HF.DEC", 0x32, .fa⟩,
    ⟨"HF.ENC", 0x33, .fab⟩,
    ⟨"HF.CODE", 0x34, .fab⟩,
    ⟨"LS.CLEAR", 0x40, .f0⟩,
    ⟨"LS.PUSH", 0x41, .fab⟩,
    ⟨"LS.POP", 0x42, .fa⟩,
    ⟨"LS.REWIND", 0x43, .f0⟩,
    ⟨"LS.FREQ", 0x44, .fab⟩,
    ⟨"LS.SETF", 0x45, .fabd⟩,
    ⟨"LS.INFO", 0x46, .fab⟩ ] ++
  [ ⟨"CF.PUTHDR", 0x50, .f0⟩,
    ⟨"CF.GETHDR", 0x51, .f0⟩,
    ⟨"CF.PUTLAYER", 0x52, .fa⟩,
    ⟨"CF.GETLAYER", 0x53, .fa⟩,
    ⟨"CF.SER", 0x54, .f0⟩,
    ⟨"CF.DES", 0x55, .f0⟩,
    ⟨"FS.ENCBLK", 0x60, .f0⟩,
    ⟨"FS.DECBLK", 0x61, .fa⟩,
    ⟨"FS.ENC", 0x62, .fad⟩,
    ⟨"FS.REC", 0x63, .fad⟩ ]

/-- The instruction, if the format's zero fields are 0 (`30_encoding.md` R76). -/
def Format.whenAdmits (fmt : Format) (f : Fields) (i : Instr) : Option Instr :=
  if fmt.admits f then some i else none

/-- The command the fields stand for (`30_encoding.md` R75); `none` for an unassigned opcode (R76). -/
def decodeFields (f : Fields) : Option Instr :=
  match f.op.toNat with
  | 0x00 => Format.f0.whenAdmits f .nop
  | 0x01 => Format.fad.whenAdmits f (.hdrSet f.a f.d)
  | 0x02 => Format.fa.whenAdmits f (.hdrGet f.a)
  | 0x03 => Format.f0.whenAdmits f .statGet
  | 0x04 => Format.f0.whenAdmits f .sreset
  | 0x10 => Format.fab.whenAdmits f (.bwWrite f.a f.b)
  | 0x11 => Format.f0.whenAdmits f .bwFlush
  | 0x12 => Format.f0.whenAdmits f .bwClose
  | 0x18 => Format.fa.whenAdmits f (.brRead f.a)
  | 0x19 => Format.f0.whenAdmits f .brBit
  | 0x1A => Format.f0.whenAdmits f .brSkip
  | 0x20 => Format.fa.whenAdmits f (.zsStart f.a)
  | 0x21 => Format.f0.whenAdmits f .zsNext
  | 0x30 => Format.fa.whenAdmits f (.hfBuild f.a)
  | 0x31 => Format.fa.whenAdmits f (.hfTrav f.a)
  | 0x32 => Format.fa.whenAdmits f (.hfDec f.a)
  | 0x33 => Format.fab.whenAdmits f (.hfEnc f.a f.b)
  | 0x34 => Format.fab.whenAdmits f (.hfCode f.a f.b)
  | 0x40 => Format.f0.whenAdmits f .lsClear
  | 0x41 => Format.fab.whenAdmits f (.lsPush f.a f.b)
  | 0x42 => Format.fa.whenAdmits f (.lsPop f.a)
  | 0x43 => Format.f0.whenAdmits f .lsRewind
  | 0x44 => Format.fab.whenAdmits f (.lsFreq f.a f.b)
  | 0x45 => Format.fabd.whenAdmits f (.lsSetf f.a f.b f.d)
  | 0x46 => Format.fab.whenAdmits f (.lsInfo f.a f.b)
  | 0x50 => Format.f0.whenAdmits f .cfPuthdr
  | 0x51 => Format.f0.whenAdmits f .cfGethdr
  | 0x52 => Format.fa.whenAdmits f (.cfPutlayer f.a)
  | 0x53 => Format.fa.whenAdmits f (.cfGetlayer f.a)
  | 0x54 => Format.f0.whenAdmits f .cfSer
  | 0x55 => Format.f0.whenAdmits f .cfDes
  | 0x60 => Format.f0.whenAdmits f .fsEncblk
  | 0x61 => Format.fa.whenAdmits f (.fsDecblk f.a)
  | 0x62 => Format.fad.whenAdmits f (.fsEnc f.a f.d)
  | 0x63 => Format.fad.whenAdmits f (.fsRec f.a f.d)
  | _ => none

/-- The command a word stands for, or `none` for the illegal words of `30_encoding.md` R76. -/
def decode (w : Command) : Option Instr := decodeFields (fieldsOf w)

/-- The fields of a command: its opcode, its operands, 0 in every field it does not use (`30_encoding.md` R71, R75). -/
def encodeFields : Instr → Fields
  | .nop => ⟨0x00, 0, 0, 0, 0⟩
  | .hdrSet a d => ⟨0x01, a, 0, 0, d⟩
  | .hdrGet a => ⟨0x02, a, 0, 0, 0⟩
  | .statGet => ⟨0x03, 0, 0, 0, 0⟩
  | .sreset => ⟨0x04, 0, 0, 0, 0⟩
  | .bwWrite a b => ⟨0x10, a, b, 0, 0⟩
  | .bwFlush => ⟨0x11, 0, 0, 0, 0⟩
  | .bwClose => ⟨0x12, 0, 0, 0, 0⟩
  | .brRead a => ⟨0x18, a, 0, 0, 0⟩
  | .brBit => ⟨0x19, 0, 0, 0, 0⟩
  | .brSkip => ⟨0x1A, 0, 0, 0, 0⟩
  | .zsStart a => ⟨0x20, a, 0, 0, 0⟩
  | .zsNext => ⟨0x21, 0, 0, 0, 0⟩
  | .hfBuild a => ⟨0x30, a, 0, 0, 0⟩
  | .hfTrav a => ⟨0x31, a, 0, 0, 0⟩
  | .hfDec a => ⟨0x32, a, 0, 0, 0⟩
  | .hfEnc a b => ⟨0x33, a, b, 0, 0⟩
  | .hfCode a b => ⟨0x34, a, b, 0, 0⟩
  | .lsClear => ⟨0x40, 0, 0, 0, 0⟩
  | .lsPush a b => ⟨0x41, a, b, 0, 0⟩
  | .lsPop a => ⟨0x42, a, 0, 0, 0⟩
  | .lsRewind => ⟨0x43, 0, 0, 0, 0⟩
  | .lsFreq a b => ⟨0x44, a, b, 0, 0⟩
  | .lsSetf a b d => ⟨0x45, a, b, 0, d⟩
  | .lsInfo a b => ⟨0x46, a, b, 0, 0⟩
  | .cfPuthdr => ⟨0x50, 0, 0, 0, 0⟩
  | .cfGethdr => ⟨0x51, 0, 0, 0, 0⟩
  | .cfPutlayer a => ⟨0x52, a, 0, 0, 0⟩
  | .cfGetlayer a => ⟨0x53, a, 0, 0, 0⟩
  | .cfSer => ⟨0x54, 0, 0, 0, 0⟩
  | .cfDes => ⟨0x55, 0, 0, 0, 0⟩
  | .fsEncblk => ⟨0x60, 0, 0, 0, 0⟩
  | .fsDecblk a => ⟨0x61, a, 0, 0, 0⟩
  | .fsEnc a d => ⟨0x62, a, 0, 0, d⟩
  | .fsRec a d => ⟨0x63, a, 0, 0, d⟩

/-- The command word of a command (`30_encoding.md` R71, R75). -/
def encode (i : Instr) : Command := wordOf (encodeFields i)

/-- What the decoder reads from an instruction whose bits are `w` and of which `nbits` are given, numbered as
`spec/opcode_table.json` numbers them: one 64-bit word, every bit at or above `nbits` being 0 (`30_encoding.md` R78). -/
def decodeTableWord (nbits w : Nat) : Option Instr := decode (BitVec.ofNat 64 (w % 2 ^ nbits))

end Sys2Proof
end

