-- ==== Sys2Proof/Config.lean ====
section
/-!
DEFINITION. The five parameters of `00_scope.md` R6, the only configuration of the core. The model takes them as
data (`State.cfg`), so that every statement over all states holds for every value of them (log entry 1).
-/

namespace Sys2Proof

/-- `FIELD_BYTE_ORDER` (`00_scope.md` R6, `20_memory.md` R53). -/
inductive ByteOrder where
  | le
  | be
  deriving DecidableEq, Repr

/-- `SHORT_LIMIT`, 14 or 22 (`00_scope.md` R6, `44_container.md` R197). -/
inductive ShortLimit where
  | bytes14
  | bytes22
  deriving DecidableEq, Repr

/-- The five bytes of `MAGIC`, in stream order (`44_container.md` R191). -/
structure Magic where
  m0 : Byte
  m1 : Byte
  m2 : Byte
  m3 : Byte
  m4 : Byte
  deriving DecidableEq, Repr

/-- The parameters of `00_scope.md` R6. -/
structure Config where
  fieldByteOrder : ByteOrder
  magic : Magic
  shortLimit : ShortLimit
  lenIncludesCount : Bool
  neutral : Symbol
  deriving DecidableEq, Repr

/-- The defaults of the table of `00_scope.md` R6: `LE`, ASCII "PICTS", 22, true, 128. -/
def Config.defaults : Config where
  fieldByteOrder := .le
  magic := ⟨0x50, 0x49, 0x43, 0x54, 0x53⟩
  shortLimit := .bytes22
  lenIncludesCount := true
  neutral := 128

/-- `NEUTRAL` lies in its range 1..255; the types of the other parameters hold their ranges (`00_scope.md` R6). -/
def Config.inRange (c : Config) : Bool := c.neutral != 0

end Sys2Proof
end

