-- ==== Sys2Proof/Machine/State.lean ====
section
/-!
DEFINITION. The state of the machine as plain data: the registers of `10_state.md` R20, the environment of R40 to
R43, the host's command and response ports (`30_encoding.md` R70, R73) and the parameters (`00_scope.md` R6).
-/

namespace Sys2Proof.Machine

/-- A layer number 1..8: a layer slot L, a layer count N or a deepest layer m (`00_scope.md` R7, R17). -/
inductive LayerNo where
  | l1
  | l2
  | l3
  | l4
  | l5
  | l6
  | l7
  | l8
  deriving DecidableEq, Repr

/-- A node of a layer's arena (`10_state.md` R34): `Leaf(sym, weight)` or `Internal(c0, c1, weight)`, `c0` and `c1`
being arena indices. -/
inductive Node where
  | leaf (sym : Symbol) (weight : Word64)
  | internal (c0 c1 : Nat) (weight : Word64)
  deriving DecidableEq, Repr

/-- A present entry of a code table (`10_state.md` R35): the length, and the code in `bits[len-1:0]`, its first bit
in position `len - 1`. -/
structure CodeEntry where
  len : Nat
  bits : Byte
  deriving DecidableEq, Repr

/-- A table indexed by Symbols of which only present entries are listed, by strictly ascending Symbol (log entry 8). -/
abbrev Table (α : Type) := List (Symbol × α)

/-- The registers of one layer slot (`10_state.md` R31 to R35). `NNODES[L]` is the length of `nodes` (log entry 7). -/
structure Layer where
  /-- `SEQ[L]` (R31). -/
  seq : List Symbol
  /-- `RP[L]` (R31). -/
  rp : Nat
  /-- `FREQ[L]` (R32). -/
  freq : Table Word64
  /-- `LS_LEN[L]` (R33). -/
  lsLen : Word32
  /-- `NODE[L][0 .. NNODES[L]-1]` (R34). -/
  nodes : List Node
  /-- `ROOT[L]`, `none` for `NONE` (R34). -/
  root : Option Nat
  /-- `TREE_VALID[L]` (R34, R36). -/
  treeValid : Bool
  /-- `CODE[L]` (R35). -/
  code : Table CodeEntry
  /-- `CODE_VALID[L]` (R35, R36). -/
  codeValid : Bool
  deriving DecidableEq, Repr

/-- A layer slot as reset and `LS.CLEAR` leave it (`10_state.md` R39, `43_layerstore.md` R174). -/
def Layer.empty : Layer where
  seq := []
  rp := 0
  freq := []
  lsLen := 0
  nodes := []
  root := none
  treeValid := false
  code := []
  codeValid := false

/-- The eight layer slots (`43_layerstore.md` R170). -/
structure Layers where
  l1 : Layer
  l2 : Layer
  l3 : Layer
  l4 : Layer
  l5 : Layer
  l6 : Layer
  l7 : Layer
  l8 : Layer
  deriving DecidableEq, Repr

/-- Eight empty slots. -/
def Layers.empty : Layers :=
  ⟨.empty, .empty, .empty, .empty, .empty, .empty, .empty, .empty⟩

/-- The four error kinds of `60_exceptions.md` R281. -/
inductive FaultKind where
  | shortFile
  | badMagic
  | contract
  | exhausted
  deriving DecidableEq, Repr

/-- The fifteen refusal reasons of `60_exceptions.md` R286. -/
inductive Reason where
  | illegalCommand
  | layerIndex
  | layerCount
  | writerClosed
  | noTree
  | noCode
  | tableSize
  | tableOrder
  | nonHuffman
  | misaligned
  | countOverrun
  | queueUnderflow
  | blockSourceEnd
  | capacity
  | badRegister
  deriving DecidableEq, Repr

/-- The status of a response (`30_encoding.md` R73). -/
inductive Status where
  | ok
  | scanEnd
  | fault
  | refused
  deriving DecidableEq, Repr

/-- A response word: status and 64-bit value (`30_encoding.md` R73). -/
structure Response where
  status : Status
  value : Word64
  deriving DecidableEq, Repr

/-- A block: 64 Symbols, position (r, c) at index `8 r + c` (`20_memory.md` R58, log entry 11). -/
abbrev Block := Vector Symbol 64

/-- What the host can do to the core (`10_state.md` R44): give it a command word, or assert the reset input between
two commands (`70_reset_and_hazards.md` R310). -/
inductive HostEvent where
  | command (w : Command)
  | reset
  deriving DecidableEq, Repr

/-- The whole machine. -/
structure State where
  /-- `BW_ACC` (`10_state.md` R21). -/
  bwAcc : Byte
  /-- `BW_FILL` (R22). -/
  bwFill : Fin 8
  /-- `BW_OPEN` (R23). -/
  bwOpen : Bool
  /-- `BR_CUR` (R24). -/
  brCur : Byte
  /-- `BR_REM` (R25). -/
  brRem : Fin 9
  /-- `ZS_N` (R26). -/
  zsN : LayerNo
  /-- `ZS_I` (R26). -/
  zsI : Fin 65
  /-- `H_WIDTH` (R27). -/
  hWidth : Word32
  /-- `H_HEIGHT` (R27). -/
  hHeight : Word32
  /-- `H_PADW` (R27). -/
  hPadW : Word32
  /-- `H_PADH` (R27). -/
  hPadH : Word32
  /-- `H_FLAGS` (R28). -/
  hFlags : Byte
  /-- `H_QUALITY` (R28). -/
  hQuality : Byte
  /-- `FAULT` (R29), `none` for code 0. -/
  fault : Option FaultKind
  /-- `REFUSED` (R30), `none` for code 0. -/
  refused : Option Reason
  /-- The layer slots (R31 to R35). -/
  layers : Layers
  /-- `SRC_DATA` (R40). -/
  srcData : List Byte
  /-- `SRC_POS` (R40). -/
  srcPos : Nat
  /-- `SNK_DATA` (R41). -/
  snkData : List Byte
  /-- `SNK_RELEASED` (R41). -/
  snkReleased : Bool
  /-- The content of `BIN` (R42). -/
  binData : List Block
  /-- The position of `BIN` (R42). -/
  binPos : Nat
  /-- `BOUT` (R43). -/
  bout : List Block
  /-- The host's events not yet taken, the next one first (log entry 2). -/
  inbox : List HostEvent
  /-- The responses given, the oldest first (log entry 4). -/
  responses : List Response
  /-- The parameters of `00_scope.md` R6 (log entry 1). -/
  cfg : Config
  deriving DecidableEq, Repr

/-- The machine right after reset (`10_state.md` R39), at the start of the streams (R40 to R43), with no data in the
source and the block source (log entry 5), no host event pending (log entry 2) and the default parameters (log
entry 1). -/
def State.reset : State where
  bwAcc := 0x00
  bwFill := 0
  bwOpen := true
  brCur := 0x00
  brRem := 0
  zsN := .l8
  zsI := 64
  hWidth := 0
  hHeight := 0
  hPadW := 0
  hPadH := 0
  hFlags := 0x00
  hQuality := 0x00
  fault := none
  refused := none
  layers := .empty
  srcData := []
  srcPos := 0
  snkData := []
  snkReleased := false
  binData := []
  binPos := 0
  bout := []
  inbox := []
  responses := []
  cfg := .defaults

/-- The one way the model stops outside the spec's own outcomes. -/
inductive Fault where
  /-- Raised by the tree walks of `HF.TRAV`, `HF.DEC`, `CF.GETLAYER`, `CF.SER` and `CF.DES` when a walk meets an
  index with no node in use, or a child not below its parent. `10_state.md` R34 rules both out, and no run reaches
  such a state (log entry 6). Safe: the model stops where the spec gives no meaning. -/
  | brokenArena
  deriving DecidableEq, Repr

/-- Why a command would have no meaning in the model. -/
inductive Refusal where
  /-- Raised by an arm of `exec` for a command that has no meaning yet. No arm raises it: every command has its
  meaning. Safe. -/
  | notModelled (mnemonic : String)
  deriving DecidableEq, Repr

end Sys2Proof.Machine
end

