-- ==== Sys2Proof/Machine/Ops.lean ====
section
/-!
DEFINITION. The shared operations of the machine: access to layer slots and Symbol tables, the outcome of a
procedure, taking a fault or a refusal and answering a command (`60_exceptions.md` R280, R287), the gate of R288,
reset (`70_reset_and_hazards.md` R310 to R312), the stream primitives (`20_memory.md` R50 to R52, R58) and the
host's command port.
-/

namespace Sys2Proof.Machine

/-! ## Layer slots -/

/-- The slot L. -/
def Layers.get (ls : Layers) : LayerNo → Layer
  | .l1 => ls.l1
  | .l2 => ls.l2
  | .l3 => ls.l3
  | .l4 => ls.l4
  | .l5 => ls.l5
  | .l6 => ls.l6
  | .l7 => ls.l7
  | .l8 => ls.l8

/-- The slots with slot L replaced. -/
def Layers.set (ls : Layers) : LayerNo → Layer → Layers
  | .l1, ly => { ls with l1 := ly }
  | .l2, ly => { ls with l2 := ly }
  | .l3, ly => { ls with l3 := ly }
  | .l4, ly => { ls with l4 := ly }
  | .l5, ly => { ls with l5 := ly }
  | .l6, ly => { ls with l6 := ly }
  | .l7, ly => { ls with l7 := ly }
  | .l8, ly => { ls with l8 := ly }

/-- Every slot changed by one function. -/
def Layers.mapAll (ls : Layers) (f : Layer → Layer) : Layers :=
  ⟨f ls.l1, f ls.l2, f ls.l3, f ls.l4, f ls.l5, f ls.l6, f ls.l7, f ls.l8⟩

/-- The registers of layer slot L. -/
def State.layer (s : State) (L : LayerNo) : Layer := s.layers.get L

/-- The state with the registers of layer slot L replaced. -/
def State.setLayer (s : State) (L : LayerNo) (ly : Layer) : State := { s with layers := s.layers.set L ly }

/-! ## Tables indexed by Symbols -/

/-- The entry of a Symbol, `none` when absent (`10_state.md` R32, R35). -/
def Table.get {α : Type} (t : Table α) (x : Symbol) : Option α :=
  match t with
  | [] => none
  | (y, a) :: rest => if y = x then some a else Table.get rest x

/-- The table with the entry of a Symbol written; the listing stays in ascending Symbol order. -/
def Table.set {α : Type} (t : Table α) (x : Symbol) (a : α) : Table α :=
  match t with
  | [] => [(x, a)]
  | (y, b) :: rest =>
    if x.toNat < y.toNat then (x, a) :: (y, b) :: rest
    else if x = y then (x, a) :: rest
    else (y, b) :: Table.set rest x a

/-- `FREQ[L][s].count`, 0 for an absent entry (`10_state.md` R32). -/
def Layer.count (ly : Layer) (x : Symbol) : Word64 := (Table.get ly.freq x).getD 0

/-- `E(L)`, the number of present entries of `FREQ[L]` (`10_state.md` R32). -/
def Layer.entryCount (ly : Layer) : Nat := ly.freq.length

/-- `NNODES[L]` (`10_state.md` R34). -/
def Layer.nnodes (ly : Layer) : Nat := ly.nodes.length

/-! ## Header flags -/

/-- `H_FLAGS.LAYERS`, bits 3:0 (`10_state.md` R28). -/
def State.layersField (s : State) : Nat := (s.hFlags.extractLsb' 0 4).toNat

/-- `H_FLAGS.HUFF`, bit 6 (`10_state.md` R28). -/
def State.huff (s : State) : Bool := s.hFlags.getLsbD 6

/-- A flags byte with the reserved bit 4 cleared (`44_container.md` R192). -/
def clearReserved (b : Byte) : Byte := b &&& 0xEF

/-- A flags byte with `LAYERS` replaced and the other bits kept (`45_frame_sequencer.md` R237). -/
def withLayersField (b : Byte) (n : Nat) : Byte := b.extractLsb' 4 4 ++ BitVec.ofNat 4 n

/-! ## Codes of faults, refusals and statuses -/

/-- The codes of `60_exceptions.md` R281. -/
def FaultKind.code : FaultKind → Nat
  | .shortFile => 1
  | .badMagic => 2
  | .contract => 3
  | .exhausted => 4

/-- The codes of `60_exceptions.md` R286. -/
def Reason.code : Reason → Nat
  | .illegalCommand => 1
  | .layerIndex => 2
  | .layerCount => 3
  | .writerClosed => 4
  | .noTree => 5
  | .noCode => 6
  | .tableSize => 7
  | .tableOrder => 8
  | .nonHuffman => 9
  | .misaligned => 10
  | .countOverrun => 11
  | .queueUnderflow => 12
  | .blockSourceEnd => 13
  | .capacity => 14
  | .badRegister => 15

/-- The register `FAULT` as a number, 0 for none (`10_state.md` R29). -/
def State.faultCode (s : State) : Nat := (s.fault.map FaultKind.code).getD 0

/-- The register `REFUSED` as a number, 0 for none (`10_state.md` R30). -/
def State.refusedCode (s : State) : Nat := (s.refused.map Reason.code).getD 0

/-- The status byte of a response (`30_encoding.md` R73). -/
def Status.code : Status → Byte
  | .ok => 0x00
  | .scanEnd => 0x01
  | .fault => 0x02
  | .refused => 0x03

/-! ## Answering, and taking a fault or a refusal -/

/-- `OK` with a value (`30_encoding.md` R73). -/
def Response.okValue (v : Nat) : Response := ⟨.ok, BitVec.ofNat 64 v⟩

/-- The response of a fault: its code zero-extended (`60_exceptions.md` R280). -/
def Response.ofFault (k : FaultKind) : Response := ⟨.fault, BitVec.ofNat 64 k.code⟩

/-- The response of a refusal: its reason code zero-extended (`60_exceptions.md` R287). -/
def Response.ofRefusal (r : Reason) : Response := ⟨.refused, BitVec.ofNat 64 r.code⟩

/-- The core gives a response word (`30_encoding.md` R70, R73). -/
def State.answer (s : State) (r : Response) : State := { s with responses := s.responses ++ [r] }

/-- `raise Fault(kind)`: `FAULT` takes the code, the response is given, nothing else changes (`60_exceptions.md` R280). -/
def State.takeFault (s : State) (k : FaultKind) : State :=
  { s with fault := some k, responses := s.responses ++ [.ofFault k] }

/-- `refuse(reason)`: `REFUSED` takes the reason, the response is given, nothing else changes (`60_exceptions.md` R287). -/
def State.takeRefusal (s : State) (r : Reason) : State :=
  { s with refused := some r, responses := s.responses ++ [.ofRefusal r] }

/-- How a procedure ends: with a value and a state, or at a `raise` or `refuse` with the state it had reached and the
event then taken (`60_exceptions.md` R291: no rollback), or at a broken arena (log entry 6). -/
inductive Res (α : Type) where
  | ok (a : α) (s : State)
  | stop (s : State)
  | stuck (f : Fault)

/-- The next statement of a procedure runs only if the one before it ended normally. -/
def Res.andThen {α β : Type} (r : Res α) (f : α → State → Res β) : Res β :=
  match r with
  | .ok a s => f a s
  | .stop s => .stop s
  | .stuck e => .stuck e

/-- `raise Fault(kind)` inside a procedure (`60_exceptions.md` R280). -/
def raiseFault {α : Type} (k : FaultKind) (s : State) : Res α := .stop (s.takeFault k)

/-- `refuse(reason)` inside a procedure (`60_exceptions.md` R287). -/
def refuse {α : Type} (r : Reason) (s : State) : Res α := .stop (s.takeRefusal r)

/-- The end of a command: its response is given if it ended normally (`30_encoding.md` R74). -/
def Res.finish (r : Res Response) : Host.Outcome State Fault Refusal :=
  match r with
  | .ok v s => .next (s.answer v)
  | .stop s => .next s
  | .stuck e => .fault e

/-- A command that ends `OK` with a value. -/
def okWith (v : Nat) (s : State) : Res Response := .ok (.okValue v) s

/-- The pending status and code, if `FAULT` or `REFUSED` is set, `FAULT` looked at first (`30_encoding.md` R74). -/
def State.pending (s : State) : Option Response :=
  match s.fault with
  | some k => some (.ofFault k)
  | none => s.refused.map .ofRefusal

/-- While an event is pending the command is answered with it and nothing executes (`60_exceptions.md` R288). -/
def gated (body : State → Res Response) (s : State) : Host.Outcome State Fault Refusal :=
  match s.pending with
  | some r => .next (s.answer r)
  | none => (body s).finish

/-- Reset (`70_reset_and_hazards.md` R310, R311): every register of `10_state.md` R39 takes its reset value and
`SNK_RELEASED` is cleared; the streams' data and positions, the host ports and the parameters stay. -/
def State.coreReset (s : State) : State :=
  { State.reset with
    srcData := s.srcData, srcPos := s.srcPos, snkData := s.snkData, binData := s.binData, binPos := s.binPos,
    bout := s.bout, inbox := s.inbox, responses := s.responses, cfg := s.cfg }

/-! ## Streams -/

/-- `SrcPull()` (`20_memory.md` R50): the next byte and the state with the source advanced, `none` for `END`, which
changes nothing. -/
def srcPull (s : State) : Option (Byte × State) :=
  match s.srcData[s.srcPos]? with
  | some b => some (b, { s with srcPos := s.srcPos + 1 })
  | none => none

/-- `SinkPut(b)` (`20_memory.md` R51). -/
def sinkPut (b : Byte) (s : State) : State := { s with snkData := s.snkData ++ [b] }

/-- `SinkRelease()` (`20_memory.md` R52). -/
def sinkRelease (s : State) : State := { s with snkReleased := true }

/-- `BlockIn()` (`20_memory.md` R58): `none` for `END`. -/
def blockIn (s : State) : Option (Block × State) :=
  match s.binData[s.binPos]? with
  | some b => some (b, { s with binPos := s.binPos + 1 })
  | none => none

/-- `BlockOut(blk)` (`20_memory.md` R58). -/
def blockOut (b : Block) (s : State) : State := { s with bout := s.bout ++ [b] }

/-! ## Blocks -/

/-- A position (row, column) of a block (`20_memory.md` R58). -/
structure Pos where
  r : Fin 8
  c : Fin 8
  deriving DecidableEq, Repr

/-- The raster index `8 r + c` of a position (log entry 11). -/
def Pos.raster (p : Pos) : Fin 64 := ⟨8 * p.r.val + p.c.val, by omega⟩

/-- `blk[r][c]`. -/
def blockGet (b : Block) (p : Pos) : Symbol := b[p.raster]

/-- `blk[r][c] <- v`. -/
def blockSet (b : Block) (p : Pos) (v : Symbol) : Block := b.set p.raster.val v

/-- A block whose every position holds one value. -/
def blockFill (v : Symbol) : Block := Vector.replicate 64 v

/-! ## The host's command port -/

/-- The host's next event, and the state with it taken (`30_encoding.md` R70). -/
def takeEvent (s : State) : Option (HostEvent × State) :=
  match s.inbox with
  | [] => none
  | e :: rest => some (e, { s with inbox := rest })

/-- The state in which the host's next event is the given command word (log entry 2). -/
def offerCommand (w : Command) (s : State) : State := { s with inbox := .command w :: s.inbox }

/-- A word that matches no row (`60_exceptions.md` R285), after the pending check (R288, R290). -/
def illegalWord (s : State) : Host.Outcome State Fault Refusal := gated (fun s => refuse .illegalCommand s) s

end Sys2Proof.Machine
end

