-- ==== Sys2Proof/Machine/Operands.lean ====
section
/-!
DEFINITION. Operand forms (`30_encoding.md` R81): an operand is the unsigned value of its field, and its range is
checked before the command's own checks (R77).
-/

namespace Sys2Proof.Machine

/-- The number of a layer. -/
def LayerNo.num : LayerNo → Nat
  | .l1 => 1
  | .l2 => 2
  | .l3 => 3
  | .l4 => 4
  | .l5 => 5
  | .l6 => 6
  | .l7 => 7
  | .l8 => 8

/-- The layer of a number, `none` outside 1..8. -/
def LayerNo.fromNat (n : Nat) : Option LayerNo :=
  match n with
  | 1 => some .l1
  | 2 => some .l2
  | 3 => some .l3
  | 4 => some .l4
  | 5 => some .l5
  | 6 => some .l6
  | 7 => some .l7
  | 8 => some .l8
  | _ => none

/-- The layers 1..8 in order. -/
def LayerNo.all : List LayerNo := [.l1, .l2, .l3, .l4, .l5, .l6, .l7, .l8]

/-- The layers 1..n in order, for n <= 8. -/
def LayerNo.upTo (n : Nat) : List LayerNo := LayerNo.all.take n

/-- The layers 2..n in order, for n <= 8. -/
def LayerNo.twoTo (n : Nat) : List LayerNo := (LayerNo.upTo n).drop 1

/-- `a` as a layer index must be 1..8, else `LayerIndex` (`30_encoding.md` R81). -/
def withLayerIndex {α : Type} (a : Byte) (body : LayerNo → State → Res α) (s : State) : Res α :=
  match LayerNo.fromNat a.toNat with
  | some L => body L s
  | none => refuse .layerIndex s

/-- A layer count that must be 1..8, else `LayerCount`: the operand of `ZS.START` and `FS.ENC`
(`30_encoding.md` R81), or `H_FLAGS.LAYERS` where a layout is needed (`45_frame_sequencer.md` R233, R235, R238). -/
def withLayerCount {α : Type} (n : Nat) (body : LayerNo → State → Res α) (s : State) : Res α :=
  match LayerNo.fromNat n with
  | some N => body N s
  | none => refuse .layerCount s

end Sys2Proof.Machine
end

