-- ==== Sys2Proof/Machine/BitStream.lean ====
section
/-! DEFINITION. The bit stream writer and reader (`40_bitstream.md`), and the multi-byte fields (`20_memory.md` R53 to R55). -/

namespace Sys2Proof.Machine

/-! ## Writer -/

/-- `v[i] <- b`. -/
def setBit (v : Byte) (i : Nat) (b : Bool) : Byte :=
  if b then v ||| ((1 : Byte) <<< i) else v &&& ~~~((1 : Byte) <<< i)

/-- The body of the loop of `WriteBits` (R101): one bit into the accumulator, which is emitted when it is full. -/
def putBit (b : Bool) (s : State) : State :=
  let acc := setBit s.bwAcc (7 - s.bwFill.val) b
  if h : s.bwFill.val + 1 < 8 then { s with bwAcc := acc, bwFill := ⟨s.bwFill.val + 1, h⟩ }
  else { sinkPut acc s with bwAcc := 0x00, bwFill := 0 }

/-- The loop of `WriteBits` (R101): bits `len - 1` down to 0 of the value. -/
def putBits (v : Byte) : Nat → State → State
  | 0, s => s
  | len + 1, s => putBits v len (putBit (v.getLsbD len) s)

/-- `WriteBits(value, length)` (R101). -/
def writeBits (v : Byte) (len : Nat) (s : State) : Res Unit :=
  if 8 < len then raiseFault .contract s
  else if s.bwOpen = false then refuse .writerClosed s
  else .ok () (putBits v len s)

/-- The pending bits, zero padded, are emitted, if there are any (R102). -/
def emitPending (s : State) : State :=
  if s.bwFill = 0 then s else { sinkPut s.bwAcc s with bwAcc := 0x00, bwFill := 0 }

/-- `Flush()` (R102). -/
def flush (s : State) : Res Unit :=
  if s.bwOpen = false then refuse .writerClosed s else .ok () (emitPending s)

/-- `Close()` (R103). -/
def closeWriter (s : State) : Res Unit :=
  (flush s).andThen fun _ s => .ok () { sinkRelease s with bwOpen := false }

/-- Whole bytes through the bit writer, in order. -/
def writeBytes : List Byte → State → Res Unit
  | [], s => .ok () s
  | b :: rest, s => (writeBits b 8 s).andThen fun _ s => writeBytes rest s

/-! ## Reader -/

/-- A byte is pulled only when a bit is needed and none is unread (R104); `none` for `END`. -/
def refill (s : State) : Option State :=
  if s.brRem = 0 then (srcPull s).map fun p => { p.2 with brCur := p.1, brRem := 8 } else some s

/-- The body of the loop of `PullBits` (R104): the next unread bit; `none` for `END`. -/
def pullBit (s : State) : Option (Bool × State) :=
  (refill s).map fun s => (s.brCur.getLsbD (s.brRem.val - 1), { s with brRem := ⟨s.brRem.val - 1, by omega⟩ })

/-- The loop of `PullBits` (R104) from a value `v`: `none` for `END`, with the state then reached. -/
def pullBitsFrom : Nat → Byte → State → Option Byte × State
  | 0, v, s => (some v, s)
  | len + 1, v, s =>
    match pullBit s with
    | none => (none, s)
    | some (b, s) => pullBitsFrom len ((v <<< 1) ||| (BitVec.ofBool b).zeroExtend 8) s

/-- `PullBits(length)` (R104). -/
def pullBits (len : Nat) (s : State) : Option Byte × State := pullBitsFrom len 0 s

/-- `ReadBits(length)` (R105). -/
def readBits (len : Nat) (s : State) : Res Byte :=
  if 8 < len then raiseFault .contract s
  else
    match pullBits len s with
    | (some v, s) => .ok v s
    | (none, s) => raiseFault .exhausted s

/-- `SkipByte()` (R106). -/
def skipByte (s : State) : State := { s with brRem := 0 }

/-- Whole bytes through the bit reader, in order. -/
def readBytes : Nat → State → Res (List Byte)
  | 0, s => .ok [] s
  | n + 1, s =>
    (readBits 8 s).andThen fun b s => (readBytes n s).andThen fun bs s => .ok (b :: bs) s

/-! ## Multi-byte fields -/

/-- The n bytes of v, least significant first. -/
def bytesLE (n v : Nat) : List Byte :=
  match n with
  | 0 => []
  | n + 1 => BitVec.ofNat 8 v :: bytesLE n (v / 256)

/-- The number whose bytes, least significant first, are given. -/
def valueLE : List Byte → Nat
  | [] => 0
  | b :: rest => b.toNat + 256 * valueLE rest

/-- The n bytes of v in stream order (`20_memory.md` R53, R54). -/
def fieldBytes (o : ByteOrder) (n v : Nat) : List Byte :=
  match o with
  | .le => bytesLE n v
  | .be => (bytesLE n v).reverse

/-- The value of bytes in stream order (`20_memory.md` R53, R55). -/
def fieldValue (o : ByteOrder) (bs : List Byte) : Nat :=
  match o with
  | .le => valueLE bs
  | .be => valueLE bs.reverse

/-- `PutU(v, n)` (`20_memory.md` R54). -/
def putU (v n : Nat) (s : State) : Res Unit := writeBytes (fieldBytes s.cfg.fieldByteOrder n v) s

/-- `GetU(n)` (`20_memory.md` R55). -/
def getU (n : Nat) (s : State) : Res Nat :=
  (readBytes n s).andThen fun bs s => .ok (fieldValue s.cfg.fieldByteOrder bs) s

/-! ## Commands -/

/-- `BW.WRITE a, b` (R107). -/
def execBwWrite (a b : Byte) (s : State) : Host.Outcome State Fault Refusal :=
  gated (fun s => (writeBits b a.toNat s).andThen fun _ s => okWith 0 s) s

/-- `BW.FLUSH` (R108). -/
def execBwFlush (s : State) : Host.Outcome State Fault Refusal :=
  gated (fun s => (flush s).andThen fun _ s => okWith 0 s) s

/-- `BW.CLOSE` (R109). -/
def execBwClose (s : State) : Host.Outcome State Fault Refusal :=
  gated (fun s => (closeWriter s).andThen fun _ s => okWith 0 s) s

/-- `BR.READ a` (R110). -/
def execBrRead (a : Byte) (s : State) : Host.Outcome State Fault Refusal :=
  gated (fun s => (readBits a.toNat s).andThen fun v s => okWith v.toNat s) s

/-- `BR.BIT` (R111). -/
def execBrBit (s : State) : Host.Outcome State Fault Refusal :=
  gated (fun s => (readBits 1 s).andThen fun v s => okWith v.toNat s) s

/-- `BR.SKIP` (R112). -/
def execBrSkip (s : State) : Host.Outcome State Fault Refusal := gated (fun s => okWith 0 (skipByte s)) s

end Sys2Proof.Machine
end

