-- ==== Sys2Proof/Machine/Flags.lean ====
section
/-!
DEFINITION. What sets and clears the validity bits (`10_state.md` R36). The core has no other flags: no condition
codes and no arithmetic flags.
-/

namespace Sys2Proof.Machine

/-- The frequency table changed: both validity bits are cleared (`10_state.md` R36). -/
def Layer.invalidate (ly : Layer) : Layer := { ly with treeValid := false, codeValid := false }

/-- A new tree: `TREE_VALID` set, `CODE_VALID` cleared (`10_state.md` R36). -/
def Layer.withTree (ly : Layer) (nodes : List Node) (root : Option Nat) : Layer :=
  { ly with nodes := nodes, root := root, treeValid := true, codeValid := false }

/-- A new code table: `CODE_VALID` set (`10_state.md` R36). -/
def Layer.withCode (ly : Layer) (code : Table CodeEntry) : Layer := { ly with code := code, codeValid := true }

/-- The two validity bits as `LS.INFO` reports them, `TREE_VALID + 2 CODE_VALID` (`43_layerstore.md` R180). -/
def Layer.validity (ly : Layer) : Nat := ly.treeValid.toNat + 2 * ly.codeValid.toNat

end Sys2Proof.Machine
end

