-- ==== Sys2Proof/Machine/Huffman.lean ====
section
/-! DEFINITION. The Huffman tree builder, the code table and the decoder (`42_huffman.md`). -/

namespace Sys2Proof.Machine

/-! ## BuildTree (R141 to R145) -/

/-- The order of the leaves: by weight, ties by Symbol, both unsigned (R142). -/
def leafBefore (p q : Symbol × Word64) : Bool :=
  decide (p.2.toNat < q.2.toNat) || (decide (p.2.toNat = q.2.toNat) && decide (p.1.toNat ≤ q.1.toNat))

/-- One leaf inserted into an ordered list. -/
def insertLeaf (p : Symbol × Word64) : List (Symbol × Word64) → List (Symbol × Word64)
  | [] => [p]
  | q :: rest => if leafBefore p q then p :: q :: rest else q :: insertLeaf p rest

/-- The present Symbols with their counts, ordered as R142 says. -/
def orderLeaves (freq : Table Word64) : List (Symbol × Word64) := freq.foldr insertLeaf []

/-- One pass (R143): pairs from the front of the working list, each an arena index with its weight, become internal
nodes numbered from `k` on; an odd last node is carried to the end of the side list. Answers the side list and the
nodes made, in order. -/
def mergePass (k : Nat) : List (Nat × Word64) → List (Nat × Word64) × List Node
  | (x, wx) :: (y, wy) :: rest =>
    let r := mergePass (k + 1) rest
    ((k, wx + wy) :: r.1, .internal x y (wx + wy) :: r.2)
  | [one] => ([one], [])
  | [] => ([], [])

/-- Passes until one node remains (R144, R145), at most `fuel` of them; the next free index is `k`. Answers the last
working list and the nodes made. -/
def mergePasses : Nat → Nat → List (Nat × Word64) → List (Nat × Word64) × List Node
  | 0, _, work => (work, [])
  | fuel + 1, k, work =>
    if work.length ≤ 1 then (work, [])
    else
      let p := mergePass k work
      let r := mergePasses fuel (k + p.2.length) p.1
      (r.1, p.2 ++ r.2)

/-- The arena and the root `BuildTree` makes from a frequency table (R145); every pass shortens a working list of two
or more nodes, so as many passes as leaves suffice. -/
def buildArena (freq : Table Word64) : List Node × Option Nat :=
  let leaves := orderLeaves freq
  let work := leaves.zipIdx.map fun p => (p.2, p.1.2)
  let r := mergePasses leaves.length leaves.length work
  (leaves.map (fun p => .leaf p.1 p.2) ++ r.2, r.1.head?.map (·.1))

/-- `BuildTree(L)` on a slot (R145). -/
def Layer.buildTree (ly : Layer) : Layer := ly.withTree (buildArena ly.freq).1 (buildArena ly.freq).2

/-- `BuildTree(L)` (R145). -/
def buildTree (L : LayerNo) (s : State) : State := s.setLayer L (s.layer L).buildTree

/-! ## Traverse (R148) -/

/-- `Walk` (R148) from node `k`, adding its leaves' codes to a table. A child stands below its parent
(`10_state.md` R34), so `k + 1` levels suffice for a walk from `k`; `none` for a broken arena (log entry 6). -/
def walk (nodes : List Node) : Nat → Nat → Byte → Nat → Table CodeEntry → Option (Table CodeEntry)
  | 0, _, _, _, _ => none
  | fuel + 1, k, bits, len, t =>
    match nodes[k]? with
    | none => none
    | some (.leaf x _) => some (Table.set t x ⟨len, bits⟩)
    | some (.internal x y _) =>
      (walk nodes fuel x (bits <<< 1) (len + 1) t).bind (walk nodes fuel y ((bits <<< 1) ||| 1) (len + 1))

/-- The code table of an arena with a root (R148); an empty tree gives an empty table. -/
def codeTable (nodes : List Node) (root : Option Nat) : Option (Table CodeEntry) :=
  match root with
  | none => some []
  | some k => walk nodes (k + 1) k 0 0 []

/-- `Traverse(L)` (R148). -/
def traverse (L : LayerNo) (s : State) : Res Unit :=
  match codeTable (s.layer L).nodes (s.layer L).root with
  | some t => .ok () (s.setLayer L ((s.layer L).withCode t))
  | none => .stuck .brokenArena

/-! ## DecodeOne and EncodeOne (R149, R155) -/

/-- The descent of `DecodeOne` (R149) from node `k`; the fuel as in `walk`. -/
def descend (nodes : List Node) : Nat → Nat → State → Res Symbol
  | 0, _, _ => .stuck .brokenArena
  | fuel + 1, k, s =>
    match nodes[k]? with
    | none => .stuck .brokenArena
    | some (.leaf x _) => .ok x s
    | some (.internal x y _) =>
      (readBits 1 s).andThen fun b s => descend nodes fuel (if b = 0 then x else y) s

/-- `DecodeOne(L)` (R149). -/
def decodeOne (L : LayerNo) (s : State) : Res Symbol :=
  if (s.layer L).treeValid = false then refuse .noTree s
  else
    match (s.layer L).root with
    | none => refuse .noTree s
    | some k => descend (s.layer L).nodes (k + 1) k s

/-- `EncodeOne(L, s)` (R155); the result is the code length written (R153). -/
def encodeOne (L : LayerNo) (x : Symbol) (s : State) : Res Nat :=
  if (s.layer L).codeValid = false then refuse .noCode s
  else
    match Table.get (s.layer L).code x with
    | none => refuse .noCode s
    | some e => (writeBits e.bits e.len s).andThen fun _ s => .ok e.len s

/-! ## Commands -/

/-- `HF.BUILD a` (R150). -/
def execHfBuild (a : Byte) (s : State) : Host.Outcome State Fault Refusal :=
  gated (withLayerIndex a fun L s => okWith ((buildTree L s).layer L).nnodes (buildTree L s)) s

/-- `HF.TRAV a` (R151). -/
def execHfTrav (a : Byte) (s : State) : Host.Outcome State Fault Refusal :=
  gated (withLayerIndex a fun L s =>
    if (s.layer L).treeValid = false then refuse .noTree s
    else (traverse L s).andThen fun _ s => okWith (s.layer L).code.length s) s

/-- `HF.DEC a` (R152). -/
def execHfDec (a : Byte) (s : State) : Host.Outcome State Fault Refusal :=
  gated (withLayerIndex a fun L s => (decodeOne L s).andThen fun x s => okWith x.toNat s) s

/-- `HF.ENC a, b` (R153). -/
def execHfEnc (a b : Byte) (s : State) : Host.Outcome State Fault Refusal :=
  gated (withLayerIndex a fun L s => (encodeOne L b s).andThen fun n s => okWith n s) s

/-- The value `HF.CODE` reports: bits [7:0], length [11:8], presence [12] (R154). -/
def codeValue (e : Option CodeEntry) : Word64 :=
  match e with
  | none => 0
  | some e => ((1 : BitVec 1) ++ BitVec.ofNat 4 e.len ++ e.bits).zeroExtend 64

/-- `HF.CODE a, b` (R154). -/
def execHfCode (a b : Byte) (s : State) : Host.Outcome State Fault Refusal :=
  gated (withLayerIndex a fun L s =>
    if (s.layer L).codeValid = false then refuse .noCode s
    else .ok ⟨.ok, codeValue (Table.get (s.layer L).code b)⟩ s) s

end Sys2Proof.Machine
end

