-- ==== Sys2Proof/Machine/LayerStore.lean ====
section
/-! DEFINITION. The layer store (`43_layerstore.md`). -/

namespace Sys2Proof.Machine

/-- The longest sequence a layer holds, 2^32 - 1 Symbols (`00_scope.md` R8). -/
def maxSeqLength : Nat := 4294967295

/-- A Symbol appended to a slot and counted (R172). -/
def Layer.pushed (ly : Layer) (x : Symbol) : Layer :=
  { ly with seq := ly.seq ++ [x], freq := Table.set ly.freq x (ly.count x + 1) }.invalidate

/-- `Push(L, s)` (R172). -/
def push (L : LayerNo) (x : Symbol) (s : State) : Res Unit :=
  if (s.layer L).seq.length = maxSeqLength then refuse .capacity s
  else .ok () (s.setLayer L ((s.layer L).pushed x))

/-- `Push(L, .)` of each Symbol in order. -/
def pushAll (L : LayerNo) : List Symbol → State → Res Unit
  | [], s => .ok () s
  | x :: rest, s => (push L x s).andThen fun _ s => pushAll L rest s

/-- `Pop(L)` (R181). -/
def pop (L : LayerNo) (s : State) : Res Symbol :=
  match (s.layer L).seq[(s.layer L).rp]? with
  | none => refuse .queueUnderflow s
  | some v => .ok v (s.setLayer L { s.layer L with rp := (s.layer L).rp + 1 })

/-- Every slot empty (R174). -/
def clearLayers (s : State) : State := { s with layers := .empty }

/-- Every read cursor 0 (R177). -/
def rewindAll (s : State) : State := { s with layers := s.layers.mapAll fun ly => { ly with rp := 0 } }

/-- The value of `LS.INFO` for a selector, `none` above 6 (R180). -/
def Layer.info (ly : Layer) (b : Byte) : Option Nat :=
  match b.toNat with
  | 0 => some ly.seq.length
  | 1 => some ly.rp
  | 2 => some ly.lsLen.toNat
  | 3 => some ly.entryCount
  | 4 => some ly.validity
  | 5 => some ly.nnodes
  | 6 => some (ly.root.getD 0xFFFF)
  | _ => none

/-- `LS.CLEAR` (R174). -/
def execLsClear (s : State) : Host.Outcome State Fault Refusal := gated (fun s => okWith 0 (clearLayers s)) s

/-- `LS.PUSH a, b` (R175). -/
def execLsPush (a b : Byte) (s : State) : Host.Outcome State Fault Refusal :=
  gated (withLayerIndex a fun L s => (push L b s).andThen fun _ s => okWith (s.layer L).seq.length s) s

/-- `LS.POP a` (R176). -/
def execLsPop (a : Byte) (s : State) : Host.Outcome State Fault Refusal :=
  gated (withLayerIndex a fun L s => (pop L s).andThen fun v s => okWith v.toNat s) s

/-- `LS.REWIND` (R177). -/
def execLsRewind (s : State) : Host.Outcome State Fault Refusal := gated (fun s => okWith 0 (rewindAll s)) s

/-- `LS.FREQ a, b` (R178). -/
def execLsFreq (a b : Byte) (s : State) : Host.Outcome State Fault Refusal :=
  gated (withLayerIndex a fun L s => okWith ((s.layer L).count b).toNat s) s

/-- `LS.SETF a, b, d` (R179). -/
def execLsSetf (a b : Byte) (d : Word32) (s : State) : Host.Outcome State Fault Refusal :=
  gated (withLayerIndex a fun L s =>
    okWith 0 (s.setLayer L { s.layer L with freq := Table.set (s.layer L).freq b (d.zeroExtend 64) }.invalidate)) s

/-- `LS.INFO a, b` (R180). -/
def execLsInfo (a b : Byte) (s : State) : Host.Outcome State Fault Refusal :=
  gated (withLayerIndex a fun L s =>
    match (s.layer L).info b with
    | some v => okWith v s
    | none => refuse .badRegister s) s

end Sys2Proof.Machine
end

