-- ==== Sys2Proof/Machine/Container.lean ====
section
/-! DEFINITION. The container format, written and read (`44_container.md`). -/

namespace Sys2Proof.Machine

/-! ## Header -/

/-- The five magic bytes in stream order (R191). -/
def magicBytes (m : Magic) : List Byte := [m.m0, m.m1, m.m2, m.m3, m.m4]

/-- `SHORT_LIMIT` as a number (R197). -/
def shortLimitBytes : ShortLimit → Nat
  | .bytes14 => 14
  | .bytes22 => 22

/-- The 22 header bytes of the header registers (R193, R194). -/
def headerBytes (s : State) : List Byte :=
  magicBytes s.cfg.magic ++ [s.hFlags] ++ fieldBytes s.cfg.fieldByteOrder 4 s.hWidth.toNat ++
    fieldBytes s.cfg.fieldByteOrder 4 s.hHeight.toNat ++ fieldBytes s.cfg.fieldByteOrder 4 s.hPadW.toNat ++
    fieldBytes s.cfg.fieldByteOrder 4 s.hPadH.toNat

/-- `PutHeader()` (R194). -/
def putHeader (s : State) : Res Unit := writeBytes (headerBytes s) s

/-- The source ended after the bytes of `buf` (R195): short file below `SHORT_LIMIT`, else bad magic, else exhausted. -/
def headerEnd (buf : List Byte) (s : State) : Res (List Byte) :=
  if buf.length < shortLimitBytes s.cfg.shortLimit then raiseFault .shortFile s
  else if buf.take 5 = magicBytes s.cfg.magic then raiseFault .exhausted s
  else raiseFault .badMagic s

/-- The pull loop of `GetHeader` (R195): so many bytes more, after those of `buf`. -/
def pullHeader : Nat → List Byte → State → Res (List Byte)
  | 0, buf, s => .ok buf s
  | n + 1, buf, s =>
    match pullBits 8 s with
    | (none, s) => headerEnd buf s
    | (some x, s) => pullHeader n (buf ++ [x]) s

/-- The number in the four bytes of `buf` from offset `o` (R195). -/
def field4 (o : ByteOrder) (buf : List Byte) (at' : Nat) : Word32 :=
  BitVec.ofNat 32 (fieldValue o ((buf.drop at').take 4))

/-- The header registers loaded from 22 header bytes (R195). -/
def loadHeader (buf : List Byte) (s : State) : State :=
  let o := s.cfg.fieldByteOrder
  { s with
    hFlags := clearReserved (buf.getD 5 0), hWidth := field4 o buf 6, hHeight := field4 o buf 10,
    hPadW := field4 o buf 14, hPadH := field4 o buf 18 }

/-- `GetHeader()` (R195): all 22 bytes, then the check, then the registers. -/
def getHeader (s : State) : Res Unit :=
  (pullHeader 22 [] s).andThen fun buf s =>
    if buf.take 5 = magicBytes s.cfg.magic then .ok () (loadHeader buf s) else raiseFault .badMagic s

/-! ## Layer section, written -/

/-- The bits the codes of a sequence take, `none` when an element has no code (R202). -/
def codedBits (code : Table CodeEntry) : List Symbol → Option Nat
  | [] => some 0
  | x :: rest => (Table.get code x).bind fun e => (codedBits code rest).map fun n => e.len + n

/-- The entries of a table on the wire (R199). -/
def tableBytes (o : ByteOrder) (freq : Table Word64) : List Byte :=
  freq.flatMap fun p => p.1 :: fieldBytes o 8 p.2.toNat

/-- `LEN` for `c` coded bytes (R203). -/
def lengthField (cfg : Config) (c : Nat) : Nat := if cfg.lenIncludesCount then c + 4 else c

/-- The bytes of a section before its coded symbols: E, the entries, LEN, M (R198). -/
def sectionHead (cfg : Config) (ly : Layer) (len : Nat) : List Byte :=
  fieldBytes cfg.fieldByteOrder 4 ly.entryCount ++ tableBytes cfg.fieldByteOrder ly.freq ++
    fieldBytes cfg.fieldByteOrder 4 len ++ fieldBytes cfg.fieldByteOrder 4 ly.seq.length

/-- `EncodeOne` of each Symbol in order (R201). -/
def encodeAll (L : LayerNo) : List Symbol → State → Res Unit
  | [], s => .ok () s
  | x :: rest, s => (encodeOne L x s).andThen fun _ s => encodeAll L rest s

/-- `PutLayer(L)` (R202); the result is the number of bytes written (R212). -/
def putLayer (L : LayerNo) (s : State) : Res Nat :=
  if (s.layer L).codeValid = false then refuse .noCode s
  else
    match codedBits (s.layer L).code (s.layer L).seq with
    | none => refuse .noCode s
    | some nbits =>
      let c := (nbits + 7) / 8
      if 4294967295 < lengthField s.cfg c then refuse .capacity s
      else
        let ly := s.layer L
        (writeBytes (sectionHead s.cfg ly (lengthField s.cfg c)) s).andThen fun _ s =>
        (encodeAll L ly.seq s).andThen fun _ s =>
        (flush s).andThen fun _ s => .ok (4 + 9 * ly.entryCount + 8 + c) s

/-! ## Layer section, read -/

/-- The pairs of a table (R204), the previous Symbol given: order checked at each pair as it is read (R205). -/
def readEntries (L : LayerNo) : Nat → Option Symbol → State → Res Unit
  | 0, _, s => .ok () s
  | n + 1, prev, s =>
    (readBits 8 s).andThen fun x s =>
    (getU 8 s).andThen fun f s =>
      if prev.any (fun p => decide (x.toNat ≤ p.toNat)) then refuse .tableOrder s
      else readEntries L n (some x)
        (s.setLayer L { s.layer L with freq := Table.set (s.layer L).freq x (BitVec.ofNat 64 f) })

/-- `DecodeOne`, so many times, each Symbol appended to `SEQ[L]` directly, `FREQ[L]` untouched (R204). -/
def decodeSeq (L : LayerNo) : Nat → State → Res Unit
  | 0, s => .ok () s
  | n + 1, s =>
    (decodeOne L s).andThen fun x s =>
      decodeSeq L n (s.setLayer L { s.layer L with seq := (s.layer L).seq ++ [x] })

/-- The table-reading part of `GetLayer(L)` (R204): the new table, the tree built from it, `LS_LEN[L]`. -/
def readTable (L : LayerNo) (s : State) : Res Unit :=
  (getU 4 s).andThen fun e s =>
    if 256 < e then refuse .tableSize s
    else
      (readEntries L e none (s.setLayer L { s.layer L with freq := [] }.invalidate)).andThen fun _ s =>
      (getU 4 (buildTree L s)).andThen fun len s =>
        .ok () (s.setLayer L { s.layer L with lsLen := BitVec.ofNat 32 len })

/-- `GetLayer(L)` (R204); the result is M (R213). -/
def getLayer (L : LayerNo) (s : State) : Res Nat :=
  (readTable L s).andThen fun _ s =>
  (getU 4 s).andThen fun m s =>
  (decodeSeq L m (s.setLayer L { s.layer L with seq := [], rp := 0 })).andThen fun _ s =>
    .ok m (skipByte s)

/-! ## Alignment guard, Serialize, Deserialize -/

/-- The writer's guard (R207). -/
def whenWriterAligned {α : Type} (body : State → Res α) (s : State) : Res α :=
  if s.bwFill = 0 then body s else refuse .misaligned s

/-- The reader's guard (R207). -/
def whenReaderAligned {α : Type} (body : State → Res α) (s : State) : Res α :=
  if s.brRem = 0 then body s else refuse .misaligned s

/-- The layer loop of `Serialize` (R208). -/
def serializeLayers : List LayerNo → State → Res Unit
  | [], s => .ok () s
  | L :: rest, s =>
    (traverse L (buildTree L s)).andThen fun _ s =>
    (putLayer L s).andThen fun _ s => serializeLayers rest s

/-- `Serialize()` after its alignment guard (R208). -/
def serialize (s : State) : Res Unit :=
  if s.huff = false then refuse .nonHuffman s
  else if 8 < s.layersField then refuse .layerCount s
  else (putHeader s).andThen fun _ s => serializeLayers (LayerNo.upTo s.layersField) s

/-- The layer loop of `Deserialize` (R209). -/
def deserializeLayers : List LayerNo → State → Res Unit
  | [], s => .ok () s
  | L :: rest, s => (getLayer L s).andThen fun _ s => deserializeLayers rest s

/-- `Deserialize()` after its alignment guard (R209). -/
def deserialize (s : State) : Res Unit :=
  (getHeader s).andThen fun _ s =>
    if 8 < s.layersField then refuse .layerCount s
    else if s.huff = false then refuse .nonHuffman s
    else deserializeLayers (LayerNo.upTo s.layersField) (clearLayers s)

/-! ## Commands -/

/-- `CF.PUTHDR` (R210). -/
def execCfPuthdr (s : State) : Host.Outcome State Fault Refusal :=
  gated (whenWriterAligned fun s => (putHeader s).andThen fun _ s => okWith 22 s) s

/-- `CF.GETHDR` (R211). -/
def execCfGethdr (s : State) : Host.Outcome State Fault Refusal :=
  gated (whenReaderAligned fun s => (getHeader s).andThen fun _ s => okWith s.hFlags.toNat s) s

/-- `CF.PUTLAYER a` (R212). -/
def execCfPutlayer (a : Byte) (s : State) : Host.Outcome State Fault Refusal :=
  gated (withLayerIndex a fun L =>
    whenWriterAligned fun s => (putLayer L s).andThen fun n s => okWith n s) s

/-- `CF.GETLAYER a` (R213). -/
def execCfGetlayer (a : Byte) (s : State) : Host.Outcome State Fault Refusal :=
  gated (withLayerIndex a fun L =>
    whenReaderAligned fun s => (getLayer L s).andThen fun m s => okWith m s) s

/-- `CF.SER` (R214). -/
def execCfSer (s : State) : Host.Outcome State Fault Refusal :=
  gated (whenWriterAligned fun s => (serialize s).andThen fun _ s => okWith 0 s) s

/-- `CF.DES` (R215). -/
def execCfDes (s : State) : Host.Outcome State Fault Refusal :=
  gated (whenReaderAligned fun s => (deserialize s).andThen fun _ s => okWith s.layersField s) s

end Sys2Proof.Machine
end

