-- ==== Sys2Proof/Machine/Scanner.lean ====
section
/-! DEFINITION. The diagonal scan, the layer assignment and the scanner commands (`41_scanner.md`). -/

namespace Sys2Proof.Machine

/-- `ZZ[0..63]`, scan index to position (R121), eight a line. -/
def zzList : List Pos :=
  [⟨0, 0⟩, ⟨0, 1⟩, ⟨1, 0⟩, ⟨2, 0⟩, ⟨1, 1⟩, ⟨0, 2⟩, ⟨0, 3⟩, ⟨1, 2⟩] ++
  [⟨2, 1⟩, ⟨3, 0⟩, ⟨4, 0⟩, ⟨3, 1⟩, ⟨2, 2⟩, ⟨1, 3⟩, ⟨0, 4⟩, ⟨0, 5⟩] ++
  [⟨1, 4⟩, ⟨2, 3⟩, ⟨3, 2⟩, ⟨4, 1⟩, ⟨5, 0⟩, ⟨6, 0⟩, ⟨5, 1⟩, ⟨4, 2⟩] ++
  [⟨3, 3⟩, ⟨2, 4⟩, ⟨1, 5⟩, ⟨0, 6⟩, ⟨0, 7⟩, ⟨1, 6⟩, ⟨2, 5⟩, ⟨3, 4⟩] ++
  [⟨4, 3⟩, ⟨5, 2⟩, ⟨6, 1⟩, ⟨7, 0⟩, ⟨7, 1⟩, ⟨6, 2⟩, ⟨5, 3⟩, ⟨4, 4⟩] ++
  [⟨3, 5⟩, ⟨2, 6⟩, ⟨1, 7⟩, ⟨2, 7⟩, ⟨3, 6⟩, ⟨4, 5⟩, ⟨5, 4⟩, ⟨6, 3⟩] ++
  [⟨7, 2⟩, ⟨7, 3⟩, ⟨6, 4⟩, ⟨5, 5⟩, ⟨4, 6⟩, ⟨3, 7⟩, ⟨4, 7⟩, ⟨5, 6⟩] ++
  [⟨6, 5⟩, ⟨7, 4⟩, ⟨7, 5⟩, ⟨6, 6⟩, ⟨5, 7⟩, ⟨6, 7⟩, ⟨7, 6⟩, ⟨7, 7⟩]

/-- The table has 64 entries. -/
theorem zzList_length : zzList.length = 64 := rfl

/-- `Pos(i)` = `ZZ[i]` (R122). -/
def zz (i : Fin 64) : Pos := zzList[i.val]'(by rw [zzList_length]; exact i.isLt)

/-- `Band` of a position, r + c (R122). -/
def Pos.band (p : Pos) : Nat := p.r.val + p.c.val

/-- `LayerOf(i, N)` (R123). -/
def layerOf (i : Fin 64) (N : LayerNo) : Nat := min ((zz i).band + 1) N.num

/-- `Start(L)` (R124). -/
def layerStart (L : Nat) : Nat := L * (L - 1) / 2

/-- `Size(L, N)` (R124). -/
def layerSize (L N : LayerNo) : Nat := if L.num < N.num then L.num else 64 - N.num * (N.num - 1) / 2

/-- `IndexInLayer(i, N)` (R125). -/
def indexInLayer (i : Fin 64) (N : LayerNo) : Nat := i.val - layerStart (layerOf i N)

/-- The positions of layer L in scan order, the scan indices `Start(L)` .. `Start(L) + Size(L, N) - 1` (R124). -/
def layerScan (L N : LayerNo) : List Pos := (zzList.drop (layerStart L.num)).take (layerSize L N)

/-- The value `ZS.NEXT` reports: c [2:0], r [5:3], i [11:6], L [15:12], j [21:16] (R128). -/
def scanValue (i : Fin 64) (N : LayerNo) : Word64 :=
  (BitVec.ofNat 6 (indexInLayer i N) ++ BitVec.ofNat 4 (layerOf i N) ++ BitVec.ofNat 6 i.val ++
    BitVec.ofNat 3 (zz i).r.val ++ BitVec.ofNat 3 (zz i).c.val).zeroExtend 64

/-- `ZS.START a` (R127). -/
def execZsStart (a : Byte) (s : State) : Host.Outcome State Fault Refusal :=
  gated (withLayerCount a.toNat fun N s => okWith 0 { s with zsN := N, zsI := 0 }) s

/-- `ZS.NEXT` (R128): `END` with value 0 when the scan is complete. -/
def execZsNext (s : State) : Host.Outcome State Fault Refusal :=
  gated (fun s =>
    if h : s.zsI.val < 64 then
      .ok ⟨.ok, scanValue ⟨s.zsI.val, h⟩ s.zsN⟩ { s with zsI := ⟨s.zsI.val + 1, by omega⟩ }
    else .ok ⟨.scanEnd, 0⟩ s) s

end Sys2Proof.Machine
end

