-- ==== Sys2Proof/Machine/Frames.lean ====
section
/-! DEFINITION. The count-prefixed frame sequencer (`45_frame_sequencer.md`). -/

namespace Sys2Proof.Machine

/-! ## Encode -/

/-- The count rule (R239, R233): the smallest c such that every value from index c on is `NEUTRAL`. -/
def keepCount (neutral : Symbol) : List Symbol → Nat
  | [] => 0
  | v :: rest =>
    match keepCount neutral rest with
    | 0 => if v = neutral then 0 else 1
    | c + 1 => c + 2

/-- The values of a block at the positions of layer L, in scan order (R230). -/
def layerValues (blk : Block) (L N : LayerNo) : List Symbol := (layerScan L N).map (blockGet blk)

/-- The frame of a layer L >= 2: its count prefix and that many values (R230, R233). -/
def frameOf (neutral : Symbol) (blk : Block) (L N : LayerNo) : List Symbol :=
  let vals := layerValues blk L N
  BitVec.ofNat 8 (keepCount neutral vals) :: vals.take (keepCount neutral vals)

/-- The layer loop of `EncodeBlock` (R233). -/
def pushFrames (blk : Block) (N : LayerNo) : List LayerNo → State → Res Unit
  | [], s => .ok () s
  | L :: rest, s =>
    (pushAll L (frameOf s.cfg.neutral blk L N) s).andThen fun _ s => pushFrames blk N rest s

/-- `EncodeBlock(blk)` (R233). -/
def encodeBlock (blk : Block) (s : State) : Res Unit :=
  withLayerCount s.layersField (fun N s =>
    (push .l1 (blockGet blk (zz 0)) s).andThen fun _ s => pushFrames blk N (LayerNo.twoTo N.num) s) s

/-- One block taken from the block source and encoded (R237, R240). -/
def encodeNext (s : State) : Res Unit :=
  match blockIn s with
  | none => refuse .blockSourceEnd s
  | some (blk, s) => encodeBlock blk s

/-- The block loop of `Encode` (R237). -/
def encodeBlocks : Nat → State → Res Unit
  | 0, s => .ok () s
  | n + 1, s => (encodeNext s).andThen fun _ s => encodeBlocks n s

/-- `Encode(N, B)` with its count checked (R237). -/
def encodeGrid (N : LayerNo) (n : Nat) (s : State) : Res Unit :=
  encodeBlocks n { clearLayers s with hFlags := withLayersField s.hFlags N.num }

/-! ## Reconstruct -/

/-- `MaxLayer(a, N)` (R236). -/
def maxLayer (a : Nat) (N : LayerNo) : Nat := if a = 0 ∨ N.num ≤ a then N.num else a

/-- A popped Symbol at each position in order (R235). -/
def popInto (L : LayerNo) : List Pos → Block → State → Res Block
  | [], blk, s => .ok blk s
  | p :: rest, blk, s => (pop L s).andThen fun v s => popInto L rest (blockSet blk p v) s

/-- The frame of a layer L >= 2 popped into a block (R235, R244). -/
def popFrame (L N : LayerNo) (blk : Block) (s : State) : Res Block :=
  (pop L s).andThen fun c s =>
    if layerSize L N < c.toNat then refuse .countOverrun s
    else popInto L ((layerScan L N).take c.toNat) blk s

/-- The layer loop of `DecodeBlock` (R235). -/
def popFrames (N : LayerNo) : List LayerNo → Block → State → Res Block
  | [], blk, s => .ok blk s
  | L :: rest, blk, s => (popFrame L N blk s).andThen fun blk s => popFrames N rest blk s

/-- `DecodeBlock(a)` (R235); the result is m (R241). -/
def decodeBlock (a : Nat) (s : State) : Res Nat :=
  withLayerCount s.layersField (fun N s =>
    (pop .l1 s).andThen fun v s =>
    (popFrames N (LayerNo.twoTo (maxLayer a N)) (blockSet (blockFill s.cfg.neutral) (zz 0) v) s).andThen fun blk s =>
      .ok (maxLayer a N) (blockOut blk s)) s

/-- The block loop of `Reconstruct` (R238). -/
def decodeBlocks (a : Nat) : Nat → State → Res Unit
  | 0, s => .ok () s
  | n + 1, s => (decodeBlock a s).andThen fun _ s => decodeBlocks a n s

/-- `Reconstruct(a, B)` (R238); the result is `MaxLayer(a, H_FLAGS.LAYERS)` (R243). -/
def reconstruct (a n : Nat) (s : State) : Res Nat :=
  withLayerCount s.layersField (fun N s =>
    (decodeBlocks a n (rewindAll s)).andThen fun _ s => .ok (maxLayer a N) s) s

/-! ## Commands -/

/-- `FS.ENCBLK` (R240). -/
def execFsEncblk (s : State) : Host.Outcome State Fault Refusal :=
  gated (fun s => (encodeNext s).andThen fun _ s => okWith 0 s) s

/-- `FS.DECBLK a` (R241). -/
def execFsDecblk (a : Byte) (s : State) : Host.Outcome State Fault Refusal :=
  gated (fun s => (decodeBlock a.toNat s).andThen fun m s => okWith m s) s

/-- `FS.ENC a, d` (R242). -/
def execFsEnc (a : Byte) (d : Word32) (s : State) : Host.Outcome State Fault Refusal :=
  gated (withLayerCount a.toNat fun N s => (encodeGrid N d.toNat s).andThen fun _ s => okWith d.toNat s) s

/-- `FS.REC a, d` (R243). -/
def execFsRec (a : Byte) (d : Word32) (s : State) : Host.Outcome State Fault Refusal :=
  gated (fun s => (reconstruct a.toNat d.toNat s).andThen fun m s => okWith m s) s

end Sys2Proof.Machine
end

