-- ==== Sys2Proof/Machine/System.lean ====
section
/-! DEFINITION. The system commands (`46_system.md`). -/

namespace Sys2Proof.Machine

/-- `NOP` (R260). -/
def execNop (s : State) : Host.Outcome State Fault Refusal := gated (okWith 0) s

/-- A value for an 8-bit header register: `d` must fit 8 bits, else `BadRegister` (`46_system.md` R261). -/
def withByteValue {α : Type} (d : Word32) (body : Byte → State → Res α) (s : State) : Res α :=
  if d.extractLsb' 8 24 = 0 then body (d.extractLsb' 0 8) s else refuse .badRegister s

/-- The write of `HDR.SET` (R261). -/
def writeHeaderReg (a : Byte) (d : Word32) (s : State) : Res Response :=
  match a.toNat with
  | 0 => okWith 0 { s with hWidth := d }
  | 1 => okWith 0 { s with hHeight := d }
  | 2 => okWith 0 { s with hPadW := d }
  | 3 => okWith 0 { s with hPadH := d }
  | 4 => withByteValue d (fun v s => okWith 0 { s with hFlags := clearReserved v }) s
  | 5 => withByteValue d (fun v s => okWith 0 { s with hQuality := v }) s
  | _ => refuse .badRegister s

/-- `HDR.SET a, d` (R261). -/
def execHdrSet (a : Byte) (d : Word32) (s : State) : Host.Outcome State Fault Refusal := gated (writeHeaderReg a d) s

/-- The read of `HDR.GET` (R262). -/
def readHeaderReg (a : Byte) (s : State) : Res Response :=
  match a.toNat with
  | 0 => okWith s.hWidth.toNat s
  | 1 => okWith s.hHeight.toNat s
  | 2 => okWith s.hPadW.toNat s
  | 3 => okWith s.hPadH.toNat s
  | 4 => okWith s.hFlags.toNat s
  | 5 => okWith s.hQuality.toNat s
  | _ => refuse .badRegister s

/-- `HDR.GET a` (R262). -/
def execHdrGet (a : Byte) (s : State) : Host.Outcome State Fault Refusal := gated (readHeaderReg a) s

/-- The value of `STAT.GET`: `value[3:0]` is `FAULT`, `value[15:8]` is `REFUSED` (R263). -/
def statusValue (s : State) : Word64 :=
  (BitVec.ofNat 8 s.refusedCode ++ (0 : BitVec 4) ++ BitVec.ofNat 4 s.faultCode).zeroExtend 64

/-- `STAT.GET`, in every state (R263). -/
def execStatGet (s : State) : Host.Outcome State Fault Refusal := .next (s.answer ⟨.ok, statusValue s⟩)

/-- `SRESET`, in every state (R264). -/
def execSreset (s : State) : Host.Outcome State Fault Refusal := .next (s.coreReset.answer (.okValue 0))

end Sys2Proof.Machine
end

