-- ==== Sys2Proof/Machine/Dispatch.lean ====
section
/-! DEFINITION. One arm per command (`30_encoding.md` R75): each calls its own meaning. -/

namespace Sys2Proof.Machine

def exec (i : Instr) (s : State) : Host.Outcome State Fault Refusal :=
  match i with
  | .nop => Sys2Proof.Machine.execNop s
  | .hdrSet a d => Sys2Proof.Machine.execHdrSet a d s
  | .hdrGet a => Sys2Proof.Machine.execHdrGet a s
  | .statGet => Sys2Proof.Machine.execStatGet s
  | .sreset => Sys2Proof.Machine.execSreset s
  | .bwWrite a b => Sys2Proof.Machine.execBwWrite a b s
  | .bwFlush => Sys2Proof.Machine.execBwFlush s
  | .bwClose => Sys2Proof.Machine.execBwClose s
  | .brRead a => Sys2Proof.Machine.execBrRead a s
  | .brBit => Sys2Proof.Machine.execBrBit s
  | .brSkip => Sys2Proof.Machine.execBrSkip s
  | .zsStart a => Sys2Proof.Machine.execZsStart a s
  | .zsNext => Sys2Proof.Machine.execZsNext s
  | .hfBuild a => Sys2Proof.Machine.execHfBuild a s
  | .hfTrav a => Sys2Proof.Machine.execHfTrav a s
  | .hfDec a => Sys2Proof.Machine.execHfDec a s
  | .hfEnc a b => Sys2Proof.Machine.execHfEnc a b s
  | .hfCode a b => Sys2Proof.Machine.execHfCode a b s
  | .lsClear => Sys2Proof.Machine.execLsClear s
  | .lsPush a b => Sys2Proof.Machine.execLsPush a b s
  | .lsPop a => Sys2Proof.Machine.execLsPop a s
  | .lsRewind => Sys2Proof.Machine.execLsRewind s
  | .lsFreq a b => Sys2Proof.Machine.execLsFreq a b s
  | .lsSetf a b d => Sys2Proof.Machine.execLsSetf a b d s
  | .lsInfo a b => Sys2Proof.Machine.execLsInfo a b s
  | .cfPuthdr => Sys2Proof.Machine.execCfPuthdr s
  | .cfGethdr => Sys2Proof.Machine.execCfGethdr s
  | .cfPutlayer a => Sys2Proof.Machine.execCfPutlayer a s
  | .cfGetlayer a => Sys2Proof.Machine.execCfGetlayer a s
  | .cfSer => Sys2Proof.Machine.execCfSer s
  | .cfDes => Sys2Proof.Machine.execCfDes s
  | .fsEncblk => Sys2Proof.Machine.execFsEncblk s
  | .fsDecblk a => Sys2Proof.Machine.execFsDecblk a s
  | .fsEnc a d => Sys2Proof.Machine.execFsEnc a d s
  | .fsRec a d => Sys2Proof.Machine.execFsRec a d s

end Sys2Proof.Machine
end

