-- ==== Sys2Proof/Machine/Step.lean ====
section
/-! DEFINITION. One step: the host's next event is taken; a command word is decoded and runs (`30_encoding.md` R70,
R74), the reset input resets (`70_reset_and_hazards.md` R310), with no event pending the core waits (log entry 3). -/

namespace Sys2Proof.Machine

/-- `Step(cmd)` (`30_encoding.md` R74) on a word just taken. The pending check of R74 stands in every meaning but those
of `STAT.GET` and `SRESET`, and in `illegalWord`. -/
def runWord (w : Command) (s : State) : Host.Outcome State Fault Refusal :=
  match decode w with
  | some i => exec i s
  | none => illegalWord s

/-- One step of the machine. -/
def step (s : State) : Host.Outcome State Fault Refusal :=
  match takeEvent s with
  | none => .next s
  | some (.reset, s) => .next s.coreReset
  | some (.command w, s) => runWord w s

/-- The state in which the host's next event is the command word whose bits are `w`, of which `nbits` are given
(log entry 2). -/
def State.withFetchWord (s : State) (nbits w : Nat) : State := offerCommand (BitVec.ofNat 64 (w % 2 ^ nbits)) s

end Sys2Proof.Machine
end

