-- ==== Sys2Proof/WellFormed.lean ====
section
/-!
DEFINITION. Well-formedness of a command: every operand lies in the range its rule states (`30_encoding.md` R81).
Every value a field can hold is encodable, so an ill-formed command still decodes (R77); it is stopped by its own
refusal or fault when it runs (log entry 10). A field's width is held by the operand's type.
-/

namespace Sys2Proof

/-- A bit length that may be transferred, 0..8 (`20_memory.md` R59, `30_encoding.md` R81). -/
def bitLengthOk (a : Byte) : Bool := decide (a.toNat ≤ 8)

/-- A layer slot, or a layer count an operand may give, 1..8 (`30_encoding.md` R81). -/
def layerOk (a : Byte) : Bool := decide (1 ≤ a.toNat) && decide (a.toNat ≤ 8)

/-- A header register index, 0..5 (`30_encoding.md` R81). -/
def headerIndexOk (a : Byte) : Bool := decide (a.toNat ≤ 5)

/-- A value the 8-bit header registers 4 and 5 can take; the 32-bit registers 0 to 3 take every value
(`46_system.md` R261). -/
def headerValueOk (a : Byte) (d : Word32) : Bool := decide (a.toNat < 4) || decide (d.toNat < 256)

/-- A selector of `LS.INFO`, 0..6 (`43_layerstore.md` R180). -/
def selectorOk (b : Byte) : Bool := decide (b.toNat ≤ 6)

/-- Every operand is in the range its rule states (`30_encoding.md` R81). -/
def wellFormed : Instr → Bool
  | .nop => true
  | .hdrSet a d => headerIndexOk a && headerValueOk a d
  | .hdrGet a => headerIndexOk a
  | .statGet => true
  | .sreset => true
  | .bwWrite a _ => bitLengthOk a
  | .bwFlush => true
  | .bwClose => true
  | .brRead a => bitLengthOk a
  | .brBit => true
  | .brSkip => true
  | .zsStart a => layerOk a
  | .zsNext => true
  | .hfBuild a => layerOk a
  | .hfTrav a => layerOk a
  | .hfDec a => layerOk a
  | .hfEnc a _ => layerOk a
  | .hfCode a _ => layerOk a
  | .lsClear => true
  | .lsPush a _ => layerOk a
  | .lsPop a => layerOk a
  | .lsRewind => true
  | .lsFreq a _ => layerOk a
  | .lsSetf a _ _ => layerOk a
  | .lsInfo a b => layerOk a && selectorOk b
  | .cfPuthdr => true
  | .cfGethdr => true
  | .cfPutlayer a => layerOk a
  | .cfGetlayer a => layerOk a
  | .cfSer => true
  | .cfDes => true
  | .fsEncblk => true
  | .fsDecblk _ => true
  | .fsEnc a _ => layerOk a
  | .fsRec _ _ => true

end Sys2Proof
end

