-- ==== Sys2Proof/Safety.lean ====
section
/-!
DEFINITION. The terms statements use: a running core, the bit streams as lists of bits, paths of a tree, the bytes of
a container, the frames of a block, the invariant of `10_state.md` R45, and what counts as a safe step.
-/

namespace Sys2Proof.Machine

/-! ## Running and stopped -/

/-- No fault and no refusal is pending (`30_encoding.md` R74). -/
abbrev Running (s : State) : Prop := s.fault = none ∧ s.refused = none

/-- A list of commands executed one after another, to the end or to the first stop. -/
def execAll : List Instr → State → Host.Outcome State Fault Refusal
  | [], s => .next s
  | i :: rest, s =>
    match exec i s with
    | .next t => execAll rest t
    | .fault e => .fault e
    | .refused e => .refused e

/-- A step that ends in a next state. -/
def SafeStep (s : State) : Prop := ∃ t, step s = .next t

/-! ## Bit streams -/

/-- The `n` low bits of a value, most significant first (`20_memory.md` R56). -/
def lowBits (v : Byte) (n : Nat) : List Bool := (List.range n).map fun i => v.getLsbD (n - 1 - i)

/-- The bits of bytes in stream order, each byte bit 7 first (`20_memory.md` R56). -/
def bytesBits (bs : List Byte) : List Bool := bs.flatMap fun b => lowBits b 8

/-- The number a list of bits is, the first bit most significant. -/
def bitsValue (bs : List Bool) : Nat := bs.foldl (fun n b => 2 * n + b.toNat) 0

/-- The bytes a list of bits fills, bit 7 of each byte first, the last byte padded with zeros. -/
def packBits (bs : List Bool) : List Byte :=
  (List.range ((bs.length + 7) / 8)).map fun k =>
    BitVec.ofNat 8 (bitsValue (((bs ++ List.replicate 7 false).drop (8 * k)).take 8))

/-- Every bit written so far: the sink's bytes, then the pending bits (`10_state.md` R21, R22). -/
def sinkBits (s : State) : List Bool := bytesBits s.snkData ++ (lowBits s.bwAcc 8).take s.bwFill.val

/-- Every bit still to be read: the unread bits of `BR_CUR`, then the bytes not yet pulled (`10_state.md` R25). -/
def sourceBits (s : State) : List Bool := lowBits s.brCur s.brRem.val ++ bytesBits (s.srcData.drop s.srcPos)

/-- The state after an aligned reader has pulled the source's next `k` bytes: `BR_CUR` is the last of them, or stays if
there is none (`10_state.md` R24, `40_bitstream.md` R104). -/
def State.pulled (s : State) (k : Nat) : State :=
  { s with
    brCur := ((s.srcData.drop s.srcPos).take k).getLast?.getD s.brCur
    srcPos := s.srcPos + k }

/-- `BW_ACC[7-BW_FILL:0]` = 0 (`10_state.md` R45). -/
abbrev WriterTidy (s : State) : Prop := ∀ i, i < 8 → i < 8 - s.bwFill.val → s.bwAcc.getLsbD i = false

/-! ## Tables and trees -/

/-- A table is listed in strictly ascending Symbol order (log entry 8). -/
abbrev TableOrdered {α : Type} (t : Table α) : Prop := t.Pairwise fun p q => p.1.toNat < q.1.toNat

/-- The path of bits from node `k` down to a leaf: 0 to child 0, 1 to child 1 (`42_huffman.md` R148). -/
inductive LeafAt (nodes : List Node) : Nat → List Bool → Symbol → Prop where
  | leaf {k : Nat} {x : Symbol} {w : Word64} (h : nodes[k]? = some (.leaf x w)) : LeafAt nodes k [] x
  | zero {k c0 c1 : Nat} {w : Word64} {path : List Bool} {x : Symbol} (h : nodes[k]? = some (.internal c0 c1 w))
      (below : LeafAt nodes c0 path x) : LeafAt nodes k (false :: path) x
  | one {k c0 c1 : Nat} {w : Word64} {path : List Bool} {x : Symbol} (h : nodes[k]? = some (.internal c0 c1 w))
      (below : LeafAt nodes c1 path x) : LeafAt nodes k (true :: path) x

/-- The children of a node stand below it (`10_state.md` R34). -/
abbrev ArenaOrdered (nodes : List Node) : Prop :=
  ∀ k, k < nodes.length → match nodes[k]? with
    | some (.internal c0 c1 _) => c0 < k ∧ c1 < k
    | _ => True

/-- The weight of a node (`10_state.md` R34). -/
def Node.weight : Node → Word64
  | .leaf _ w => w
  | .internal _ _ w => w

/-- The bits of a code table entry, the first bit first (`10_state.md` R35). -/
def entryBits (e : CodeEntry) : List Bool := lowBits e.bits e.len

/-- The code table entry of a path (`42_huffman.md` R148). -/
def pathEntry (path : List Bool) : CodeEntry := ⟨path.length, BitVec.ofNat 8 (bitsValue path)⟩

/-- The code table of the tree of a frequency table (`42_huffman.md` R145, R148). -/
def codeOf (freq : Table Word64) : Table CodeEntry := (codeTable (buildArena freq).1 (buildArena freq).2).getD []

/-- A slot with the tree and the code table of its frequency table, as `CF.SER` leaves it (`44_container.md` R208). -/
def Layer.rebuilt (ly : Layer) : Layer := ly.buildTree.withCode (codeOf ly.freq)

/-! ## Containers -/

/-- The code bits of a sequence (`44_container.md` R201). -/
def codedSymbols (code : Table CodeEntry) (seq : List Symbol) : List Bool :=
  seq.flatMap fun x => ((Table.get code x).map entryBits).getD []

/-- The coded symbols of a slot, padded to a byte boundary (`44_container.md` R201). -/
def codedBytes (ly : Layer) : List Byte := packBits (codedSymbols ly.code ly.seq)

/-- The bytes of the section of a slot, in the order of `44_container.md` R198. -/
def sectionBytes (cfg : Config) (ly : Layer) : List Byte :=
  fieldBytes cfg.fieldByteOrder 4 ly.freq.length ++
  (ly.freq.flatMap fun p => p.1 :: fieldBytes cfg.fieldByteOrder 8 p.2.toNat) ++
  fieldBytes cfg.fieldByteOrder 4
    (if cfg.lenIncludesCount then (codedBytes ly).length + 4 else (codedBytes ly).length) ++
  fieldBytes cfg.fieldByteOrder 4 ly.seq.length ++ codedBytes ly

/-- The bytes of the container a state holds, up to the section of layer `n` (`44_container.md` R190). -/
def containerPrefix (s : State) (n : Nat) : List Byte :=
  headerBytes s ++ (LayerNo.upTo n).flatMap fun L => sectionBytes s.cfg (s.layer L).rebuilt

/-- The bytes of the container a state holds (`44_container.md` R190). -/
def containerBytes (s : State) : List Byte := containerPrefix s s.layersField

/-- The header registers as reading the header written from `h` leaves them (`44_container.md` R195). -/
def State.headerFrom (s h : State) : State :=
  { s with
    hFlags := h.hFlags &&& 0xEF, hWidth := h.hWidth, hHeight := h.hHeight, hPadW := h.hPadW, hPadH := h.hPadH }

/-- The bytes of a section up to its table, of which `e` entries are announced (`44_container.md` R198, R199). -/
def sectionTable (o : ByteOrder) (e : Nat) (t : Table Word64) : List Byte := fieldBytes o 4 e ++ tableBytes o t

/-- The bytes of a section before its coded symbols, for any values of `LEN` and M (`44_container.md` R198). -/
def sectionStart (o : ByteOrder) (t : Table Word64) (len m : Word32) : List Byte :=
  sectionTable o t.length t ++ fieldBytes o 4 len.toNat ++ fieldBytes o 4 m.toNat

/-- A slot whose section can be written: an ordered table that lists every Symbol of the sequence (`44_container.md`
R214), a count and a length field that fit four bytes (`44_container.md` R202). -/
abbrev Writable (cfg : Config) (ly : Layer) : Prop :=
  TableOrdered ly.freq ∧ (∀ x ∈ ly.seq, (Table.get ly.freq x).isSome) ∧ ly.seq.length ≤ maxSeqLength ∧
    (if cfg.lenIncludesCount then (codedBytes ly.rebuilt).length + 4 else (codedBytes ly.rebuilt).length) ≤ 4294967295

/-- A slot whose table `GetLayer` has read and made a tree of, and nothing more (`44_container.md` R204). -/
def Layer.tableRead (ly : Layer) (t : Table Word64) : Layer :=
  { ly with freq := t, nodes := (buildArena t).1, root := (buildArena t).2, treeValid := true, codeValid := false }

/-- A slot as reading the section of `ly` leaves it, from a slot whose code table is `code` (`44_container.md` R204). -/
def readBack (cfg : Config) (ly : Layer) (code : Table CodeEntry) : Layer where
  seq := ly.seq
  rp := 0
  freq := ly.freq
  lsLen := BitVec.ofNat 32
    (if cfg.lenIncludesCount then (codedBytes ly.rebuilt).length + 4 else (codedBytes ly.rebuilt).length)
  nodes := (buildArena ly.freq).1
  root := (buildArena ly.freq).2
  treeValid := true
  code := code
  codeValid := false

/-! ## Frames -/

/-- A slot with Symbols pushed onto it (`43_layerstore.md` R172); with no Symbol it is the slot it was. -/
def Appended (ly ly' : Layer) (xs : List Symbol) : Prop :=
  (xs = [] → ly' = ly) ∧
  (xs ≠ [] → ly' = { ly with seq := ly.seq ++ xs, freq := ly'.freq, treeValid := false, codeValid := false }) ∧
    ∀ y, Table.get ly'.freq y =
      if y ∈ xs then some (ly.count y + BitVec.ofNat 64 (xs.count y)) else Table.get ly.freq y

/-- The frame of a block in layer L of N: the value at (0,0) for layer 1, a counted frame for the others
(`45_frame_sequencer.md` R230). -/
def frame (neutral : Symbol) (blk : Block) (L N : LayerNo) : List Symbol :=
  if L = .l1 then [blockGet blk ⟨0, 0⟩] else frameOf neutral blk L N

/-- The unread part of a slot's sequence (`10_state.md` R31). -/
def Layer.queue (ly : Layer) : List Symbol := ly.seq.drop ly.rp

/-- A queue of layer L begins with a whole frame (`45_frame_sequencer.md` R230). -/
def WholeFrame (L N : LayerNo) (queue : List Symbol) : Prop :=
  if L = .l1 then queue ≠ []
  else ∃ c rest, queue = c :: rest ∧ c.toNat ≤ layerSize L N ∧ c.toNat ≤ rest.length

/-- The Symbols popped for the whole frame at the head of a queue (`45_frame_sequencer.md` R235). -/
def frameTaken (L : LayerNo) (queue : List Symbol) : Nat := if L = .l1 then 1 else 1 + (queue.headD 0).toNat

/-- A queue of layer L that stops reconstruction with a reason after so many pops (`45_frame_sequencer.md` R235, R244). -/
inductive FrameStop (L N : LayerNo) : List Symbol → Reason → Nat → Prop where
  | empty : FrameStop L N [] .queueUnderflow 0
  | cut (c : Symbol) (rest : List Symbol) (hL : L ≠ .l1) (fits : c.toNat ≤ layerSize L N)
      (short : rest.length < c.toNat) : FrameStop L N (c :: rest) .queueUnderflow (1 + rest.length)
  | overrun (c : Symbol) (rest : List Symbol) (hL : L ≠ .l1) (large : layerSize L N < c.toNat) :
      FrameStop L N (c :: rest) .countOverrun 1

/-- The response of a command that ended here: `OK` with a value, or the refusal taken (`30_encoding.md` R73,
`60_exceptions.md` R287). -/
def State.ending (s : State) (v : Word64) : Response :=
  match s.refused with
  | none => ⟨.ok, v⟩
  | some r => ⟨.refused, BitVec.ofNat 64 r.code⟩

/-- A block as reconstruction at deepest layer `m` of a container of `N` layers shows it: the values of the layers up to
`m`, `NEUTRAL` elsewhere; with one layer only position (0,0) is stored (`45_frame_sequencer.md` R234, R235). -/
def revealed (neutral : Symbol) (N : LayerNo) (m : Nat) (blk : Block) : Block :=
  Vector.ofFn fun k : Fin 64 =>
    if min (k.val / 8 + k.val % 8 + 1) N.num ≤ m ∧ (N ≠ .l1 ∨ k = 0) then blk[k] else neutral

/-! ## Reset -/

/-- Every register has the reset value of the table of `10_state.md` R39. -/
abbrev HasResetValues (s : State) : Prop :=
  s.bwAcc = 0x00 ∧ s.bwFill = 0 ∧ s.bwOpen = true ∧ s.brCur = 0x00 ∧ s.brRem = 0 ∧ s.zsN.num = 8 ∧ s.zsI.val = 64 ∧
  s.hWidth = 0 ∧ s.hHeight = 0 ∧ s.hPadW = 0 ∧ s.hPadH = 0 ∧ s.hFlags = 0x00 ∧ s.hQuality = 0x00 ∧
  s.faultCode = 0 ∧ s.refusedCode = 0 ∧
  ∀ L ∈ LayerNo.all, (s.layer L).seq = [] ∧ (s.layer L).rp = 0 ∧ (s.layer L).freq = [] ∧ (s.layer L).lsLen = 0 ∧
    (s.layer L).nnodes = 0 ∧ (s.layer L).root = none ∧ (s.layer L).treeValid = false ∧ (s.layer L).code = [] ∧
    (s.layer L).codeValid = false

/-! ## The invariant -/

/-- What holds of a layer slot between commands (`10_state.md` R34, R35, R45). -/
structure LayerInv (ly : Layer) : Prop where
  cursor : ly.rp ≤ ly.seq.length
  bounded : ly.seq.length ≤ maxSeqLength
  freqOrdered : TableOrdered ly.freq
  codeOrdered : TableOrdered ly.code
  treeOfTable : ly.treeValid = true → (ly.nodes, ly.root) = buildArena ly.freq
  codeNeedsTree : ly.codeValid = true → ly.treeValid = true
  codeOfTree : ly.codeValid = true → codeTable ly.nodes ly.root = some ly.code

/-- The invariant between commands (`10_state.md` R30, R45, `44_container.md` R214). -/
structure Inv (s : State) : Prop where
  layers : ∀ L, LayerInv (s.layer L)
  tidy : WriterTidy s
  reserved : s.hFlags.getLsbD 4 = false
  oneEvent : s.fault = none ∨ s.refused = none
  counted : Running s → ∀ L, ∀ x ∈ (s.layer L).seq, (Table.get (s.layer L).freq x).isSome
  params : s.cfg.inRange = true

end Sys2Proof.Machine
end

