-- ==== Sys2Proof/Certificates/Slice0/Obligations.lean ====
section
/-!
DEFINITION. The statements for the provers. Each says what a rule of spec/ says, over every state that meets the
hypotheses written in it; a next state is written as the state before with the fields that change, so that every other
field is stated to be unchanged.
-/

open Sys2Proof Sys2Proof.Machine

/-! ## Encoding and stepping -/

/-- Decode and encode agree, and each command has one word (`30_encoding.md` R70 to R72, R75, R78). -/
def Obligations.DecodeAnswersExactlyTheEncodedCommand : Prop :=
  ∀ (w : Command) (i : Instr), decode w = some i ↔ encode i = w

/-- A word is a command exactly when it matches a row under its format's mask (`30_encoding.md` R72, R76). -/
def Obligations.DecodeAcceptsExactlyTheMaskMatches : Prop :=
  ∀ w : Command, (decode w).isSome ↔ ∃ r ∈ opcodeTable, w &&& r.format.mask = r.matchWord

/-- The example words of `30_encoding.md` R79, and words it makes illegal (R76). -/
def Obligations.SpecWordsDecode : Prop :=
  decode 0x1003050000000000 = some (.bwWrite 3 0x05) ∧ decode 0x2008000000000000 = some (.zsStart 8) ∧
  decode 0x4501410000000005 = some (.lsSetf 1 0x41 5) ∧ decode 0x620800000000000C = some (.fsEnc 8 12) ∧
  decode 0x5500000000000000 = some .cfDes ∧ decode 0x0500000000000000 = none ∧ decode 0x1100000000000001 = none ∧
  decode 0x1003050100000000 = none ∧ decode 0x1803000000000001 = none

/-- A step takes the host's next event: a word that decodes runs as its command (`30_encoding.md` R70, R74); the word
`withFetchWord` offers is that next event; with no event the core waits (log entries 2 and 3: the model's choice). -/
def Obligations.StepRunsTheDecodedCommand : Prop :=
  (∀ (s : State) (w : Command) (rest : List HostEvent) (i : Instr),
    s.inbox = .command w :: rest → decode w = some i → step s = exec i { s with inbox := rest }) ∧
  (∀ (s : State) (i : Instr), step (s.withFetchWord 64 (encode i).toNat) = exec i s) ∧
  (∀ s : State, s.inbox = [] → step s = .next s)

/-- An illegal word is refused with reason 1; no state but `REFUSED` changes (`60_exceptions.md` R285). -/
def Obligations.IllegalWordIsRefused : Prop :=
  ∀ (s : State) (w : Command) (rest : List HostEvent), Running s → s.inbox = .command w :: rest →
    (∀ r ∈ opcodeTable, w &&& r.format.mask ≠ r.matchWord) →
    step s = .next { s with
      inbox := rest, refused := some .illegalCommand, responses := s.responses ++ [⟨.refused, 1⟩] }

/-- Gating (`60_exceptions.md` R288): while an event is pending the words of `STAT.GET` and `SRESET` run, every other
word, legal or not, is answered with the pending status and code and changes nothing; so both registers keep the first
event, and at most one of them is ever set. -/
def Obligations.StoppedCoreAnswersThePendingEvent : Prop :=
  (∀ (s : State) (w : Command) (rest : List HostEvent), s.inbox = .command w :: rest →
    (w = 0x0300000000000000 → step s = exec .statGet { s with inbox := rest }) ∧
    (w = 0x0400000000000000 → step s = exec .sreset { s with inbox := rest }) ∧
    (w ≠ 0x0300000000000000 → w ≠ 0x0400000000000000 →
      (∀ k, s.fault = some k → step s = .next { s with
        inbox := rest, responses := s.responses ++ [⟨.fault, BitVec.ofNat 64 k.code⟩] }) ∧
      (∀ r, s.fault = none → s.refused = some r → step s = .next { s with
        inbox := rest, responses := s.responses ++ [⟨.refused, BitVec.ofNat 64 r.code⟩] }))) ∧
  ∀ s t : State, s.fault = none ∨ s.refused = none → step s = .next t → t.fault = none ∨ t.refused = none

/-! ## Reset and system commands -/

/-- The reset input, between two commands (`70_reset_and_hazards.md` R310, R311); that it gives no response and takes
its turn among the host's events is the model's reading (log entry 2). -/
def Obligations.ResetInputResets : Prop :=
  ∀ (s : State) (rest : List HostEvent), s.inbox = .reset :: rest →
    ∃ t, step s = .next t ∧ HasResetValues t ∧ t.snkReleased = false ∧ t.srcData = s.srcData ∧ t.srcPos = s.srcPos ∧
      t.snkData = s.snkData ∧ t.binData = s.binData ∧ t.binPos = s.binPos ∧ t.bout = s.bout ∧ t.cfg = s.cfg ∧
      t.inbox = rest ∧ t.responses = s.responses

/-- `SRESET` runs in every state: every register takes its reset value, `SNK_RELEASED` is cleared, the environment's
data stay, the answer is (`OK`, 0) (`46_system.md` R264, `70_reset_and_hazards.md` R311, R312). -/
def Obligations.SresetResets : Prop :=
  ∀ s : State, ∃ t, exec .sreset s = .next t ∧ HasResetValues t ∧ t.snkReleased = false ∧ t.srcData = s.srcData ∧
    t.srcPos = s.srcPos ∧ t.snkData = s.snkData ∧ t.binData = s.binData ∧ t.binPos = s.binPos ∧ t.bout = s.bout ∧
    t.cfg = s.cfg ∧ t.inbox = s.inbox ∧ t.responses = s.responses ++ [⟨.ok, 0⟩]

/-- The registers after reset and after `SRESET`, from every state (`10_state.md` R39). -/
def Obligations.RegistersAfterReset : Prop :=
  HasResetValues State.reset ∧ ∀ s : State, ∃ t, exec .sreset s = .next t ∧ HasResetValues t

/-- `NOP` (`46_system.md` R260): its word, its effect, and the pending status while an event is pending. -/
def Obligations.NopChangesNothing : Prop :=
  decode 0x0000000000000000 = some .nop ∧
  ∀ s : State,
    (Running s → exec .nop s = .next { s with responses := s.responses ++ [⟨.ok, 0⟩] }) ∧
    (∀ k, s.fault = some k → exec .nop s = .next { s with
      responses := s.responses ++ [⟨.fault, BitVec.ofNat 64 k.code⟩] }) ∧
    (∀ r, s.fault = none → s.refused = some r → exec .nop s = .next { s with
      responses := s.responses ++ [⟨.refused, BitVec.ofNat 64 r.code⟩] })

/-- `HDR.SET` (`46_system.md` R261): each register, bit 4 of the flags dropped, and the refusals. -/
def Obligations.HeaderRegistersAreWritten : Prop :=
  ∀ (s : State) (d : Word32), Running s →
    exec (.hdrSet 0 d) s = .next { s with hWidth := d, responses := s.responses ++ [⟨.ok, 0⟩] } ∧
    exec (.hdrSet 1 d) s = .next { s with hHeight := d, responses := s.responses ++ [⟨.ok, 0⟩] } ∧
    exec (.hdrSet 2 d) s = .next { s with hPadW := d, responses := s.responses ++ [⟨.ok, 0⟩] } ∧
    exec (.hdrSet 3 d) s = .next { s with hPadH := d, responses := s.responses ++ [⟨.ok, 0⟩] } ∧
    (d.toNat < 256 → exec (.hdrSet 4 d) s = .next { s with
      hFlags := BitVec.ofNat 8 d.toNat &&& 0xEF, responses := s.responses ++ [⟨.ok, 0⟩] }) ∧
    (d.toNat < 256 → exec (.hdrSet 5 d) s = .next { s with
      hQuality := BitVec.ofNat 8 d.toNat, responses := s.responses ++ [⟨.ok, 0⟩] }) ∧
    (∀ a : Byte, 5 < a.toNat ∨ 3 < a.toNat ∧ 256 ≤ d.toNat → exec (.hdrSet a d) s = .next { s with
      refused := some .badRegister, responses := s.responses ++ [⟨.refused, 15⟩] })

/-- `HDR.GET` (`46_system.md` R262). -/
def Obligations.HeaderRegistersAreRead : Prop :=
  ∀ s : State, Running s →
    exec (.hdrGet 0) s = .next { s with responses := s.responses ++ [⟨.ok, s.hWidth.zeroExtend 64⟩] } ∧
    exec (.hdrGet 1) s = .next { s with responses := s.responses ++ [⟨.ok, s.hHeight.zeroExtend 64⟩] } ∧
    exec (.hdrGet 2) s = .next { s with responses := s.responses ++ [⟨.ok, s.hPadW.zeroExtend 64⟩] } ∧
    exec (.hdrGet 3) s = .next { s with responses := s.responses ++ [⟨.ok, s.hPadH.zeroExtend 64⟩] } ∧
    exec (.hdrGet 4) s = .next { s with responses := s.responses ++ [⟨.ok, s.hFlags.zeroExtend 64⟩] } ∧
    exec (.hdrGet 5) s = .next { s with responses := s.responses ++ [⟨.ok, s.hQuality.zeroExtend 64⟩] } ∧
    (∀ a : Byte, 5 < a.toNat → exec (.hdrGet a) s = .next { s with
      refused := some .badRegister, responses := s.responses ++ [⟨.refused, 15⟩] })

/-- `STAT.GET` runs in every state and reports the two codes (`46_system.md` R263, `60_exceptions.md` R281, R286). -/
def Obligations.StatusIsReported : Prop :=
  (∀ s : State, ∃ v : Word64,
    exec .statGet s = .next { s with responses := s.responses ++ [⟨.ok, v⟩] } ∧
    v.toNat = (s.fault.map FaultKind.code).getD 0 + 256 * (s.refused.map Reason.code).getD 0) ∧
  [FaultKind.shortFile, .badMagic, .contract, .exhausted].map FaultKind.code = [1, 2, 3, 4] ∧
  [Reason.illegalCommand, .layerIndex, .layerCount, .writerClosed, .noTree, .noCode, .tableSize, .tableOrder,
    .nonHuffman, .misaligned, .countOverrun, .queueUnderflow, .blockSourceEnd, .capacity, .badRegister].map
      Reason.code = [1, 2, 3, 4, 5, 6, 7, 8, 9, 10, 11, 12, 13, 14, 15]

/-! ## Bit stream -/

/-- `BW.WRITE` (`40_bitstream.md` R107): over-long lengths fault first, a closed writer refuses, else the bits written
grow by exactly the `a` low bits of `b`. -/
def Obligations.WriteAppendsTheLowBits : Prop :=
  ∀ (s : State) (a b : Byte), Running s →
    (8 < a.toNat → exec (.bwWrite a b) s = .next { s with
      fault := some .contract, responses := s.responses ++ [⟨.fault, 3⟩] }) ∧
    (a.toNat ≤ 8 → s.bwOpen = false → exec (.bwWrite a b) s = .next { s with
      refused := some .writerClosed, responses := s.responses ++ [⟨.refused, 4⟩] }) ∧
    (a.toNat ≤ 8 → s.bwOpen = true → ∃ acc fill snk,
      exec (.bwWrite a b) s = .next { s with
        bwAcc := acc, bwFill := fill, snkData := snk, responses := s.responses ++ [⟨.ok, 0⟩] } ∧
      sinkBits { s with bwAcc := acc, bwFill := fill, snkData := snk } = sinkBits s ++ lowBits b a.toNat ∧
      s.snkData <+: snk ∧
      (WriterTidy s → WriterTidy { s with bwAcc := acc, bwFill := fill, snkData := snk }))

/-- `BW.FLUSH` and `BW.CLOSE` (`40_bitstream.md` R102, R103, R108, R109). -/
def Obligations.FlushAndCloseEmitThePendingByte : Prop :=
  ∀ s : State, Running s →
    (s.bwOpen = false → ∀ i ∈ [Instr.bwFlush, .bwClose], exec i s = .next { s with
      refused := some .writerClosed, responses := s.responses ++ [⟨.refused, 4⟩] }) ∧
    (s.bwOpen = true → s.bwFill = 0 →
      exec .bwFlush s = .next { s with responses := s.responses ++ [⟨.ok, 0⟩] } ∧
      exec .bwClose s = .next { s with
        bwOpen := false, snkReleased := true, responses := s.responses ++ [⟨.ok, 0⟩] }) ∧
    (s.bwOpen = true → s.bwFill ≠ 0 →
      exec .bwFlush s = .next { s with
        snkData := s.snkData ++ [s.bwAcc], bwAcc := 0, bwFill := 0, responses := s.responses ++ [⟨.ok, 0⟩] } ∧
      exec .bwClose s = .next { s with
        snkData := s.snkData ++ [s.bwAcc], bwAcc := 0, bwFill := 0, bwOpen := false, snkReleased := true,
        responses := s.responses ++ [⟨.ok, 0⟩] })

/-- `BR.READ` and `BR.BIT`, its length-1 case (`40_bitstream.md` R104, R105, R110, R111; `60_exceptions.md` R293): an
over-long length faults; the first bits of the source are answered and consumed, a byte pulled only when it is needed;
a source that ends first faults with its bits lost. -/
def Obligations.ReadTakesTheNextBits : Prop :=
  ∀ (s : State) (i : Instr) (n : Nat), Running s → ((∃ a : Byte, i = .brRead a ∧ n = a.toNat) ∨ i = .brBit ∧ n = 1) →
    (8 < n → exec i s = .next { s with fault := some .contract, responses := s.responses ++ [⟨.fault, 3⟩] }) ∧
    (n ≤ 8 → n ≤ (sourceBits s).length → ∃ cur rem,
      exec i s = .next { s with
        brCur := cur, brRem := rem, srcPos := s.srcPos + (n - s.brRem.val + 7) / 8,
        responses := s.responses ++ [⟨.ok, BitVec.ofNat 64 (bitsValue ((sourceBits s).take n))⟩] } ∧
      sourceBits { s with brCur := cur, brRem := rem, srcPos := s.srcPos + (n - s.brRem.val + 7) / 8 } =
        (sourceBits s).drop n) ∧
    (n ≤ 8 → (sourceBits s).length < n →
      exec i s = .next { s with
        brCur := (s.srcData.drop s.srcPos).getLast?.getD s.brCur, brRem := 0,
        srcPos := s.srcPos + (s.srcData.drop s.srcPos).length,
        fault := some .exhausted, responses := s.responses ++ [⟨.fault, 4⟩] })

/-- `BR.SKIP` (`40_bitstream.md` R112): its word and its effect; the source is not touched. -/
def Obligations.SkipDropsTheUnreadBits : Prop :=
  decode 0x1A00000000000000 = some .brSkip ∧
  ∀ s : State, Running s → exec .brSkip s = .next { s with brRem := 0, responses := s.responses ++ [⟨.ok, 0⟩] }

/-- Bit stream fidelity (`40_bitstream.md` R113): what was written, flushed, reads back, and the flush leaves
exactly as many bytes as the bits need, zero padded. -/
def Obligations.WrittenBitsReadBack : Prop :=
  ∀ (ops : List (Byte × Fin 9)) (s : State), Running s → s.bwOpen = true → s.bwFill = 0 → WriterTidy s →
    ∃ t bytes,
      execAll (ops.map (fun p => .bwWrite (BitVec.ofNat 8 p.2.val) p.1) ++ [.bwFlush]) s = .next t ∧
      t.snkData = s.snkData ++ bytes ∧ bytes = packBits (ops.flatMap fun p => lowBits p.1 p.2.val) ∧
      bytes.length = ((ops.map fun p => p.2.val).sum + 7) / 8 ∧
      ∀ (u : State) (rest : List Byte), Running u → u.brRem = 0 → u.srcData.drop u.srcPos = bytes ++ rest →
        ∃ v, execAll (ops.map fun p => .brRead (BitVec.ofNat 8 p.2.val)) u = .next v ∧
          v.responses = u.responses ++ ops.map fun p => ⟨.ok, BitVec.ofNat 64 (p.1.toNat % 2 ^ p.2.val)⟩

/-! ## Scanner -/

/-- `ZS.START` (`41_scanner.md` R127): its words, its effect for a count 1..8, the refusal of every other count. -/
def Obligations.ScanStarts : Prop :=
  ∀ (s : State) (a : Byte), decode ((0x20 : Byte) ++ a ++ (0 : BitVec 48)) = some (.zsStart a) ∧
    (∀ N : LayerNo, Running s → a.toNat = N.num →
      exec (.zsStart a) s = .next { s with zsN := N, zsI := 0, responses := s.responses ++ [⟨.ok, 0⟩] }) ∧
    (Running s → a.toNat = 0 ∨ 8 < a.toNat → exec (.zsStart a) s = .next { s with
      refused := some .layerCount, responses := s.responses ++ [⟨.refused, 3⟩] })

/-- `ZS.NEXT` (`41_scanner.md` R128): the report's fields c, r, i, L, j, and `END` after the last position. -/
def Obligations.ScanReportsEachPosition : Prop :=
  ∀ s : State, Running s →
    (∀ h : s.zsI.val < 64, ∃ v : Word64,
      exec .zsNext s = .next { s with
        zsI := ⟨s.zsI.val + 1, by omega⟩, responses := s.responses ++ [⟨.ok, v⟩] } ∧
      v.toNat = (zz ⟨s.zsI.val, h⟩).c.val + 8 * (zz ⟨s.zsI.val, h⟩).r.val + 64 * s.zsI.val +
        4096 * layerOf ⟨s.zsI.val, h⟩ s.zsN + 65536 * indexInLayer ⟨s.zsI.val, h⟩ s.zsN) ∧
    (s.zsI.val = 64 → exec .zsNext s = .next { s with responses := s.responses ++ [⟨.scanEnd, 0⟩] })

/-- The traversal and the layers (`41_scanner.md` R120, R123, R124): every position once, bands in order, odd bands
descending and even bands ascending; layer L of N is the scan indices `Start(L)` .. `Start(L) + Size(L, N) - 1`. -/
def Obligations.ZigzagOrderAndLayers : Prop :=
  zzList.Nodup ∧ (∀ r c : Fin 8, (⟨r, c⟩ : Pos) ∈ zzList) ∧ zz 0 = ⟨0, 0⟩ ∧
  (∀ i : Fin 63,
    let p := zz i.castSucc
    let q := zz i.succ
    if q.band = p.band then (if p.band % 2 = 1 then q.r.val = p.r.val + 1 else p.r.val = q.r.val + 1)
    else q.band = p.band + 1 ∧ q.r.val = if q.band % 2 = 1 then q.band - 7 else min q.band 7) ∧
  (∀ (L N : LayerNo), L.num ≤ N.num → ∀ i : Fin 64,
    layerOf i N = min ((zz i).r.val + (zz i).c.val + 1) N.num ∧
    (layerOf i N = L.num ↔ layerStart L.num ≤ i.val ∧ i.val < layerStart L.num + layerSize L N) ∧
    (layerOf i N = L.num → indexInLayer i N = i.val - layerStart L.num ∧
      (layerScan L N)[indexInLayer i N]? = some (zz i)) ∧
    layerStart L.num = L.num * (L.num - 1) / 2 ∧
    layerSize L N = if L.num < N.num then L.num else 64 - N.num * (N.num - 1) / 2)

/-- Operand ranges (`30_encoding.md` R81): a layer index outside 1..8 is refused `LayerIndex`, a layer count outside
1..8 `LayerCount`, by every command with such an operand. -/
def Obligations.OutOfRangeLayersAreRefused : Prop :=
  ∀ (s : State) (a b : Byte) (d : Word32), Running s → a.toNat = 0 ∨ 8 < a.toNat →
    (∀ i ∈ [Instr.hfBuild a, .hfTrav a, .hfDec a, .hfEnc a b, .hfCode a b, .lsPush a b, .lsPop a, .lsFreq a b,
        .lsSetf a b d, .lsInfo a b, .cfPutlayer a, .cfGetlayer a],
      exec i s = .next { s with
        refused := some .layerIndex, responses := s.responses ++ [⟨.refused, 2⟩] }) ∧
    (∀ i ∈ [Instr.zsStart a, .fsEnc a d],
      exec i s = .next { s with
        refused := some .layerCount, responses := s.responses ++ [⟨.refused, 3⟩] })

/-! ## Huffman -/

/-- `HF.BUILD` (`42_huffman.md` R150): the slot takes the arena and root built from its table. -/
def Obligations.BuildReplacesTheTree : Prop :=
  ∀ (s : State) (a : Byte) (L : LayerNo), Running s → a.toNat = L.num →
    exec (.hfBuild a) s = .next { s with
      layers := s.layers.set L { s.layers.get L with
        nodes := (buildArena (s.layers.get L).freq).1, root := (buildArena (s.layers.get L).freq).2,
        treeValid := true, codeValid := false },
      responses := s.responses ++ [⟨.ok, BitVec.ofNat 64 (buildArena (s.layers.get L).freq).1.length⟩] }

/-- The tree `BuildTree` makes (`42_huffman.md` R141, R142, R144, R145): its size and root, its leaves ordered by
(weight, Symbol), and its internal nodes above their children with the sum of their weights. -/
def Obligations.TreeOfATable : Prop :=
  ∀ freq : Table Word64, TableOrdered freq →
    let nodes := (buildArena freq).1
    let root := (buildArena freq).2
    (freq.length = 0 → nodes = [] ∧ root = none) ∧
    (1 ≤ freq.length → nodes.length = 2 * freq.length - 1 ∧ root = some (2 * freq.length - 2)) ∧
    (∃ leaves : List (Symbol × Word64), leaves.Perm freq ∧
      leaves.Pairwise (fun p q => p.2.toNat < q.2.toNat ∨ p.2 = q.2 ∧ p.1.toNat < q.1.toNat) ∧
      nodes.take freq.length = leaves.map fun p => .leaf p.1 p.2) ∧
    (∀ k, freq.length ≤ k → k < nodes.length → ∃ c0 c1 x y,
      nodes[k]? = some (.internal c0 c1 (x.weight + y.weight)) ∧ c0 < k ∧ c1 < k ∧
      nodes[c0]? = some x ∧ nodes[c1]? = some y)

/-- One pass of the merge (`42_huffman.md` R143): pairs from the front in order, the earlier node child 0, the sum of
the weights modulo 2^64, an odd last node carried to the end of the side list. -/
def Obligations.PassCombinesPairsInOrder : Prop :=
  ∀ (k : Nat) (work : List (Nat × Word64)),
    (mergePass k work).1.length = (work.length + 1) / 2 ∧ (mergePass k work).2.length = work.length / 2 ∧
    (∀ i x wx y wy, work[2 * i]? = some (x, wx) → work[2 * i + 1]? = some (y, wy) →
      (mergePass k work).1[i]? = some (k + i, wx + wy) ∧
      (mergePass k work).2[i]? = some (.internal x y (wx + wy))) ∧
    (∀ j, work.length = 2 * j + 1 → (mergePass k work).1[j]? = work[2 * j]?)

/-- No leaf is deeper than the number of passes (`42_huffman.md` R147): at most 8 with at most 256 entries, exactly
8 with 256. -/
def Obligations.LeavesAreAsDeepAsThePasses : Prop :=
  ∀ (freq : Table Word64) (root : Nat) (path : List Bool) (x : Symbol), (buildArena freq).2 = some root →
    LeafAt (buildArena freq).1 root path x →
    (∀ p, freq.length ≤ 2 ^ p → path.length ≤ p) ∧ (∀ p, freq.length = 2 ^ p → path.length = p)

/-- `HF.TRAV` (`42_huffman.md` R148, R151): refused without a valid tree; else the code table holds exactly the paths
to the leaves of the tree of the slot's table. -/
def Obligations.TraverseDerivesThePathCodes : Prop :=
  ∀ (s : State) (a : Byte) (L : LayerNo), Running s → a.toNat = L.num →
    ((s.layers.get L).treeValid = false → exec (.hfTrav a) s = .next { s with
      refused := some .noTree, responses := s.responses ++ [⟨.refused, 5⟩] }) ∧
    ((s.layers.get L).treeValid = true → TableOrdered (s.layers.get L).freq →
      ((s.layers.get L).nodes, (s.layers.get L).root) = buildArena (s.layers.get L).freq →
      ∃ code : Table CodeEntry,
        exec (.hfTrav a) s = .next { s with
          layers := s.layers.set L { s.layers.get L with code := code, codeValid := true },
          responses := s.responses ++ [⟨.ok, BitVec.ofNat 64 (s.layers.get L).freq.length⟩] } ∧
        code.map (·.1) = (s.layers.get L).freq.map (·.1) ∧
        ∀ x e, Table.get code x = some e ↔ ∃ root path, (s.layers.get L).root = some root ∧
          LeafAt (s.layers.get L).nodes root path x ∧ e = pathEntry path)

/-- `HF.DEC` (`42_huffman.md` R149, R152): refused without a tree; the path the next bits spell leads to the Symbol
answered and consumes exactly its bits, a byte pulled only when a bit of it is needed (`40_bitstream.md` R104); bits
that end inside a path fault `EXHAUSTED`. -/
def Obligations.DecodeFollowsTheBits : Prop :=
  ∀ (s : State) (a : Byte) (L : LayerNo), Running s → a.toNat = L.num →
    ((s.layers.get L).treeValid = false ∨ (s.layers.get L).root = none → exec (.hfDec a) s = .next { s with
      refused := some .noTree, responses := s.responses ++ [⟨.refused, 5⟩] }) ∧
    (∀ root path x, (s.layers.get L).treeValid = true → (s.layers.get L).root = some root →
      ArenaOrdered (s.layers.get L).nodes → LeafAt (s.layers.get L).nodes root path x →
      (∀ rest, sourceBits s = path ++ rest → ∃ cur rem,
        exec (.hfDec a) s = .next { s with
          brCur := cur, brRem := rem, srcPos := s.srcPos + (path.length - s.brRem.val + 7) / 8,
          responses := s.responses ++ [⟨.ok, x.zeroExtend 64⟩] } ∧
        sourceBits { s with
          brCur := cur, brRem := rem, srcPos := s.srcPos + (path.length - s.brRem.val + 7) / 8 } = rest) ∧
      (sourceBits s <+: path → (sourceBits s).length < path.length →
        exec (.hfDec a) s = .next { s with
          brCur := (s.srcData.drop s.srcPos).getLast?.getD s.brCur, brRem := 0,
          srcPos := s.srcPos + (s.srcData.drop s.srcPos).length,
          fault := some .exhausted, responses := s.responses ++ [⟨.fault, 4⟩] }))

/-- `HF.ENC` (`42_huffman.md` R153, R155): `NoCode`, then `WriterClosed`, else exactly the code's bits are written. -/
def Obligations.EncodeWritesTheCode : Prop :=
  ∀ (s : State) (a b : Byte) (L : LayerNo), Running s → a.toNat = L.num →
    ((s.layers.get L).codeValid = false ∨ Table.get (s.layers.get L).code b = none →
      exec (.hfEnc a b) s = .next { s with
        refused := some .noCode, responses := s.responses ++ [⟨.refused, 6⟩] }) ∧
    (∀ e, (s.layers.get L).codeValid = true → Table.get (s.layers.get L).code b = some e → e.len ≤ 8 →
      (s.bwOpen = false → exec (.hfEnc a b) s = .next { s with
        refused := some .writerClosed, responses := s.responses ++ [⟨.refused, 4⟩] }) ∧
      (s.bwOpen = true → ∃ acc fill snk,
        exec (.hfEnc a b) s = .next { s with
          bwAcc := acc, bwFill := fill, snkData := snk,
          responses := s.responses ++ [⟨.ok, BitVec.ofNat 64 e.len⟩] } ∧
        sinkBits { s with bwAcc := acc, bwFill := fill, snkData := snk } = sinkBits s ++ entryBits e))

/-- `HF.CODE` (`42_huffman.md` R154). -/
def Obligations.CodeTableIsRead : Prop :=
  ∀ (s : State) (a b : Byte) (L : LayerNo), Running s → a.toNat = L.num →
    ((s.layers.get L).codeValid = false → exec (.hfCode a b) s = .next { s with
      refused := some .noCode, responses := s.responses ++ [⟨.refused, 6⟩] }) ∧
    ((s.layers.get L).codeValid = true → Table.get (s.layers.get L).code b = none →
      exec (.hfCode a b) s = .next { s with responses := s.responses ++ [⟨.ok, 0⟩] }) ∧
    (∀ e, (s.layers.get L).codeValid = true → Table.get (s.layers.get L).code b = some e → e.len ≤ 8 →
      exec (.hfCode a b) s = .next { s with
        responses := s.responses ++ [⟨.ok, BitVec.ofNat 64 (e.bits.toNat + 256 * e.len + 4096)⟩] })

/-- Prefix-free coding (`42_huffman.md` R156): exactly the Symbols of the table have codes, no code is a prefix of
another's, decoding a code answers its Symbol and consumes exactly the code, pulling only the bytes it needs
(`40_bitstream.md` R104), and the coded length is the sum of code length times occurrences. -/
def Obligations.HuffmanDecodesWhatItEncodes : Prop :=
  ∀ (freq : Table Word64) (ly : Layer), TableOrdered freq → ly = ({ Layer.empty with freq := freq } : Layer).rebuilt →
    (∀ x, (Table.get ly.code x).isSome ↔ (Table.get freq x).isSome) ∧
    (∀ x y ex ey, Table.get ly.code x = some ex → Table.get ly.code y = some ey →
      entryBits ex <+: entryBits ey → x = y) ∧
    (∀ (s : State) (a : Byte) (L : LayerNo) (x : Symbol) (e : CodeEntry) (rest : List Bool), Running s →
      a.toNat = L.num → (s.layers.get L).treeValid = true → (s.layers.get L).nodes = ly.nodes →
      (s.layers.get L).root = ly.root → Table.get ly.code x = some e → sourceBits s = entryBits e ++ rest →
      ∃ cur rem,
        exec (.hfDec a) s = .next { s with
          brCur := cur, brRem := rem, srcPos := s.srcPos + (e.len - s.brRem.val + 7) / 8,
          responses := s.responses ++ [⟨.ok, x.zeroExtend 64⟩] } ∧
        sourceBits { s with
          brCur := cur, brRem := rem, srcPos := s.srcPos + (e.len - s.brRem.val + 7) / 8 } = rest) ∧
    (∀ seq : List Symbol, (∀ x ∈ seq, (Table.get freq x).isSome) →
      (codedSymbols ly.code seq).length =
        (freq.map fun p => ((Table.get ly.code p.1).map CodeEntry.len).getD 0 * seq.count p.1).sum)

/-- A single-symbol layer (`42_huffman.md` R157): a zero-length code, and a decode that reads nothing. -/
def Obligations.SingleSymbolLayerReadsNothing : Prop :=
  ∀ (s : State) (a : Byte) (L : LayerNo) (x : Symbol) (n : Word64), Running s → a.toNat = L.num →
    (s.layers.get L).treeValid = true → (s.layers.get L).nodes = (buildArena [(x, n)]).1 →
    (s.layers.get L).root = (buildArena [(x, n)]).2 →
    exec (.hfDec a) s = .next { s with responses := s.responses ++ [⟨.ok, x.zeroExtend 64⟩] } ∧
    codeTable (s.layers.get L).nodes (s.layers.get L).root = some [(x, ⟨0, 0⟩)]

/-! ## Layer store -/

/-- `LS.CLEAR` and `LS.REWIND` (`43_layerstore.md` R174, R177). -/
def Obligations.ClearAndRewindTouchEverySlot : Prop :=
  ∀ s : State, Running s →
    (∃ ls, exec .lsClear s = .next { s with layers := ls, responses := s.responses ++ [⟨.ok, 0⟩] } ∧
      ∀ L, ls.get L = ⟨[], 0, [], 0, [], none, false, [], false⟩) ∧
    (∃ ls, exec .lsRewind s = .next { s with layers := ls, responses := s.responses ++ [⟨.ok, 0⟩] } ∧
      ∀ L, ls.get L = { s.layers.get L with rp := 0 })

/-- `LS.PUSH` (`43_layerstore.md` R172, R175): the Symbol joins the sequence and is counted modulo 2^64, both validity
bits are cleared, the other slots stay; a full sequence is refused `Capacity`. -/
def Obligations.PushAppendsAndCounts : Prop :=
  ∀ (s : State) (a x : Byte) (L : LayerNo), Running s → a.toNat = L.num →
    ((s.layers.get L).seq.length = 4294967295 → exec (.lsPush a x) s = .next { s with
      refused := some .capacity, responses := s.responses ++ [⟨.refused, 14⟩] }) ∧
    ((s.layers.get L).seq.length ≠ 4294967295 → ∃ freq,
      exec (.lsPush a x) s = .next { s with
        layers := s.layers.set L { s.layers.get L with
          seq := (s.layers.get L).seq ++ [x], freq := freq, treeValid := false, codeValid := false },
        responses := s.responses ++ [⟨.ok, BitVec.ofNat 64 ((s.layers.get L).seq.length + 1)⟩] } ∧
      ∀ y, Table.get freq y =
        if y = x then some ((Table.get (s.layers.get L).freq x).getD 0 + 1) else Table.get (s.layers.get L).freq y)

/-- `LS.POP` (`43_layerstore.md` R176, R181). -/
def Obligations.PopTakesTheHeadOfTheQueue : Prop :=
  ∀ (s : State) (a : Byte) (L : LayerNo), Running s → a.toNat = L.num →
    ((s.layers.get L).queue = [] → exec (.lsPop a) s = .next { s with
      refused := some .queueUnderflow, responses := s.responses ++ [⟨.refused, 12⟩] }) ∧
    (∀ v rest, (s.layers.get L).queue = v :: rest →
      exec (.lsPop a) s = .next { s with
        layers := s.layers.set L { s.layers.get L with rp := (s.layers.get L).rp + 1 },
        responses := s.responses ++ [⟨.ok, v.zeroExtend 64⟩] })

/-- `LS.SETF` and `LS.FREQ` (`43_layerstore.md` R178, R179). -/
def Obligations.CountsAreSetAndRead : Prop :=
  ∀ (s : State) (a x : Byte) (d : Word32) (L : LayerNo), Running s → a.toNat = L.num →
    (∃ freq, exec (.lsSetf a x d) s = .next { s with
        layers := s.layers.set L { s.layers.get L with freq := freq, treeValid := false, codeValid := false },
        responses := s.responses ++ [⟨.ok, 0⟩] } ∧
      ∀ y, Table.get freq y = if y = x then some (d.zeroExtend 64) else Table.get (s.layers.get L).freq y) ∧
    exec (.lsFreq a x) s = .next { s with
      responses := s.responses ++ [⟨.ok, (Table.get (s.layers.get L).freq x).getD 0⟩] }

/-- `LS.INFO` (`43_layerstore.md` R180). -/
def Obligations.BookkeepingIsReported : Prop :=
  ∀ (s : State) (a : Byte) (L : LayerNo), Running s → a.toNat = L.num →
    (∀ p ∈ [((0 : Byte), (s.layers.get L).seq.length), (1, (s.layers.get L).rp), (2, (s.layers.get L).lsLen.toNat),
        (3, (s.layers.get L).freq.length),
        (4, (if (s.layers.get L).treeValid then 1 else 0) + (if (s.layers.get L).codeValid then 2 else 0)),
        (5, (s.layers.get L).nodes.length), (6, (s.layers.get L).root.getD 0xFFFF)],
      exec (.lsInfo a p.1) s = .next { s with responses := s.responses ++ [⟨.ok, BitVec.ofNat 64 p.2⟩] }) ∧
    (∀ b : Byte, 6 < b.toNat → exec (.lsInfo a b) s = .next { s with
      refused := some .badRegister, responses := s.responses ++ [⟨.refused, 15⟩] })

/-- A slot filled by `LS.CLEAR` and pushes counts the occurrences in its sequence (`43_layerstore.md` R173). -/
def Obligations.PushesCountOccurrences : Prop :=
  ∀ (s : State) (a : Byte) (L : LayerNo) (xs : List Symbol), Running s → a.toNat = L.num → xs.length ≤ 4294967295 →
    ∃ t, execAll (.lsClear :: xs.map fun x => .lsPush a x) s = .next t ∧ (t.layers.get L).seq = xs ∧
      (∀ y, Table.get (t.layers.get L).freq y = if y ∈ xs then some (BitVec.ofNat 64 (xs.count y)) else none) ∧
      ∀ L', L' ≠ L → t.layers.get L' = .empty

/-! ## Container -/

/-- The alignment guard (`44_container.md` R207). -/
def Obligations.MisalignedContainerCommandsAreRefused : Prop :=
  ∀ (s : State) (a : Byte) (L : LayerNo), Running s → a.toNat = L.num →
    (s.bwFill ≠ 0 → ∀ i ∈ [Instr.cfPuthdr, .cfPutlayer a, .cfSer], exec i s = .next { s with
      refused := some .misaligned, responses := s.responses ++ [⟨.refused, 10⟩] }) ∧
    (s.brRem ≠ 0 → ∀ i ∈ [Instr.cfGethdr, .cfGetlayer a, .cfDes], exec i s = .next { s with
      refused := some .misaligned, responses := s.responses ++ [⟨.refused, 10⟩] })

/-- `CF.PUTHDR` (`44_container.md` R193, R194, R210): the 22 bytes magic, flags, width, height, padded width, padded
height. -/
def Obligations.HeaderIsWritten : Prop :=
  ∀ s : State, Running s → s.bwFill = 0 →
    (s.bwOpen = false → exec .cfPuthdr s = .next { s with
      refused := some .writerClosed, responses := s.responses ++ [⟨.refused, 4⟩] }) ∧
    (s.bwOpen = true → ∃ bytes : List Byte,
      exec .cfPuthdr s = .next { s with
        snkData := s.snkData ++ bytes, bwAcc := 0, responses := s.responses ++ [⟨.ok, 22⟩] } ∧
      bytes.length = 22 ∧
      bytes.take 6 = [s.cfg.magic.m0, s.cfg.magic.m1, s.cfg.magic.m2, s.cfg.magic.m3, s.cfg.magic.m4, s.hFlags] ∧
      ∀ p ∈ [(6, s.hWidth), (10, s.hHeight), (14, s.hPadW), (18, s.hPadH)], ∀ k < 4,
        bytes[p.1 + (if s.cfg.fieldByteOrder = .le then k else 3 - k)]? = some (p.2.extractLsb' (8 * k) 8))

/-- `CF.GETHDR`, and the header read of `CF.DES` where it faults (`44_container.md` R195 to R197, R211;
`60_exceptions.md` R282, R283). -/
def Obligations.HeaderIsRead : Prop :=
  ∀ (s : State) (buf : List Byte), Running s → s.brRem = 0 → buf = s.srcData.drop s.srcPos →
    (22 ≤ buf.length → buf.take 5 = magicBytes s.cfg.magic →
      exec .cfGethdr s = .next { s with
        brCur := buf.getD 21 0, srcPos := s.srcPos + 22, hFlags := buf.getD 5 0 &&& 0xEF,
        hWidth := BitVec.ofNat 32 (fieldValue s.cfg.fieldByteOrder ((buf.drop 6).take 4)),
        hHeight := BitVec.ofNat 32 (fieldValue s.cfg.fieldByteOrder ((buf.drop 10).take 4)),
        hPadW := BitVec.ofNat 32 (fieldValue s.cfg.fieldByteOrder ((buf.drop 14).take 4)),
        hPadH := BitVec.ofNat 32 (fieldValue s.cfg.fieldByteOrder ((buf.drop 18).take 4)),
        responses := s.responses ++ [⟨.ok, (buf.getD 5 0 &&& 0xEF).zeroExtend 64⟩] }) ∧
    (∀ i ∈ [Instr.cfGethdr, .cfDes],
      (22 ≤ buf.length → buf.take 5 ≠ magicBytes s.cfg.magic →
        exec i s = .next { s with
          brCur := buf.getD 21 0, srcPos := s.srcPos + 22,
          fault := some .badMagic, responses := s.responses ++ [⟨.fault, 2⟩] }) ∧
      (buf.length < shortLimitBytes s.cfg.shortLimit →
        exec i s = .next { s with
          brCur := buf.getLast?.getD s.brCur, srcPos := s.srcPos + buf.length,
          fault := some .shortFile, responses := s.responses ++ [⟨.fault, 1⟩] }) ∧
      (shortLimitBytes s.cfg.shortLimit ≤ buf.length → buf.length < 22 → ∃ k,
        k = (if buf.take 5 = magicBytes s.cfg.magic then FaultKind.exhausted else FaultKind.badMagic) ∧
        exec i s = .next { s with
          brCur := buf.getLast?.getD s.brCur, srcPos := s.srcPos + buf.length,
          fault := some k, responses := s.responses ++ [⟨.fault, BitVec.ofNat 64 k.code⟩] }))

/-- Header round trip (`44_container.md` R216). -/
def Obligations.HeaderRoundTrip : Prop :=
  ∀ s : State, Running s → s.bwOpen = true → s.bwFill = 0 → s.hFlags.getLsbD 4 = false →
    ∃ t bytes, exec .cfPuthdr s = .next t ∧ t.snkData = s.snkData ++ bytes ∧
      ∀ (u : State) (rest : List Byte), Running u → u.brRem = 0 → u.cfg = s.cfg →
        u.srcData.drop u.srcPos = bytes ++ rest →
        ∃ cur, exec .cfGethdr u = .next { u with
          brCur := cur, srcPos := u.srcPos + 22, hWidth := s.hWidth, hHeight := s.hHeight, hPadW := s.hPadW,
          hPadH := s.hPadH, hFlags := s.hFlags,
          responses := u.responses ++ [⟨.ok, s.hFlags.zeroExtend 64⟩] }

/-- `CF.PUTLAYER` (`44_container.md` R198 to R203, R212): the section's bytes, in order and aligned at the end; the
refusals come before the first byte. -/
def Obligations.LayerSectionIsWritten : Prop :=
  ∀ (s : State) (a : Byte) (L : LayerNo), Running s → a.toNat = L.num → s.bwFill = 0 →
    ((s.layers.get L).codeValid = false → exec (.cfPutlayer a) s = .next { s with
      refused := some .noCode, responses := s.responses ++ [⟨.refused, 6⟩] }) ∧
    ((s.layers.get L).codeValid = true →
      (∀ x ∈ (s.layers.get L).seq, ∃ e, Table.get (s.layers.get L).code x = some e ∧ e.len ≤ 8) →
      (4294967295 < (if s.cfg.lenIncludesCount then (codedBytes (s.layers.get L)).length + 4
          else (codedBytes (s.layers.get L)).length) →
        exec (.cfPutlayer a) s = .next { s with
          refused := some .capacity, responses := s.responses ++ [⟨.refused, 14⟩] }) ∧
      ((if s.cfg.lenIncludesCount then (codedBytes (s.layers.get L)).length + 4
          else (codedBytes (s.layers.get L)).length) ≤ 4294967295 →
        (s.bwOpen = false → exec (.cfPutlayer a) s = .next { s with
          refused := some .writerClosed, responses := s.responses ++ [⟨.refused, 4⟩] }) ∧
        (s.bwOpen = true → exec (.cfPutlayer a) s = .next { s with
          snkData := s.snkData ++ sectionBytes s.cfg (s.layers.get L), bwAcc := 0,
          responses := s.responses ++
            [⟨.ok, BitVec.ofNat 64 (sectionBytes s.cfg (s.layers.get L)).length⟩] })))

/-- `CF.GETLAYER` (`44_container.md` R203 to R206, R213, `60_exceptions.md` R293, R294), the other slots untouched
throughout: on the section of a slot that can be written it restores table, sequence, length field and tree; on the
section of any table and sequence over it, it does so whatever `LEN` and the pad bits hold; and every stop, with what it
leaves of the slot: `TableSize`, `TableOrder`, `NoTree`, and `EXHAUSTED` inside E, an entry, `LEN`, M or the codes. -/
def Obligations.LayerSectionIsRead : Prop :=
  ∀ (s : State) (a : Byte) (L : LayerNo) (o : ByteOrder) (data : List Byte) (old : Layer), Running s →
    a.toNat = L.num → s.brRem = 0 → o = s.cfg.fieldByteOrder → data = s.srcData.drop s.srcPos → old = s.layers.get L →
    (∀ (ly : Layer) (rest : List Byte), Writable s.cfg ly → data = sectionBytes s.cfg ly.rebuilt ++ rest →
      exec (.cfGetlayer a) s = .next { s.pulled (sectionBytes s.cfg ly.rebuilt).length with
        layers := s.layers.set L (readBack s.cfg ly old.code),
        responses := s.responses ++ [⟨.ok, BitVec.ofNat 64 ly.seq.length⟩] }) ∧
    (∀ (t : Table Word64) (seq : List Symbol) (len m : Word32) (coded rest : List Byte), TableOrdered t →
      (∀ x ∈ seq, (Table.get t x).isSome) → seq.length = m.toNat →
      codedSymbols (codeOf t) seq <+: bytesBits coded →
      coded.length = ((codedSymbols (codeOf t) seq).length + 7) / 8 →
      data = sectionStart o t len m ++ coded ++ rest →
      exec (.cfGetlayer a) s = .next { s.pulled (4 + 9 * t.length + 8 + coded.length) with
        layers := s.layers.set L { old.tableRead t with lsLen := len, seq := seq, rp := 0 },
        responses := s.responses ++ [⟨.ok, m.zeroExtend 64⟩] }) ∧
    (∀ (e : Word32) (rest : List Byte), 256 < e.toNat → data = fieldBytes o 4 e.toNat ++ rest →
      exec (.cfGetlayer a) s = .next { s.pulled 4 with
        refused := some .tableSize, responses := s.responses ++ [⟨.refused, 7⟩] }) ∧
    (∀ (e : Nat) (t : Table Word64) (p q : Symbol × Word64) (rest : List Byte), e ≤ 256 → t.length + 2 ≤ e →
      TableOrdered (t ++ [p]) → q.1.toNat ≤ p.1.toNat → data = sectionTable o e (t ++ [p, q]) ++ rest →
      exec (.cfGetlayer a) s = .next { s.pulled (4 + 9 * (t.length + 2)) with
        layers := s.layers.set L { old with freq := t ++ [p], treeValid := false, codeValid := false },
        refused := some .tableOrder, responses := s.responses ++ [⟨.refused, 8⟩] }) ∧
    (∀ (len m : Word32) (rest : List Byte), m ≠ 0 → data = sectionStart o [] len m ++ rest →
      exec (.cfGetlayer a) s = .next { s.pulled 12 with
        layers := s.layers.set L { old with
          freq := [], nodes := [], root := none, treeValid := true, codeValid := false, lsLen := len, seq := [], rp := 0 },
        refused := some .noTree, responses := s.responses ++ [⟨.refused, 5⟩] }) ∧
    (data.length < 4 → exec (.cfGetlayer a) s = .next { s.pulled data.length with
      fault := some .exhausted, responses := s.responses ++ [⟨.fault, 4⟩] }) ∧
    (∀ (e : Nat) (t : Table Word64) (part : List Byte), e ≤ 256 → t.length < e → TableOrdered t → part.length < 9 →
      data = sectionTable o e t ++ part →
      exec (.cfGetlayer a) s = .next { s.pulled data.length with
        layers := s.layers.set L { old with freq := t, treeValid := false, codeValid := false },
        fault := some .exhausted, responses := s.responses ++ [⟨.fault, 4⟩] }) ∧
    (∀ (t : Table Word64) (part : List Byte), TableOrdered t → part.length < 4 →
      data = sectionTable o t.length t ++ part →
      exec (.cfGetlayer a) s = .next { s.pulled data.length with
        layers := s.layers.set L (old.tableRead t),
        fault := some .exhausted, responses := s.responses ++ [⟨.fault, 4⟩] }) ∧
    (∀ (t : Table Word64) (len : Word32) (part : List Byte), TableOrdered t → part.length < 4 →
      data = sectionTable o t.length t ++ fieldBytes o 4 len.toNat ++ part →
      exec (.cfGetlayer a) s = .next { s.pulled data.length with
        layers := s.layers.set L { old.tableRead t with lsLen := len },
        fault := some .exhausted, responses := s.responses ++ [⟨.fault, 4⟩] }) ∧
    (∀ (t : Table Word64) (seq : List Symbol) (x : Symbol) (len m : Word32) (coded : List Byte), TableOrdered t →
      (∀ y ∈ seq ++ [x], (Table.get t y).isSome) → seq.length < m.toNat →
      codedSymbols (codeOf t) seq <+: bytesBits coded → bytesBits coded <+: codedSymbols (codeOf t) (seq ++ [x]) →
      bytesBits coded ≠ codedSymbols (codeOf t) (seq ++ [x]) → data = sectionStart o t len m ++ coded →
      exec (.cfGetlayer a) s = .next { s.pulled data.length with
        layers := s.layers.set L { old.tableRead t with lsLen := len, seq := seq, rp := 0 },
        fault := some .exhausted, responses := s.responses ++ [⟨.fault, 4⟩] })

/-- `CF.SER` (`44_container.md` R208, R214, `60_exceptions.md` R290, R293): the container's bytes; the refusals before
the first byte, a closed writer's before any tree is built; and `Capacity` at a layer whose length field does not fit,
with the header and the earlier layers in the sink and the trees up to the failing layer rebuilt. -/
def Obligations.ContainerIsWritten : Prop :=
  ∀ s : State, Running s → s.bwFill = 0 →
    (s.huff = false → exec .cfSer s = .next { s with
      refused := some .nonHuffman, responses := s.responses ++ [⟨.refused, 9⟩] }) ∧
    (s.huff = true → 8 < s.layersField → exec .cfSer s = .next { s with
      refused := some .layerCount, responses := s.responses ++ [⟨.refused, 3⟩] }) ∧
    (s.huff = true → s.layersField ≤ 8 → s.bwOpen = false → exec .cfSer s = .next { s with
      refused := some .writerClosed, responses := s.responses ++ [⟨.refused, 4⟩] }) ∧
    (s.huff = true → s.layersField ≤ 8 → s.bwOpen = true →
      (∀ L, L.num ≤ s.layersField → Writable s.cfg (s.layers.get L)) →
      ∃ ls, exec .cfSer s = .next { s with
          snkData := s.snkData ++ containerBytes s, bwAcc := 0, layers := ls,
          responses := s.responses ++ [⟨.ok, 0⟩] } ∧
        ∀ L, ls.get L = if L.num ≤ s.layersField then (s.layers.get L).rebuilt else s.layers.get L) ∧
    (∀ L : LayerNo, s.huff = true → s.layersField ≤ 8 → s.bwOpen = true → L.num ≤ s.layersField →
      (∀ K : LayerNo, K.num < L.num → Writable s.cfg (s.layers.get K)) → TableOrdered (s.layers.get L).freq →
      (∀ x ∈ (s.layers.get L).seq, (Table.get (s.layers.get L).freq x).isSome) →
      4294967295 < (if s.cfg.lenIncludesCount then (codedBytes (s.layers.get L).rebuilt).length + 4
        else (codedBytes (s.layers.get L).rebuilt).length) →
      ∃ ls, exec .cfSer s = .next { s with
          snkData := s.snkData ++ containerPrefix s (L.num - 1), bwAcc := 0, layers := ls,
          refused := some .capacity, responses := s.responses ++ [⟨.refused, 14⟩] } ∧
        ∀ K, ls.get K = if K.num ≤ L.num then (s.layers.get K).rebuilt else s.layers.get K)

/-- `CF.DES` on the container any state `h` holds (`44_container.md` R209, R215, `60_exceptions.md` R290, R293): header
registers and slots as they were written, the other slots empty, nothing pulled after the last section; a header with
`LAYERS` above 8, and then one without `HUFF`, refused with the header loaded and the slots as they were; and a stop
inside the section of layer L, which is that of `CF.GETLAYER` L with the earlier layers read and the others empty. -/
def Obligations.ContainerIsRead : Prop :=
  ∀ (s h : State) (rest : List Byte), Running s → s.brRem = 0 → h.cfg = s.cfg →
    (h.huff = true → h.layersField ≤ 8 → (∀ L, L.num ≤ h.layersField → Writable s.cfg (h.layers.get L)) →
      s.srcData.drop s.srcPos = containerBytes h ++ rest →
      ∃ ls, exec .cfDes s = .next { (s.pulled (containerBytes h).length).headerFrom h with
          layers := ls, responses := s.responses ++ [⟨.ok, BitVec.ofNat 64 h.layersField⟩] } ∧
        ∀ L, ls.get L = if L.num ≤ h.layersField then readBack s.cfg (h.layers.get L) [] else .empty) ∧
    (s.srcData.drop s.srcPos = headerBytes h ++ rest →
      (8 < h.layersField → exec .cfDes s = .next { (s.pulled 22).headerFrom h with
        refused := some .layerCount, responses := s.responses ++ [⟨.refused, 3⟩] }) ∧
      (h.layersField ≤ 8 → h.huff = false → exec .cfDes s = .next { (s.pulled 22).headerFrom h with
        refused := some .nonHuffman, responses := s.responses ++ [⟨.refused, 9⟩] })) ∧
    (∀ (L : LayerNo) (ls : Layers) (v : State), h.huff = true → h.layersField ≤ 8 → L.num ≤ h.layersField →
      (∀ K : LayerNo, K.num < L.num → Writable s.cfg (h.layers.get K)) →
      s.srcData.drop s.srcPos = containerPrefix h (L.num - 1) ++ rest →
      (∀ K : LayerNo, ls.get K = if K.num < L.num then readBack s.cfg (h.layers.get K) [] else .empty) →
      exec (.cfGetlayer (BitVec.ofNat 8 L.num)) { (s.pulled (containerPrefix h (L.num - 1)).length).headerFrom h with
        layers := ls } = .next v →
      ¬ Running v → exec .cfDes s = .next v)

/-! ## Frames -/

/-- The count rule (`45_frame_sequencer.md` R230, R233, R239): the values of a frame are the block's values at the
layer's first positions in scan order, and the count is the smallest from which on all values are `NEUTRAL`. -/
def Obligations.FrameFollowsTheCountRule : Prop :=
  ∀ (neutral : Symbol) (blk : Block) (L N : LayerNo), 2 ≤ L.num → L.num ≤ N.num →
    ∃ (c : Nat) (vals : List Symbol), vals.length = layerSize L N ∧
      (∀ i : Fin 64, layerOf i N = L.num → vals[indexInLayer i N]? = some (blockGet blk (zz i))) ∧
      frame neutral blk L N = BitVec.ofNat 8 c :: vals.take c ∧ c ≤ layerSize L N ∧ c < 64 ∧
      (∀ j v, c ≤ j → vals[j]? = some v → v = neutral) ∧ (0 < c → vals[c - 1]? ≠ some neutral)

/-- `FS.ENCBLK` (`45_frame_sequencer.md` R233, R240, `60_exceptions.md` R293): the block is consumed and its frames are
appended; at a layer that the frame overfills it is refused `Capacity`, and every push made before stays. -/
def Obligations.BlockIsEncoded : Prop :=
  ∀ s : State, Running s →
    (s.binData[s.binPos]? = none → exec .fsEncblk s = .next { s with
      refused := some .blockSourceEnd, responses := s.responses ++ [⟨.refused, 13⟩] }) ∧
    (∀ blk, s.binData[s.binPos]? = some blk →
      (s.layersField = 0 ∨ 8 < s.layersField → exec .fsEncblk s = .next { s with
        binPos := s.binPos + 1, refused := some .layerCount, responses := s.responses ++ [⟨.refused, 3⟩] }) ∧
      (∀ N : LayerNo, s.layersField = N.num →
        (∀ L, L.num ≤ N.num →
          (s.layers.get L).seq.length + (frame s.cfg.neutral blk L N).length ≤ 4294967295) →
        ∃ ls, exec .fsEncblk s = .next { s with
            binPos := s.binPos + 1, layers := ls, responses := s.responses ++ [⟨.ok, 0⟩] } ∧
          (∀ L, L.num ≤ N.num → Appended (s.layers.get L) (ls.get L) (frame s.cfg.neutral blk L N)) ∧
          ∀ L, N.num < L.num → ls.get L = s.layers.get L) ∧
      (∀ N L : LayerNo, s.layersField = N.num → L.num ≤ N.num →
        (∀ K : LayerNo, K.num < L.num →
          (s.layers.get K).seq.length + (frame s.cfg.neutral blk K N).length ≤ 4294967295) →
        (s.layers.get L).seq.length ≤ 4294967295 →
        4294967295 < (s.layers.get L).seq.length + (frame s.cfg.neutral blk L N).length →
        ∃ ls, exec .fsEncblk s = .next { s with
            binPos := s.binPos + 1, layers := ls,
            refused := some .capacity, responses := s.responses ++ [⟨.refused, 14⟩] } ∧
          (∀ K : LayerNo, K.num < L.num → Appended (s.layers.get K) (ls.get K) (frame s.cfg.neutral blk K N)) ∧
          Appended (s.layers.get L) (ls.get L)
            ((frame s.cfg.neutral blk L N).take (4294967295 - (s.layers.get L).seq.length)) ∧
          ∀ K : LayerNo, L.num < K.num → ls.get K = s.layers.get K))

/-- `FS.DECBLK` (`45_frame_sequencer.md` R235, R236, R241, R244, `60_exceptions.md` R293): the frames at the heads of
the queues are placed at their layers' positions, `NEUTRAL` elsewhere, and consumed; the first layer whose queue ends
inside its frame stops it with `QueueUnderflow`, one whose count is beyond the layer with `CountOverrun`, no block is
sent and the pops made stay made. -/
def Obligations.BlockIsDecoded : Prop :=
  ∀ (s : State) (a : Byte), Running s →
    (s.layersField = 0 ∨ 8 < s.layersField → exec (.fsDecblk a) s = .next { s with
      refused := some .layerCount, responses := s.responses ++ [⟨.refused, 3⟩] }) ∧
    (∀ (N : LayerNo) (m : Nat), s.layersField = N.num → m = (if a.toNat = 0 ∨ N.num ≤ a.toNat then N.num else a.toNat) →
      (∀ (L : LayerNo) (r : Reason) (n : Nat), L.num ≤ m →
        (∀ K : LayerNo, K.num < L.num → WholeFrame K N (s.layers.get K).queue) →
        FrameStop L N (s.layers.get L).queue r n →
        ∃ ls, exec (.fsDecblk a) s = .next { s with
            layers := ls, refused := some r, responses := s.responses ++ [⟨.refused, BitVec.ofNat 64 r.code⟩] } ∧
          ∀ K : LayerNo, ls.get K = { s.layers.get K with
            rp := (s.layers.get K).rp + (if K.num < L.num then frameTaken K (s.layers.get K).queue
              else if K = L then n else 0) }) ∧
      (∀ (v1 : Symbol) (vals rest : LayerNo → List Symbol), s.layers.l1.queue = v1 :: rest .l1 →
        (∀ L, 2 ≤ L.num → L.num ≤ m → (vals L).length ≤ layerSize L N ∧
          (s.layers.get L).queue = BitVec.ofNat 8 (vals L).length :: (vals L ++ rest L)) →
        ∃ blk ls, exec (.fsDecblk a) s = .next { s with
            layers := ls, bout := s.bout ++ [blk], responses := s.responses ++ [⟨.ok, BitVec.ofNat 64 m⟩] } ∧
          (∀ L, ls.get L = { s.layers.get L with
            rp := (s.layers.get L).rp + (if L = .l1 then 1 else if L.num ≤ m then 1 + (vals L).length else 0) }) ∧
          (∀ i : Fin 64, ∀ L, layerOf i N = L.num → blockGet blk (zz i) =
            if i = 0 then v1
            else if 2 ≤ L.num ∧ L.num ≤ m then ((vals L)[indexInLayer i N]?).getD s.cfg.neutral
            else s.cfg.neutral)))

/-- `FS.ENC` (`45_frame_sequencer.md` R237, R242, `60_exceptions.md` R293): the blocks taken are encoded into cleared
slots with `LAYERS` set; with d of them it completes, with fewer left it is refused `BlockSourceEnd`. It is `FS.ENCBLK` d
times from the cleared slots, so a `Capacity` stop is the one of `FS.ENCBLK`, the earlier blocks' frames kept. -/
def Obligations.GridIsEncoded : Prop :=
  ∀ (s : State) (a : Byte) (d : Word32) (N : LayerNo) (blocks : List Block) (flags : Byte), Running s →
    a.toNat = N.num → blocks = (s.binData.drop s.binPos).take d.toNat →
    flags = BitVec.ofNat 8 (s.hFlags.toNat / 16 * 16 + N.num) →
    ((∀ L, L.num ≤ N.num → (blocks.flatMap fun blk => frame s.cfg.neutral blk L N).length ≤ 4294967295) →
      ∃ ls : Layers,
        (∀ L, L.num ≤ N.num →
          Appended .empty (ls.get L) (blocks.flatMap fun blk => frame s.cfg.neutral blk L N)) ∧
        (∀ L, N.num < L.num → ls.get L = .empty) ∧
        (blocks.length = d.toNat → exec (.fsEnc a d) s = .next { s with
          binPos := s.binPos + d.toNat, hFlags := flags, layers := ls,
          responses := s.responses ++ [⟨.ok, d.zeroExtend 64⟩] }) ∧
        (blocks.length < d.toNat → exec (.fsEnc a d) s = .next { s with
          binPos := s.binPos + blocks.length, hFlags := flags, layers := ls,
          refused := some .blockSourceEnd, responses := s.responses ++ [⟨.refused, 13⟩] })) ∧
    ∃ v, execAll (List.replicate d.toNat .fsEncblk) { s with hFlags := flags, layers := .empty } = .next v ∧
      exec (.fsEnc a d) s = .next { v with responses := s.responses ++ [v.ending (d.zeroExtend 64)] }

/-- `FS.REC` (`45_frame_sequencer.md` R235, R236, R238, R243, R244, `60_exceptions.md` R293): from sequences that begin
with the frames of d blocks, the blocks come out at the depth asked for, whatever the cursors were; where the frames of
fewer blocks are followed by a queue that stops `FS.DECBLK`, it is refused with those blocks sent and the pops made
kept. It is `LS.REWIND` and then `FS.DECBLK` d times, whoever made the frames. -/
def Obligations.GridIsReconstructed : Prop :=
  ∀ (s : State) (a : Byte) (d : Word32), Running s →
    (s.layersField = 0 ∨ 8 < s.layersField → exec (.fsRec a d) s = .next { s with
      refused := some .layerCount, responses := s.responses ++ [⟨.refused, 3⟩] }) ∧
    (∀ (N : LayerNo) (m : Nat), s.layersField = N.num →
      m = (if a.toNat = 0 ∨ N.num ≤ a.toNat then N.num else a.toNat) →
      (∀ (blocks : List Block) (rest : LayerNo → List Symbol),
        (∀ L, L.num ≤ m →
          (s.layers.get L).seq = (blocks.flatMap fun blk => frame s.cfg.neutral blk L N) ++ rest L) →
        (blocks.length = d.toNat → ∃ ls, exec (.fsRec a d) s = .next { s with
            layers := ls, bout := s.bout ++ blocks.map (revealed s.cfg.neutral N m),
            responses := s.responses ++ [⟨.ok, BitVec.ofNat 64 m⟩] } ∧
          ∀ L, ls.get L = { s.layers.get L with
            rp := if L.num ≤ m then (blocks.flatMap fun blk => frame s.cfg.neutral blk L N).length else 0 }) ∧
        (∀ (L : LayerNo) (r : Reason) (n : Nat), blocks.length < d.toNat → L.num ≤ m →
          (∀ K : LayerNo, K.num < L.num → WholeFrame K N (rest K)) → FrameStop L N (rest L) r n →
          ∃ ls, exec (.fsRec a d) s = .next { s with
              layers := ls, bout := s.bout ++ blocks.map (revealed s.cfg.neutral N m),
              refused := some r, responses := s.responses ++ [⟨.refused, BitVec.ofNat 64 r.code⟩] } ∧
            ∀ K : LayerNo, ls.get K = { s.layers.get K with
              rp := if m < K.num then 0
                else (blocks.flatMap fun blk => frame s.cfg.neutral blk K N).length +
                  (if K.num < L.num then frameTaken K (rest K) else if K = L then n else 0) })) ∧
      ∃ ls v, (∀ L, ls.get L = { s.layers.get L with rp := 0 }) ∧
        execAll (List.replicate d.toNat (.fsDecblk a)) { s with layers := ls } = .next v ∧
        exec (.fsRec a d) s = .next { v with responses := s.responses ++ [v.ending (BitVec.ofNat 64 m)] })

/-- Round trip (`45_frame_sequencer.md` R245): encode, serialize, deserialize and reconstruct at full depth give every
grid back, for layer counts 2..8, and for layer count 1 the grids that are `NEUTRAL` outside (0,0). -/
def Obligations.ContainerRoundTrip : Prop :=
  ∀ (s : State) (a : Byte) (d : Word32) (flags : Byte) (N : LayerNo) (blocks : List Block), Running s →
    s.bwOpen = true → s.bwFill = 0 → a.toNat = N.num → s.binPos + d.toNat ≤ s.binData.length →
    blocks = (s.binData.drop s.binPos).take d.toNat → 64 * d.toNat + 4 ≤ 4294967295 →
    flags.toNat % 16 = N.num → flags.getLsbD 6 = true →
    (N ≠ .l1 ∨ ∀ blk ∈ blocks, ∀ p : Pos, p ≠ ⟨0, 0⟩ → blockGet blk p = s.cfg.neutral) →
    ∃ t bytes, execAll [.fsEnc a d, .hdrSet 4 (flags.zeroExtend 32), .cfSer] s = .next t ∧ Running t ∧
      t.snkData = s.snkData ++ bytes ∧
      ∀ (u : State) (rest : List Byte), Running u → u.brRem = 0 → u.cfg = s.cfg →
        u.srcData.drop u.srcPos = bytes ++ rest →
        ∃ v, execAll [.cfDes, .fsRec 0 d] u = .next v ∧ Running v ∧ v.bout = u.bout ++ blocks

/-- Progressive monotonicity (`45_frame_sequencer.md` R246): a deeper reconstruction of the same queues alters no
position of the layers already shown, and the shallower one holds `NEUTRAL` in every other. -/
def Obligations.DeeperReconstructionOnlyAdds : Prop :=
  ∀ (s t1 t2 : State) (a1 a2 : Byte) (N : LayerNo), Running s → s.layersField = N.num →
    maxLayer a1.toNat N ≤ maxLayer a2.toNat N →
    exec (.fsDecblk a1) s = .next t1 → Running t1 → exec (.fsDecblk a2) s = .next t2 → Running t2 →
    ∃ b1 b2, t1.bout = s.bout ++ [b1] ∧ t2.bout = s.bout ++ [b2] ∧ ∀ p : Pos,
      (min (p.band + 1) N.num ≤ maxLayer a1.toNat N → blockGet b2 p = blockGet b1 p) ∧
      (maxLayer a1.toNat N < min (p.band + 1) N.num → blockGet b1 p = s.cfg.neutral)

/-! ## Whole-machine rules -/

/-- The invariant of `10_state.md` R30, R34, R35, R45 and `44_container.md` R214 is kept by every step. -/
def Obligations.StepKeepsTheInvariant : Prop := ∀ s t : State, Inv s → step s = .next t → Inv t

/-- The invariant holds after reset. -/
def Obligations.ResetMeetsTheInvariant : Prop := Inv State.reset

/-- Every step from a state that meets the invariant ends in a next state (`70_reset_and_hazards.md` R331): the model's
one fault is out of reach. -/
def Obligations.StepsAreSafeUnderTheInvariant : Prop := ∀ s : State, Inv s → SafeStep s

/-- At every step, the reset input's too, the sink, the block sink and the responses are only appended to, the sources'
contents and the parameters never change, a position never goes back (`10_state.md` R40 to R43,
`70_reset_and_hazards.md` R314); a command word gets exactly one response (`30_encoding.md` R70). That a step takes the
host's next event is log entry 2, that no reset clears the list of responses log entry 4: the model's choices. -/
def Obligations.StreamsOnlyMoveForward : Prop :=
  ∀ s t : State, step s = .next t →
    (∀ w rest, s.inbox = .command w :: rest → t.inbox = rest ∧ ∃ r, t.responses = s.responses ++ [r]) ∧
    s.responses <+: t.responses ∧ s.snkData <+: t.snkData ∧ s.bout <+: t.bout ∧ t.srcData = s.srcData ∧
    t.binData = s.binData ∧ s.srcPos ≤ t.srcPos ∧ s.binPos ≤ t.binPos ∧ t.cfg = s.cfg

/-- Reconstruction and pops write no register of a slot but its cursor, however they end (`45_frame_sequencer.md` R243,
`43_layerstore.md` R181, `60_exceptions.md` R301). -/
def Obligations.ReconstructionOnlyMovesCursors : Prop :=
  ∀ (s t : State) (a : Byte) (d : Word32) (i : Instr), i ∈ [Instr.fsDecblk a, .fsRec a d, .lsPop a, .lsRewind] →
    exec i s = .next t →
    ∃ ls bout fault refused responses,
      t = { s with layers := ls, bout := bout, fault := fault, refused := refused, responses := responses } ∧
      ∀ L, ls.get L = { s.layers.get L with rp := (ls.get L).rp }

/-- A pending event stays until reset or `SRESET` (`10_state.md` R29, R30, `60_exceptions.md` R288). -/
def Obligations.EventsAreSticky : Prop :=
  ∀ s t : State, step s = .next t → ¬ Running s →
    (t.fault = s.fault ∧ t.refused = s.refused) ∨
    (Running t ∧ ∃ rest, s.inbox = .reset :: rest ∨ s.inbox = .command 0x0400000000000000 :: rest)

/-- Reader and writer share no state (`70_reset_and_hazards.md` R325): only reading commands move the reader and the
source, only writing commands the writer and the sink, only `SRESET` both. -/
def Obligations.ReaderAndWriterAreIndependent : Prop :=
  ∀ (s t : State) (i : Instr), exec i s = .next t → i ≠ .sreset →
    ((∀ a, i ∉ [Instr.brRead a, .brBit, .brSkip, .hfDec a, .cfGethdr, .cfGetlayer a, .cfDes]) →
      t.brCur = s.brCur ∧ t.brRem = s.brRem ∧ t.srcPos = s.srcPos) ∧
    ((∀ a b, i ∉ [Instr.bwWrite a b, .bwFlush, .bwClose, .hfEnc a b, .cfPuthdr, .cfPutlayer a, .cfSer]) →
      t.bwAcc = s.bwAcc ∧ t.bwFill = s.bwFill ∧ t.bwOpen = s.bwOpen ∧ t.snkData = s.snkData ∧
      t.snkReleased = s.snkReleased)
end

