-- ==== Sys2Proof/Laws/State.lean ====
section
/-!
SUPPORT. Each named update of the state, field by field, so that no proof unfolds a record update.
-/

namespace Sys2Proof.Machine

/-! ## `State.answer` -/

@[simp] theorem State.answer_bwAcc (s : State) (r : Response) : (s.answer r).bwAcc = s.bwAcc := rfl
@[simp] theorem State.answer_bwFill (s : State) (r : Response) : (s.answer r).bwFill = s.bwFill := rfl
@[simp] theorem State.answer_bwOpen (s : State) (r : Response) : (s.answer r).bwOpen = s.bwOpen := rfl
@[simp] theorem State.answer_brCur (s : State) (r : Response) : (s.answer r).brCur = s.brCur := rfl
@[simp] theorem State.answer_brRem (s : State) (r : Response) : (s.answer r).brRem = s.brRem := rfl
@[simp] theorem State.answer_zsN (s : State) (r : Response) : (s.answer r).zsN = s.zsN := rfl
@[simp] theorem State.answer_zsI (s : State) (r : Response) : (s.answer r).zsI = s.zsI := rfl
@[simp] theorem State.answer_hWidth (s : State) (r : Response) : (s.answer r).hWidth = s.hWidth := rfl
@[simp] theorem State.answer_hHeight (s : State) (r : Response) : (s.answer r).hHeight = s.hHeight := rfl
@[simp] theorem State.answer_hPadW (s : State) (r : Response) : (s.answer r).hPadW = s.hPadW := rfl
@[simp] theorem State.answer_hPadH (s : State) (r : Response) : (s.answer r).hPadH = s.hPadH := rfl
@[simp] theorem State.answer_hFlags (s : State) (r : Response) : (s.answer r).hFlags = s.hFlags := rfl
@[simp] theorem State.answer_hQuality (s : State) (r : Response) : (s.answer r).hQuality = s.hQuality := rfl
@[simp] theorem State.answer_fault (s : State) (r : Response) : (s.answer r).fault = s.fault := rfl
@[simp] theorem State.answer_refused (s : State) (r : Response) : (s.answer r).refused = s.refused := rfl
@[simp] theorem State.answer_layers (s : State) (r : Response) : (s.answer r).layers = s.layers := rfl
@[simp] theorem State.answer_srcData (s : State) (r : Response) : (s.answer r).srcData = s.srcData := rfl
@[simp] theorem State.answer_srcPos (s : State) (r : Response) : (s.answer r).srcPos = s.srcPos := rfl
@[simp] theorem State.answer_snkData (s : State) (r : Response) : (s.answer r).snkData = s.snkData := rfl
@[simp] theorem State.answer_snkReleased (s : State) (r : Response) : (s.answer r).snkReleased = s.snkReleased := rfl
@[simp] theorem State.answer_binData (s : State) (r : Response) : (s.answer r).binData = s.binData := rfl
@[simp] theorem State.answer_binPos (s : State) (r : Response) : (s.answer r).binPos = s.binPos := rfl
@[simp] theorem State.answer_bout (s : State) (r : Response) : (s.answer r).bout = s.bout := rfl
@[simp] theorem State.answer_inbox (s : State) (r : Response) : (s.answer r).inbox = s.inbox := rfl
@[simp] theorem State.answer_responses (s : State) (r : Response) : (s.answer r).responses = s.responses ++ [r] := rfl
@[simp] theorem State.answer_cfg (s : State) (r : Response) : (s.answer r).cfg = s.cfg := rfl

/-! ## `State.takeFault` -/

@[simp] theorem State.takeFault_bwAcc (s : State) (k : FaultKind) : (s.takeFault k).bwAcc = s.bwAcc := rfl
@[simp] theorem State.takeFault_bwFill (s : State) (k : FaultKind) : (s.takeFault k).bwFill = s.bwFill := rfl
@[simp] theorem State.takeFault_bwOpen (s : State) (k : FaultKind) : (s.takeFault k).bwOpen = s.bwOpen := rfl
@[simp] theorem State.takeFault_brCur (s : State) (k : FaultKind) : (s.takeFault k).brCur = s.brCur := rfl
@[simp] theorem State.takeFault_brRem (s : State) (k : FaultKind) : (s.takeFault k).brRem = s.brRem := rfl
@[simp] theorem State.takeFault_zsN (s : State) (k : FaultKind) : (s.takeFault k).zsN = s.zsN := rfl
@[simp] theorem State.takeFault_zsI (s : State) (k : FaultKind) : (s.takeFault k).zsI = s.zsI := rfl
@[simp] theorem State.takeFault_hWidth (s : State) (k : FaultKind) : (s.takeFault k).hWidth = s.hWidth := rfl
@[simp] theorem State.takeFault_hHeight (s : State) (k : FaultKind) : (s.takeFault k).hHeight = s.hHeight := rfl
@[simp] theorem State.takeFault_hPadW (s : State) (k : FaultKind) : (s.takeFault k).hPadW = s.hPadW := rfl
@[simp] theorem State.takeFault_hPadH (s : State) (k : FaultKind) : (s.takeFault k).hPadH = s.hPadH := rfl
@[simp] theorem State.takeFault_hFlags (s : State) (k : FaultKind) : (s.takeFault k).hFlags = s.hFlags := rfl
@[simp] theorem State.takeFault_hQuality (s : State) (k : FaultKind) : (s.takeFault k).hQuality = s.hQuality := rfl
@[simp] theorem State.takeFault_fault (s : State) (k : FaultKind) : (s.takeFault k).fault = some k := rfl
@[simp] theorem State.takeFault_refused (s : State) (k : FaultKind) : (s.takeFault k).refused = s.refused := rfl
@[simp] theorem State.takeFault_layers (s : State) (k : FaultKind) : (s.takeFault k).layers = s.layers := rfl
@[simp] theorem State.takeFault_srcData (s : State) (k : FaultKind) : (s.takeFault k).srcData = s.srcData := rfl
@[simp] theorem State.takeFault_srcPos (s : State) (k : FaultKind) : (s.takeFault k).srcPos = s.srcPos := rfl
@[simp] theorem State.takeFault_snkData (s : State) (k : FaultKind) : (s.takeFault k).snkData = s.snkData := rfl
@[simp] theorem State.takeFault_snkReleased (s : State) (k : FaultKind) : (s.takeFault k).snkReleased = s.snkReleased := rfl
@[simp] theorem State.takeFault_binData (s : State) (k : FaultKind) : (s.takeFault k).binData = s.binData := rfl
@[simp] theorem State.takeFault_binPos (s : State) (k : FaultKind) : (s.takeFault k).binPos = s.binPos := rfl
@[simp] theorem State.takeFault_bout (s : State) (k : FaultKind) : (s.takeFault k).bout = s.bout := rfl
@[simp] theorem State.takeFault_inbox (s : State) (k : FaultKind) : (s.takeFault k).inbox = s.inbox := rfl
@[simp] theorem State.takeFault_responses (s : State) (k : FaultKind) : (s.takeFault k).responses = s.responses ++ [.ofFault k] := rfl
@[simp] theorem State.takeFault_cfg (s : State) (k : FaultKind) : (s.takeFault k).cfg = s.cfg := rfl

/-! ## `State.takeRefusal` -/

@[simp] theorem State.takeRefusal_bwAcc (s : State) (r : Reason) : (s.takeRefusal r).bwAcc = s.bwAcc := rfl
@[simp] theorem State.takeRefusal_bwFill (s : State) (r : Reason) : (s.takeRefusal r).bwFill = s.bwFill := rfl
@[simp] theorem State.takeRefusal_bwOpen (s : State) (r : Reason) : (s.takeRefusal r).bwOpen = s.bwOpen := rfl
@[simp] theorem State.takeRefusal_brCur (s : State) (r : Reason) : (s.takeRefusal r).brCur = s.brCur := rfl
@[simp] theorem State.takeRefusal_brRem (s : State) (r : Reason) : (s.takeRefusal r).brRem = s.brRem := rfl
@[simp] theorem State.takeRefusal_zsN (s : State) (r : Reason) : (s.takeRefusal r).zsN = s.zsN := rfl
@[simp] theorem State.takeRefusal_zsI (s : State) (r : Reason) : (s.takeRefusal r).zsI = s.zsI := rfl
@[simp] theorem State.takeRefusal_hWidth (s : State) (r : Reason) : (s.takeRefusal r).hWidth = s.hWidth := rfl
@[simp] theorem State.takeRefusal_hHeight (s : State) (r : Reason) : (s.takeRefusal r).hHeight = s.hHeight := rfl
@[simp] theorem State.takeRefusal_hPadW (s : State) (r : Reason) : (s.takeRefusal r).hPadW = s.hPadW := rfl
@[simp] theorem State.takeRefusal_hPadH (s : State) (r : Reason) : (s.takeRefusal r).hPadH = s.hPadH := rfl
@[simp] theorem State.takeRefusal_hFlags (s : State) (r : Reason) : (s.takeRefusal r).hFlags = s.hFlags := rfl
@[simp] theorem State.takeRefusal_hQuality (s : State) (r : Reason) : (s.takeRefusal r).hQuality = s.hQuality := rfl
@[simp] theorem State.takeRefusal_fault (s : State) (r : Reason) : (s.takeRefusal r).fault = s.fault := rfl
@[simp] theorem State.takeRefusal_refused (s : State) (r : Reason) : (s.takeRefusal r).refused = some r := rfl
@[simp] theorem State.takeRefusal_layers (s : State) (r : Reason) : (s.takeRefusal r).layers = s.layers := rfl
@[simp] theorem State.takeRefusal_srcData (s : State) (r : Reason) : (s.takeRefusal r).srcData = s.srcData := rfl
@[simp] theorem State.takeRefusal_srcPos (s : State) (r : Reason) : (s.takeRefusal r).srcPos = s.srcPos := rfl
@[simp] theorem State.takeRefusal_snkData (s : State) (r : Reason) : (s.takeRefusal r).snkData = s.snkData := rfl
@[simp] theorem State.takeRefusal_snkReleased (s : State) (r : Reason) : (s.takeRefusal r).snkReleased = s.snkReleased := rfl
@[simp] theorem State.takeRefusal_binData (s : State) (r : Reason) : (s.takeRefusal r).binData = s.binData := rfl
@[simp] theorem State.takeRefusal_binPos (s : State) (r : Reason) : (s.takeRefusal r).binPos = s.binPos := rfl
@[simp] theorem State.takeRefusal_bout (s : State) (r : Reason) : (s.takeRefusal r).bout = s.bout := rfl
@[simp] theorem State.takeRefusal_inbox (s : State) (r : Reason) : (s.takeRefusal r).inbox = s.inbox := rfl
@[simp] theorem State.takeRefusal_responses (s : State) (r : Reason) : (s.takeRefusal r).responses = s.responses ++ [.ofRefusal r] := rfl
@[simp] theorem State.takeRefusal_cfg (s : State) (r : Reason) : (s.takeRefusal r).cfg = s.cfg := rfl

/-! ## `State.setLayer` -/

@[simp] theorem State.setLayer_bwAcc (s : State) (L : LayerNo) (ly : Layer) : (s.setLayer L ly).bwAcc = s.bwAcc := rfl
@[simp] theorem State.setLayer_bwFill (s : State) (L : LayerNo) (ly : Layer) : (s.setLayer L ly).bwFill = s.bwFill := rfl
@[simp] theorem State.setLayer_bwOpen (s : State) (L : LayerNo) (ly : Layer) : (s.setLayer L ly).bwOpen = s.bwOpen := rfl
@[simp] theorem State.setLayer_brCur (s : State) (L : LayerNo) (ly : Layer) : (s.setLayer L ly).brCur = s.brCur := rfl
@[simp] theorem State.setLayer_brRem (s : State) (L : LayerNo) (ly : Layer) : (s.setLayer L ly).brRem = s.brRem := rfl
@[simp] theorem State.setLayer_zsN (s : State) (L : LayerNo) (ly : Layer) : (s.setLayer L ly).zsN = s.zsN := rfl
@[simp] theorem State.setLayer_zsI (s : State) (L : LayerNo) (ly : Layer) : (s.setLayer L ly).zsI = s.zsI := rfl
@[simp] theorem State.setLayer_hWidth (s : State) (L : LayerNo) (ly : Layer) : (s.setLayer L ly).hWidth = s.hWidth := rfl
@[simp] theorem State.setLayer_hHeight (s : State) (L : LayerNo) (ly : Layer) : (s.setLayer L ly).hHeight = s.hHeight := rfl
@[simp] theorem State.setLayer_hPadW (s : State) (L : LayerNo) (ly : Layer) : (s.setLayer L ly).hPadW = s.hPadW := rfl
@[simp] theorem State.setLayer_hPadH (s : State) (L : LayerNo) (ly : Layer) : (s.setLayer L ly).hPadH = s.hPadH := rfl
@[simp] theorem State.setLayer_hFlags (s : State) (L : LayerNo) (ly : Layer) : (s.setLayer L ly).hFlags = s.hFlags := rfl
@[simp] theorem State.setLayer_hQuality (s : State) (L : LayerNo) (ly : Layer) : (s.setLayer L ly).hQuality = s.hQuality := rfl
@[simp] theorem State.setLayer_fault (s : State) (L : LayerNo) (ly : Layer) : (s.setLayer L ly).fault = s.fault := rfl
@[simp] theorem State.setLayer_refused (s : State) (L : LayerNo) (ly : Layer) : (s.setLayer L ly).refused = s.refused := rfl
@[simp] theorem State.setLayer_layers (s : State) (L : LayerNo) (ly : Layer) : (s.setLayer L ly).layers = s.layers.set L ly := rfl
@[simp] theorem State.setLayer_srcData (s : State) (L : LayerNo) (ly : Layer) : (s.setLayer L ly).srcData = s.srcData := rfl
@[simp] theorem State.setLayer_srcPos (s : State) (L : LayerNo) (ly : Layer) : (s.setLayer L ly).srcPos = s.srcPos := rfl
@[simp] theorem State.setLayer_snkData (s : State) (L : LayerNo) (ly : Layer) : (s.setLayer L ly).snkData = s.snkData := rfl
@[simp] theorem State.setLayer_snkReleased (s : State) (L : LayerNo) (ly : Layer) : (s.setLayer L ly).snkReleased = s.snkReleased := rfl
@[simp] theorem State.setLayer_binData (s : State) (L : LayerNo) (ly : Layer) : (s.setLayer L ly).binData = s.binData := rfl
@[simp] theorem State.setLayer_binPos (s : State) (L : LayerNo) (ly : Layer) : (s.setLayer L ly).binPos = s.binPos := rfl
@[simp] theorem State.setLayer_bout (s : State) (L : LayerNo) (ly : Layer) : (s.setLayer L ly).bout = s.bout := rfl
@[simp] theorem State.setLayer_inbox (s : State) (L : LayerNo) (ly : Layer) : (s.setLayer L ly).inbox = s.inbox := rfl
@[simp] theorem State.setLayer_responses (s : State) (L : LayerNo) (ly : Layer) : (s.setLayer L ly).responses = s.responses := rfl
@[simp] theorem State.setLayer_cfg (s : State) (L : LayerNo) (ly : Layer) : (s.setLayer L ly).cfg = s.cfg := rfl

/-! ## `sinkPut` -/

@[simp] theorem sinkPut_bwAcc (b : Byte) (s : State) : (sinkPut b s).bwAcc = s.bwAcc := rfl
@[simp] theorem sinkPut_bwFill (b : Byte) (s : State) : (sinkPut b s).bwFill = s.bwFill := rfl
@[simp] theorem sinkPut_bwOpen (b : Byte) (s : State) : (sinkPut b s).bwOpen = s.bwOpen := rfl
@[simp] theorem sinkPut_brCur (b : Byte) (s : State) : (sinkPut b s).brCur = s.brCur := rfl
@[simp] theorem sinkPut_brRem (b : Byte) (s : State) : (sinkPut b s).brRem = s.brRem := rfl
@[simp] theorem sinkPut_zsN (b : Byte) (s : State) : (sinkPut b s).zsN = s.zsN := rfl
@[simp] theorem sinkPut_zsI (b : Byte) (s : State) : (sinkPut b s).zsI = s.zsI := rfl
@[simp] theorem sinkPut_hWidth (b : Byte) (s : State) : (sinkPut b s).hWidth = s.hWidth := rfl
@[simp] theorem sinkPut_hHeight (b : Byte) (s : State) : (sinkPut b s).hHeight = s.hHeight := rfl
@[simp] theorem sinkPut_hPadW (b : Byte) (s : State) : (sinkPut b s).hPadW = s.hPadW := rfl
@[simp] theorem sinkPut_hPadH (b : Byte) (s : State) : (sinkPut b s).hPadH = s.hPadH := rfl
@[simp] theorem sinkPut_hFlags (b : Byte) (s : State) : (sinkPut b s).hFlags = s.hFlags := rfl
@[simp] theorem sinkPut_hQuality (b : Byte) (s : State) : (sinkPut b s).hQuality = s.hQuality := rfl
@[simp] theorem sinkPut_fault (b : Byte) (s : State) : (sinkPut b s).fault = s.fault := rfl
@[simp] theorem sinkPut_refused (b : Byte) (s : State) : (sinkPut b s).refused = s.refused := rfl
@[simp] theorem sinkPut_layers (b : Byte) (s : State) : (sinkPut b s).layers = s.layers := rfl
@[simp] theorem sinkPut_srcData (b : Byte) (s : State) : (sinkPut b s).srcData = s.srcData := rfl
@[simp] theorem sinkPut_srcPos (b : Byte) (s : State) : (sinkPut b s).srcPos = s.srcPos := rfl
@[simp] theorem sinkPut_snkData (b : Byte) (s : State) : (sinkPut b s).snkData = s.snkData ++ [b] := rfl
@[simp] theorem sinkPut_snkReleased (b : Byte) (s : State) : (sinkPut b s).snkReleased = s.snkReleased := rfl
@[simp] theorem sinkPut_binData (b : Byte) (s : State) : (sinkPut b s).binData = s.binData := rfl
@[simp] theorem sinkPut_binPos (b : Byte) (s : State) : (sinkPut b s).binPos = s.binPos := rfl
@[simp] theorem sinkPut_bout (b : Byte) (s : State) : (sinkPut b s).bout = s.bout := rfl
@[simp] theorem sinkPut_inbox (b : Byte) (s : State) : (sinkPut b s).inbox = s.inbox := rfl
@[simp] theorem sinkPut_responses (b : Byte) (s : State) : (sinkPut b s).responses = s.responses := rfl
@[simp] theorem sinkPut_cfg (b : Byte) (s : State) : (sinkPut b s).cfg = s.cfg := rfl

/-! ## `sinkRelease` -/

@[simp] theorem sinkRelease_bwAcc (s : State) : (sinkRelease s).bwAcc = s.bwAcc := rfl
@[simp] theorem sinkRelease_bwFill (s : State) : (sinkRelease s).bwFill = s.bwFill := rfl
@[simp] theorem sinkRelease_bwOpen (s : State) : (sinkRelease s).bwOpen = s.bwOpen := rfl
@[simp] theorem sinkRelease_brCur (s : State) : (sinkRelease s).brCur = s.brCur := rfl
@[simp] theorem sinkRelease_brRem (s : State) : (sinkRelease s).brRem = s.brRem := rfl
@[simp] theorem sinkRelease_zsN (s : State) : (sinkRelease s).zsN = s.zsN := rfl
@[simp] theorem sinkRelease_zsI (s : State) : (sinkRelease s).zsI = s.zsI := rfl
@[simp] theorem sinkRelease_hWidth (s : State) : (sinkRelease s).hWidth = s.hWidth := rfl
@[simp] theorem sinkRelease_hHeight (s : State) : (sinkRelease s).hHeight = s.hHeight := rfl
@[simp] theorem sinkRelease_hPadW (s : State) : (sinkRelease s).hPadW = s.hPadW := rfl
@[simp] theorem sinkRelease_hPadH (s : State) : (sinkRelease s).hPadH = s.hPadH := rfl
@[simp] theorem sinkRelease_hFlags (s : State) : (sinkRelease s).hFlags = s.hFlags := rfl
@[simp] theorem sinkRelease_hQuality (s : State) : (sinkRelease s).hQuality = s.hQuality := rfl
@[simp] theorem sinkRelease_fault (s : State) : (sinkRelease s).fault = s.fault := rfl
@[simp] theorem sinkRelease_refused (s : State) : (sinkRelease s).refused = s.refused := rfl
@[simp] theorem sinkRelease_layers (s : State) : (sinkRelease s).layers = s.layers := rfl
@[simp] theorem sinkRelease_srcData (s : State) : (sinkRelease s).srcData = s.srcData := rfl
@[simp] theorem sinkRelease_srcPos (s : State) : (sinkRelease s).srcPos = s.srcPos := rfl
@[simp] theorem sinkRelease_snkData (s : State) : (sinkRelease s).snkData = s.snkData := rfl
@[simp] theorem sinkRelease_snkReleased (s : State) : (sinkRelease s).snkReleased = true := rfl
@[simp] theorem sinkRelease_binData (s : State) : (sinkRelease s).binData = s.binData := rfl
@[simp] theorem sinkRelease_binPos (s : State) : (sinkRelease s).binPos = s.binPos := rfl
@[simp] theorem sinkRelease_bout (s : State) : (sinkRelease s).bout = s.bout := rfl
@[simp] theorem sinkRelease_inbox (s : State) : (sinkRelease s).inbox = s.inbox := rfl
@[simp] theorem sinkRelease_responses (s : State) : (sinkRelease s).responses = s.responses := rfl
@[simp] theorem sinkRelease_cfg (s : State) : (sinkRelease s).cfg = s.cfg := rfl

/-! ## `blockOut` -/

@[simp] theorem blockOut_bwAcc (b : Block) (s : State) : (blockOut b s).bwAcc = s.bwAcc := rfl
@[simp] theorem blockOut_bwFill (b : Block) (s : State) : (blockOut b s).bwFill = s.bwFill := rfl
@[simp] theorem blockOut_bwOpen (b : Block) (s : State) : (blockOut b s).bwOpen = s.bwOpen := rfl
@[simp] theorem blockOut_brCur (b : Block) (s : State) : (blockOut b s).brCur = s.brCur := rfl
@[simp] theorem blockOut_brRem (b : Block) (s : State) : (blockOut b s).brRem = s.brRem := rfl
@[simp] theorem blockOut_zsN (b : Block) (s : State) : (blockOut b s).zsN = s.zsN := rfl
@[simp] theorem blockOut_zsI (b : Block) (s : State) : (blockOut b s).zsI = s.zsI := rfl
@[simp] theorem blockOut_hWidth (b : Block) (s : State) : (blockOut b s).hWidth = s.hWidth := rfl
@[simp] theorem blockOut_hHeight (b : Block) (s : State) : (blockOut b s).hHeight = s.hHeight := rfl
@[simp] theorem blockOut_hPadW (b : Block) (s : State) : (blockOut b s).hPadW = s.hPadW := rfl
@[simp] theorem blockOut_hPadH (b : Block) (s : State) : (blockOut b s).hPadH = s.hPadH := rfl
@[simp] theorem blockOut_hFlags (b : Block) (s : State) : (blockOut b s).hFlags = s.hFlags := rfl
@[simp] theorem blockOut_hQuality (b : Block) (s : State) : (blockOut b s).hQuality = s.hQuality := rfl
@[simp] theorem blockOut_fault (b : Block) (s : State) : (blockOut b s).fault = s.fault := rfl
@[simp] theorem blockOut_refused (b : Block) (s : State) : (blockOut b s).refused = s.refused := rfl
@[simp] theorem blockOut_layers (b : Block) (s : State) : (blockOut b s).layers = s.layers := rfl
@[simp] theorem blockOut_srcData (b : Block) (s : State) : (blockOut b s).srcData = s.srcData := rfl
@[simp] theorem blockOut_srcPos (b : Block) (s : State) : (blockOut b s).srcPos = s.srcPos := rfl
@[simp] theorem blockOut_snkData (b : Block) (s : State) : (blockOut b s).snkData = s.snkData := rfl
@[simp] theorem blockOut_snkReleased (b : Block) (s : State) : (blockOut b s).snkReleased = s.snkReleased := rfl
@[simp] theorem blockOut_binData (b : Block) (s : State) : (blockOut b s).binData = s.binData := rfl
@[simp] theorem blockOut_binPos (b : Block) (s : State) : (blockOut b s).binPos = s.binPos := rfl
@[simp] theorem blockOut_bout (b : Block) (s : State) : (blockOut b s).bout = s.bout ++ [b] := rfl
@[simp] theorem blockOut_inbox (b : Block) (s : State) : (blockOut b s).inbox = s.inbox := rfl
@[simp] theorem blockOut_responses (b : Block) (s : State) : (blockOut b s).responses = s.responses := rfl
@[simp] theorem blockOut_cfg (b : Block) (s : State) : (blockOut b s).cfg = s.cfg := rfl

/-! ## `offerCommand` -/

@[simp] theorem offerCommand_bwAcc (w : Command) (s : State) : (offerCommand w s).bwAcc = s.bwAcc := rfl
@[simp] theorem offerCommand_bwFill (w : Command) (s : State) : (offerCommand w s).bwFill = s.bwFill := rfl
@[simp] theorem offerCommand_bwOpen (w : Command) (s : State) : (offerCommand w s).bwOpen = s.bwOpen := rfl
@[simp] theorem offerCommand_brCur (w : Command) (s : State) : (offerCommand w s).brCur = s.brCur := rfl
@[simp] theorem offerCommand_brRem (w : Command) (s : State) : (offerCommand w s).brRem = s.brRem := rfl
@[simp] theorem offerCommand_zsN (w : Command) (s : State) : (offerCommand w s).zsN = s.zsN := rfl
@[simp] theorem offerCommand_zsI (w : Command) (s : State) : (offerCommand w s).zsI = s.zsI := rfl
@[simp] theorem offerCommand_hWidth (w : Command) (s : State) : (offerCommand w s).hWidth = s.hWidth := rfl
@[simp] theorem offerCommand_hHeight (w : Command) (s : State) : (offerCommand w s).hHeight = s.hHeight := rfl
@[simp] theorem offerCommand_hPadW (w : Command) (s : State) : (offerCommand w s).hPadW = s.hPadW := rfl
@[simp] theorem offerCommand_hPadH (w : Command) (s : State) : (offerCommand w s).hPadH = s.hPadH := rfl
@[simp] theorem offerCommand_hFlags (w : Command) (s : State) : (offerCommand w s).hFlags = s.hFlags := rfl
@[simp] theorem offerCommand_hQuality (w : Command) (s : State) : (offerCommand w s).hQuality = s.hQuality := rfl
@[simp] theorem offerCommand_fault (w : Command) (s : State) : (offerCommand w s).fault = s.fault := rfl
@[simp] theorem offerCommand_refused (w : Command) (s : State) : (offerCommand w s).refused = s.refused := rfl
@[simp] theorem offerCommand_layers (w : Command) (s : State) : (offerCommand w s).layers = s.layers := rfl
@[simp] theorem offerCommand_srcData (w : Command) (s : State) : (offerCommand w s).srcData = s.srcData := rfl
@[simp] theorem offerCommand_srcPos (w : Command) (s : State) : (offerCommand w s).srcPos = s.srcPos := rfl
@[simp] theorem offerCommand_snkData (w : Command) (s : State) : (offerCommand w s).snkData = s.snkData := rfl
@[simp] theorem offerCommand_snkReleased (w : Command) (s : State) : (offerCommand w s).snkReleased = s.snkReleased := rfl
@[simp] theorem offerCommand_binData (w : Command) (s : State) : (offerCommand w s).binData = s.binData := rfl
@[simp] theorem offerCommand_binPos (w : Command) (s : State) : (offerCommand w s).binPos = s.binPos := rfl
@[simp] theorem offerCommand_bout (w : Command) (s : State) : (offerCommand w s).bout = s.bout := rfl
@[simp] theorem offerCommand_inbox (w : Command) (s : State) : (offerCommand w s).inbox = .command w :: s.inbox := rfl
@[simp] theorem offerCommand_responses (w : Command) (s : State) : (offerCommand w s).responses = s.responses := rfl
@[simp] theorem offerCommand_cfg (w : Command) (s : State) : (offerCommand w s).cfg = s.cfg := rfl

/-! ## `skipByte` -/

@[simp] theorem skipByte_bwAcc (s : State) : (skipByte s).bwAcc = s.bwAcc := rfl
@[simp] theorem skipByte_bwFill (s : State) : (skipByte s).bwFill = s.bwFill := rfl
@[simp] theorem skipByte_bwOpen (s : State) : (skipByte s).bwOpen = s.bwOpen := rfl
@[simp] theorem skipByte_brCur (s : State) : (skipByte s).brCur = s.brCur := rfl
@[simp] theorem skipByte_brRem (s : State) : (skipByte s).brRem = 0 := rfl
@[simp] theorem skipByte_zsN (s : State) : (skipByte s).zsN = s.zsN := rfl
@[simp] theorem skipByte_zsI (s : State) : (skipByte s).zsI = s.zsI := rfl
@[simp] theorem skipByte_hWidth (s : State) : (skipByte s).hWidth = s.hWidth := rfl
@[simp] theorem skipByte_hHeight (s : State) : (skipByte s).hHeight = s.hHeight := rfl
@[simp] theorem skipByte_hPadW (s : State) : (skipByte s).hPadW = s.hPadW := rfl
@[simp] theorem skipByte_hPadH (s : State) : (skipByte s).hPadH = s.hPadH := rfl
@[simp] theorem skipByte_hFlags (s : State) : (skipByte s).hFlags = s.hFlags := rfl
@[simp] theorem skipByte_hQuality (s : State) : (skipByte s).hQuality = s.hQuality := rfl
@[simp] theorem skipByte_fault (s : State) : (skipByte s).fault = s.fault := rfl
@[simp] theorem skipByte_refused (s : State) : (skipByte s).refused = s.refused := rfl
@[simp] theorem skipByte_layers (s : State) : (skipByte s).layers = s.layers := rfl
@[simp] theorem skipByte_srcData (s : State) : (skipByte s).srcData = s.srcData := rfl
@[simp] theorem skipByte_srcPos (s : State) : (skipByte s).srcPos = s.srcPos := rfl
@[simp] theorem skipByte_snkData (s : State) : (skipByte s).snkData = s.snkData := rfl
@[simp] theorem skipByte_snkReleased (s : State) : (skipByte s).snkReleased = s.snkReleased := rfl
@[simp] theorem skipByte_binData (s : State) : (skipByte s).binData = s.binData := rfl
@[simp] theorem skipByte_binPos (s : State) : (skipByte s).binPos = s.binPos := rfl
@[simp] theorem skipByte_bout (s : State) : (skipByte s).bout = s.bout := rfl
@[simp] theorem skipByte_inbox (s : State) : (skipByte s).inbox = s.inbox := rfl
@[simp] theorem skipByte_responses (s : State) : (skipByte s).responses = s.responses := rfl
@[simp] theorem skipByte_cfg (s : State) : (skipByte s).cfg = s.cfg := rfl

/-! ## `clearLayers` -/

@[simp] theorem clearLayers_bwAcc (s : State) : (clearLayers s).bwAcc = s.bwAcc := rfl
@[simp] theorem clearLayers_bwFill (s : State) : (clearLayers s).bwFill = s.bwFill := rfl
@[simp] theorem clearLayers_bwOpen (s : State) : (clearLayers s).bwOpen = s.bwOpen := rfl
@[simp] theorem clearLayers_brCur (s : State) : (clearLayers s).brCur = s.brCur := rfl
@[simp] theorem clearLayers_brRem (s : State) : (clearLayers s).brRem = s.brRem := rfl
@[simp] theorem clearLayers_zsN (s : State) : (clearLayers s).zsN = s.zsN := rfl
@[simp] theorem clearLayers_zsI (s : State) : (clearLayers s).zsI = s.zsI := rfl
@[simp] theorem clearLayers_hWidth (s : State) : (clearLayers s).hWidth = s.hWidth := rfl
@[simp] theorem clearLayers_hHeight (s : State) : (clearLayers s).hHeight = s.hHeight := rfl
@[simp] theorem clearLayers_hPadW (s : State) : (clearLayers s).hPadW = s.hPadW := rfl
@[simp] theorem clearLayers_hPadH (s : State) : (clearLayers s).hPadH = s.hPadH := rfl
@[simp] theorem clearLayers_hFlags (s : State) : (clearLayers s).hFlags = s.hFlags := rfl
@[simp] theorem clearLayers_hQuality (s : State) : (clearLayers s).hQuality = s.hQuality := rfl
@[simp] theorem clearLayers_fault (s : State) : (clearLayers s).fault = s.fault := rfl
@[simp] theorem clearLayers_refused (s : State) : (clearLayers s).refused = s.refused := rfl
@[simp] theorem clearLayers_layers (s : State) : (clearLayers s).layers = .empty := rfl
@[simp] theorem clearLayers_srcData (s : State) : (clearLayers s).srcData = s.srcData := rfl
@[simp] theorem clearLayers_srcPos (s : State) : (clearLayers s).srcPos = s.srcPos := rfl
@[simp] theorem clearLayers_snkData (s : State) : (clearLayers s).snkData = s.snkData := rfl
@[simp] theorem clearLayers_snkReleased (s : State) : (clearLayers s).snkReleased = s.snkReleased := rfl
@[simp] theorem clearLayers_binData (s : State) : (clearLayers s).binData = s.binData := rfl
@[simp] theorem clearLayers_binPos (s : State) : (clearLayers s).binPos = s.binPos := rfl
@[simp] theorem clearLayers_bout (s : State) : (clearLayers s).bout = s.bout := rfl
@[simp] theorem clearLayers_inbox (s : State) : (clearLayers s).inbox = s.inbox := rfl
@[simp] theorem clearLayers_responses (s : State) : (clearLayers s).responses = s.responses := rfl
@[simp] theorem clearLayers_cfg (s : State) : (clearLayers s).cfg = s.cfg := rfl

/-! ## `rewindAll` -/

@[simp] theorem rewindAll_bwAcc (s : State) : (rewindAll s).bwAcc = s.bwAcc := rfl
@[simp] theorem rewindAll_bwFill (s : State) : (rewindAll s).bwFill = s.bwFill := rfl
@[simp] theorem rewindAll_bwOpen (s : State) : (rewindAll s).bwOpen = s.bwOpen := rfl
@[simp] theorem rewindAll_brCur (s : State) : (rewindAll s).brCur = s.brCur := rfl
@[simp] theorem rewindAll_brRem (s : State) : (rewindAll s).brRem = s.brRem := rfl
@[simp] theorem rewindAll_zsN (s : State) : (rewindAll s).zsN = s.zsN := rfl
@[simp] theorem rewindAll_zsI (s : State) : (rewindAll s).zsI = s.zsI := rfl
@[simp] theorem rewindAll_hWidth (s : State) : (rewindAll s).hWidth = s.hWidth := rfl
@[simp] theorem rewindAll_hHeight (s : State) : (rewindAll s).hHeight = s.hHeight := rfl
@[simp] theorem rewindAll_hPadW (s : State) : (rewindAll s).hPadW = s.hPadW := rfl
@[simp] theorem rewindAll_hPadH (s : State) : (rewindAll s).hPadH = s.hPadH := rfl
@[simp] theorem rewindAll_hFlags (s : State) : (rewindAll s).hFlags = s.hFlags := rfl
@[simp] theorem rewindAll_hQuality (s : State) : (rewindAll s).hQuality = s.hQuality := rfl
@[simp] theorem rewindAll_fault (s : State) : (rewindAll s).fault = s.fault := rfl
@[simp] theorem rewindAll_refused (s : State) : (rewindAll s).refused = s.refused := rfl
@[simp] theorem rewindAll_layers (s : State) : (rewindAll s).layers = s.layers.mapAll fun ly => { ly with rp := 0 } := rfl
@[simp] theorem rewindAll_srcData (s : State) : (rewindAll s).srcData = s.srcData := rfl
@[simp] theorem rewindAll_srcPos (s : State) : (rewindAll s).srcPos = s.srcPos := rfl
@[simp] theorem rewindAll_snkData (s : State) : (rewindAll s).snkData = s.snkData := rfl
@[simp] theorem rewindAll_snkReleased (s : State) : (rewindAll s).snkReleased = s.snkReleased := rfl
@[simp] theorem rewindAll_binData (s : State) : (rewindAll s).binData = s.binData := rfl
@[simp] theorem rewindAll_binPos (s : State) : (rewindAll s).binPos = s.binPos := rfl
@[simp] theorem rewindAll_bout (s : State) : (rewindAll s).bout = s.bout := rfl
@[simp] theorem rewindAll_inbox (s : State) : (rewindAll s).inbox = s.inbox := rfl
@[simp] theorem rewindAll_responses (s : State) : (rewindAll s).responses = s.responses := rfl
@[simp] theorem rewindAll_cfg (s : State) : (rewindAll s).cfg = s.cfg := rfl

/-! ## `loadHeader` -/

@[simp] theorem loadHeader_bwAcc (buf : List Byte) (s : State) : (loadHeader buf s).bwAcc = s.bwAcc := rfl
@[simp] theorem loadHeader_bwFill (buf : List Byte) (s : State) : (loadHeader buf s).bwFill = s.bwFill := rfl
@[simp] theorem loadHeader_bwOpen (buf : List Byte) (s : State) : (loadHeader buf s).bwOpen = s.bwOpen := rfl
@[simp] theorem loadHeader_brCur (buf : List Byte) (s : State) : (loadHeader buf s).brCur = s.brCur := rfl
@[simp] theorem loadHeader_brRem (buf : List Byte) (s : State) : (loadHeader buf s).brRem = s.brRem := rfl
@[simp] theorem loadHeader_zsN (buf : List Byte) (s : State) : (loadHeader buf s).zsN = s.zsN := rfl
@[simp] theorem loadHeader_zsI (buf : List Byte) (s : State) : (loadHeader buf s).zsI = s.zsI := rfl
@[simp] theorem loadHeader_hWidth (buf : List Byte) (s : State) : (loadHeader buf s).hWidth = field4 s.cfg.fieldByteOrder buf 6 := rfl
@[simp] theorem loadHeader_hHeight (buf : List Byte) (s : State) : (loadHeader buf s).hHeight = field4 s.cfg.fieldByteOrder buf 10 := rfl
@[simp] theorem loadHeader_hPadW (buf : List Byte) (s : State) : (loadHeader buf s).hPadW = field4 s.cfg.fieldByteOrder buf 14 := rfl
@[simp] theorem loadHeader_hPadH (buf : List Byte) (s : State) : (loadHeader buf s).hPadH = field4 s.cfg.fieldByteOrder buf 18 := rfl
@[simp] theorem loadHeader_hFlags (buf : List Byte) (s : State) : (loadHeader buf s).hFlags = clearReserved (buf.getD 5 0) := rfl
@[simp] theorem loadHeader_hQuality (buf : List Byte) (s : State) : (loadHeader buf s).hQuality = s.hQuality := rfl
@[simp] theorem loadHeader_fault (buf : List Byte) (s : State) : (loadHeader buf s).fault = s.fault := rfl
@[simp] theorem loadHeader_refused (buf : List Byte) (s : State) : (loadHeader buf s).refused = s.refused := rfl
@[simp] theorem loadHeader_layers (buf : List Byte) (s : State) : (loadHeader buf s).layers = s.layers := rfl
@[simp] theorem loadHeader_srcData (buf : List Byte) (s : State) : (loadHeader buf s).srcData = s.srcData := rfl
@[simp] theorem loadHeader_srcPos (buf : List Byte) (s : State) : (loadHeader buf s).srcPos = s.srcPos := rfl
@[simp] theorem loadHeader_snkData (buf : List Byte) (s : State) : (loadHeader buf s).snkData = s.snkData := rfl
@[simp] theorem loadHeader_snkReleased (buf : List Byte) (s : State) : (loadHeader buf s).snkReleased = s.snkReleased := rfl
@[simp] theorem loadHeader_binData (buf : List Byte) (s : State) : (loadHeader buf s).binData = s.binData := rfl
@[simp] theorem loadHeader_binPos (buf : List Byte) (s : State) : (loadHeader buf s).binPos = s.binPos := rfl
@[simp] theorem loadHeader_bout (buf : List Byte) (s : State) : (loadHeader buf s).bout = s.bout := rfl
@[simp] theorem loadHeader_inbox (buf : List Byte) (s : State) : (loadHeader buf s).inbox = s.inbox := rfl
@[simp] theorem loadHeader_responses (buf : List Byte) (s : State) : (loadHeader buf s).responses = s.responses := rfl
@[simp] theorem loadHeader_cfg (buf : List Byte) (s : State) : (loadHeader buf s).cfg = s.cfg := rfl

/-! ## `State.pulled` -/

@[simp] theorem State.pulled_bwAcc (s : State) (k : Nat) : (s.pulled k).bwAcc = s.bwAcc := rfl
@[simp] theorem State.pulled_bwFill (s : State) (k : Nat) : (s.pulled k).bwFill = s.bwFill := rfl
@[simp] theorem State.pulled_bwOpen (s : State) (k : Nat) : (s.pulled k).bwOpen = s.bwOpen := rfl
@[simp] theorem State.pulled_brCur (s : State) (k : Nat) : (s.pulled k).brCur = ((s.srcData.drop s.srcPos).take k).getLast?.getD s.brCur := rfl
@[simp] theorem State.pulled_brRem (s : State) (k : Nat) : (s.pulled k).brRem = s.brRem := rfl
@[simp] theorem State.pulled_zsN (s : State) (k : Nat) : (s.pulled k).zsN = s.zsN := rfl
@[simp] theorem State.pulled_zsI (s : State) (k : Nat) : (s.pulled k).zsI = s.zsI := rfl
@[simp] theorem State.pulled_hWidth (s : State) (k : Nat) : (s.pulled k).hWidth = s.hWidth := rfl
@[simp] theorem State.pulled_hHeight (s : State) (k : Nat) : (s.pulled k).hHeight = s.hHeight := rfl
@[simp] theorem State.pulled_hPadW (s : State) (k : Nat) : (s.pulled k).hPadW = s.hPadW := rfl
@[simp] theorem State.pulled_hPadH (s : State) (k : Nat) : (s.pulled k).hPadH = s.hPadH := rfl
@[simp] theorem State.pulled_hFlags (s : State) (k : Nat) : (s.pulled k).hFlags = s.hFlags := rfl
@[simp] theorem State.pulled_hQuality (s : State) (k : Nat) : (s.pulled k).hQuality = s.hQuality := rfl
@[simp] theorem State.pulled_fault (s : State) (k : Nat) : (s.pulled k).fault = s.fault := rfl
@[simp] theorem State.pulled_refused (s : State) (k : Nat) : (s.pulled k).refused = s.refused := rfl
@[simp] theorem State.pulled_layers (s : State) (k : Nat) : (s.pulled k).layers = s.layers := rfl
@[simp] theorem State.pulled_srcData (s : State) (k : Nat) : (s.pulled k).srcData = s.srcData := rfl
@[simp] theorem State.pulled_srcPos (s : State) (k : Nat) : (s.pulled k).srcPos = s.srcPos + k := rfl
@[simp] theorem State.pulled_snkData (s : State) (k : Nat) : (s.pulled k).snkData = s.snkData := rfl
@[simp] theorem State.pulled_snkReleased (s : State) (k : Nat) : (s.pulled k).snkReleased = s.snkReleased := rfl
@[simp] theorem State.pulled_binData (s : State) (k : Nat) : (s.pulled k).binData = s.binData := rfl
@[simp] theorem State.pulled_binPos (s : State) (k : Nat) : (s.pulled k).binPos = s.binPos := rfl
@[simp] theorem State.pulled_bout (s : State) (k : Nat) : (s.pulled k).bout = s.bout := rfl
@[simp] theorem State.pulled_inbox (s : State) (k : Nat) : (s.pulled k).inbox = s.inbox := rfl
@[simp] theorem State.pulled_responses (s : State) (k : Nat) : (s.pulled k).responses = s.responses := rfl
@[simp] theorem State.pulled_cfg (s : State) (k : Nat) : (s.pulled k).cfg = s.cfg := rfl

/-! ## `State.headerFrom` -/

@[simp] theorem State.headerFrom_bwAcc (s h : State) : (s.headerFrom h).bwAcc = s.bwAcc := rfl
@[simp] theorem State.headerFrom_bwFill (s h : State) : (s.headerFrom h).bwFill = s.bwFill := rfl
@[simp] theorem State.headerFrom_bwOpen (s h : State) : (s.headerFrom h).bwOpen = s.bwOpen := rfl
@[simp] theorem State.headerFrom_brCur (s h : State) : (s.headerFrom h).brCur = s.brCur := rfl
@[simp] theorem State.headerFrom_brRem (s h : State) : (s.headerFrom h).brRem = s.brRem := rfl
@[simp] theorem State.headerFrom_zsN (s h : State) : (s.headerFrom h).zsN = s.zsN := rfl
@[simp] theorem State.headerFrom_zsI (s h : State) : (s.headerFrom h).zsI = s.zsI := rfl
@[simp] theorem State.headerFrom_hWidth (s h : State) : (s.headerFrom h).hWidth = h.hWidth := rfl
@[simp] theorem State.headerFrom_hHeight (s h : State) : (s.headerFrom h).hHeight = h.hHeight := rfl
@[simp] theorem State.headerFrom_hPadW (s h : State) : (s.headerFrom h).hPadW = h.hPadW := rfl
@[simp] theorem State.headerFrom_hPadH (s h : State) : (s.headerFrom h).hPadH = h.hPadH := rfl
@[simp] theorem State.headerFrom_hFlags (s h : State) : (s.headerFrom h).hFlags = h.hFlags &&& 0xEF := rfl
@[simp] theorem State.headerFrom_hQuality (s h : State) : (s.headerFrom h).hQuality = s.hQuality := rfl
@[simp] theorem State.headerFrom_fault (s h : State) : (s.headerFrom h).fault = s.fault := rfl
@[simp] theorem State.headerFrom_refused (s h : State) : (s.headerFrom h).refused = s.refused := rfl
@[simp] theorem State.headerFrom_layers (s h : State) : (s.headerFrom h).layers = s.layers := rfl
@[simp] theorem State.headerFrom_srcData (s h : State) : (s.headerFrom h).srcData = s.srcData := rfl
@[simp] theorem State.headerFrom_srcPos (s h : State) : (s.headerFrom h).srcPos = s.srcPos := rfl
@[simp] theorem State.headerFrom_snkData (s h : State) : (s.headerFrom h).snkData = s.snkData := rfl
@[simp] theorem State.headerFrom_snkReleased (s h : State) : (s.headerFrom h).snkReleased = s.snkReleased := rfl
@[simp] theorem State.headerFrom_binData (s h : State) : (s.headerFrom h).binData = s.binData := rfl
@[simp] theorem State.headerFrom_binPos (s h : State) : (s.headerFrom h).binPos = s.binPos := rfl
@[simp] theorem State.headerFrom_bout (s h : State) : (s.headerFrom h).bout = s.bout := rfl
@[simp] theorem State.headerFrom_inbox (s h : State) : (s.headerFrom h).inbox = s.inbox := rfl
@[simp] theorem State.headerFrom_responses (s h : State) : (s.headerFrom h).responses = s.responses := rfl
@[simp] theorem State.headerFrom_cfg (s h : State) : (s.headerFrom h).cfg = s.cfg := rfl

/-! ## `buildTree` -/

@[simp] theorem buildTree_bwAcc (L : LayerNo) (s : State) : (buildTree L s).bwAcc = s.bwAcc := rfl
@[simp] theorem buildTree_bwFill (L : LayerNo) (s : State) : (buildTree L s).bwFill = s.bwFill := rfl
@[simp] theorem buildTree_bwOpen (L : LayerNo) (s : State) : (buildTree L s).bwOpen = s.bwOpen := rfl
@[simp] theorem buildTree_brCur (L : LayerNo) (s : State) : (buildTree L s).brCur = s.brCur := rfl
@[simp] theorem buildTree_brRem (L : LayerNo) (s : State) : (buildTree L s).brRem = s.brRem := rfl
@[simp] theorem buildTree_zsN (L : LayerNo) (s : State) : (buildTree L s).zsN = s.zsN := rfl
@[simp] theorem buildTree_zsI (L : LayerNo) (s : State) : (buildTree L s).zsI = s.zsI := rfl
@[simp] theorem buildTree_hWidth (L : LayerNo) (s : State) : (buildTree L s).hWidth = s.hWidth := rfl
@[simp] theorem buildTree_hHeight (L : LayerNo) (s : State) : (buildTree L s).hHeight = s.hHeight := rfl
@[simp] theorem buildTree_hPadW (L : LayerNo) (s : State) : (buildTree L s).hPadW = s.hPadW := rfl
@[simp] theorem buildTree_hPadH (L : LayerNo) (s : State) : (buildTree L s).hPadH = s.hPadH := rfl
@[simp] theorem buildTree_hFlags (L : LayerNo) (s : State) : (buildTree L s).hFlags = s.hFlags := rfl
@[simp] theorem buildTree_hQuality (L : LayerNo) (s : State) : (buildTree L s).hQuality = s.hQuality := rfl
@[simp] theorem buildTree_fault (L : LayerNo) (s : State) : (buildTree L s).fault = s.fault := rfl
@[simp] theorem buildTree_refused (L : LayerNo) (s : State) : (buildTree L s).refused = s.refused := rfl
@[simp] theorem buildTree_layers (L : LayerNo) (s : State) : (buildTree L s).layers = s.layers.set L (s.layer L).buildTree := rfl
@[simp] theorem buildTree_srcData (L : LayerNo) (s : State) : (buildTree L s).srcData = s.srcData := rfl
@[simp] theorem buildTree_srcPos (L : LayerNo) (s : State) : (buildTree L s).srcPos = s.srcPos := rfl
@[simp] theorem buildTree_snkData (L : LayerNo) (s : State) : (buildTree L s).snkData = s.snkData := rfl
@[simp] theorem buildTree_snkReleased (L : LayerNo) (s : State) : (buildTree L s).snkReleased = s.snkReleased := rfl
@[simp] theorem buildTree_binData (L : LayerNo) (s : State) : (buildTree L s).binData = s.binData := rfl
@[simp] theorem buildTree_binPos (L : LayerNo) (s : State) : (buildTree L s).binPos = s.binPos := rfl
@[simp] theorem buildTree_bout (L : LayerNo) (s : State) : (buildTree L s).bout = s.bout := rfl
@[simp] theorem buildTree_inbox (L : LayerNo) (s : State) : (buildTree L s).inbox = s.inbox := rfl
@[simp] theorem buildTree_responses (L : LayerNo) (s : State) : (buildTree L s).responses = s.responses := rfl
@[simp] theorem buildTree_cfg (L : LayerNo) (s : State) : (buildTree L s).cfg = s.cfg := rfl

/-! ## `State.coreReset` -/

@[simp] theorem State.coreReset_bwAcc (s : State) : s.coreReset.bwAcc = 0x00 := rfl
@[simp] theorem State.coreReset_bwFill (s : State) : s.coreReset.bwFill = 0 := rfl
@[simp] theorem State.coreReset_bwOpen (s : State) : s.coreReset.bwOpen = true := rfl
@[simp] theorem State.coreReset_brCur (s : State) : s.coreReset.brCur = 0x00 := rfl
@[simp] theorem State.coreReset_brRem (s : State) : s.coreReset.brRem = 0 := rfl
@[simp] theorem State.coreReset_zsN (s : State) : s.coreReset.zsN = .l8 := rfl
@[simp] theorem State.coreReset_zsI (s : State) : s.coreReset.zsI = 64 := rfl
@[simp] theorem State.coreReset_hWidth (s : State) : s.coreReset.hWidth = 0 := rfl
@[simp] theorem State.coreReset_hHeight (s : State) : s.coreReset.hHeight = 0 := rfl
@[simp] theorem State.coreReset_hPadW (s : State) : s.coreReset.hPadW = 0 := rfl
@[simp] theorem State.coreReset_hPadH (s : State) : s.coreReset.hPadH = 0 := rfl
@[simp] theorem State.coreReset_hFlags (s : State) : s.coreReset.hFlags = 0x00 := rfl
@[simp] theorem State.coreReset_hQuality (s : State) : s.coreReset.hQuality = 0x00 := rfl
@[simp] theorem State.coreReset_fault (s : State) : s.coreReset.fault = none := rfl
@[simp] theorem State.coreReset_refused (s : State) : s.coreReset.refused = none := rfl
@[simp] theorem State.coreReset_layers (s : State) : s.coreReset.layers = .empty := rfl
@[simp] theorem State.coreReset_srcData (s : State) : s.coreReset.srcData = s.srcData := rfl
@[simp] theorem State.coreReset_srcPos (s : State) : s.coreReset.srcPos = s.srcPos := rfl
@[simp] theorem State.coreReset_snkData (s : State) : s.coreReset.snkData = s.snkData := rfl
@[simp] theorem State.coreReset_snkReleased (s : State) : s.coreReset.snkReleased = false := rfl
@[simp] theorem State.coreReset_binData (s : State) : s.coreReset.binData = s.binData := rfl
@[simp] theorem State.coreReset_binPos (s : State) : s.coreReset.binPos = s.binPos := rfl
@[simp] theorem State.coreReset_bout (s : State) : s.coreReset.bout = s.bout := rfl
@[simp] theorem State.coreReset_inbox (s : State) : s.coreReset.inbox = s.inbox := rfl
@[simp] theorem State.coreReset_responses (s : State) : s.coreReset.responses = s.responses := rfl
@[simp] theorem State.coreReset_cfg (s : State) : s.coreReset.cfg = s.cfg := rfl

/-! ## `Layer.invalidate` -/

@[simp] theorem Layer.invalidate_seq (ly : Layer) : ly.invalidate.seq = ly.seq := rfl
@[simp] theorem Layer.invalidate_rp (ly : Layer) : ly.invalidate.rp = ly.rp := rfl
@[simp] theorem Layer.invalidate_freq (ly : Layer) : ly.invalidate.freq = ly.freq := rfl
@[simp] theorem Layer.invalidate_lsLen (ly : Layer) : ly.invalidate.lsLen = ly.lsLen := rfl
@[simp] theorem Layer.invalidate_nodes (ly : Layer) : ly.invalidate.nodes = ly.nodes := rfl
@[simp] theorem Layer.invalidate_root (ly : Layer) : ly.invalidate.root = ly.root := rfl
@[simp] theorem Layer.invalidate_treeValid (ly : Layer) : ly.invalidate.treeValid = false := rfl
@[simp] theorem Layer.invalidate_code (ly : Layer) : ly.invalidate.code = ly.code := rfl
@[simp] theorem Layer.invalidate_codeValid (ly : Layer) : ly.invalidate.codeValid = false := rfl

/-! ## `Layer.withTree` -/

@[simp] theorem Layer.withTree_seq (ly : Layer) (nodes : List Node) (root : Option Nat) : (ly.withTree nodes root).seq = ly.seq := rfl
@[simp] theorem Layer.withTree_rp (ly : Layer) (nodes : List Node) (root : Option Nat) : (ly.withTree nodes root).rp = ly.rp := rfl
@[simp] theorem Layer.withTree_freq (ly : Layer) (nodes : List Node) (root : Option Nat) : (ly.withTree nodes root).freq = ly.freq := rfl
@[simp] theorem Layer.withTree_lsLen (ly : Layer) (nodes : List Node) (root : Option Nat) : (ly.withTree nodes root).lsLen = ly.lsLen := rfl
@[simp] theorem Layer.withTree_nodes (ly : Layer) (nodes : List Node) (root : Option Nat) : (ly.withTree nodes root).nodes = nodes := rfl
@[simp] theorem Layer.withTree_root (ly : Layer) (nodes : List Node) (root : Option Nat) : (ly.withTree nodes root).root = root := rfl
@[simp] theorem Layer.withTree_treeValid (ly : Layer) (nodes : List Node) (root : Option Nat) : (ly.withTree nodes root).treeValid = true := rfl
@[simp] theorem Layer.withTree_code (ly : Layer) (nodes : List Node) (root : Option Nat) : (ly.withTree nodes root).code = ly.code := rfl
@[simp] theorem Layer.withTree_codeValid (ly : Layer) (nodes : List Node) (root : Option Nat) : (ly.withTree nodes root).codeValid = false := rfl

/-! ## `Layer.withCode` -/

@[simp] theorem Layer.withCode_seq (ly : Layer) (code : Table CodeEntry) : (ly.withCode code).seq = ly.seq := rfl
@[simp] theorem Layer.withCode_rp (ly : Layer) (code : Table CodeEntry) : (ly.withCode code).rp = ly.rp := rfl
@[simp] theorem Layer.withCode_freq (ly : Layer) (code : Table CodeEntry) : (ly.withCode code).freq = ly.freq := rfl
@[simp] theorem Layer.withCode_lsLen (ly : Layer) (code : Table CodeEntry) : (ly.withCode code).lsLen = ly.lsLen := rfl
@[simp] theorem Layer.withCode_nodes (ly : Layer) (code : Table CodeEntry) : (ly.withCode code).nodes = ly.nodes := rfl
@[simp] theorem Layer.withCode_root (ly : Layer) (code : Table CodeEntry) : (ly.withCode code).root = ly.root := rfl
@[simp] theorem Layer.withCode_treeValid (ly : Layer) (code : Table CodeEntry) : (ly.withCode code).treeValid = ly.treeValid := rfl
@[simp] theorem Layer.withCode_code (ly : Layer) (code : Table CodeEntry) : (ly.withCode code).code = code := rfl
@[simp] theorem Layer.withCode_codeValid (ly : Layer) (code : Table CodeEntry) : (ly.withCode code).codeValid = true := rfl

/-! ## `Layer.buildTree` -/

@[simp] theorem Layer.buildTree_seq (ly : Layer) : ly.buildTree.seq = ly.seq := rfl
@[simp] theorem Layer.buildTree_rp (ly : Layer) : ly.buildTree.rp = ly.rp := rfl
@[simp] theorem Layer.buildTree_freq (ly : Layer) : ly.buildTree.freq = ly.freq := rfl
@[simp] theorem Layer.buildTree_lsLen (ly : Layer) : ly.buildTree.lsLen = ly.lsLen := rfl
@[simp] theorem Layer.buildTree_nodes (ly : Layer) : ly.buildTree.nodes = (buildArena ly.freq).1 := rfl
@[simp] theorem Layer.buildTree_root (ly : Layer) : ly.buildTree.root = (buildArena ly.freq).2 := rfl
@[simp] theorem Layer.buildTree_treeValid (ly : Layer) : ly.buildTree.treeValid = true := rfl
@[simp] theorem Layer.buildTree_code (ly : Layer) : ly.buildTree.code = ly.code := rfl
@[simp] theorem Layer.buildTree_codeValid (ly : Layer) : ly.buildTree.codeValid = false := rfl

/-! ## `Layer.tableRead` -/

@[simp] theorem Layer.tableRead_seq (ly : Layer) (t : Table Word64) : (ly.tableRead t).seq = ly.seq := rfl
@[simp] theorem Layer.tableRead_rp (ly : Layer) (t : Table Word64) : (ly.tableRead t).rp = ly.rp := rfl
@[simp] theorem Layer.tableRead_freq (ly : Layer) (t : Table Word64) : (ly.tableRead t).freq = t := rfl
@[simp] theorem Layer.tableRead_lsLen (ly : Layer) (t : Table Word64) : (ly.tableRead t).lsLen = ly.lsLen := rfl
@[simp] theorem Layer.tableRead_nodes (ly : Layer) (t : Table Word64) : (ly.tableRead t).nodes = (buildArena t).1 := rfl
@[simp] theorem Layer.tableRead_root (ly : Layer) (t : Table Word64) : (ly.tableRead t).root = (buildArena t).2 := rfl
@[simp] theorem Layer.tableRead_treeValid (ly : Layer) (t : Table Word64) : (ly.tableRead t).treeValid = true := rfl
@[simp] theorem Layer.tableRead_code (ly : Layer) (t : Table Word64) : (ly.tableRead t).code = ly.code := rfl
@[simp] theorem Layer.tableRead_codeValid (ly : Layer) (t : Table Word64) : (ly.tableRead t).codeValid = false := rfl

/-! ## `Layer.pushed` -/

@[simp] theorem Layer.pushed_seq (ly : Layer) (x : Symbol) : (ly.pushed x).seq = ly.seq ++ [x] := rfl
@[simp] theorem Layer.pushed_rp (ly : Layer) (x : Symbol) : (ly.pushed x).rp = ly.rp := rfl
@[simp] theorem Layer.pushed_freq (ly : Layer) (x : Symbol) : (ly.pushed x).freq = Table.set ly.freq x (ly.count x + 1) := rfl
@[simp] theorem Layer.pushed_lsLen (ly : Layer) (x : Symbol) : (ly.pushed x).lsLen = ly.lsLen := rfl
@[simp] theorem Layer.pushed_nodes (ly : Layer) (x : Symbol) : (ly.pushed x).nodes = ly.nodes := rfl
@[simp] theorem Layer.pushed_root (ly : Layer) (x : Symbol) : (ly.pushed x).root = ly.root := rfl
@[simp] theorem Layer.pushed_treeValid (ly : Layer) (x : Symbol) : (ly.pushed x).treeValid = false := rfl
@[simp] theorem Layer.pushed_code (ly : Layer) (x : Symbol) : (ly.pushed x).code = ly.code := rfl
@[simp] theorem Layer.pushed_codeValid (ly : Layer) (x : Symbol) : (ly.pushed x).codeValid = false := rfl

/-! ## Layers -/

@[simp] theorem Layers.get_set_same (ls : Layers) (L : LayerNo) (ly : Layer) : (ls.set L ly).get L = ly := by
  cases L <;> rfl

theorem Layers.get_set_ne (ls : Layers) (L M : LayerNo) (ly : Layer) (h : M ≠ L) : (ls.set L ly).get M = ls.get M := by
  cases L <;> cases M <;> first | rfl | exact absurd rfl h

theorem Layers.get_set (ls : Layers) (L M : LayerNo) (ly : Layer) :
    (ls.set L ly).get M = if M = L then ly else ls.get M := by
  split
  · next h => subst h; exact Layers.get_set_same ..
  · next h => exact Layers.get_set_ne _ _ _ _ h

@[simp] theorem Layers.set_set (ls : Layers) (L : LayerNo) (x y : Layer) : (ls.set L x).set L y = ls.set L y := by
  cases L <;> rfl

@[simp] theorem Layers.set_get (ls : Layers) (L : LayerNo) : ls.set L (ls.get L) = ls := by
  cases L <;> rfl

@[simp] theorem Layers.get_empty (L : LayerNo) : Layers.empty.get L = .empty := by
  cases L <;> rfl

@[simp] theorem Layers.get_mapAll (ls : Layers) (f : Layer → Layer) (L : LayerNo) :
    (ls.mapAll f).get L = f (ls.get L) := by
  cases L <;> rfl

/-- Two sets of slots that agree slot by slot are one. -/
theorem Layers.ext_get {a b : Layers} (h : ∀ L, a.get L = b.get L) : a = b := by
  obtain ⟨_, _, _, _, _, _, _, _⟩ := a
  obtain ⟨_, _, _, _, _, _, _, _⟩ := b
  have h1 := h .l1
  have h2 := h .l2
  have h3 := h .l3
  have h4 := h .l4
  have h5 := h .l5
  have h6 := h .l6
  have h7 := h .l7
  have h8 := h .l8
  simp only [Layers.get] at h1 h2 h3 h4 h5 h6 h7 h8
  subst h1 h2 h3 h4 h5 h6 h7 h8
  rfl

@[simp] theorem State.layer_setLayer_same (s : State) (L : LayerNo) (ly : Layer) : (s.setLayer L ly).layer L = ly :=
  Layers.get_set_same ..

theorem State.layer_setLayer_ne (s : State) (L M : LayerNo) (ly : Layer) (h : M ≠ L) :
    (s.setLayer L ly).layer M = s.layer M :=
  Layers.get_set_ne _ _ _ _ h

@[simp] theorem State.setLayer_setLayer (s : State) (L : LayerNo) (x y : Layer) :
    (s.setLayer L x).setLayer L y = s.setLayer L y := by
  simp [State.setLayer]

@[simp] theorem State.setLayer_layer (s : State) (L : LayerNo) : s.setLayer L (s.layer L) = s := by
  simp [State.setLayer, State.layer]

@[simp] theorem State.layer_clearLayers (s : State) (L : LayerNo) : (clearLayers s).layer L = .empty :=
  Layers.get_empty L

@[simp] theorem State.layer_rewindAll (s : State) (L : LayerNo) :
    (rewindAll s).layer L = { s.layer L with rp := 0 } :=
  Layers.get_mapAll ..

@[simp] theorem State.layer_buildTree (s : State) (L : LayerNo) : (buildTree L s).layer L = (s.layer L).buildTree :=
  Layers.get_set_same ..

theorem State.layer_buildTree_ne (s : State) (L M : LayerNo) (h : M ≠ L) : (buildTree L s).layer M = s.layer M :=
  Layers.get_set_ne _ _ _ _ h

end Sys2Proof.Machine
end

