-- ==== Sys2Proof/Laws/Ops.lean ====
section
/-!
SUPPORT. What the shared operations can do, each said once: the order of statements in a procedure, the gate, operand
ranges, Symbol tables, the streams.
-/

namespace Sys2Proof.Machine

/-! ## Procedures -/

@[simp] theorem Res.andThen_ok {α β : Type} (a : α) (s : State) (f : α → State → Res β) :
    (Res.ok a s).andThen f = f a s := rfl

@[simp] theorem Res.andThen_stop {α β : Type} (s : State) (f : α → State → Res β) :
    (Res.stop s : Res α).andThen f = .stop s := rfl

@[simp] theorem Res.andThen_stuck {α β : Type} (e : Fault) (f : α → State → Res β) :
    (Res.stuck e : Res α).andThen f = .stuck e := rfl

@[simp] theorem Res.finish_ok (r : Response) (s : State) : (Res.ok r s).finish = .next (s.answer r) := rfl

@[simp] theorem Res.finish_stop (s : State) : (Res.stop s : Res Response).finish = .next s := rfl

@[simp] theorem Res.finish_stuck (e : Fault) : (Res.stuck e : Res Response).finish = .fault e := rfl

@[simp] theorem raiseFault_eq {α : Type} (k : FaultKind) (s : State) : (raiseFault k s : Res α) = .stop (s.takeFault k) :=
  rfl

@[simp] theorem refuse_eq {α : Type} (r : Reason) (s : State) : (refuse r s : Res α) = .stop (s.takeRefusal r) := rfl

@[simp] theorem okWith_eq (v : Nat) (s : State) : okWith v s = .ok (.okValue v) s := rfl

theorem Res.andThen_assoc {α β γ : Type} (r : Res α) (f : α → State → Res β) (g : β → State → Res γ) :
    (r.andThen f).andThen g = r.andThen fun a s => (f a s).andThen g := by
  cases r <;> rfl

theorem Res.andThen_eq_ok {α β : Type} {r : Res α} {f : α → State → Res β} {b : β} {t : State} :
    r.andThen f = .ok b t ↔ ∃ a s, r = .ok a s ∧ f a s = .ok b t := by
  cases r <;> simp [Res.andThen]

theorem Res.andThen_eq_stop {α β : Type} {r : Res α} {f : α → State → Res β} {t : State} :
    r.andThen f = .stop t ↔ r = .stop t ∨ ∃ a s, r = .ok a s ∧ f a s = .stop t := by
  cases r <;> simp [Res.andThen]

theorem Res.andThen_eq_stuck {α β : Type} {r : Res α} {f : α → State → Res β} {e : Fault} :
    r.andThen f = .stuck e ↔ r = .stuck e ∨ ∃ a s, r = .ok a s ∧ f a s = .stuck e := by
  cases r <;> simp [Res.andThen]

theorem Res.finish_eq_next {r : Res Response} {t : State} :
    r.finish = .next t ↔ r = .stop t ∨ ∃ v s, r = .ok v s ∧ t = s.answer v := by
  cases r <;> simp [Res.finish, eq_comm]

/-! ## The gate -/

theorem State.pending_eq_none {s : State} : s.pending = none ↔ Running s := by
  cases hf : s.fault <;> simp [State.pending, Running, hf]

theorem State.pending_fault {s : State} {k : FaultKind} (h : s.fault = some k) : s.pending = some (.ofFault k) := by
  simp [State.pending, h]

theorem State.pending_refused {s : State} {r : Reason} (hf : s.fault = none) (hr : s.refused = some r) :
    s.pending = some (.ofRefusal r) := by
  simp [State.pending, hf, hr]

/-- In a running core the body runs. -/
theorem gated_running {body : State → Res Response} {s : State} (h : Running s) : gated body s = (body s).finish := by
  simp [gated, State.pending_eq_none.mpr h]

/-- In a stopped core the pending event is answered. -/
theorem gated_pending {body : State → Res Response} {s : State} {r : Response} (h : s.pending = some r) :
    gated body s = .next (s.answer r) := by
  simp [gated, h]

/-- Everything a gated command can do when it gives a next state. -/
theorem gated_cases {body : State → Res Response} {s t : State} (h : gated body s = .next t) :
    (∃ r, s.pending = some r ∧ t = s.answer r) ∨
    (Running s ∧ body s = .stop t) ∨ (Running s ∧ ∃ v u, body s = .ok v u ∧ t = u.answer v) := by
  cases hp : s.pending with
  | some r =>
    rw [gated_pending hp] at h
    exact .inl ⟨r, rfl, by simpa using h.symm⟩
  | none =>
    have hr := State.pending_eq_none.mp hp
    rw [gated_running hr, Res.finish_eq_next] at h
    exact .inr (h.imp (⟨hr, ·⟩) (⟨hr, ·⟩))

/-! ## Operands -/

@[simp] theorem LayerNo.fromNat_num (L : LayerNo) : LayerNo.fromNat L.num = some L := by
  cases L <;> rfl

theorem LayerNo.num_pos (L : LayerNo) : 1 ≤ L.num := by
  cases L <;> decide

theorem LayerNo.num_le (L : LayerNo) : L.num ≤ 8 := by
  cases L <;> decide

theorem LayerNo.num_inj {L M : LayerNo} (h : L.num = M.num) : L = M := by
  have := congrArg LayerNo.fromNat h
  simpa using this

theorem LayerNo.fromNat_eq_some {n : Nat} {L : LayerNo} : LayerNo.fromNat n = some L ↔ n = L.num := by
  constructor
  · intro h
    unfold LayerNo.fromNat at h
    split at h <;> simp_all <;> subst h <;> rfl
  · rintro rfl
    simp

theorem LayerNo.fromNat_eq_none {n : Nat} : LayerNo.fromNat n = none ↔ n = 0 ∨ 8 < n := by
  constructor
  · intro h
    unfold LayerNo.fromNat at h
    split at h <;> simp_all
    omega
  · intro h
    cases hL : LayerNo.fromNat n with
    | none => rfl
    | some L =>
      have := LayerNo.fromNat_eq_some.mp hL
      have := L.num_pos
      have := L.num_le
      omega

theorem LayerNo.mem_all (L : LayerNo) : L ∈ LayerNo.all := by
  cases L <;> decide

theorem LayerNo.mem_upTo {n : Nat} {L : LayerNo} (h : n ≤ 8) : L ∈ LayerNo.upTo n ↔ L.num ≤ n := by
  have : ∀ m : Fin 9, ∀ M ∈ LayerNo.all, M ∈ LayerNo.upTo m.val ↔ M.num ≤ m.val := by decide
  exact this ⟨n, by omega⟩ L L.mem_all

theorem LayerNo.mem_twoTo {n : Nat} {L : LayerNo} (h : n ≤ 8) : L ∈ LayerNo.twoTo n ↔ 2 ≤ L.num ∧ L.num ≤ n := by
  have : ∀ m : Fin 9, ∀ M ∈ LayerNo.all, M ∈ LayerNo.twoTo m.val ↔ 2 ≤ M.num ∧ M.num ≤ m.val := by decide
  exact this ⟨n, by omega⟩ L L.mem_all

theorem LayerNo.upTo_nodup (n : Nat) : (LayerNo.upTo n).Nodup :=
  (show LayerNo.all.Nodup by decide).sublist (List.take_sublist _ _)

theorem LayerNo.twoTo_nodup (n : Nat) : (LayerNo.twoTo n).Nodup :=
  (LayerNo.upTo_nodup n).sublist (List.drop_sublist _ _)

theorem LayerNo.upTo_eq (n : Nat) (h : 1 ≤ n) : LayerNo.upTo n = .l1 :: LayerNo.twoTo n := by
  obtain ⟨m, rfl⟩ : ∃ m, n = m + 1 := ⟨n - 1, by omega⟩
  rfl

/-- A layer index in range selects its slot. -/
theorem withLayerIndex_num {α : Type} {a : Byte} {L : LayerNo} (h : a.toNat = L.num) (body : LayerNo → State → Res α)
    (s : State) : withLayerIndex a body s = body L s := by
  simp [withLayerIndex, h]

/-- A layer index out of range is refused. -/
theorem withLayerIndex_out {α : Type} {a : Byte} (h : a.toNat = 0 ∨ 8 < a.toNat) (body : LayerNo → State → Res α)
    (s : State) : withLayerIndex a body s = .stop (s.takeRefusal .layerIndex) := by
  simp [withLayerIndex, LayerNo.fromNat_eq_none.mpr h]

/-- A layer count in range is given to the body. -/
theorem withLayerCount_num {α : Type} {n : Nat} {N : LayerNo} (h : n = N.num) (body : LayerNo → State → Res α)
    (s : State) : withLayerCount n body s = body N s := by
  simp [withLayerCount, h]

/-- A layer count out of range is refused. -/
theorem withLayerCount_out {α : Type} {n : Nat} (h : n = 0 ∨ 8 < n) (body : LayerNo → State → Res α)
    (s : State) : withLayerCount n body s = .stop (s.takeRefusal .layerCount) := by
  simp [withLayerCount, LayerNo.fromNat_eq_none.mpr h]

/-- The two outcomes of a layer index. -/
theorem withLayerIndex_cases {α : Type} (a : Byte) (body : LayerNo → State → Res α) (s : State) :
    (∃ L : LayerNo, a.toNat = L.num ∧ withLayerIndex a body s = body L s) ∨
    ((a.toNat = 0 ∨ 8 < a.toNat) ∧ withLayerIndex a body s = .stop (s.takeRefusal .layerIndex)) := by
  cases h : LayerNo.fromNat a.toNat with
  | some L => exact .inl ⟨L, LayerNo.fromNat_eq_some.mp h, by simp [withLayerIndex, h]⟩
  | none => exact .inr ⟨LayerNo.fromNat_eq_none.mp h, by simp [withLayerIndex, h]⟩

/-- The two outcomes of a layer count. -/
theorem withLayerCount_cases {α : Type} (n : Nat) (body : LayerNo → State → Res α) (s : State) :
    (∃ N : LayerNo, n = N.num ∧ withLayerCount n body s = body N s) ∨
    ((n = 0 ∨ 8 < n) ∧ withLayerCount n body s = .stop (s.takeRefusal .layerCount)) := by
  cases h : LayerNo.fromNat n with
  | some N => exact .inl ⟨N, LayerNo.fromNat_eq_some.mp h, by simp [withLayerCount, h]⟩
  | none => exact .inr ⟨LayerNo.fromNat_eq_none.mp h, by simp [withLayerCount, h]⟩

/-! ## Tables -/

/-- A read after a write: the written entry, or the entry of before. -/
theorem Table.get_set {α : Type} (t : Table α) (x y : Symbol) (a : α) :
    Table.get (Table.set t x a) y = if y = x then some a else Table.get t y := by
  induction t with
  | nil => simp [Table.set, Table.get, eq_comm]
  | cons p rest ih =>
    obtain ⟨z, b⟩ := p
    simp only [Table.set]
    split
    · simp [Table.get, eq_comm]
    · split
      · next h => subst h; by_cases hy : y = x <;> simp [Table.get, hy, Ne.symm]
      · next h =>
        simp only [Table.get, ih]
        by_cases hy : y = x
        · subst hy; simp [Ne.symm h]
        · simp [hy]

theorem Table.get_eq_none {α : Type} {t : Table α} {x : Symbol} : Table.get t x = none ↔ ∀ p ∈ t, p.1 ≠ x := by
  induction t with
  | nil => simp [Table.get]
  | cons p rest ih =>
    obtain ⟨z, b⟩ := p
    by_cases h : z = x <;> simp [Table.get, h, ih]

theorem Table.get_isSome {α : Type} {t : Table α} {x : Symbol} : (Table.get t x).isSome ↔ ∃ p ∈ t, p.1 = x := by
  rw [← Option.ne_none_iff_isSome, ne_eq, Table.get_eq_none]
  simp

theorem Table.mem_of_get {α : Type} {t : Table α} {x : Symbol} {a : α} (h : Table.get t x = some a) : (x, a) ∈ t := by
  induction t with
  | nil => simp [Table.get] at h
  | cons p rest ih =>
    obtain ⟨z, b⟩ := p
    simp only [Table.get] at h
    split at h
    · simp_all
    · exact List.mem_cons_of_mem _ (ih h)

/-- In an ordered table the entry read is the one listed. -/
theorem Table.get_eq_some {α : Type} {t : Table α} (ht : TableOrdered t) {x : Symbol} {a : α} :
    Table.get t x = some a ↔ (x, a) ∈ t := by
  refine ⟨Table.mem_of_get, fun h => ?_⟩
  induction t with
  | nil => simp at h
  | cons p rest ih =>
    obtain ⟨z, b⟩ := p
    have ⟨h1, h2⟩ := List.pairwise_cons.mp ht
    rcases List.mem_cons.mp h with h | h
    · cases h; simp [Table.get]
    · have := h1 _ h
      have hz : z ≠ x := fun e => by subst e; simp at this
      simp [Table.get, hz, ih h2 h]

theorem Table.mem_set {α : Type} {t : Table α} {x : Symbol} {a : α} {p : Symbol × α} (h : p ∈ Table.set t x a) :
    p = (x, a) ∨ p ∈ t := by
  induction t with
  | nil => simpa [Table.set] using h
  | cons q rest ih =>
    obtain ⟨z, b⟩ := q
    simp only [Table.set] at h
    split at h
    · simpa using h
    · split at h
      · rcases List.mem_cons.mp h with h | h
        · exact .inl h
        · exact .inr (List.mem_cons_of_mem _ h)
      · rcases List.mem_cons.mp h with h | h
        · exact .inr (h ▸ List.mem_cons_self ..)
        · exact (ih h).imp id (List.mem_cons_of_mem _)

/-- A write keeps a table ordered. -/
theorem Table.set_ordered {α : Type} {t : Table α} (ht : TableOrdered t) (x : Symbol) (a : α) :
    TableOrdered (Table.set t x a) := by
  induction t with
  | nil => simp [Table.set, TableOrdered]
  | cons p rest ih =>
    obtain ⟨z, b⟩ := p
    have ⟨h1, h2⟩ := List.pairwise_cons.mp ht
    simp only [Table.set]
    split
    · next h =>
      refine List.pairwise_cons.mpr ⟨fun q hq => ?_, ht⟩
      rcases List.mem_cons.mp hq with rfl | hq
      · exact h
      · exact Nat.lt_trans h (h1 q hq)
    · split
      · next h => subst h; exact List.pairwise_cons.mpr ⟨h1, h2⟩
      · next h h' =>
        refine List.pairwise_cons.mpr ⟨fun q hq => ?_, ih h2⟩
        rcases Table.mem_set hq with rfl | hq
        · have : x.toNat ≠ z.toNat := fun e => h' (BitVec.eq_of_toNat_eq e)
          simp only
          omega
        · exact h1 q hq

/-- A write above every entry appends. -/
theorem Table.set_append {α : Type} {t : Table α} {x : Symbol} (h : ∀ p ∈ t, p.1.toNat < x.toNat) (a : α) :
    Table.set t x a = t ++ [(x, a)] := by
  induction t with
  | nil => rfl
  | cons p rest ih =>
    obtain ⟨z, b⟩ := p
    have hz := h (z, b) (List.mem_cons_self ..)
    simp only at hz
    have hne : x ≠ z := fun e => by subst e; omega
    simp only [Table.set]
    rw [if_neg (by omega), if_neg hne, ih fun p hp => h p (List.mem_cons_of_mem _ hp)]
    rfl

/-- Two ordered tables with the same entries are one. -/
theorem Table.ext {α : Type} {t u : Table α} (ht : TableOrdered t) (hu : TableOrdered u)
    (h : ∀ x, Table.get t x = Table.get u x) : t = u := by
  induction t generalizing u with
  | nil =>
    cases u with
    | nil => rfl
    | cons q _ => have := h q.1; simp [Table.get] at this
  | cons p rest ih =>
    obtain ⟨x, a⟩ := p
    have ⟨h1, h2⟩ := List.pairwise_cons.mp ht
    cases u with
    | nil => have := h x; simp [Table.get] at this
    | cons q rest' =>
      obtain ⟨y, b⟩ := q
      have ⟨k1, k2⟩ := List.pairwise_cons.mp hu
      have hx : (x, a) ∈ (y, b) :: rest' := Table.mem_of_get (by rw [← h x]; simp [Table.get])
      have hy : (y, b) ∈ (x, a) :: rest := Table.mem_of_get (by rw [h y]; simp [Table.get])
      have hxy : x = y ∧ a = b := by
        rcases List.mem_cons.mp hx with e | hx
        · simpa using e
        · rcases List.mem_cons.mp hy with e | hy
          · simpa [eq_comm] using e
          · have := k1 _ hx; have := h1 _ hy; simp only at *; omega
      obtain ⟨rfl, rfl⟩ := hxy
      congr 1
      apply ih h2 k2
      intro z
      by_cases hz : x = z
      · subst hz
        have e1 : Table.get rest x = none :=
          Table.get_eq_none.mpr fun p hp e => by have := h1 p hp; simp only [e] at this; omega
        have e2 : Table.get rest' x = none :=
          Table.get_eq_none.mpr fun p hp e => by have := k1 p hp; simp only [e] at this; omega
        rw [e1, e2]
      · have := h z
        simpa [Table.get, hz] using this

/-- The Symbols of an ordered table, and so its length: at most 256 entries. -/
theorem Table.length_le {α : Type} {t : Table α} (ht : TableOrdered t) : t.length ≤ 256 := by
  have key : ∀ (u : Table α) (lo : Nat), TableOrdered u → (∀ p ∈ u, lo ≤ p.1.toNat) → lo + u.length ≤ 256 ∨ u = [] := by
    intro u
    induction u with
    | nil => intro _ _ _; exact .inr rfl
    | cons p rest ih =>
      intro lo hu hlo
      have ⟨h1, h2⟩ := List.pairwise_cons.mp hu
      have hp := hlo p (List.mem_cons_self ..)
      have := p.1.isLt
      left
      rcases ih (lo + 1) h2 (fun q hq => by have := h1 q hq; omega) with h | h
      · simp only [List.length_cons]; omega
      · subst h; simp only [List.length_cons, List.length_nil]; omega
  rcases key t 0 ht (fun _ _ => Nat.zero_le _) with h | h
  · omega
  · subst h; simp

/-! ## Streams -/

/-- A pull that gives a byte. -/
theorem srcPull_eq_some {s t : State} {b : Byte} (h : srcPull s = some (b, t)) :
    s.srcData[s.srcPos]? = some b ∧ t = { s with srcPos := s.srcPos + 1 } := by
  unfold srcPull at h
  split at h
  · next hb => simp only [Option.some.injEq, Prod.mk.injEq] at h; exact ⟨h.1 ▸ hb, h.2.symm⟩
  · simp at h

theorem srcPull_eq_none {s : State} : srcPull s = none ↔ s.srcData.drop s.srcPos = [] := by
  unfold srcPull
  split
  · next hb => simpa using (List.getElem?_eq_some_iff.mp hb).1
  · next hb => simpa using hb

/-- The byte pulled is the head of what is left. -/
theorem srcPull_cons {s : State} {b : Byte} {rest : List Byte} (h : s.srcData.drop s.srcPos = b :: rest) :
    srcPull s = some (b, { s with srcPos := s.srcPos + 1 }) := by
  have : s.srcData[s.srcPos]? = some b := by
    have := congrArg List.head? h
    simpa [List.head?_drop] using this
  simp [srcPull, this]

theorem drop_srcPos_succ {s : State} {b : Byte} {rest : List Byte} (h : s.srcData.drop s.srcPos = b :: rest) :
    s.srcData.drop (s.srcPos + 1) = rest := by
  rw [← List.drop_drop, h]
  rfl

/-- A block taken from the block source. -/
theorem blockIn_eq_some {s t : State} {b : Block} (h : blockIn s = some (b, t)) :
    s.binData[s.binPos]? = some b ∧ t = { s with binPos := s.binPos + 1 } := by
  unfold blockIn at h
  split at h
  · next hb => simp only [Option.some.injEq, Prod.mk.injEq] at h; exact ⟨h.1 ▸ hb, h.2.symm⟩
  · simp at h

theorem blockIn_eq_none {s : State} : blockIn s = none ↔ s.binData[s.binPos]? = none := by
  unfold blockIn
  split <;> simp_all

end Sys2Proof.Machine
end

