-- ==== Sys2Proof/Laws/BitStream.lean ====
section
/-!
SUPPORT. The bit stream writer and reader in terms of the bits written and the bits still to be read, and whole bytes
through an aligned writer and reader.
-/

namespace Sys2Proof.Machine

/-! ## Lists of bits -/

@[simp] theorem lowBits_length (v : Byte) (n : Nat) : (lowBits v n).length = n := by
  simp [lowBits]

@[simp] theorem lowBits_zero (v : Byte) : lowBits v 0 = [] := rfl

/-- The first of `n + 1` low bits is bit `n`. -/
theorem lowBits_succ (v : Byte) (n : Nat) : lowBits v (n + 1) = v.getLsbD n :: lowBits v n := by
  simp only [lowBits, List.range_succ_eq_map, List.map_cons, List.map_map]
  refine congrArg₂ _ (by simp) (List.map_congr_left fun i _ => ?_)
  simp only [Function.comp]
  congr 1
  omega

@[simp] theorem bytesBits_nil : bytesBits [] = [] := rfl

@[simp] theorem bytesBits_cons (b : Byte) (bs : List Byte) : bytesBits (b :: bs) = lowBits b 8 ++ bytesBits bs := rfl

@[simp] theorem bytesBits_append (xs ys : List Byte) : bytesBits (xs ++ ys) = bytesBits xs ++ bytesBits ys := by
  simp [bytesBits]

@[simp] theorem bytesBits_length (bs : List Byte) : (bytesBits bs).length = 8 * bs.length := by
  induction bs with
  | nil => rfl
  | cons b bs ih => simp [ih]; omega

/-! ## Writer -/

theorem setBit_getLsbD (v : Byte) (i : Nat) (b : Bool) (j : Nat) (hi : i < 8) :
    (setBit v i b).getLsbD j = if j = i then b else v.getLsbD j := by
  have one : ∀ k, ((1 : Byte) <<< i).getLsbD k = decide (k = i) := by
    have h : ∀ m n : Fin 8, ((1 : Byte) <<< m.val).getLsbD n.val = decide (n.val = m.val) := by decide
    intro k
    by_cases hk : k < 8
    · exact h ⟨i, hi⟩ ⟨k, hk⟩
    · have : k ≠ i := by omega
      rw [BitVec.getLsbD_of_ge _ k (by omega)]
      simp [this]
  cases b
  · simp only [setBit, Bool.false_eq_true, if_false, BitVec.getLsbD_and, BitVec.getLsbD_not, one]
    by_cases hj : j < 8
    · by_cases h : j = i <;> simp [h, hj]
    · have : j ≠ i := by omega
      simp [BitVec.getLsbD_of_ge v j (by omega), this]
  · simp only [setBit, if_true, BitVec.getLsbD_or, one]
    by_cases h : j = i <;> simp [h]

/-- The accumulator's held bits after one more bit. -/
theorem take_setBit (v : Byte) (f : Fin 8) (b : Bool) :
    (lowBits (setBit v (7 - f.val) b) 8).take (f.val + 1) = (lowBits v 8).take f.val ++ [b] := by
  have h8 : ∀ w : Byte, lowBits w 8 = [w.getLsbD 7, w.getLsbD 6, w.getLsbD 5, w.getLsbD 4, w.getLsbD 3, w.getLsbD 2,
      w.getLsbD 1, w.getLsbD 0] := fun w => by simp only [lowBits_succ, lowBits_zero]
  rw [h8, h8]
  obtain ⟨k, hk⟩ := f
  simp only [setBit_getLsbD v (7 - k) b _ (by omega)]
  match k, hk with
  | 0, _ => simp
  | 1, _ => simp
  | 2, _ => simp
  | 3, _ => simp
  | 4, _ => simp
  | 5, _ => simp
  | 6, _ => simp
  | 7, _ => simp

/-- What writing one bit does. -/
theorem putBit_spec (b : Bool) (s : State) : ∃ acc fill snk,
    putBit b s = { s with bwAcc := acc, bwFill := fill, snkData := snk } ∧
    sinkBits { s with bwAcc := acc, bwFill := fill, snkData := snk } = sinkBits s ++ [b] ∧
    s.snkData <+: snk ∧ (WriterTidy s → WriterTidy { s with bwAcc := acc, bwFill := fill, snkData := snk }) := by
  have ht := take_setBit s.bwAcc s.bwFill b
  by_cases h : s.bwFill.val + 1 < 8
  · refine ⟨setBit s.bwAcc (7 - s.bwFill.val) b, ⟨s.bwFill.val + 1, h⟩, s.snkData, ?_, ?_, List.prefix_rfl, ?_⟩
    · simp [putBit, h]
    · simp only [sinkBits, ht, List.append_assoc]
    · intro hw i hi hlt
      simp only at hlt ⊢
      rw [setBit_getLsbD _ _ _ _ (by omega), if_neg (by omega)]
      exact hw i hi (by omega)
  · have h7 : s.bwFill.val + 1 = 8 := by omega
    refine ⟨0, 0, s.snkData ++ [setBit s.bwAcc (7 - s.bwFill.val) b], ?_, ?_, List.prefix_append .., ?_⟩
    · simp [putBit, h, sinkPut]
    · rw [h7, List.take_of_length_le (by simp)] at ht
      simp [sinkBits, ht]
    · intro _ i _ _
      simp

/-- What the loop of `WriteBits` does. -/
theorem putBits_spec (v : Byte) (len : Nat) (s : State) : ∃ acc fill snk,
    putBits v len s = { s with bwAcc := acc, bwFill := fill, snkData := snk } ∧
    sinkBits { s with bwAcc := acc, bwFill := fill, snkData := snk } = sinkBits s ++ lowBits v len ∧
    s.snkData <+: snk ∧ (WriterTidy s → WriterTidy { s with bwAcc := acc, bwFill := fill, snkData := snk }) := by
  induction len generalizing s with
  | zero => exact ⟨s.bwAcc, s.bwFill, s.snkData, rfl, by simp, List.prefix_rfl, id⟩
  | succ n ih =>
    obtain ⟨a1, f1, k1, e1, b1, p1, t1⟩ := putBit_spec (v.getLsbD n) s
    obtain ⟨a2, f2, k2, e2, b2, p2, t2⟩ := ih (putBit (v.getLsbD n) s)
    rw [e1] at e2 b2 p2 t2
    refine ⟨a2, f2, k2, ?_, ?_, p1.trans p2, fun h => t2 (t1 h)⟩
    · simp only [putBits, e1, e2]
    · rw [lowBits_succ]
      simpa [b1] using b2

/-- Everything `WriteBits` can do. -/
theorem writeBits_cases (v : Byte) (len : Nat) (s : State) :
    (8 < len ∧ writeBits v len s = .stop (s.takeFault .contract)) ∨
    (len ≤ 8 ∧ s.bwOpen = false ∧ writeBits v len s = .stop (s.takeRefusal .writerClosed)) ∨
    (len ≤ 8 ∧ s.bwOpen = true ∧ writeBits v len s = .ok () (putBits v len s)) := by
  by_cases h : 8 < len
  · exact .inl ⟨h, by simp [writeBits, h]⟩
  · cases ho : s.bwOpen
    · exact .inr (.inl ⟨by omega, rfl, by simp [writeBits, h, ho]⟩)
    · exact .inr (.inr ⟨by omega, rfl, by simp [writeBits, h, ho]⟩)

/-- The last `n + 1` bits of a byte whose higher bits the accumulator already holds. -/
theorem putBits_rest (v : Byte) (n : Nat) (s : State) (hf : s.bwFill.val + n = 7)
    (hv : ∀ j, n < j → j < 8 → s.bwAcc.getLsbD j = v.getLsbD j) :
    putBits v (n + 1) s = { s with bwAcc := 0, bwFill := 0, snkData := s.snkData ++ [v] } := by
  have h7 : 7 - s.bwFill.val = n := by omega
  induction n generalizing s with
  | zero =>
    have e : setBit s.bwAcc 0 (v.getLsbD 0) = v := by
      refine BitVec.eq_of_getLsbD_eq fun i hi => ?_
      rw [setBit_getLsbD _ _ _ _ (by omega)]
      split
      · next h => rw [h]
      · next h => exact hv i (by omega) hi
    simp only [putBits, putBit, h7, e, sinkPut]
    rw [dif_neg (by omega)]
  | succ n ih =>
    rw [putBits]
    have e : putBit (v.getLsbD (n + 1)) s = { s with
        bwAcc := setBit s.bwAcc (n + 1) (v.getLsbD (n + 1)), bwFill := ⟨s.bwFill.val + 1, by omega⟩ } := by
      simp only [putBit, h7]
      rw [dif_pos (by omega)]
    rw [e, ih _ (by simp only; omega) ?_ (by simp only; omega)]
    intro j hj hj8
    rw [setBit_getLsbD _ _ _ _ (by omega)]
    split
    · next h => rw [h]
    · next h => exact hv j (by omega) hj8

/-- A whole byte through an aligned writer goes straight to the sink. -/
theorem putBits_byte (v : Byte) (s : State) (h : s.bwFill = 0) :
    putBits v 8 s = { s with bwAcc := 0, snkData := s.snkData ++ [v] } := by
  rw [putBits_rest v 7 s (by simp [h]) (fun j h1 h2 => by omega), ← h]

/-- Whole bytes through an aligned open writer go straight to the sink. -/
theorem writeBytes_aligned (bs : List Byte) (s : State) (h : s.bwFill = 0) (ho : s.bwOpen = true) :
    writeBytes bs s =
      .ok () { s with bwAcc := if bs = [] then s.bwAcc else 0, snkData := s.snkData ++ bs } := by
  induction bs generalizing s with
  | nil => simp [writeBytes]
  | cons b rest ih =>
    have e : writeBits b 8 s = .ok () { s with bwAcc := 0, snkData := s.snkData ++ [b] } := by
      simp [writeBits, ho, putBits_byte b s h]
    rw [writeBytes, e, Res.andThen_ok, ih { s with bwAcc := 0, snkData := s.snkData ++ [b] } h ho]
    simp

/-- The first byte through a closed writer is refused. -/
theorem writeBytes_closed (b : Byte) (bs : List Byte) (s : State) (ho : s.bwOpen = false) :
    writeBytes (b :: bs) s = .stop (s.takeRefusal .writerClosed) := by
  simp [writeBytes, writeBits, ho]

/-- Everything `Flush` can do. -/
theorem flush_cases (s : State) :
    (s.bwOpen = false ∧ flush s = .stop (s.takeRefusal .writerClosed)) ∨
    (s.bwOpen = true ∧ s.bwFill = 0 ∧ flush s = .ok () s) ∨
    (s.bwOpen = true ∧ s.bwFill ≠ 0 ∧
      flush s = .ok () { s with snkData := s.snkData ++ [s.bwAcc], bwAcc := 0, bwFill := 0 }) := by
  cases ho : s.bwOpen
  · exact .inl ⟨rfl, by simp [flush, ho]⟩
  · by_cases hf : s.bwFill = 0
    · exact .inr (.inl ⟨rfl, hf, by simp [flush, ho, emitPending, hf]⟩)
    · exact .inr (.inr ⟨rfl, hf, by simp [flush, ho, emitPending, hf, sinkPut]⟩)

/-! ## Reader -/

theorem sourceBits_eq_nil {s : State} : sourceBits s = [] ↔ s.brRem = 0 ∧ s.srcData.drop s.srcPos = [] := by
  have hr : s.brRem = 0 ↔ s.brRem.val = 0 := by rw [Fin.ext_iff]; rfl
  rw [← List.length_eq_zero_iff, hr, ← List.length_eq_zero_iff]
  simp only [sourceBits, List.length_append, lowBits_length, bytesBits_length]
  omega

/-- A bit is pulled while there is one; a byte is pulled only when none is unread. -/
theorem pullBit_cons {s : State} {b : Bool} {rest : List Bool} (h : sourceBits s = b :: rest) : ∃ cur rem,
    pullBit s = some (b, { s with
      brCur := cur, brRem := rem, srcPos := s.srcPos + if s.brRem = 0 then 1 else 0 }) ∧
    sourceBits { s with brCur := cur, brRem := rem, srcPos := s.srcPos + if s.brRem = 0 then 1 else 0 } = rest ∧
    rem.val = (if s.brRem = 0 then 8 else s.brRem.val) - 1 := by
  by_cases h0 : s.brRem = 0
  · cases hd : s.srcData.drop s.srcPos with
    | nil => rw [sourceBits_eq_nil.mpr ⟨h0, hd⟩] at h; simp at h
    | cons c cs =>
      have e : sourceBits s = lowBits c 8 ++ bytesBits cs := by simp [sourceBits, h0, hd]
      rw [e, lowBits_succ c 7] at h
      simp only [List.cons_append, List.cons.injEq] at h
      refine ⟨c, ⟨7, by omega⟩, ?_, ?_, by simp [h0]⟩
      · simp only [pullBit, refill, h0, if_true, srcPull_cons hd, Option.map_some, ← h.1]
        rfl
      · simp only [sourceBits, h0, if_true, drop_srcPos_succ hd]
        exact h.2
  · have hv : s.brRem.val ≠ 0 := fun e => h0 (Fin.ext e)
    obtain ⟨n, hn⟩ : ∃ n, s.brRem.val = n + 1 := ⟨s.brRem.val - 1, by omega⟩
    have e : sourceBits s = lowBits s.brCur (n + 1) ++ bytesBits (s.srcData.drop s.srcPos) := by
      simp [sourceBits, hn]
    rw [e, lowBits_succ] at h
    simp only [List.cons_append, List.cons.injEq] at h
    refine ⟨s.brCur, ⟨n, by omega⟩, ?_, ?_, by simp [h0, hn]⟩
    · simp [pullBit, refill, h0, hn, h.1]
    · simp only [sourceBits, h0, if_false, Nat.add_zero]
      exact h.2

/-- With nothing left no bit is pulled. -/
theorem pullBit_nil {s : State} (h : sourceBits s = []) : pullBit s = none := by
  obtain ⟨h0, hd⟩ := sourceBits_eq_nil.mp h
  simp [pullBit, refill, h0, srcPull_eq_none.mpr hd]

theorem shift_or_bit (v : Byte) (b : Bool) :
    (v <<< 1) ||| (BitVec.ofBool b).zeroExtend 8 = BitVec.ofNat 8 (2 * v.toNat + b.toNat) := by
  revert v b
  decide

/-- The loop of `PullBits` with enough bits left: the next bits, most significant first, and no byte more than they
need. -/
theorem pullBitsFrom_enough (n : Nat) (v : Byte) (s : State) (h : n ≤ (sourceBits s).length) : ∃ cur rem,
    pullBitsFrom n v s =
      (some (BitVec.ofNat 8 (((sourceBits s).take n).foldl (fun m b => 2 * m + b.toNat) v.toNat)),
        { s with brCur := cur, brRem := rem, srcPos := s.srcPos + (n - s.brRem.val + 7) / 8 }) ∧
    sourceBits { s with brCur := cur, brRem := rem, srcPos := s.srcPos + (n - s.brRem.val + 7) / 8 } =
      (sourceBits s).drop n := by
  induction n generalizing v s with
  | zero => exact ⟨s.brCur, s.brRem, by simp [pullBitsFrom], by simp⟩
  | succ n ih =>
    cases hs : sourceBits s with
    | nil => rw [hs] at h; simp at h
    | cons b rest =>
      obtain ⟨c1, r1, e1, b1, hr⟩ := pullBit_cons hs
      obtain ⟨c2, r2, e2, b2⟩ := ih (BitVec.ofNat 8 (2 * v.toNat + b.toNat))
        { s with brCur := c1, brRem := r1, srcPos := s.srcPos + if s.brRem = 0 then 1 else 0 }
        (by rw [b1]; rw [hs] at h; simpa using h)
      have hp : (s.srcPos + if s.brRem = 0 then 1 else 0) + (n - r1.val + 7) / 8 =
          s.srcPos + (n + 1 - s.brRem.val + 7) / 8 := by
        rw [hr]
        by_cases h0 : s.brRem = 0
        · simp only [h0, if_true, Fin.val_zero]; omega
        · have : s.brRem.val ≠ 0 := fun e => h0 (Fin.ext e)
          simp only [h0, if_false]; omega
      have hm : ∀ (l : List Bool) (x : Nat), BitVec.ofNat 8 (l.foldl (fun m b => 2 * m + b.toNat) (x % 256)) =
          BitVec.ofNat 8 (l.foldl (fun m b => 2 * m + b.toNat) x) := by
        intro l
        induction l using List.reverseRecOn with
        | nil => intro x; apply BitVec.eq_of_toNat_eq; simp
        | append_singleton l b ih =>
          intro x
          have := congrArg BitVec.toNat (ih x)
          apply BitVec.eq_of_toNat_eq
          simp only [BitVec.toNat_ofNat, List.foldl_append, List.foldl_cons, List.foldl_nil] at this ⊢
          omega
      simp only [b1, hp] at e2 b2
      refine ⟨c2, r2, ?_, by simpa using b2⟩
      simp only [pullBitsFrom, e1, shift_or_bit, e2, List.take_succ_cons, List.foldl_cons, BitVec.toNat_ofNat]
      rw [show (2 : Nat) ^ 8 = 256 from rfl, hm]

/-- The loop of `PullBits` with too few bits left: all of them are consumed and lost. -/
theorem pullBitsFrom_short (n : Nat) (v : Byte) (s : State) (h : (sourceBits s).length < n) :
    pullBitsFrom n v s = (none, { s with
      brCur := (s.srcData.drop s.srcPos).getLast?.getD s.brCur, brRem := 0,
      srcPos := s.srcPos + (s.srcData.drop s.srcPos).length }) := by
  induction n generalizing v s with
  | zero => omega
  | succ n ih =>
    cases hs : sourceBits s with
    | nil =>
      obtain ⟨h0, hd⟩ := sourceBits_eq_nil.mp hs
      simp [pullBitsFrom, pullBit_nil hs, hd, ← h0]
    | cons b rest =>
      obtain ⟨c1, r1, e1, b1, hr⟩ := pullBit_cons hs
      have e2 := ih (BitVec.ofNat 8 (2 * v.toNat + b.toNat))
        { s with brCur := c1, brRem := r1, srcPos := s.srcPos + if s.brRem = 0 then 1 else 0 }
        (by rw [b1]; rw [hs] at h; simpa using h)
      simp only [pullBitsFrom, e1, shift_or_bit, e2]
      by_cases h0 : s.brRem = 0
      · cases hd : s.srcData.drop s.srcPos with
        | nil => rw [sourceBits_eq_nil.mpr ⟨h0, hd⟩] at hs; simp at hs
        | cons c cs =>
          have hc : c1 = c := by
            simp only [pullBit, refill, h0, if_true, srcPull_cons hd, Option.map_some, Option.some.injEq,
              Prod.mk.injEq, State.mk.injEq] at e1
            exact e1.2.2.2.2.1.symm
          simp only [h0, if_true, drop_srcPos_succ hd, hc]
          cases cs <;> simp [Nat.add_assoc, Nat.add_comm, List.getLast?_cons]
      · have hc : c1 = s.brCur := by
          simp only [pullBit, refill, h0, if_false, Option.map_some, Option.some.injEq,
            Prod.mk.injEq, State.mk.injEq] at e1
          exact e1.2.2.2.2.1.symm
        simp [h0, hc]

/-- Everything `ReadBits` can do. -/
theorem readBits_cases (len : Nat) (s : State) :
    (8 < len ∧ readBits len s = .stop (s.takeFault .contract)) ∨
    (len ≤ 8 ∧ len ≤ (sourceBits s).length ∧ ∃ cur rem,
      readBits len s = .ok (BitVec.ofNat 8 (bitsValue ((sourceBits s).take len)))
        { s with brCur := cur, brRem := rem, srcPos := s.srcPos + (len - s.brRem.val + 7) / 8 } ∧
      sourceBits { s with brCur := cur, brRem := rem, srcPos := s.srcPos + (len - s.brRem.val + 7) / 8 } =
        (sourceBits s).drop len) ∨
    (len ≤ 8 ∧ (sourceBits s).length < len ∧ readBits len s = .stop (State.takeFault { s with
      brCur := (s.srcData.drop s.srcPos).getLast?.getD s.brCur, brRem := 0,
      srcPos := s.srcPos + (s.srcData.drop s.srcPos).length } .exhausted)) := by
  by_cases h : 8 < len
  · exact .inl ⟨h, by simp [readBits, h]⟩
  · by_cases hl : len ≤ (sourceBits s).length
    · obtain ⟨cur, rem, e, hb⟩ := pullBitsFrom_enough len 0 s hl
      refine .inr (.inl ⟨by omega, hl, cur, rem, ?_, hb⟩)
      unfold readBits pullBits
      rw [if_neg h, e]
      rfl
    · refine .inr (.inr ⟨by omega, by omega, ?_⟩)
      unfold readBits pullBits
      rw [if_neg h, pullBitsFrom_short len 0 s (by omega)]
      rfl

/-- Bits that are all held in `BR_CUR`. -/
theorem pullBitsFrom_held (n : Nat) (v : Byte) (s : State) (h : n ≤ s.brRem.val) : ∃ x,
    pullBitsFrom n v s = (x, { s with brRem := ⟨s.brRem.val - n, by omega⟩ }) := by
  induction n generalizing v s with
  | zero => exact ⟨some v, rfl⟩
  | succ n ih =>
    have h0 : s.brRem ≠ 0 := fun e => by rw [e] at h; simp at h
    obtain ⟨x, hx⟩ := ih ((v <<< 1) ||| (BitVec.ofBool (s.brCur.getLsbD (s.brRem.val - 1))).zeroExtend 8)
      { s with brRem := ⟨s.brRem.val - 1, by omega⟩ } (by simp only; omega)
    refine ⟨x, ?_⟩
    simp only [pullBitsFrom, pullBit, refill, h0, if_false, Option.map_some, hx, Nat.sub_sub, Nat.add_comm 1 n]

/-- The bits of a byte, read as a number, are the byte. -/
theorem bitsValue_lowBits_byte (b : Byte) : BitVec.ofNat 8 (bitsValue (lowBits b 8)) = b := by
  revert b
  decide

/-- A whole byte through an aligned reader. -/
theorem readBits_byte {s : State} {b : Byte} {rest : List Byte} (h0 : s.brRem = 0)
    (hd : s.srcData.drop s.srcPos = b :: rest) :
    readBits 8 s = .ok b { s with brCur := b, srcPos := s.srcPos + 1 } := by
  have hs : sourceBits s = lowBits b 8 ++ bytesBits rest := by simp [sourceBits, h0, hd]
  obtain ⟨cur, rem, e, -⟩ := pullBitsFrom_enough 8 0 s (by simp [hs])
  obtain ⟨x, e'⟩ := pullBitsFrom_held 7 (((0 : Byte) <<< 1) ||| (BitVec.ofBool (b.getLsbD 7)).zeroExtend 8)
    { s with brCur := b, brRem := 7, srcPos := s.srcPos + 1 } (show 7 ≤ (7 : Fin 9).val by decide)
  have e2 : pullBitsFrom 8 0 s = (x, { s with brCur := b, srcPos := s.srcPos + 1 }) := by
    have : pullBitsFrom 8 0 s = pullBitsFrom 7 (((0 : Byte) <<< 1) ||| (BitVec.ofBool (b.getLsbD 7)).zeroExtend 8)
        { s with brCur := b, brRem := 7, srcPos := s.srcPos + 1 } := by
      simp only [pullBitsFrom, pullBit, refill, h0, if_true, srcPull_cons hd, Option.map_some]
      rfl
    rw [this, e']
    simp only [h0]
    rfl
  have hx : x = some b := by
    have := congrArg Prod.fst (e2.symm.trans e)
    rw [hs, List.take_left' (by simp)] at this
    exact this.trans (congrArg some (bitsValue_lowBits_byte b))
  unfold readBits pullBits
  rw [if_neg (by decide), e2, hx]

/-- Whole bytes through an aligned reader. -/
theorem readBytes_aligned (bs rest : List Byte) (s : State) (h0 : s.brRem = 0)
    (hd : s.srcData.drop s.srcPos = bs ++ rest) :
    readBytes bs.length s =
      .ok bs { s with brCur := bs.getLast?.getD s.brCur, srcPos := s.srcPos + bs.length } := by
  induction bs generalizing s with
  | nil => simp [readBytes]
  | cons b cs ih =>
    rw [List.length_cons, readBytes, readBits_byte h0 hd, Res.andThen_ok,
      ih { s with brCur := b, srcPos := s.srcPos + 1 } h0 (by simpa using drop_srcPos_succ hd)]
    simp [Nat.add_assoc, Nat.add_comm, List.getLast?_cons]

/-! ## Bytes pulled by an aligned reader -/

@[simp] theorem State.pulled_zero (s : State) : s.pulled 0 = s := by simp [State.pulled]

/-- The source after bytes have been pulled. -/
theorem State.drop_pulled {s : State} {bs rest : List Byte} (hd : s.srcData.drop s.srcPos = bs ++ rest) :
    (s.pulled bs.length).srcData.drop (s.pulled bs.length).srcPos = rest := by
  simp only [State.pulled_srcData, State.pulled_srcPos]
  rw [← List.drop_drop, hd, List.drop_left']
  rfl

/-- Bytes pulled one run after another. -/
@[simp] theorem State.pulled_pulled (s : State) (j k : Nat) : (s.pulled j).pulled k = s.pulled (j + k) := by
  simp only [State.pulled, State.mk.injEq, Nat.add_assoc, and_true, true_and]
  rw [← List.drop_drop, List.take_add, List.getLast?_append]
  cases (((s.srcData.drop s.srcPos).drop j).take k).getLast? <;> simp

/-- `readBytes_aligned` in terms of `pulled`. -/
theorem readBytes_pulled (bs rest : List Byte) (s : State) (h0 : s.brRem = 0)
    (hd : s.srcData.drop s.srcPos = bs ++ rest) : readBytes bs.length s = .ok bs (s.pulled bs.length) := by
  rw [readBytes_aligned bs rest s h0 hd]
  simp [State.pulled, hd]

/-- Whole bytes from a source that ends first. -/
theorem readBytes_short (n : Nat) (s : State) (h0 : s.brRem = 0) (hn : (s.srcData.drop s.srcPos).length < n) :
    readBytes n s = .stop ((s.pulled (s.srcData.drop s.srcPos).length).takeFault .exhausted) := by
  induction n generalizing s with
  | zero => omega
  | succ n ih =>
    cases hd : s.srcData.drop s.srcPos with
    | nil =>
      have hs : sourceBits s = [] := sourceBits_eq_nil.mpr ⟨h0, hd⟩
      rcases readBits_cases 8 s with ⟨h, -⟩ | ⟨-, h, -⟩ | ⟨-, -, e⟩
      · omega
      · simp [hs] at h
      · rw [readBytes, e, Res.andThen_stop]
        simp only [hd, List.getLast?_nil, Option.getD_none, List.length_nil, Nat.add_zero, State.pulled_zero, ← h0]
    | cons b cs =>
      have e : readBits 8 s = .ok b (s.pulled 1) := by
        rw [readBits_byte h0 hd]; simp [State.pulled, hd]
      have hd' : (s.pulled 1).srcData.drop (s.pulled 1).srcPos = cs := State.drop_pulled (bs := [b]) hd
      rw [readBytes, e, Res.andThen_ok,
        ih (s.pulled 1) h0 (by rw [hd'] ; rw [hd] at hn; simpa using hn), hd', Res.andThen_stop,
        State.pulled_pulled, List.length_cons, Nat.add_comm]

/-! ## Multi-byte fields -/

@[simp] theorem bytesLE_length (n v : Nat) : (bytesLE n v).length = n := by
  induction n generalizing v with
  | zero => rfl
  | succ n ih => simp [bytesLE, ih]

@[simp] theorem fieldBytes_length (o : ByteOrder) (n v : Nat) : (fieldBytes o n v).length = n := by
  cases o <;> simp [fieldBytes]

theorem valueLE_bytesLE (n v : Nat) : valueLE (bytesLE n v) = v % 256 ^ n := by
  induction n generalizing v with
  | zero => simp [bytesLE, valueLE, Nat.mod_one]
  | succ n ih =>
    rw [bytesLE, valueLE, ih, BitVec.toNat_ofNat, Nat.pow_succ' (n := n), Nat.mod_mul]

/-- A field written and read in the same byte order. -/
theorem fieldValue_fieldBytes (o : ByteOrder) (n v : Nat) : fieldValue o (fieldBytes o n v) = v % 256 ^ n := by
  cases o <;> simp [fieldValue, fieldBytes, valueLE_bytesLE]

/-- `GetU` of a field at an aligned reader. -/
theorem getU_aligned (n v : Nat) (rest : List Byte) (s : State) (h0 : s.brRem = 0)
    (hd : s.srcData.drop s.srcPos = fieldBytes s.cfg.fieldByteOrder n v ++ rest) : ∃ cur,
    getU n s = .ok (v % 256 ^ n) { s with brCur := cur, srcPos := s.srcPos + n } := by
  have h := readBytes_aligned _ rest s h0 hd
  rw [fieldBytes_length] at h
  exact ⟨_, by rw [getU, h, Res.andThen_ok, fieldValue_fieldBytes]⟩

/-- `getU_aligned` in terms of `pulled`. -/
theorem getU_pulled (n v : Nat) (rest : List Byte) (s : State) (h0 : s.brRem = 0)
    (hd : s.srcData.drop s.srcPos = fieldBytes s.cfg.fieldByteOrder n v ++ rest) :
    getU n s = .ok (v % 256 ^ n) (s.pulled n) := by
  have h := readBytes_pulled _ rest s h0 hd
  rw [fieldBytes_length] at h
  rw [getU, h, Res.andThen_ok, State.pulled_cfg, fieldValue_fieldBytes]

/-- `GetU` at a source that ends first. -/
theorem getU_short (n : Nat) (s : State) (h0 : s.brRem = 0) (hn : (s.srcData.drop s.srcPos).length < n) :
    getU n s = .stop ((s.pulled (s.srcData.drop s.srcPos).length).takeFault .exhausted) := by
  rw [getU, readBytes_short n s h0 hn, Res.andThen_stop]

end Sys2Proof.Machine
end

