-- ==== Sys2Proof/Laws/PerInstr.lean ====
section
/-!
SUPPORT. One lemma for every command: its word splits into its fields, the fields it does not use are 0, and they match
one row of the opcode map (`30_encoding.md` R71, R72, R75).
-/

namespace Sys2Proof

/-- Splitting a word put together from fields gives the fields back. -/
theorem fieldsOf_wordOf (f : Fields) : fieldsOf (wordOf f) = f := by
  obtain ⟨op, a, b, rsv, d⟩ := f
  simp only [fieldsOf, wordOf, Fields.mk.injEq]
  refine ⟨?_, ?_, ?_, ?_, ?_⟩ <;>
  · refine BitVec.eq_of_getLsbD_eq fun i hi => ?_
    simp only [BitVec.getLsbD_extractLsb', BitVec.getLsbD_append, hi, decide_true, Bool.true_and]
    repeat first | rw [if_neg (by omega)] | rw [if_pos (by omega)]
    congr 1
    omega

namespace Laws.EncodeFields

/-- What every command's word satisfies. -/
def Statement (i : Instr) : Prop :=
  fieldsOf (encode i) = encodeFields i ∧ (encodeFields i).rsv = 0 ∧
    ∃ r ∈ opcodeTable, r.op = (encodeFields i).op ∧ r.format.admits (encodeFields i) = true

/-- The statement from the row's place in the map. -/
theorem of_row {i : Instr} (n : Fin 35) (hr : (encodeFields i).rsv = 0)
    (h : (opcodeTable[n.val]'(n.isLt)).op = (encodeFields i).op)
    (ha : (opcodeTable[n.val]'(n.isLt)).format.admits (encodeFields i) = true) : Statement i :=
  ⟨fieldsOf_wordOf _, hr, _, List.getElem_mem _, h, ha⟩

theorem nop : Statement .nop := of_row 0 rfl rfl rfl
theorem hdrSet (a : Byte) (d : Word32) : Statement (.hdrSet a d) := of_row 1 rfl rfl rfl
theorem hdrGet (a : Byte) : Statement (.hdrGet a) := of_row 2 rfl rfl rfl
theorem statGet : Statement .statGet := of_row 3 rfl rfl rfl
theorem sreset : Statement .sreset := of_row 4 rfl rfl rfl
theorem bwWrite (a : Byte) (b : Byte) : Statement (.bwWrite a b) := of_row 5 rfl rfl rfl
theorem bwFlush : Statement .bwFlush := of_row 6 rfl rfl rfl
theorem bwClose : Statement .bwClose := of_row 7 rfl rfl rfl
theorem brRead (a : Byte) : Statement (.brRead a) := of_row 8 rfl rfl rfl
theorem brBit : Statement .brBit := of_row 9 rfl rfl rfl
theorem brSkip : Statement .brSkip := of_row 10 rfl rfl rfl
theorem zsStart (a : Byte) : Statement (.zsStart a) := of_row 11 rfl rfl rfl
theorem zsNext : Statement .zsNext := of_row 12 rfl rfl rfl
theorem hfBuild (a : Byte) : Statement (.hfBuild a) := of_row 13 rfl rfl rfl
theorem hfTrav (a : Byte) : Statement (.hfTrav a) := of_row 14 rfl rfl rfl
theorem hfDec (a : Byte) : Statement (.hfDec a) := of_row 15 rfl rfl rfl
theorem hfEnc (a : Byte) (b : Byte) : Statement (.hfEnc a b) := of_row 16 rfl rfl rfl
theorem hfCode (a : Byte) (b : Byte) : Statement (.hfCode a b) := of_row 17 rfl rfl rfl
theorem lsClear : Statement .lsClear := of_row 18 rfl rfl rfl
theorem lsPush (a : Byte) (b : Byte) : Statement (.lsPush a b) := of_row 19 rfl rfl rfl
theorem lsPop (a : Byte) : Statement (.lsPop a) := of_row 20 rfl rfl rfl
theorem lsRewind : Statement .lsRewind := of_row 21 rfl rfl rfl
theorem lsFreq (a : Byte) (b : Byte) : Statement (.lsFreq a b) := of_row 22 rfl rfl rfl
theorem lsSetf (a : Byte) (b : Byte) (d : Word32) : Statement (.lsSetf a b d) := of_row 23 rfl rfl rfl
theorem lsInfo (a : Byte) (b : Byte) : Statement (.lsInfo a b) := of_row 24 rfl rfl rfl
theorem cfPuthdr : Statement .cfPuthdr := of_row 25 rfl rfl rfl
theorem cfGethdr : Statement .cfGethdr := of_row 26 rfl rfl rfl
theorem cfPutlayer (a : Byte) : Statement (.cfPutlayer a) := of_row 27 rfl rfl rfl
theorem cfGetlayer (a : Byte) : Statement (.cfGetlayer a) := of_row 28 rfl rfl rfl
theorem cfSer : Statement .cfSer := of_row 29 rfl rfl rfl
theorem cfDes : Statement .cfDes := of_row 30 rfl rfl rfl
theorem fsEncblk : Statement .fsEncblk := of_row 31 rfl rfl rfl
theorem fsDecblk (a : Byte) : Statement (.fsDecblk a) := of_row 32 rfl rfl rfl
theorem fsEnc (a : Byte) (d : Word32) : Statement (.fsEnc a d) := of_row 33 rfl rfl rfl
theorem fsRec (a : Byte) (d : Word32) : Statement (.fsRec a d) := of_row 34 rfl rfl rfl

end Laws.EncodeFields

end Sys2Proof
end

