-- ==== Sys2Proof/Laws/Units.lean ====
section
/-!
SUPPORT. What the procedures of the units can do: the layer store, the tree builder, the code table, the scan, the
header, the frames.
-/

namespace Sys2Proof.Machine

/-! ## Layer store -/

/-- Everything `Push` can do. -/
theorem push_cases (L : LayerNo) (x : Symbol) (s : State) :
    ((s.layer L).seq.length = maxSeqLength ∧ push L x s = .stop (s.takeRefusal .capacity)) ∨
    ((s.layer L).seq.length ≠ maxSeqLength ∧ push L x s = .ok () (s.setLayer L ((s.layer L).pushed x))) := by
  by_cases h : (s.layer L).seq.length = maxSeqLength
  · exact .inl ⟨h, by simp [push, h]⟩
  · exact .inr ⟨h, by simp [push, h]⟩

/-- The counts after a push. -/
theorem Layer.pushed_get (ly : Layer) (x y : Symbol) :
    Table.get (ly.pushed x).freq y = if y = x then some (ly.count x + 1) else Table.get ly.freq y :=
  Table.get_set ..

/-- A push appends one Symbol. -/
theorem Layer.pushed_appended (ly : Layer) (x : Symbol) : Appended ly (ly.pushed x) [x] := by
  refine ⟨by simp, fun _ => rfl, fun y => ?_⟩
  rw [Layer.pushed_get]
  by_cases h : y = x
  · subst h; simp
  · simp [h]

/-- Appending one Symbol and then more. -/
theorem Appended.cons {ly ly' : Layer} {x : Symbol} {xs : List Symbol} (h : Appended (ly.pushed x) ly' xs) :
    Appended ly ly' (x :: xs) := by
  obtain ⟨h0, h1, h2⟩ := h
  refine ⟨by simp, fun _ => ?_, fun y => ?_⟩
  · by_cases hx : xs = []
    · rw [h0 hx, hx]; rfl
    · rw [h1 hx]; simp [Layer.pushed, Layer.invalidate]
  rw [h2 y]
  by_cases hx : y = x
  · subst hx
    have e : (ly.pushed y).count y = ly.count y + 1 := by simp [Layer.count, Table.get_set]
    by_cases hm : y ∈ xs
    · simp only [hm, if_true, e, List.mem_cons, true_or, List.count_cons_self]
      congr 1
      rw [Nat.add_comm, BitVec.ofNat_add, ← BitVec.add_assoc]
      rfl
    · simp [hm, Table.get_set, List.count_eq_zero_of_not_mem hm]
  · have e : (ly.pushed x).count y = ly.count y := by simp [Layer.count, Table.get_set, hx]
    simp [hx, e, Table.get_set, Ne.symm hx]

/-- Appending nothing. -/
theorem Appended.nil (ly : Layer) : Appended ly ly [] := ⟨fun _ => rfl, fun h => absurd rfl h, fun y => by simp⟩

/-- Pushes that fit append their Symbols. -/
theorem pushAll_fits (L : LayerNo) (xs : List Symbol) (s : State)
    (h : (s.layer L).seq.length + xs.length ≤ maxSeqLength) : ∃ ly,
    pushAll L xs s = .ok () (s.setLayer L ly) ∧ Appended (s.layer L) ly xs := by
  induction xs generalizing s with
  | nil => exact ⟨s.layer L, by simp [pushAll], .nil _⟩
  | cons x xs ih =>
    have hp : push L x s = .ok () (s.setLayer L ((s.layer L).pushed x)) := by
      rcases push_cases L x s with ⟨e, -⟩ | ⟨-, e⟩
      · simp only [List.length_cons] at h; omega
      · exact e
    rw [pushAll, hp, Res.andThen_ok]
    obtain ⟨ly, e, ha⟩ := ih (s.setLayer L ((s.layer L).pushed x))
      (by simp only [State.layer_setLayer_same, Layer.pushed_seq, List.length_append, List.length_cons,
            List.length_nil] at h ⊢; omega)
    rw [State.layer_setLayer_same] at ha
    exact ⟨ly, by rw [e, State.setLayer_setLayer], ha.cons⟩

/-- Pushes that overfill a slot fill it and stop. -/
theorem pushAll_full (L : LayerNo) (xs : List Symbol) (s : State) (h : (s.layer L).seq.length ≤ maxSeqLength)
    (hx : maxSeqLength < (s.layer L).seq.length + xs.length) : ∃ ly,
    pushAll L xs s = .stop ((s.setLayer L ly).takeRefusal .capacity) ∧
      Appended (s.layer L) ly (xs.take (maxSeqLength - (s.layer L).seq.length)) := by
  induction xs generalizing s with
  | nil => simp only [List.length_nil] at hx; omega
  | cons x xs ih =>
    rcases push_cases L x s with ⟨hl, e⟩ | ⟨hl, e⟩
    · refine ⟨s.layer L, by rw [pushAll, e, Res.andThen_stop, State.setLayer_layer], ?_⟩
      rw [hl, Nat.sub_self, List.take_zero]
      exact .nil _
    · obtain ⟨ly, e', ha⟩ := ih (s.setLayer L ((s.layer L).pushed x))
        (by simp only [State.layer_setLayer_same, Layer.pushed_seq, List.length_append, List.length_cons,
              List.length_nil]; omega)
        (by simp only [State.layer_setLayer_same, Layer.pushed_seq, List.length_append, List.length_cons,
              List.length_nil] at hx ⊢; omega)
      rw [State.layer_setLayer_same, Layer.pushed_seq, List.length_append, List.length_singleton] at ha
      refine ⟨ly, by rw [pushAll, e, Res.andThen_ok, e', State.setLayer_setLayer], ?_⟩
      have : maxSeqLength - (s.layer L).seq.length = (maxSeqLength - ((s.layer L).seq.length + 1)) + 1 := by omega
      rw [this, List.take_succ_cons]
      exact ha.cons

/-- Everything `Pop` can do, in terms of the queue. -/
theorem pop_cases (L : LayerNo) (s : State) :
    ((s.layer L).queue = [] ∧ pop L s = .stop (s.takeRefusal .queueUnderflow)) ∨
    ∃ v rest, (s.layer L).queue = v :: rest ∧
      pop L s = .ok v (s.setLayer L { s.layer L with rp := (s.layer L).rp + 1 }) := by
  have hd : (s.layer L).seq[(s.layer L).rp]? = (s.layer L).queue.head? := by simp [Layer.queue, List.head?_drop]
  cases hq : (s.layer L).queue with
  | nil => exact .inl ⟨rfl, by simp [pop, hd, hq]⟩
  | cons v rest => exact .inr ⟨v, rest, rfl, by simp [pop, hd, hq]⟩

/-- A pop of a queue with a head. -/
theorem pop_cons {L : LayerNo} {s : State} {v : Symbol} {rest : List Symbol} (h : (s.layer L).queue = v :: rest) :
    pop L s = .ok v (s.setLayer L { s.layer L with rp := (s.layer L).rp + 1 }) := by
  rcases pop_cases L s with ⟨e, -⟩ | ⟨w, rest', e, hp⟩
  · rw [h] at e; simp at e
  · rw [h, List.cons.injEq] at e
    rw [hp, e.1]

/-- The queue after a pop. -/
theorem Layer.queue_succ {ly : Layer} {v : Symbol} {rest : List Symbol} (h : ly.queue = v :: rest) :
    ({ ly with rp := ly.rp + 1 } : Layer).queue = rest := by
  simp only [Layer.queue] at h ⊢
  rw [← List.drop_drop, h]
  rfl

/-- Pops of as many Symbols as there are positions. -/
theorem popInto_fits (L : LayerNo) (ps : List Pos) (vals rest : List Symbol) (blk : Block) (s : State)
    (hl : ps.length = vals.length) (hq : (s.layer L).queue = vals ++ rest) :
    popInto L ps blk s = .ok ((ps.zip vals).foldl (fun b p => blockSet b p.1 p.2) blk)
      (s.setLayer L { s.layer L with rp := (s.layer L).rp + vals.length }) := by
  induction ps generalizing vals blk s with
  | nil =>
    cases vals with
    | nil => exact congrArg (Res.ok blk) (State.setLayer_layer s L).symm
    | cons _ _ => simp at hl
  | cons p ps ih =>
    cases vals with
    | nil => simp at hl
    | cons v vals =>
      rw [popInto, pop_cons hq, Res.andThen_ok,
        ih vals _ _ (by simpa using hl) (by simpa using Layer.queue_succ hq)]
      simp [Nat.add_assoc, Nat.add_comm 1]

/-- Pops of more Symbols than the queue holds. -/
theorem popInto_short (L : LayerNo) (ps : List Pos) (blk : Block) (s : State)
    (hl : (s.layer L).queue.length < ps.length) :
    popInto L ps blk s = .stop
      ((s.setLayer L { s.layer L with rp := (s.layer L).rp + (s.layer L).queue.length }).takeRefusal .queueUnderflow) := by
  induction ps generalizing blk s with
  | nil => simp at hl
  | cons p ps ih =>
    rcases pop_cases L s with ⟨hq, e⟩ | ⟨v, rest, hq, e⟩
    · rw [popInto, e, Res.andThen_stop, hq, List.length_nil, Nat.add_zero, State.setLayer_layer]
    · have hq' := Layer.queue_succ hq
      rw [popInto, e, Res.andThen_ok, ih _ _ (by rw [hq] at hl; simpa [hq'] using hl)]
      simp [hq, hq', Nat.add_assoc, Nat.add_comm 1]

/-- The positions of a layer are as many as its size. -/
theorem layerScan_length (L N : LayerNo) (h : L.num ≤ N.num) : (layerScan L N).length = layerSize L N := by
  revert h
  cases L <;> cases N <;> decide

/-- A whole frame is popped to its end, its values placed at the layer's first positions. -/
theorem popFrame_whole {L N : LayerNo} {c : Symbol} {rest : List Symbol} (hN : L.num ≤ N.num) (blk : Block) (s : State)
    (hq : (s.layer L).queue = c :: rest) (hc : c.toNat ≤ layerSize L N) (hr : c.toNat ≤ rest.length) :
    popFrame L N blk s = .ok
      ((((layerScan L N).take c.toNat).zip (rest.take c.toNat)).foldl (fun b p => blockSet b p.1 p.2) blk)
      (s.setLayer L { s.layer L with rp := (s.layer L).rp + (1 + c.toNat) }) := by
  have hq' := Layer.queue_succ hq
  rw [popFrame, pop_cons hq, Res.andThen_ok, if_neg (by omega),
    popInto_fits L _ (rest.take c.toNat) (rest.drop c.toNat)
      (hl := by rw [List.length_take, List.length_take, layerScan_length L N hN]; omega)
      (hq := by rw [State.layer_setLayer_same, hq', List.take_append_drop])]
  simp [Nat.min_eq_left hr, Nat.add_assoc]

/-- The Symbols of a whole frame of a layer above 1. -/
theorem frameTaken_cons {L : LayerNo} (hL : L ≠ .l1) (c : Symbol) (rest : List Symbol) :
    frameTaken L (c :: rest) = 1 + c.toNat := by simp [frameTaken, hL]

/-- A queue that stops reconstruction stops its layer's frame. -/
theorem popFrame_stop {L N : LayerNo} {r : Reason} {n : Nat} (hN : L.num ≤ N.num) (blk : Block) (s : State)
    (h : FrameStop L N (s.layer L).queue r n) :
    popFrame L N blk s = .stop ((s.setLayer L { s.layer L with rp := (s.layer L).rp + n }).takeRefusal r) := by
  generalize hq : (s.layer L).queue = q at h
  cases h with
  | empty =>
    rcases pop_cases L s with ⟨-, e⟩ | ⟨v, rest, hq', -⟩
    · rw [popFrame, e, Res.andThen_stop, Nat.add_zero, State.setLayer_layer]
    · rw [hq] at hq'; simp at hq'
  | cut c rest _ fits short =>
    have hq' := Layer.queue_succ hq
    rw [popFrame, pop_cons hq, Res.andThen_ok, if_neg (by omega), popInto_short]
    · simp [hq', Nat.add_assoc, Nat.add_comm 1]
    · rw [State.layer_setLayer_same, hq', List.length_take, layerScan_length L N hN]
      omega
  | overrun c rest _ large => rw [popFrame, pop_cons hq, Res.andThen_ok, if_pos large, refuse_eq]

@[simp] theorem State.ending_ok {s : State} (v : Word64) (h : s.refused = none) : s.ending v = ⟨.ok, v⟩ := by
  simp [State.ending, h]

@[simp] theorem State.ending_refused {s : State} {r : Reason} (v : Word64) (h : s.refused = some r) :
    s.ending v = .ofRefusal r := by simp [State.ending, h, Response.ofRefusal]

/-! ## Tree and code table -/

@[simp] theorem Layer.rebuilt_code (ly : Layer) : ly.rebuilt.code = codeOf ly.freq := rfl

@[simp] theorem Layer.rebuilt_freq (ly : Layer) : ly.rebuilt.freq = ly.freq := rfl

@[simp] theorem Layer.rebuilt_seq (ly : Layer) : ly.rebuilt.seq = ly.seq := rfl

theorem insertLeaf_perm (p : Symbol × Word64) (l : List (Symbol × Word64)) : (insertLeaf p l).Perm (p :: l) := by
  induction l with
  | nil => exact .refl _
  | cons q rest ih =>
    simp only [insertLeaf]
    split
    · exact .refl _
    · exact (ih.cons q).trans (.swap p q rest)

/-- The ordered leaves are the entries of the table, in another order. -/
theorem orderLeaves_perm (freq : Table Word64) : (orderLeaves freq).Perm freq := by
  induction freq with
  | nil => exact .refl _
  | cons p rest ih => exact (insertLeaf_perm p _).trans (ih.cons p)

theorem leafBefore_trans {p q r : Symbol × Word64} (h1 : leafBefore p q = true) (h2 : leafBefore q r = true) :
    leafBefore p r = true := by
  simp only [leafBefore, Bool.or_eq_true, Bool.and_eq_true, decide_eq_true_eq] at *
  omega

theorem leafBefore_total {p q : Symbol × Word64} (h : leafBefore p q = false) : leafBefore q p = true := by
  simp only [leafBefore, Bool.or_eq_false_iff, Bool.and_eq_false_iff, decide_eq_false_iff_not, Bool.or_eq_true,
    Bool.and_eq_true, decide_eq_true_eq] at *
  omega

/-- The ordered leaves are in the order of (weight, Symbol). -/
theorem orderLeaves_sorted (freq : Table Word64) : (orderLeaves freq).Pairwise fun p q => leafBefore p q = true := by
  have ins : ∀ (p : Symbol × Word64) (l : List (Symbol × Word64)), l.Pairwise (fun p q => leafBefore p q = true) →
      (insertLeaf p l).Pairwise fun p q => leafBefore p q = true := by
    intro p l hl
    induction l with
    | nil => simp [insertLeaf]
    | cons q rest ih =>
      have ⟨h1, h2⟩ := List.pairwise_cons.mp hl
      simp only [insertLeaf]
      split
      · next h =>
        refine List.pairwise_cons.mpr ⟨fun r hr => ?_, hl⟩
        rcases List.mem_cons.mp hr with rfl | hr
        · exact h
        · exact leafBefore_trans h (h1 r hr)
      · next h =>
        refine List.pairwise_cons.mpr ⟨fun r hr => ?_, ih h2⟩
        rcases List.mem_cons.mp ((insertLeaf_perm p rest).mem_iff.mp hr) with rfl | hr
        · exact leafBefore_total (by simpa using h)
        · exact h1 r hr
  induction freq with
  | nil => exact .nil
  | cons p rest ih => exact ins p _ ih

/-- Everything `Traverse` can do. -/
theorem traverse_cases (L : LayerNo) (s : State) :
    (∃ code, codeTable (s.layer L).nodes (s.layer L).root = some code ∧
      traverse L s = .ok () (s.setLayer L ((s.layer L).withCode code))) ∨
    (codeTable (s.layer L).nodes (s.layer L).root = none ∧ traverse L s = .stuck .brokenArena) := by
  unfold traverse
  cases codeTable (s.layer L).nodes (s.layer L).root with
  | some code => exact .inl ⟨code, rfl, rfl⟩
  | none => exact .inr ⟨rfl, rfl⟩

/-- A walk adds entries in Symbol order. -/
theorem walk_ordered {nodes : List Node} (fuel k : Nat) (bits : Byte) (len : Nat) {t u : Table CodeEntry}
    (ht : TableOrdered t) (h : walk nodes fuel k bits len t = some u) : TableOrdered u := by
  induction fuel generalizing k bits len t u with
  | zero => simp [walk] at h
  | succ fuel ih =>
    simp only [walk] at h
    split at h
    · simp at h
    · simp only [Option.some.injEq] at h
      exact h ▸ Table.set_ordered ht ..
    · simp only [Option.bind_eq_some_iff] at h
      obtain ⟨v, h1, h2⟩ := h
      exact ih _ _ _ (ih _ _ _ ht h1) h2

/-- A code table is ordered. -/
theorem codeTable_ordered {nodes : List Node} {root : Option Nat} {t : Table CodeEntry}
    (h : codeTable nodes root = some t) : TableOrdered t := by
  cases root with
  | none => simp only [codeTable, Option.some.injEq] at h; subst h; exact .nil
  | some k => exact walk_ordered _ _ _ _ .nil h

/-- Everything `EncodeOne` can do before its bits are written. -/
theorem encodeOne_cases (L : LayerNo) (x : Symbol) (s : State) :
    (((s.layer L).codeValid = false ∨ Table.get (s.layer L).code x = none) ∧
      encodeOne L x s = .stop (s.takeRefusal .noCode)) ∨
    ∃ e, (s.layer L).codeValid = true ∧ Table.get (s.layer L).code x = some e ∧
      encodeOne L x s = (writeBits e.bits e.len s).andThen fun _ s => .ok e.len s := by
  cases hv : (s.layer L).codeValid with
  | false => exact .inl ⟨.inl rfl, by simp [encodeOne, hv]⟩
  | true =>
    cases hc : Table.get (s.layer L).code x with
    | none => exact .inl ⟨.inr rfl, by simp [encodeOne, hv, hc]⟩
    | some e => exact .inr ⟨e, rfl, rfl, by simp [encodeOne, hv, hc]⟩

/-- Everything `DecodeOne` can do before its first bit is read. -/
theorem decodeOne_cases (L : LayerNo) (s : State) :
    (((s.layer L).treeValid = false ∨ (s.layer L).root = none) ∧ decodeOne L s = .stop (s.takeRefusal .noTree)) ∨
    ∃ k, (s.layer L).treeValid = true ∧ (s.layer L).root = some k ∧
      decodeOne L s = descend (s.layer L).nodes (k + 1) k s := by
  cases hv : (s.layer L).treeValid with
  | false => exact .inl ⟨.inl rfl, by simp [decodeOne, hv]⟩
  | true =>
    cases hr : (s.layer L).root with
    | none => exact .inl ⟨.inr rfl, by simp [decodeOne, hv, hr]⟩
    | some k => exact .inr ⟨k, rfl, rfl, by simp [decodeOne, hv, hr]⟩

/-! ## Scan -/

theorem zz_mem (i : Fin 64) : zz i ∈ zzList := List.getElem_mem _

/-- No two scan indices name one position. -/
theorem zz_injective {i j : Fin 64} (h : zz i = zz j) : i = j := by
  have key : ∀ i : Fin 64, zzList.idxOf (zz i) = i.val := by decide
  have := key i
  rw [h, key j] at this
  exact Fin.ext this.symm

/-- Every position has a scan index. -/
theorem zz_surjective (p : Pos) : ∃ i, zz i = p := by
  have key : ∀ r c : Fin 8, (⟨r, c⟩ : Pos) ∈ zzList := by decide
  obtain ⟨n, hn, e⟩ := List.getElem_of_mem (key p.r p.c)
  exact ⟨⟨n, by rw [zzList_length] at hn; exact hn⟩, e⟩

/-- No two positions share a raster index. -/
theorem Pos.raster_inj {p q : Pos} (h : p.raster = q.raster) : p = q := by
  obtain ⟨⟨r, hr⟩, ⟨c, hc⟩⟩ := p
  obtain ⟨⟨r', hr'⟩, ⟨c', hc'⟩⟩ := q
  simp only [Pos.raster, Fin.mk.injEq, Pos.mk.injEq] at h ⊢
  omega

/-- A read after a write of a block. -/
theorem blockGet_blockSet (b : Block) (p q : Pos) (v : Symbol) :
    blockGet (blockSet b p v) q = if q = p then v else blockGet b q := by
  by_cases h : q = p
  · subst h; simp [blockGet, blockSet]
  · have : p.raster.val ≠ q.raster.val := fun e => h (Pos.raster_inj (Fin.ext e)).symm
    simp [blockGet, blockSet, h, Vector.getElem_set_ne _ _ this]

@[simp] theorem blockGet_blockFill (v : Symbol) (p : Pos) : blockGet (blockFill v) p = v := by
  simp [blockGet, blockFill]

/-! ## Frames -/

/-- The values of a list from the kept count on are `NEUTRAL`. -/
theorem keepCount_le (neutral : Symbol) (vals : List Symbol) : keepCount neutral vals ≤ vals.length := by
  induction vals with
  | nil => simp [keepCount]
  | cons v rest ih =>
    simp only [keepCount]
    split
    · split <;> simp
    · next h => rw [h] at ih; simp only [List.length_cons]; omega

/-! ## Header -/

theorem headerBytes_length (s : State) : (headerBytes s).length = 22 := by
  simp [headerBytes, magicBytes]

/-- The pull loop of `GetHeader` with enough bytes at an aligned reader. -/
theorem pullHeader_enough (bs rest buf : List Byte) (s : State) (h0 : s.brRem = 0)
    (hd : s.srcData.drop s.srcPos = bs ++ rest) :
    pullHeader bs.length buf s =
      .ok (buf ++ bs) { s with brCur := bs.getLast?.getD s.brCur, srcPos := s.srcPos + bs.length } := by
  induction bs generalizing buf s with
  | nil => simp [pullHeader]
  | cons b cs ih =>
    have e : pullBits 8 s = (some b, { s with brCur := b, srcPos := s.srcPos + 1 }) := by
      have h := readBits_byte h0 hd
      unfold readBits at h
      rw [if_neg (by decide)] at h
      split at h
      · next v u hv =>
        simp only [Res.ok.injEq] at h
        rw [hv, h.1, h.2]
      · simp at h
    have ih' := ih (buf ++ [b]) { s with brCur := b, srcPos := s.srcPos + 1 } h0 (by simpa using drop_srcPos_succ hd)
    simp only [List.length_cons, pullHeader, e, ih']
    simp [Nat.add_assoc, Nat.add_comm, List.getLast?_cons]

/-- The pull loop of `GetHeader` at a source that ends first. -/
theorem pullHeader_short (n : Nat) (buf : List Byte) (s : State) (h0 : s.brRem = 0)
    (hn : (s.srcData.drop s.srcPos).length < n) :
    pullHeader n buf s = headerEnd (buf ++ s.srcData.drop s.srcPos) { s with
      brCur := (s.srcData.drop s.srcPos).getLast?.getD s.brCur,
      srcPos := s.srcPos + (s.srcData.drop s.srcPos).length } := by
  induction n generalizing buf s with
  | zero => omega
  | succ n ih =>
    cases hd : s.srcData.drop s.srcPos with
    | nil =>
      have hs : sourceBits s = [] := sourceBits_eq_nil.mpr ⟨h0, hd⟩
      have e := pullBitsFrom_short 8 0 s (by simp [hs])
      simp only [hd, List.getLast?_nil, Option.getD_none, List.length_nil, Nat.add_zero] at e
      simp only [pullHeader, pullBits, e, ← h0]
      simp
    | cons b cs =>
      have e : pullHeader 1 buf s = .ok (buf ++ [b]) { s with brCur := b, srcPos := s.srcPos + 1 } :=
        pullHeader_enough [b] cs buf s h0 hd
      have e8 : pullBits 8 s = (some b, { s with brCur := b, srcPos := s.srcPos + 1 }) := by
        have h := readBits_byte h0 hd
        unfold readBits at h
        rw [if_neg (by decide)] at h
        split at h
        · next v u hv =>
          simp only [Res.ok.injEq] at h
          rw [hv, h.1, h.2]
        · simp at h
      have hd' := drop_srcPos_succ hd
      have ih' := ih (buf ++ [b]) { s with brCur := b, srcPos := s.srcPos + 1 } h0
        (by rw [hd] at hn; simp only [List.length_cons] at hn; simp only [hd']; omega)
      simp only [hd'] at ih'
      simp only [pullHeader, e8, ih']
      simp [Nat.add_assoc, Nat.add_comm, List.getLast?_cons]

/-- The writer's guard. -/
theorem whenWriterAligned_cases {α : Type} (body : State → Res α) (s : State) :
    (s.bwFill = 0 ∧ whenWriterAligned body s = body s) ∨
    (s.bwFill ≠ 0 ∧ whenWriterAligned body s = .stop (s.takeRefusal .misaligned)) := by
  by_cases h : s.bwFill = 0
  · exact .inl ⟨h, by simp [whenWriterAligned, h]⟩
  · exact .inr ⟨h, by simp [whenWriterAligned, h]⟩

/-- The reader's guard. -/
theorem whenReaderAligned_cases {α : Type} (body : State → Res α) (s : State) :
    (s.brRem = 0 ∧ whenReaderAligned body s = body s) ∨
    (s.brRem ≠ 0 ∧ whenReaderAligned body s = .stop (s.takeRefusal .misaligned)) := by
  by_cases h : s.brRem = 0
  · exact .inl ⟨h, by simp [whenReaderAligned, h]⟩
  · exact .inr ⟨h, by simp [whenReaderAligned, h]⟩

end Sys2Proof.Machine
end

