-- ==== Sys2Proof/Tests/Slice0.lean ====
section
/-!
SUPPORT. The model's own tests: ill-formed commands, every command's word written out from `30_encoding.md` R71, R75 and
R79, one step of every command with the result `95_test_vectors.md` gives, and for every statement with hypotheses a
concrete state and operands that meet them.
-/

namespace Sys2Proof.Tests

open Sys2Proof Sys2Proof.Machine

set_option Elab.async false

/-! ## Helpers -/

/-- The next state, or the reset state where there is none. -/
def nextOf : Host.Outcome State Fault Refusal → State
  | .next t => t
  | _ => State.reset

/-- The responses of one command, as numbers. -/
def answered (i : Instr) (s : State) : List (Nat × Nat) :=
  (nextOf (exec i s)).responses.map fun r => (r.status.code.toNat, r.value.toNat)

/-- The state after one command. -/
def after (i : Instr) (s : State) : State := { nextOf (exec i s) with responses := [] }

/-- Reset, with a source. -/
def source (bs : List Byte) : State := { State.reset with srcData := bs }

/-- Reset, with slot 1 holding a layer. -/
def slot1 (ly : Layer) : State := { State.reset with layers := { Layers.empty with l1 := ly } }

/-- Reset, with slot 2 holding a layer. -/
def slot2 (ly : Layer) : State := { State.reset with layers := { Layers.empty with l2 := ly } }

/-- A slot with a table. -/
def tabled (freq : Table Word64) : Layer := { Layer.empty with freq := freq }

/-- Vector H1's table. -/
def tableH1 : Table Word64 := [(0x41, 5), (0x42, 9), (0x43, 12), (0x44, 13), (0x45, 16), (0x46, 45)]

/-- Vector H2's table. -/
def tableH2 : Table Word64 := [(0, 1), (1, 1), (2, 1)]

/-- Vector H3's table. -/
def tableH3 : Table Word64 := [(10, 4), (20, 4), (30, 1), (40, 1), (50, 2)]

/-- The slot of vector S10. -/
def layerS10 : Layer := { Layer.empty with seq := [7, 7, 9], freq := [(7, 2), (9, 1)] }

/-- A block given by its entries that are not 0x80. -/
def block (l : List (Pos × Symbol)) : Block := l.foldl (fun b p => blockSet b p.1 p.2) (blockFill 0x80)

/-- Block A of vector Q1. -/
def blockA : Block := block [(⟨0, 0⟩, 0x10), (⟨0, 1⟩, 0x20), (⟨2, 0⟩, 0x05), (⟨0, 2⟩, 0x06)]

/-- Block B of vector Q2. -/
def blockB : Block := block [(⟨0, 0⟩, 0x10), (⟨1, 0⟩, 0x20)]

/-- The layers of vector Q1, block A in three layers. -/
def layersQ1 : Layers :=
  { Layers.empty with
    l1 := { Layer.empty with seq := [0x10], freq := [(0x10, 1)] }
    l2 := { Layer.empty with seq := [0x01, 0x20], freq := [(0x01, 1), (0x20, 1)] }
    l3 := { Layer.empty with
      seq := [0x03, 0x05, 0x80, 0x06], freq := [(0x03, 1), (0x05, 1), (0x06, 1), (0x80, 1)] } }

/-- Three layers, Huffman coding, block A encoded. -/
def stateQ1 : State := { State.reset with hFlags := 0x43, layers := layersQ1 }

/-! ## WellFormed refuses an ill-formed term of each check -/

theorem test_length_nine_is_ill_formed : wellFormed (.bwWrite 9 0) = false ∧ wellFormed (.brRead 9) = false ∧
    wellFormed (.bwWrite 8 0) = true ∧ wellFormed (.brRead 0) = true := by decide

theorem test_layer_zero_and_nine_are_ill_formed : wellFormed (.hfBuild 0) = false ∧ wellFormed (.hfTrav 9) = false ∧
    wellFormed (.hfDec 0) = false ∧ wellFormed (.hfEnc 9 0) = false ∧ wellFormed (.hfCode 0 0) = false ∧
    wellFormed (.lsPush 9 0) = false ∧ wellFormed (.lsPop 0) = false ∧ wellFormed (.lsFreq 9 0) = false ∧
    wellFormed (.lsSetf 0 0 0) = false ∧ wellFormed (.cfPutlayer 9) = false ∧ wellFormed (.cfGetlayer 0) = false ∧
    wellFormed (.hfBuild 1) = true ∧ wellFormed (.hfBuild 8) = true := by decide

theorem test_count_zero_and_nine_are_ill_formed : wellFormed (.zsStart 0) = false ∧ wellFormed (.fsEnc 9 1) = false ∧
    wellFormed (.zsStart 8) = true := by decide

theorem test_header_register_six_is_ill_formed : wellFormed (.hdrSet 6 0) = false ∧ wellFormed (.hdrGet 6) = false ∧
    wellFormed (.hdrGet 5) = true := by decide

theorem test_wide_header_byte_is_ill_formed : wellFormed (.hdrSet 4 0x100) = false ∧
    wellFormed (.hdrSet 3 0x100) = true := by decide

theorem test_selector_seven_is_ill_formed : wellFormed (.lsInfo 1 7) = false ∧ wellFormed (.lsInfo 0 6) = false ∧
    wellFormed (.lsInfo 1 6) = true := by decide

/-! ## Decoding: one word of every command, written out from its opcode, format and fields -/

theorem test_decode_system : decode 0x0000000000000000 = some .nop ∧
    decode 0x01040000000000C8 = some (.hdrSet 4 0xC8) ∧ decode 0x0205000000000000 = some (.hdrGet 5) ∧
    decode 0x0300000000000000 = some .statGet ∧ decode 0x0400000000000000 = some .sreset := by decide

theorem test_decode_bit_stream : decode 0x1003050000000000 = some (.bwWrite 3 0x05) ∧
    decode 0x1100000000000000 = some .bwFlush ∧ decode 0x1200000000000000 = some .bwClose ∧
    decode 0x1806000000000000 = some (.brRead 6) ∧ decode 0x1900000000000000 = some .brBit ∧
    decode 0x1A00000000000000 = some .brSkip := by decide

theorem test_decode_scanner : decode 0x2008000000000000 = some (.zsStart 8) ∧
    decode 0x2100000000000000 = some .zsNext := by decide

theorem test_decode_huffman : decode 0x3001000000000000 = some (.hfBuild 1) ∧
    decode 0x3102000000000000 = some (.hfTrav 2) ∧ decode 0x3203000000000000 = some (.hfDec 3) ∧
    decode 0x3301430000000000 = some (.hfEnc 1 0x43) ∧ decode 0x3401440000000000 = some (.hfCode 1 0x44) := by decide

theorem test_decode_layer_store : decode 0x4000000000000000 = some .lsClear ∧
    decode 0x4102070000000000 = some (.lsPush 2 7) ∧ decode 0x4202000000000000 = some (.lsPop 2) ∧
    decode 0x4300000000000000 = some .lsRewind ∧ decode 0x4402200000000000 = some (.lsFreq 2 0x20) ∧
    decode 0x4501410000000005 = some (.lsSetf 1 0x41 5) ∧ decode 0x4602030000000000 = some (.lsInfo 2 3) := by decide

theorem test_decode_container : decode 0x5000000000000000 = some .cfPuthdr ∧
    decode 0x5100000000000000 = some .cfGethdr ∧ decode 0x5208000000000000 = some (.cfPutlayer 8) ∧
    decode 0x5301000000000000 = some (.cfGetlayer 1) ∧ decode 0x5400000000000000 = some .cfSer ∧
    decode 0x5500000000000000 = some .cfDes := by decide

theorem test_decode_frames : decode 0x6000000000000000 = some .fsEncblk ∧
    decode 0x6107000000000000 = some (.fsDecblk 7) ∧ decode 0x620800000000000C = some (.fsEnc 8 12) ∧
    decode 0x6300000000000002 = some (.fsRec 0 2) := by decide

/-- Vectors E9 to E12, and reserved bits of the other formats. -/
theorem test_decode_illegal : decode 0x0500000000000000 = none ∧ decode 0x1100000000000001 = none ∧
    decode 0x1003050100000000 = none ∧ decode 0x1803000000000001 = none ∧ decode 0xFF00000000000000 = none ∧
    decode 0x4501410100000005 = none ∧ decode 0x6208010000000000 = none := by decide

theorem test_decode_table_word : decodeTableWord 64 0x4501410000000005 = some (.lsSetf 1 0x41 5) ∧
    decodeTableWord 64 0x0500000000000000 = none := by decide

/-! ## One step of every command -/

/-- The first instruction after reset is the word `withFetchWord` gives. -/
theorem test_step_runs_the_offered_word :
    (nextOf (step (State.reset.withFetchWord 64 0x2003000000000000))).zsN = .l3 := by decide

/-- Vectors Y1 and Y9. -/
theorem test_nop : answered .nop State.reset = [(0, 0)] ∧
    answered .nop { State.reset with refused := some .queueUnderflow } = [(3, 12)] := by decide

/-- Vectors Y2 and Y3. -/
theorem test_hdr_set : (after (.hdrSet 4 0xD8) State.reset).hFlags = 0xC8 ∧
    answered (.hdrSet 4 0x100) State.reset = [(3, 15)] := by decide

/-- Vectors Y5 and Y4. -/
theorem test_hdr_get : answered (.hdrGet 5) { State.reset with hQuality := 0x5A } = [(0, 0x5A)] ∧
    answered (.hdrGet 6) State.reset = [(3, 15)] := by decide

/-- Vectors Y8 and Y9. -/
theorem test_stat_get : answered .statGet { State.reset with fault := some .contract } = [(0, 3)] ∧
    answered .statGet { State.reset with refused := some .queueUnderflow } = [(0, 0x0C00)] := by decide

/-- Vectors Y10 and Y12. -/
theorem test_sreset :
    after .sreset { source [0xB5, 0x80] with srcPos := 2, brCur := 0x80, brRem := 7, bwOpen := false, snkReleased := true } =
      { source [0xB5, 0x80] with srcPos := 2 } := by decide

/-- Vectors B2 and B10a. -/
theorem test_bw_write :
    after (.bwWrite 6 0x2B) { State.reset with bwAcc := 0xA0, bwFill := 3 } =
      { State.reset with bwAcc := 0x80, bwFill := 1, snkData := [0xB5] } ∧
    answered (.bwWrite 9 0) { State.reset with bwOpen := false } = [(2, 3)] := by decide

/-- Vectors B3 and B4. -/
theorem test_bw_flush :
    after .bwFlush { State.reset with bwAcc := 0x80, bwFill := 1, snkData := [0xB5] } =
      { State.reset with snkData := [0xB5, 0x80] } ∧
    after .bwFlush State.reset = State.reset := by decide

/-- Vector B9. -/
theorem test_bw_close :
    after .bwClose { State.reset with bwAcc := 0x80, bwFill := 1 } =
      { State.reset with snkData := [0x80], bwOpen := false, snkReleased := true } := by decide

/-- Vectors B12 and B17. -/
theorem test_br_read :
    answered (.brRead 6) { source [0xB5, 0x80] with srcPos := 1, brCur := 0xB5, brRem := 5 } = [(0, 0x2B)] ∧
    after (.brRead 8) { source [0xA5] with srcPos := 1, brCur := 0xA5, brRem := 4 } =
      { source [0xA5] with srcPos := 1, brCur := 0xA5, fault := some .exhausted } := by decide

/-- Vectors B20 and B19. -/
theorem test_br_bit :
    after .brBit (source [0x80]) = { source [0x80] with srcPos := 1, brCur := 0x80, brRem := 7 } ∧
    answered .brBit State.reset = [(2, 4)] := by decide

/-- Vector B13. -/
theorem test_br_skip :
    after .brSkip { source [0xB5, 0x80] with srcPos := 2, brCur := 0x80, brRem := 7 } =
      { source [0xB5, 0x80] with srcPos := 2, brCur := 0x80 } := by decide

/-- Vectors Z22 and Z20. -/
theorem test_zs_start :
    after (.zsStart 3) { State.reset with zsI := 17 } = { State.reset with zsN := .l3, zsI := 0 } ∧
    answered (.zsStart 9) State.reset = [(3, 3)] := by decide

/-- Vectors Z10 and Z17. -/
theorem test_zs_next : answered .zsNext { State.reset with zsI := 35 } = [(0, 0x788F8)] ∧
    answered .zsNext { State.reset with zsN := .l3, zsI := 63 } = [(0, 0x3C3FFF)] := by decide

/-- Vector H3. -/
theorem test_hf_build :
    ((after (.hfBuild 1) (slot1 (tabled tableH3))).layer .l1).nodes =
      [.leaf 30 1, .leaf 40 1, .leaf 50 2, .leaf 10 4, .leaf 20 4, .internal 0 1 2, .internal 2 3 6, .internal 5 6 8,
        .internal 7 4 12] ∧
    answered (.hfBuild 1) (slot1 (tabled tableH1)) = [(0, 11)] := by decide +kernel

/-- Vector H2. -/
theorem test_hf_trav :
    ((after (.hfTrav 1) (slot1 (tabled tableH2).buildTree)).layer .l1).code =
      [(0, ⟨2, 0⟩), (1, ⟨2, 1⟩), (2, ⟨1, 1⟩)] := by decide +kernel

/-- Vector H13, the first and the last decode. -/
theorem test_hf_dec :
    answered (.hfDec 1) { slot1 (tabled tableH1).buildTree with srcData := [0x5C] } = [(0, 0x43)] ∧
    answered (.hfDec 1) { slot1 (tabled tableH1).buildTree with
      srcData := [0x5C], srcPos := 1, brCur := 0x5C, brRem := 1 } = [(2, 4)] := by decide +kernel

/-- Vector H12, its second command. -/
theorem test_hf_enc :
    (after (.hfEnc 1 0x46) { slot1 (tabled tableH1).rebuilt with bwAcc := 0x40, bwFill := 3 }).bwAcc = 0x58 ∧
    answered (.hfEnc 1 0) (slot1 (tabled tableH1).rebuilt) = [(3, 6)] := by decide +kernel

/-- Vector H11. -/
theorem test_hf_code : answered (.hfCode 1 0x44) (slot1 (tabled tableH1).rebuilt) = [(0, 0x1303)] ∧
    answered (.hfCode 1 0) (slot1 (tabled tableH1).rebuilt) = [(0, 0)] := by decide +kernel

/-- Vector S16. -/
theorem test_ls_clear : after .lsClear (slot2 layerS10) = State.reset := by decide

/-- Vector S10, its last push, and a push into a valid tree (vector H14). -/
theorem test_ls_push :
    answered (.lsPush 2 9) (slot2 { Layer.empty with seq := [7, 7], freq := [(7, 2)] }) = [(0, 3)] ∧
    (after (.lsPush 2 9) (slot2 (tabled [(7, 2)]).rebuilt)).layer .l2 =
      { (tabled [(7, 2)]).rebuilt with seq := [9], freq := [(7, 2), (9, 1)], treeValid := false, codeValid := false } := by
  decide +kernel

/-- Vector S13. -/
theorem test_ls_pop : answered (.lsPop 2) (slot2 { layerS10 with rp := 2 }) = [(0, 9)] ∧
    answered (.lsPop 2) (slot2 { layerS10 with rp := 3 }) = [(3, 12)] := by decide

/-- Vector S14. -/
theorem test_ls_rewind : after .lsRewind (slot2 { layerS10 with rp := 3 }) = slot2 layerS10 := by decide

/-- Vector S12. -/
theorem test_ls_freq : answered (.lsFreq 2 7) (slot2 layerS10) = [(0, 2)] ∧
    answered (.lsFreq 2 8) (slot2 layerS10) = [(0, 0)] := by decide

/-- Vector S17. -/
theorem test_ls_setf : (after (.lsSetf 1 0x41 0) State.reset).layer .l1 = tabled [(0x41, 0)] := by decide

/-- Vectors S20 and S11. -/
theorem test_ls_info : answered (.lsInfo 2 4) (slot2 layerS10.rebuilt) = [(0, 3)] ∧
    answered (.lsInfo 2 6) (slot2 layerS10) = [(0, 0xFFFF)] := by decide +kernel

/-- Vector S1, written in `BE` order. -/
theorem test_cf_puthdr :
    (after .cfPuthdr { State.reset with
      hWidth := 100, hHeight := 50, hPadW := 104, hPadH := 56, hFlags := 0xC8,
      cfg := { Config.defaults with fieldByteOrder := .be } }).snkData =
      [0x50, 0x49, 0x43, 0x54, 0x53, 0xC8, 0, 0, 0, 0x64, 0, 0, 0, 0x32, 0, 0, 0, 0x68, 0, 0, 0, 0x38] := by
  decide +kernel

/-- Vector S1, read back, and vector S2. -/
theorem test_cf_gethdr :
    after .cfGethdr
      (source [0x50, 0x49, 0x43, 0x54, 0x53, 0xC8, 0x64, 0, 0, 0, 0x32, 0, 0, 0, 0x68, 0, 0, 0, 0x38, 0, 0, 0]) =
      { source [0x50, 0x49, 0x43, 0x54, 0x53, 0xC8, 0x64, 0, 0, 0, 0x32, 0, 0, 0, 0x68, 0, 0, 0, 0x38, 0, 0, 0] with
        srcPos := 22, hWidth := 100, hHeight := 50, hPadW := 104, hPadH := 56, hFlags := 0xC8 } ∧
    answered .cfGethdr (source [0x50, 0x49, 0x43, 0x54, 0x53, 0xC8, 0x64, 0, 0, 0]) = [(2, 1)] := by
  decide +kernel

/-- The bytes of vector C4. -/
def sectionC4 : List Byte :=
  [2, 0, 0, 0, 7, 2, 0, 0, 0, 0, 0, 0, 0, 9, 1, 0, 0, 0, 0, 0, 0, 0, 5, 0, 0, 0, 3, 0, 0, 0, 0xC0]

/-- Vector C4. -/
theorem test_cf_putlayer : (after (.cfPutlayer 2) (slot2 layerS10.rebuilt)).snkData = sectionC4 := by decide +kernel

/-- Vector C4 read back into slot 5, and vector C10. -/
theorem test_cf_getlayer :
    (after (.cfGetlayer 5) (source sectionC4)).layer .l5 = { layerS10.buildTree with lsLen := 5 } ∧
    answered (.cfGetlayer 1) (source [2, 0, 0, 0, 7, 1, 0, 0, 0, 0, 0, 0, 0, 7, 1, 0, 0, 0, 0, 0, 0, 0]) = [(3, 8)] := by
  decide +kernel

/-- Vectors C6 and C7. -/
theorem test_cf_ser :
    (after .cfSer { State.reset with hFlags := 0x40 }).snkData =
      [0x50, 0x49, 0x43, 0x54, 0x53, 0x40, 0, 0, 0, 0, 0, 0, 0, 0, 0, 0, 0, 0, 0, 0, 0, 0] ∧
    answered .cfSer { State.reset with hFlags := 0x03 } = [(3, 9)] := by decide +kernel

/-- A header of one layer and then the section of vector C4; vector C14 at 22 bytes. -/
theorem test_cf_des :
    (after .cfDes (source ([0x50, 0x49, 0x43, 0x54, 0x53, 0x41, 0, 0, 0, 0, 0, 0, 0, 0, 0, 0, 0, 0, 0, 0, 0, 0] ++
      sectionC4))).layers = { Layers.empty with l1 := { layerS10.buildTree with lsLen := 5 } } ∧
    answered .cfDes (source [0x50, 0x49, 0x43, 0x54, 0x53, 0x41, 0, 0, 0, 0, 0, 0, 0, 0, 0, 0, 0, 0, 0, 0, 0, 0]) =
      [(2, 4)] := by decide +kernel

/-- Vectors Q2 and Q13. -/
theorem test_fs_encblk :
    ((after .fsEncblk { State.reset with hFlags := 0x03, binData := [blockB] }).layer .l2).seq = [0x02, 0x80, 0x20] ∧
    (after .fsEncblk { State.reset with binData := [blockB] }).binPos = 1 := by decide +kernel

/-- Vectors Q8 and Q11. -/
theorem test_fs_decblk :
    (after (.fsDecblk 2) stateQ1).bout = [block [(⟨0, 0⟩, 0x10), (⟨0, 1⟩, 0x20)]] ∧
    answered (.fsDecblk 0) { State.reset with
      hFlags := 0x43, layers := { Layers.empty with l1 := { Layer.empty with seq := [0x10] },
                                                    l2 := { Layer.empty with seq := [3] } } } = [(3, 11)] := by
  decide +kernel

/-- Vector Q1 through `FS.ENC`, and vector Q14. -/
theorem test_fs_enc :
    (after (.fsEnc 3 1) { State.reset with binData := [blockA] }).layers = layersQ1 ∧
    answered (.fsEnc 3 2) { State.reset with binData := [blockA] } = [(3, 13)] := by decide +kernel

/-- Vector Q8 through `FS.REC`, from cursors that are not at the start. -/
theorem test_fs_rec :
    (after (.fsRec 0 1) { stateQ1 with layers := { layersQ1 with l1 := { layersQ1.l1 with rp := 1 } } }).bout = [blockA] ∧
    answered (.fsRec 7 0) stateQ1 = [(0, 3)] := by decide +kernel

/-! ## Witnesses: a concrete state and operands that meet the hypotheses of each statement, clause by clause -/

/-- Reset, with one command word pending. -/
def offered (w : Command) : State := { State.reset with inbox := [.command w] }

theorem witness_StepRunsTheDecodedCommand :
    decode 0x63030000FFFFFFFF = some (.fsRec 3 0xFFFFFFFF) ∧
    (offered 0x63030000FFFFFFFF).inbox = .command 0x63030000FFFFFFFF :: [] ∧ State.reset.inbox = [] := by decide

theorem witness_IllegalWordIsRefused :
    Running (offered 0x1100000000000001) ∧
    (offered 0x1100000000000001).inbox = .command 0x1100000000000001 :: [] ∧
    (∀ r ∈ opcodeTable, 0x1100000000000001 &&& r.format.mask ≠ r.matchWord) ∧
    (∀ r ∈ opcodeTable, 0x6400000000000000 &&& r.format.mask ≠ r.matchWord) := by decide

theorem witness_StoppedCoreAnswersThePendingEvent :
    (offered 0x0500000000000000).inbox = .command 0x0500000000000000 :: [] ∧
    (0x0500000000000000 : Command) ≠ 0x0300000000000000 ∧ (0x0500000000000000 : Command) ≠ 0x0400000000000000 ∧
    { offered 0x0500000000000000 with fault := some .exhausted }.fault = some .exhausted ∧
    { offered 0x0500000000000000 with refused := some .badRegister }.fault = none ∧
    { offered 0x0500000000000000 with refused := some .badRegister }.refused = some .badRegister ∧
    (offered 0x0300000000000000).inbox = .command 0x0300000000000000 :: [] ∧
    (offered 0x0400000000000000).inbox = .command 0x0400000000000000 :: [] := by decide

/-- The second part of `StoppedCoreAnswersThePendingEvent`: a refusal taken with no fault pending. -/
theorem witness_StoppedCoreAnswersThePendingEvent_one_event :
    (offered 0x6000000000000000).fault = none ∧ ∃ t, step (offered 0x6000000000000000) = .next t :=
  ⟨rfl, ⟨_, rfl⟩⟩

theorem witness_ResetInputResets : { State.reset with inbox := [.reset] }.inbox = .reset :: [] := by decide

/-- For `NopChangesNothing`, `HeaderRegistersAreRead`, `SkipDropsTheUnreadBits` and `ClearAndRewindTouchEverySlot`. -/
theorem witness_running : Running State.reset ∧ Running stateQ1 ∧
    { stateQ1 with fault := some .contract }.fault = some .contract ∧
    { stateQ1 with refused := some .noTree }.fault = none ∧
    { stateQ1 with refused := some .noTree }.refused = some .noTree := by decide

theorem witness_HeaderRegistersAreWritten :
    Running State.reset ∧ (255 : Word32).toNat < 256 ∧ 256 ≤ (256 : Word32).toNat ∧ 3 < (4 : Byte).toNat ∧
    3 < (5 : Byte).toNat ∧ 5 < (6 : Byte).toNat ∧ 5 < (255 : Byte).toNat := by decide

theorem witness_HeaderRegistersAreRead : Running State.reset ∧ 5 < (6 : Byte).toNat := by decide

theorem witness_WriteAppendsTheLowBits :
    Running State.reset ∧ 8 < (9 : Byte).toNat ∧ (8 : Byte).toNat ≤ 8 ∧ (0 : Byte).toNat ≤ 8 ∧
    State.reset.bwOpen = true ∧ WriterTidy State.reset ∧ Running { State.reset with bwOpen := false } ∧
    { State.reset with bwOpen := false }.bwOpen = false := by decide

theorem witness_FlushAndCloseEmitThePendingByte :
    Running { State.reset with bwOpen := false } ∧ { State.reset with bwOpen := false }.bwOpen = false ∧
    State.reset.bwOpen = true ∧ State.reset.bwFill = 0 ∧ Running { State.reset with bwAcc := 0xFE, bwFill := 7 } ∧
    { State.reset with bwAcc := 0xFE, bwFill := 7 }.bwOpen = true ∧
    { State.reset with bwAcc := 0xFE, bwFill := 7 }.bwFill ≠ 0 := by decide

/-- Over-long, the last bit of the source, and one bit more than it has. -/
theorem witness_ReadTakesTheNextBits :
    Running (source [0xA5]) ∧ (9 : Byte).toNat = 9 ∧ (8 : Byte).toNat = 8 ∧ 8 ≤ (sourceBits (source [0xA5])).length ∧
    1 ≤ (sourceBits (source [0xA5])).length ∧
    (sourceBits { source [0xA5] with srcPos := 1, brCur := 0xA5, brRem := 7 }).length < 8 ∧
    (sourceBits (source [])).length < 1 := by decide

/-- Vectors B1 to B3 and B11, B12. -/
theorem witness_WrittenBitsReadBack :
    Running State.reset ∧ State.reset.bwOpen = true ∧ State.reset.bwFill = 0 ∧ WriterTidy State.reset ∧
    packBits (([(0x05, 3), (0x2B, 6)] : List (Byte × Fin 9)).flatMap fun p => lowBits p.1 p.2.val) = [0xB5, 0x80] ∧
    Running (source [0xB5, 0x80, 0xFF]) ∧ (source [0xB5, 0x80, 0xFF]).brRem = 0 ∧
    (source [0xB5, 0x80, 0xFF]).srcData.drop (source [0xB5, 0x80, 0xFF]).srcPos = [0xB5, 0x80] ++ [0xFF] := by
  decide +kernel

theorem witness_ScanStarts : Running State.reset ∧ (1 : Byte).toNat = LayerNo.l1.num ∧
    (8 : Byte).toNat = LayerNo.l8.num ∧ (0 : Byte).toNat = 0 ∧ 8 < (9 : Byte).toNat := by decide

theorem witness_ScanReportsEachPosition :
    Running { State.reset with zsI := 63 } ∧ { State.reset with zsI := 63 }.zsI.val < 64 ∧
    { State.reset with zsI := 0 }.zsI.val < 64 ∧ State.reset.zsI.val = 64 := by decide

theorem witness_ZigzagOrderAndLayers :
    LayerNo.l8.num ≤ LayerNo.l8.num ∧ LayerNo.l1.num ≤ LayerNo.l1.num ∧ layerOf 63 .l8 = LayerNo.l8.num ∧
    layerOf 63 .l1 = LayerNo.l1.num ∧ layerOf 0 .l8 = LayerNo.l1.num ∧
    (zz (Fin.succ 0)).band ≠ (zz (Fin.castSucc 0)).band ∧ (zz (Fin.succ 1)).band = (zz (Fin.castSucc 1)).band := by decide

theorem witness_OutOfRangeLayersAreRefused :
    Running State.reset ∧ (0 : Byte).toNat = 0 ∧ 8 < (9 : Byte).toNat ∧ 8 < (255 : Byte).toNat := by decide

/-- For `BuildReplacesTheTree`, `CountsAreSetAndRead` and the other statements about a slot. -/
theorem witness_slot : Running State.reset ∧ (1 : Byte).toNat = LayerNo.l1.num ∧ (2 : Byte).toNat = LayerNo.l2.num ∧
    (8 : Byte).toNat = LayerNo.l8.num := by decide

theorem witness_TreeOfATable :
    TableOrdered tableH3 ∧ 1 ≤ tableH3.length ∧ tableH3.length ≤ 5 ∧ 8 < (buildArena tableH3).1.length ∧
    TableOrdered ([] : Table Word64) ∧ ([] : Table Word64).length = 0 ∧ TableOrdered ([(7, 9)] : Table Word64) := by
  decide +kernel

theorem witness_PassCombinesPairsInOrder :
    ([(0, 1), (1, 1), (2, 1)] : List (Nat × Word64))[2 * 0]? = some (0, 1) ∧
    ([(0, 1), (1, 1), (2, 1)] : List (Nat × Word64))[2 * 0 + 1]? = some (1, 1) ∧
    ([(0, 1), (1, 1), (2, 1)] : List (Nat × Word64)).length = 2 * 1 + 1 := by decide

/-- Vector H2: the leaf of Symbol 1 at the end of the path 0, 1. -/
theorem leafAt_H2 : LeafAt (buildArena tableH2).1 4 [false, true] 1 :=
  .zero (c0 := 3) (c1 := 2) (w := 3) (by decide +kernel)
    (.one (c0 := 0) (c1 := 1) (w := 2) (by decide +kernel) (.leaf (w := 1) (by decide +kernel)))

theorem arenaOrdered_H2 : ArenaOrdered (buildArena tableH2).1 := by
  have e : (buildArena tableH2).1 =
      [.leaf 0 1, .leaf 1 1, .leaf 2 1, .internal 0 1 2, .internal 3 2 3] := by decide +kernel
  rw [e]
  intro k hk
  match k, hk with
  | 0, _ => trivial
  | 1, _ => trivial
  | 2, _ => trivial
  | 3, _ => exact ⟨by decide, by decide⟩
  | 4, _ => exact ⟨by decide, by decide⟩

theorem witness_LeavesAreAsDeepAsThePasses :
    (buildArena tableH2).2 = some 4 ∧ LeafAt (buildArena tableH2).1 4 [false, true] 1 ∧ tableH2.length ≤ 2 ^ 2 ∧
    (buildArena [(1, 0), (2, 0)]).2 = some 2 ∧ LeafAt (buildArena [(1, 0), (2, 0)]).1 2 [true] 2 ∧
    ([(1, 0), (2, 0)] : Table Word64).length = 2 ^ 1 :=
  ⟨by decide +kernel, leafAt_H2, by decide, by decide +kernel,
    .one (c0 := 0) (c1 := 1) (w := 0) (by decide +kernel) (.leaf (w := 0) (by decide +kernel)), by decide⟩

theorem witness_TraverseDerivesThePathCodes :
    Running (slot1 (tabled tableH2)) ∧ ((slot1 (tabled tableH2)).layers.get .l1).treeValid = false ∧
    ((slot1 (tabled tableH2).buildTree).layers.get .l1).treeValid = true ∧
    TableOrdered ((slot1 (tabled tableH2).buildTree).layers.get .l1).freq ∧
    (((slot1 (tabled tableH2).buildTree).layers.get .l1).nodes, ((slot1 (tabled tableH2).buildTree).layers.get .l1).root) =
      buildArena ((slot1 (tabled tableH2).buildTree).layers.get .l1).freq := by decide +kernel

/-- Vector H2's tree in slot 1, with two bits 0, 1 and a rest in the source, with one bit 0 left, and with the two bits
unread in `BR_CUR` and a byte that is not needed behind them. -/
theorem witness_DecodeFollowsTheBits :
    ((slot1 (tabled tableH2)).layers.get .l1).treeValid = false ∧
    ((slot1 (tabled []).buildTree).layers.get .l1).root = none ∧
    ((slot1 (tabled tableH2).buildTree).layers.get .l1).treeValid = true ∧
    ((slot1 (tabled tableH2).buildTree).layers.get .l1).root = some 4 ∧
    ArenaOrdered ((slot1 (tabled tableH2).buildTree).layers.get .l1).nodes ∧
    LeafAt ((slot1 (tabled tableH2).buildTree).layers.get .l1).nodes 4 [false, true] 1 ∧
    sourceBits { slot1 (tabled tableH2).buildTree with srcData := [0x5C] } =
      [false, true] ++ [false, true, true, true, false, false] ∧
    sourceBits { slot1 (tabled tableH2).buildTree with srcData := [0x5C], srcPos := 1, brCur := 0x5C, brRem := 1 } <+:
      [false, true] ∧
    (sourceBits { slot1 (tabled tableH2).buildTree with
      srcData := [0x5C], srcPos := 1, brCur := 0x5C, brRem := 1 }).length < [false, true].length ∧
    sourceBits { slot1 (tabled tableH2).buildTree with srcData := [0x5C, 0xFF], srcPos := 1, brCur := 1, brRem := 2 } =
      [false, true] ++ List.replicate 8 true :=
  ⟨by decide, by decide +kernel, by decide, by decide +kernel, arenaOrdered_H2, leafAt_H2, by decide +kernel,
    by decide +kernel, by decide +kernel, by decide +kernel⟩

theorem witness_EncodeWritesTheCode :
    Running (slot1 (tabled tableH2).rebuilt) ∧ ((slot1 (tabled tableH2)).layers.get .l1).codeValid = false ∧
    ((slot1 (tabled tableH2).rebuilt).layers.get .l1).codeValid = true ∧
    Table.get ((slot1 (tabled tableH2).rebuilt).layers.get .l1).code 3 = none ∧
    Table.get ((slot1 (tabled tableH2).rebuilt).layers.get .l1).code 1 = some ⟨2, 1⟩ ∧
    { slot1 (tabled tableH2).rebuilt with bwOpen := false }.bwOpen = false ∧
    (slot1 (tabled tableH2).rebuilt).bwOpen = true := by decide +kernel

theorem witness_CodeTableIsRead :
    Running (slot1 (tabled [(7, 9)]).rebuilt) ∧ ((slot1 (tabled tableH2)).layers.get .l1).codeValid = false ∧
    ((slot1 (tabled [(7, 9)]).rebuilt).layers.get .l1).codeValid = true ∧
    Table.get ((slot1 (tabled [(7, 9)]).rebuilt).layers.get .l1).code 8 = none ∧
    Table.get ((slot1 (tabled [(7, 9)]).rebuilt).layers.get .l1).code 7 = some ⟨0, 0⟩ := by decide +kernel

theorem witness_HuffmanDecodesWhatItEncodes :
    TableOrdered tableH2 ∧ Table.get (tabled tableH2).rebuilt.code 1 = some ⟨2, 1⟩ ∧
    Table.get (tabled tableH2).rebuilt.code 2 = some ⟨1, 1⟩ ∧
    entryBits ⟨2, 1⟩ <+: entryBits ⟨2, 1⟩ ∧
    Running { slot1 (tabled tableH2).buildTree with srcData := [0x5C] } ∧
    ((slot1 (tabled tableH2).buildTree).layers.get .l1).treeValid = true ∧
    ((slot1 (tabled tableH2).buildTree).layers.get .l1).nodes = (tabled tableH2).rebuilt.nodes ∧
    ((slot1 (tabled tableH2).buildTree).layers.get .l1).root = (tabled tableH2).rebuilt.root ∧
    sourceBits { slot1 (tabled tableH2).buildTree with srcData := [0x5C] } =
      entryBits ⟨2, 1⟩ ++ [false, true, true, true, false, false] ∧
    sourceBits { slot1 (tabled tableH2).buildTree with srcData := [0x5C, 0xFF], srcPos := 1, brCur := 1, brRem := 2 } =
      entryBits ⟨2, 1⟩ ++ List.replicate 8 true ∧
    ∀ x ∈ ([1, 2, 1, 0] : List Symbol), (Table.get tableH2 x).isSome := by decide +kernel

theorem witness_SingleSymbolLayerReadsNothing :
    Running (slot1 (tabled [(7, 9)]).buildTree) ∧
    ((slot1 (tabled [(7, 9)]).buildTree).layers.get .l1).treeValid = true ∧
    ((slot1 (tabled [(7, 9)]).buildTree).layers.get .l1).nodes = (buildArena [(7, 9)]).1 ∧
    ((slot1 (tabled [(7, 9)]).buildTree).layers.get .l1).root = (buildArena [(7, 9)]).2 := by decide +kernel

/-- A slot of `n` Symbols. -/
def longLayer (n : Nat) : Layer := { Layer.empty with seq := List.replicate n 7 }

theorem longLayer_length (n : Nat) : ((slot1 (longLayer n)).layers.get .l1).seq.length = n :=
  List.length_replicate

theorem longLayer_running (n : Nat) : Running (slot1 (longLayer n)) := ⟨rfl, rfl⟩

/-- A full slot, and one Symbol less. -/
theorem witness_PushAppendsAndCounts :
    Running (slot1 (longLayer 4294967295)) ∧
    ((slot1 (longLayer 4294967295)).layers.get .l1).seq.length = 4294967295 ∧
    ((slot1 (longLayer 4294967294)).layers.get .l1).seq.length ≠ 4294967295 :=
  ⟨longLayer_running _, longLayer_length _, by rw [longLayer_length]; decide⟩

theorem witness_PopTakesTheHeadOfTheQueue :
    Running (slot2 layerS10) ∧ ((slot2 { layerS10 with rp := 3 }).layers.get .l2).queue = [] ∧
    ((slot2 { layerS10 with rp := 2 }).layers.get .l2).queue = 9 :: [] := by decide

theorem witness_BookkeepingIsReported : Running (slot2 layerS10) ∧ 6 < (7 : Byte).toNat ∧ 6 < (255 : Byte).toNat := by
  decide

theorem witness_PushesCountOccurrences :
    Running (slot2 layerS10) ∧ (2 : Byte).toNat = LayerNo.l2.num ∧ ([7, 7, 9] : List Symbol).length ≤ 4294967295 ∧
    LayerNo.l1 ≠ .l2 := by decide

theorem witness_MisalignedContainerCommandsAreRefused :
    Running { State.reset with bwFill := 1 } ∧ { State.reset with bwFill := 1 }.bwFill ≠ 0 ∧
    Running { State.reset with brRem := 8 } ∧ { State.reset with brRem := 8 }.brRem ≠ 0 := by decide

theorem witness_HeaderIsWritten :
    Running State.reset ∧ State.reset.bwFill = 0 ∧ State.reset.bwOpen = true ∧
    { State.reset with bwOpen := false }.bwOpen = false := by decide

/-- Good magic, bad magic, one byte short, empty, and 14 and 21 bytes with `SHORT_LIMIT` 14. -/
theorem witness_HeaderIsRead :
    Running (source (headerBytes State.reset)) ∧ (source (headerBytes State.reset)).brRem = 0 ∧
    22 ≤ (headerBytes State.reset).length ∧ (headerBytes State.reset).take 5 = magicBytes Config.defaults.magic ∧
    (List.replicate 22 (0 : Byte)).take 5 ≠ magicBytes Config.defaults.magic ∧
    (List.replicate 21 (0 : Byte)).length < shortLimitBytes Config.defaults.shortLimit ∧
    ([] : List Byte).length < shortLimitBytes Config.defaults.shortLimit ∧
    shortLimitBytes .bytes14 ≤ (List.replicate 14 (0 : Byte)).length ∧ (List.replicate 14 (0 : Byte)).length < 22 ∧
    shortLimitBytes .bytes14 ≤ ((headerBytes State.reset).take 21).length ∧
    ((headerBytes State.reset).take 21).length < 22 := by decide +kernel

theorem witness_HeaderRoundTrip :
    Running State.reset ∧ State.reset.bwOpen = true ∧ State.reset.bwFill = 0 ∧ State.reset.hFlags.getLsbD 4 = false ∧
    Running (source (headerBytes State.reset)) ∧ (source (headerBytes State.reset)).brRem = 0 ∧
    (source (headerBytes State.reset)).cfg = State.reset.cfg ∧
    (source (headerBytes State.reset)).srcData.drop (source (headerBytes State.reset)).srcPos =
      (nextOf (exec .cfPuthdr State.reset)).snkData ++ [] := by decide +kernel

/-- A slot of `n` Symbols of eight code bits each. -/
def wideLayer (n : Nat) : Layer :=
  { Layer.empty with seq := List.replicate n 7, code := [(7, ⟨8, 0⟩)], codeValid := true }

theorem wideLayer_bytes (n : Nat) : (codedBytes (wideLayer n)).length = n := by
  have e : (codedSymbols (wideLayer n).code (wideLayer n).seq).length = n * 8 := by
    simp [codedSymbols, wideLayer, List.length_flatMap, Table.get, entryBits, lowBits]
  simp only [codedBytes, packBits, List.length_map, List.length_range, e]
  omega

theorem wideLayer_codes (n : Nat) : ∀ x ∈ ((slot1 (wideLayer n)).layers.get .l1).seq,
    ∃ e, Table.get ((slot1 (wideLayer n)).layers.get .l1).code x = some e ∧ e.len ≤ 8 := by
  intro x hx
  have : x = 7 := (List.mem_replicate.mp (show x ∈ List.replicate n 7 from hx)).2
  subst this
  exact ⟨⟨8, 0⟩, rfl, Nat.le_refl 8⟩

theorem wideLayer_slot (n : Nat) : (codedBytes ((slot1 (wideLayer n)).layers.get .l1)).length = n := wideLayer_bytes n

/-- The two sides of the capacity limit, with the default parameters. -/
theorem witness_LayerSectionIsWritten :
    Running (slot1 (tabled tableH2)) ∧ (slot1 (tabled tableH2)).bwFill = 0 ∧
    ((slot1 (tabled tableH2)).layers.get .l1).codeValid = false ∧
    (∀ n, ((slot1 (wideLayer n)).layers.get .l1).codeValid = true) ∧
    (∀ n, ∀ x ∈ ((slot1 (wideLayer n)).layers.get .l1).seq,
      ∃ e, Table.get ((slot1 (wideLayer n)).layers.get .l1).code x = some e ∧ e.len ≤ 8) ∧
    4294967295 < (codedBytes ((slot1 (wideLayer 4294967292)).layers.get .l1)).length + 4 ∧
    (codedBytes ((slot1 (wideLayer 4294967291)).layers.get .l1)).length + 4 ≤ 4294967295 ∧
    { slot1 (wideLayer 1) with bwOpen := false }.bwOpen = false ∧ (slot1 (wideLayer 1)).bwOpen = true :=
  ⟨by decide, by decide, by decide, fun _ => rfl, wideLayer_codes, by rw [wideLayer_slot]; decide,
    by rw [wideLayer_slot], rfl, rfl⟩

theorem below_l1 (K : LayerNo) : ¬ K.num < LayerNo.l1.num := by cases K <;> decide

theorem below_l2 (K : LayerNo) (h : K.num < LayerNo.l2.num) : K = .l1 := by
  cases K <;> first | rfl | exact absurd h (by decide)

theorem below_l3 (K : LayerNo) (h : K.num < LayerNo.l3.num) : K = .l1 ∨ K = .l2 := by
  cases K <;> first | exact .inl rfl | exact .inr rfl | exact absurd h (by decide)

/-- A header of the default parameters with the given flags byte. -/
def headed (flags : Byte) : State := { State.reset with hFlags := flags }

/-- Two bytes pulled, and none. -/
theorem test_pulled_source : (source [1, 2, 3]).pulled 2 = { source [1, 2, 3] with brCur := 2, srcPos := 2 } ∧
    (source []).pulled 0 = source [] := by decide

theorem writable_S10 : Writable Config.defaults layerS10 := by decide +kernel

theorem writable_empty : Writable Config.defaults Layer.empty := by decide +kernel

/-- The section of vector C4 and one byte, into slot 8; the same with a wrong length field and a pad bit set; a table of
one entry, whose sequence has no coded byte; and an empty section. -/
theorem witness_LayerSectionIsRead :
    Running (source (sectionC4 ++ [0xFF])) ∧ (8 : Byte).toNat = LayerNo.l8.num ∧
    (source (sectionC4 ++ [0xFF])).brRem = 0 ∧ Writable (source (sectionC4 ++ [0xFF])).cfg layerS10 ∧
    (source (sectionC4 ++ [0xFF])).srcData.drop (source (sectionC4 ++ [0xFF])).srcPos =
      sectionBytes Config.defaults layerS10.rebuilt ++ [0xFF] ∧
    TableOrdered layerS10.freq ∧ (∀ x ∈ layerS10.seq, (Table.get layerS10.freq x).isSome) ∧
    layerS10.seq.length = (3 : Word32).toNat ∧ codedSymbols (codeOf layerS10.freq) layerS10.seq <+: bytesBits [0xDF] ∧
    ([0xDF] : List Byte).length = ((codedSymbols (codeOf layerS10.freq) layerS10.seq).length + 7) / 8 ∧
    sectionStart .le layerS10.freq 0xFFFFFFFF 3 ++ [0xDF] ++ [] =
      [2, 0, 0, 0, 7, 2, 0, 0, 0, 0, 0, 0, 0, 9, 1, 0, 0, 0, 0, 0, 0, 0, 0xFF, 0xFF, 0xFF, 0xFF, 3, 0, 0, 0, 0xDF] ∧
    codedSymbols (codeOf [(7, 1)]) [7, 7] <+: bytesBits [] ∧
    ([] : List Byte).length = ((codedSymbols (codeOf [(7, 1)]) [7, 7]).length + 7) / 8 ∧
    codedSymbols (codeOf []) [] <+: bytesBits [] := by decide +kernel

/-- E = 257 and E = 2^32 - 1; the second entry at the first's Symbol, with E = 2 and E = 256; no entry and M = 1 and
M = 2^32 - 1. -/
theorem witness_LayerSectionIsRead_refused :
    256 < (257 : Word32).toNat ∧ 256 < (0xFFFFFFFF : Word32).toNat ∧
    (source [1, 1, 0, 0]).srcData.drop (source [1, 1, 0, 0]).srcPos = fieldBytes .le 4 (257 : Word32).toNat ++ [] ∧
    ([] : Table Word64).length + 2 ≤ 2 ∧ ([] : Table Word64).length + 2 ≤ 256 ∧
    TableOrdered ([] ++ [((7 : Symbol), (1 : Word64))]) ∧ (7 : Symbol).toNat ≤ (7 : Symbol).toNat ∧
    (0 : Symbol).toNat ≤ (7 : Symbol).toNat ∧
    sectionTable .le 2 ([] ++ [((7 : Symbol), (1 : Word64)), (7, 1)]) ++ [] =
      [2, 0, 0, 0, 7, 1, 0, 0, 0, 0, 0, 0, 0, 7, 1, 0, 0, 0, 0, 0, 0, 0] ∧
    (1 : Word32) ≠ 0 ∧ (0xFFFFFFFF : Word32) ≠ 0 ∧
    sectionStart .le [] 4 1 ++ [] = [0, 0, 0, 0, 4, 0, 0, 0, 1, 0, 0, 0] := by decide

/-- The source ends before E, before its last byte, before and inside the first and the last entry, before and inside
`LEN` and M, and before the first bit of the codes and between two of a code. -/
theorem witness_LayerSectionIsRead_exhausted :
    ([] : List Byte).length < 4 ∧ ([2, 0, 0] : List Byte).length < 4 ∧ ([] : Table Word64).length < 1 ∧
    ([] : List Byte).length < 9 ∧ ([7, 1, 0, 0, 0, 0, 0, 0] : List Byte).length < 9 ∧
    sectionTable .le 2 [(7, 1)] ++ [7, 1] = [2, 0, 0, 0, 7, 1, 0, 0, 0, 0, 0, 0, 0, 7, 1] ∧
    sectionTable .le ([(7, 1)] : Table Word64).length [(7, 1)] ++ [5, 0, 0] =
      [1, 0, 0, 0, 7, 1, 0, 0, 0, 0, 0, 0, 0, 5, 0, 0] ∧
    sectionTable .le ([(7, 1)] : Table Word64).length [(7, 1)] ++ fieldBytes .le 4 (5 : Word32).toNat ++ [1, 0, 0] =
      [1, 0, 0, 0, 7, 1, 0, 0, 0, 0, 0, 0, 0, 5, 0, 0, 0, 1, 0, 0] ∧
    TableOrdered tableH2 ∧ (∀ y ∈ ([] : List Symbol) ++ [1], (Table.get tableH2 y).isSome) ∧
    ([] : List Symbol).length < (1 : Word32).toNat ∧ codedSymbols (codeOf tableH2) [] <+: bytesBits [] ∧
    bytesBits [] <+: codedSymbols (codeOf tableH2) ([] ++ [1]) ∧
    bytesBits [] ≠ codedSymbols (codeOf tableH2) ([] ++ [1]) ∧
    (∀ y ∈ ([1, 1, 1, 2] : List Symbol) ++ [0], (Table.get tableH2 y).isSome) ∧
    codedSymbols (codeOf tableH2) [1, 1, 1, 2] <+: bytesBits [0x56] ∧
    bytesBits [0x56] <+: codedSymbols (codeOf tableH2) ([1, 1, 1, 2] ++ [0]) ∧
    bytesBits [0x56] ≠ codedSymbols (codeOf tableH2) ([1, 1, 1, 2] ++ [0]) := by decide +kernel

/-- A container of two layers: an empty one and vector S10's. -/
def stateS10 : State := { slot2 layerS10 with hFlags := 0x42 }

theorem witness_ContainerIsWritten :
    Running State.reset ∧ State.reset.bwFill = 0 ∧ State.reset.huff = false ∧
    { State.reset with hFlags := 0x49 }.huff = true ∧ 8 < { State.reset with hFlags := 0x49 }.layersField ∧
    stateS10.huff = true ∧ stateS10.layersField ≤ 8 ∧ stateS10.bwOpen = true ∧
    (∀ L : LayerNo, L.num ≤ stateS10.layersField → Writable stateS10.cfg (stateS10.layers.get L)) ∧
    Running { stateS10 with bwOpen := false } ∧ { stateS10 with bwOpen := false }.bwOpen = false :=
  ⟨by decide, by decide, by decide, by decide, by decide, by decide, by decide, by decide, fun L _ => by
    cases L <;> first | exact writable_empty | exact writable_S10, by decide, by decide⟩

/-- A table of all 256 Symbols, whose codes have eight bits. -/
def fullTable : Table Word64 := (List.range 256).map fun k => (BitVec.ofNat 8 k, 1)

/-- A slot of `n` Symbols of the full table. -/
def fullLayer (n : Nat) : Layer := { Layer.empty with seq := List.replicate n 7, freq := fullTable }

theorem fullTable_ordered : TableOrdered fullTable := by
  simp only [TableOrdered, fullTable, List.pairwise_map, BitVec.toNat_ofNat]
  refine List.Pairwise.imp_of_mem (fun ha hb h => ?_) List.pairwise_lt_range
  simp only [List.mem_range] at ha hb
  omega

theorem fullTable_code : ((Table.get (codeOf fullTable) 7).map CodeEntry.len) = some 8 := by decide +kernel

theorem fullLayer_freq (n : Nat) : (fullLayer n).freq = fullTable := by simp only [fullLayer]

theorem fullLayer_bytes (n : Nat) : (codedBytes (fullLayer n).rebuilt).length = n := by
  obtain ⟨e, he, hl⟩ := Option.map_eq_some_iff.mp fullTable_code
  have h : (codedSymbols (fullLayer n).rebuilt.code (fullLayer n).rebuilt.seq).length = n * 8 := by
    have hs : (fullLayer n).rebuilt.seq = List.replicate n 7 := by
      simp only [Layer.rebuilt, Layer.withCode_seq, Layer.buildTree_seq, fullLayer]
    have hc : (fullLayer n).rebuilt.code = codeOf fullTable := by
      rw [Layer.rebuilt, Layer.withCode_code, fullLayer_freq]
    have h8 : ((Table.get (codeOf fullTable) 7).map entryBits |>.getD []).length = 8 := by
      rw [he, Option.map_some, Option.getD_some, entryBits, lowBits, List.length_map, List.length_range, hl]
    rw [codedSymbols, hs, hc, List.length_flatMap, List.map_replicate, List.sum_replicate, h8, smul_eq_mul]
  simp only [codedBytes, packBits, List.length_map, List.length_range, h]
  omega

/-- Two layers, the second of `n` Symbols of the full table. -/
def stateFull (n : Nat) : State := { slot2 (fullLayer n) with hFlags := 0x42 }

/-- The first length at which the second of two sections does not fit, the Capacity clause of `ContainerIsWritten`. -/
theorem witness_ContainerIsWritten_capacity (n : Nat) (hn : n = 4294967292) :
    (stateFull n).huff = true ∧ (stateFull n).layersField ≤ 8 ∧ (stateFull n).bwOpen = true ∧
    LayerNo.l2.num ≤ (stateFull n).layersField ∧
    (∀ K : LayerNo, K.num < LayerNo.l2.num → Writable (stateFull n).cfg ((stateFull n).layers.get K)) ∧
    TableOrdered ((stateFull n).layers.get .l2).freq ∧
    (∀ x ∈ ((stateFull n).layers.get .l2).seq, (Table.get ((stateFull n).layers.get .l2).freq x).isSome) ∧
    4294967295 < (codedBytes ((stateFull n).layers.get .l2).rebuilt).length + 4 := by
  refine ⟨(by decide : ({ State.reset with hFlags := 0x42 } : State).huff = true), ?_, rfl, ?_, fun K h => ?_, fullTable_ordered, fun x hx => ?_, ?_⟩
  · exact (by decide : ({ State.reset with hFlags := 0x42 } : State).layersField ≤ 8)
  · exact (by decide : LayerNo.l2.num ≤ ({ State.reset with hFlags := 0x42 } : State).layersField)
  · rw [below_l2 K h]; exact writable_empty
  · have : x = 7 := (List.mem_replicate.mp (show x ∈ List.replicate n 7 from hx)).2
    subst this
    exact (by decide +kernel : (Table.get fullTable 7).isSome)
  · have e : (codedBytes ((stateFull n).layers.get .l2).rebuilt).length = n := fullLayer_bytes n
    rw [e, hn]
    decide

theorem witness_ContainerIsRead :
    Running (source (containerBytes stateS10)) ∧ (source (containerBytes stateS10)).brRem = 0 ∧
    stateS10.cfg = (source (containerBytes stateS10)).cfg ∧ stateS10.huff = true ∧ stateS10.layersField ≤ 8 ∧
    (∀ L : LayerNo, L.num ≤ stateS10.layersField →
      Writable (source (containerBytes stateS10)).cfg (stateS10.layers.get L)) ∧
    (source (containerBytes stateS10)).srcData.drop (source (containerBytes stateS10)).srcPos =
      containerBytes stateS10 ++ [] :=
  ⟨⟨rfl, rfl⟩, rfl, rfl, by decide, by decide, fun L _ => by
    cases L <;> first | exact writable_empty | exact writable_S10, by simp [source, State.reset]⟩

/-- `LAYERS` 9 and 15 with and without `HUFF`, and `LAYERS` 8 and 0 without. -/
theorem witness_ContainerIsRead_refused :
    8 < (headed 0x49).layersField ∧ 8 < (headed 0x4F).layersField ∧ 8 < (headed 0x0F).layersField ∧
    (headed 0x08).layersField ≤ 8 ∧ (headed 0x08).huff = false ∧ (headed 0x00).layersField ≤ 8 ∧
    (headed 0x00).huff = false ∧ (headed 0x49).cfg = (source (headerBytes (headed 0x49))).cfg ∧
    (source (headerBytes (headed 0x49))).srcData.drop (source (headerBytes (headed 0x49))).srcPos =
      headerBytes (headed 0x49) ++ [] := by decide +kernel

/-- The first section of two read, the second with E = 257. -/
def sourceBad : State := source (containerPrefix stateS10 1 ++ [1, 1, 0, 0])

/-- The slots with one empty section read. -/
def layersBad : Layers := { Layers.empty with l1 := readBack Config.defaults Layer.empty [] }

theorem witness_ContainerIsRead_stopped :
    Running sourceBad ∧ sourceBad.brRem = 0 ∧ stateS10.cfg = sourceBad.cfg ∧ stateS10.huff = true ∧
    stateS10.layersField ≤ 8 ∧ LayerNo.l2.num ≤ stateS10.layersField ∧
    (∀ K : LayerNo, K.num < LayerNo.l2.num → Writable sourceBad.cfg (stateS10.layers.get K)) ∧
    sourceBad.srcData.drop sourceBad.srcPos = containerPrefix stateS10 (LayerNo.l2.num - 1) ++ [1, 1, 0, 0] ∧
    (∀ K : LayerNo, layersBad.get K =
      if K.num < LayerNo.l2.num then readBack sourceBad.cfg (stateS10.layers.get K) [] else .empty) ∧
    (∃ v, exec (.cfGetlayer (BitVec.ofNat 8 LayerNo.l2.num))
      { (sourceBad.pulled (containerPrefix stateS10 (LayerNo.l2.num - 1)).length).headerFrom stateS10 with
        layers := layersBad } = .next v) ∧
    ¬ Running (nextOf (exec (.cfGetlayer (BitVec.ofNat 8 LayerNo.l2.num))
      { (sourceBad.pulled (containerPrefix stateS10 (LayerNo.l2.num - 1)).length).headerFrom stateS10 with
        layers := layersBad })) :=
  ⟨⟨rfl, rfl⟩, rfl, rfl, by decide, by decide, by decide, fun K h => by
    rw [below_l2 K h]; exact writable_empty,
    by simp [sourceBad, source, State.reset, LayerNo.num], fun K => by cases K <;> rfl, ⟨_, rfl⟩, by decide +kernel⟩

theorem witness_FrameFollowsTheCountRule :
    2 ≤ LayerNo.l2.num ∧ LayerNo.l2.num ≤ LayerNo.l2.num ∧ 2 ≤ LayerNo.l8.num ∧ LayerNo.l8.num ≤ LayerNo.l8.num ∧
    layerOf 1 .l2 = LayerNo.l2.num ∧ layerOf 63 .l8 = LayerNo.l8.num := by decide

/-- Block A waiting, three layers. -/
def stateA : State := { State.reset with hFlags := 0x43, binData := [blockA] }

theorem witness_BlockIsEncoded :
    Running stateA ∧ State.reset.binData[State.reset.binPos]? = none ∧ stateA.binData[stateA.binPos]? = some blockA ∧
    { stateA with hFlags := 0x40 }.layersField = 0 ∧ 8 < { stateA with hFlags := 0x49 }.layersField ∧
    stateA.layersField = LayerNo.l3.num ∧
    (∀ L : LayerNo, L.num ≤ LayerNo.l3.num →
      (stateA.layers.get L).seq.length + (frame stateA.cfg.neutral blockA L .l3).length ≤ 4294967295) :=
  ⟨by decide, by decide, rfl, by decide, by decide, by decide, fun L _ => by cases L <;> decide +kernel⟩

/-- Block A waiting, three layers, `n` Symbols in layer `l1` and none in the others, or in layer `l2`. -/
def stateLong (first : Bool) (n : Nat) : State :=
  { stateA with layers := if first then { Layers.empty with l1 := longLayer n } else { Layers.empty with l2 := longLayer n } }

/-- A full first layer, of which no push is made, and a second layer with room for one of two Symbols. -/
theorem witness_BlockIsEncoded_capacity (m n : Nat) (hm : m = 4294967295) (hn : n = 4294967294) :
    Running (stateLong true m) ∧ (stateLong true m).binData[(stateLong true m).binPos]? = some blockA ∧
    (stateLong true m).layersField = LayerNo.l3.num ∧ LayerNo.l1.num ≤ LayerNo.l3.num ∧
    (∀ K : LayerNo, ¬ K.num < LayerNo.l1.num) ∧ ((stateLong true m).layers.get .l1).seq.length ≤ 4294967295 ∧
    4294967295 < ((stateLong true m).layers.get .l1).seq.length + (frame 0x80 blockA .l1 .l3).length ∧
    Running (stateLong false n) ∧ (stateLong false n).binData[(stateLong false n).binPos]? = some blockA ∧
    (stateLong false n).layersField = LayerNo.l3.num ∧ LayerNo.l2.num ≤ LayerNo.l3.num ∧
    (∀ K : LayerNo, K.num < LayerNo.l2.num →
      ((stateLong false n).layers.get K).seq.length + (frame 0x80 blockA K .l3).length ≤ 4294967295) ∧
    ((stateLong false n).layers.get .l2).seq.length ≤ 4294967295 ∧
    4294967295 < ((stateLong false n).layers.get .l2).seq.length + (frame 0x80 blockA .l2 .l3).length := by
  have h1 : ((stateLong true m).layers.get .l1).seq.length = m := List.length_replicate
  have h2 : ((stateLong false n).layers.get .l2).seq.length = n := List.length_replicate
  have f1 : (frame 0x80 blockA .l1 .l3).length = 1 := by decide +kernel
  have f2 : (frame 0x80 blockA .l2 .l3).length = 2 := by decide +kernel
  have hl : stateA.layersField = LayerNo.l3.num := by decide
  rw [h1, h2, f1, f2]
  refine ⟨⟨rfl, rfl⟩, rfl, hl, by decide, below_l1, by omega, by omega, ⟨rfl, rfl⟩, rfl, hl, by decide,
    fun K h => ?_, by omega, by omega⟩
  rw [below_l2 K h, f1]
  exact (by decide : 0 + 1 ≤ 4294967295)

/-- The frames of vector Q1's layers, by layer. -/
def valsQ1 : LayerNo → List Symbol
  | .l2 => [0x20]
  | .l3 => [0x05, 0x80, 0x06]
  | _ => []

theorem witness_BlockIsDecoded :
    Running stateQ1 ∧ { stateQ1 with hFlags := 0x40 }.layersField = 0 ∧
    8 < { stateQ1 with hFlags := 0x4F }.layersField ∧ stateQ1.layersField = LayerNo.l3.num ∧
    3 = (if (0 : Byte).toNat = 0 ∨ LayerNo.l3.num ≤ (0 : Byte).toNat then LayerNo.l3.num else (0 : Byte).toNat) ∧
    stateQ1.layers.l1.queue = 0x10 :: [] ∧
    (∀ L : LayerNo, 2 ≤ L.num → L.num ≤ 3 → (valsQ1 L).length ≤ layerSize L .l3 ∧
      (stateQ1.layers.get L).queue = BitVec.ofNat 8 (valsQ1 L).length :: (valsQ1 L ++ [])) ∧
    (valsQ1 .l3).length ≤ layerSize .l3 .l3 :=
  ⟨by decide, by decide, by decide, by decide, by decide, by decide, fun L h2 h3 => by
    cases L <;> first | exact absurd h2 (by decide) | exact absurd h3 (by decide) | decide, by decide⟩

/-- The layers of vector Q1 with another third layer. -/
def stateThird (queue : List Symbol) : State :=
  { stateQ1 with layers := { layersQ1 with l3 := { Layer.empty with seq := queue } } }

theorem wholeFrames_third (queue : List Symbol) (K : LayerNo) (h : K.num < LayerNo.l3.num) :
    WholeFrame K .l3 ((stateThird queue).layers.get K).queue := by
  rcases below_l3 K h with e | e
  · rw [e]; exact (by decide : (layersQ1.get .l1).queue ≠ [])
  · rw [e]; exact ⟨1, [0x20], rfl, by decide, by decide⟩

/-- The third layer's queue empty, cut after its count and before its last value, and with the first count beyond the
layer; and the first layer's queue empty. -/
theorem witness_BlockIsDecoded_stopped :
    LayerNo.l3.num ≤ 3 ∧ (∀ queue, Running (stateThird queue)) ∧
    (∀ queue, ∀ K : LayerNo, K.num < LayerNo.l3.num → WholeFrame K .l3 ((stateThird queue).layers.get K).queue) ∧
    FrameStop .l3 .l3 ((stateThird []).layers.get .l3).queue .queueUnderflow 0 ∧
    FrameStop .l3 .l3 ((stateThird [61]).layers.get .l3).queue .queueUnderflow 1 ∧
    FrameStop .l3 .l3 ((stateThird [2, 9]).layers.get .l3).queue .queueUnderflow 2 ∧
    FrameStop .l3 .l3 ((stateThird [62]).layers.get .l3).queue .countOverrun 1 ∧
    FrameStop .l1 .l3 ({ stateQ1 with layers := Layers.empty }.layers.get .l1).queue .queueUnderflow 0 :=
  ⟨by decide, fun _ => ⟨rfl, rfl⟩, wholeFrames_third, .empty, .cut 61 [] (by decide) (by decide) (by decide),
    .cut 2 [9] (by decide) (by decide) (by decide), .overrun 62 [] (by decide) (by decide), .empty⟩

/-- One block of one, one block of two, and none of none. -/
theorem witness_GridIsEncoded :
    Running stateA ∧ (3 : Byte).toNat = LayerNo.l3.num ∧
    [blockA] = (stateA.binData.drop stateA.binPos).take (1 : Word32).toNat ∧ [blockA].length = (1 : Word32).toNat ∧
    [blockA] = (stateA.binData.drop stateA.binPos).take (2 : Word32).toNat ∧ [blockA].length < (2 : Word32).toNat ∧
    [] = (stateA.binData.drop stateA.binPos).take (0 : Word32).toNat ∧ ([] : List Block).length = (0 : Word32).toNat ∧
    (0x43 : Byte) = BitVec.ofNat 8 (stateA.hFlags.toNat / 16 * 16 + LayerNo.l3.num) ∧
    (∀ L : LayerNo, L.num ≤ LayerNo.l3.num →
      ([blockA].flatMap fun blk => frame stateA.cfg.neutral blk L .l3).length ≤ 4294967295) :=
  ⟨by decide, by decide, rfl, by decide, rfl, by decide, rfl, by decide, by decide, fun L _ => by
    cases L <;> decide +kernel⟩

theorem witness_GridIsReconstructed :
    Running stateQ1 ∧ { stateQ1 with hFlags := 0 }.layersField = 0 ∧ 8 < { stateQ1 with hFlags := 9 }.layersField ∧
    stateQ1.layersField = LayerNo.l3.num ∧
    3 = (if (3 : Byte).toNat = 0 ∨ LayerNo.l3.num ≤ (3 : Byte).toNat then LayerNo.l3.num else (3 : Byte).toNat) ∧
    2 = (if (2 : Byte).toNat = 0 ∨ LayerNo.l3.num ≤ (2 : Byte).toNat then LayerNo.l3.num else (2 : Byte).toNat) ∧
    [blockA].length = (1 : Word32).toNat ∧
    (∀ L : LayerNo, L.num ≤ 3 →
      (stateQ1.layers.get L).seq = ([blockA].flatMap fun blk => frame stateQ1.cfg.neutral blk L .l3) ++ []) :=
  ⟨by decide, by decide, by decide, by decide, by decide, by decide, by decide, fun L h => by
    cases L <;> first | exact absurd h (by decide) | decide +kernel⟩

/-- What encoding and serializing block A writes. -/
def bytesA : List Byte :=
  match execAll [.fsEnc 3 1, .hdrSet 4 0x43, .cfSer] stateA with
  | .next t => t.snkData
  | _ => []

/-- The queues behind block A's frames, by layer. -/
def restQ1 : LayerNo → List Symbol
  | .l1 => [5]
  | .l2 => [0]
  | .l3 => [62]
  | _ => []

/-- Block A in three layers, and the queues of `restQ1` behind it. -/
def stateRest : State :=
  { stateQ1 with
    layers := { layersQ1 with
      l1 := { layersQ1.l1 with seq := layersQ1.l1.seq ++ restQ1 .l1 }
      l2 := { layersQ1.l2 with seq := layersQ1.l2.seq ++ restQ1 .l2 }
      l3 := { layersQ1.l3 with seq := layersQ1.l3.seq ++ restQ1 .l3 } } }

/-- A second block asked for: after block A alone layer 1 stops it, and with the queues of `restQ1` layer 3. -/
theorem witness_GridIsReconstructed_stopped :
    [blockA].length < (2 : Word32).toNat ∧ LayerNo.l1.num ≤ 3 ∧ FrameStop .l1 .l3 [] .queueUnderflow 0 ∧
    (∀ K : LayerNo, ¬ K.num < LayerNo.l1.num) ∧ Running stateRest ∧ stateRest.layersField = LayerNo.l3.num ∧
    (∀ L : LayerNo, L.num ≤ 3 →
      (stateRest.layers.get L).seq =
        ([blockA].flatMap fun blk => frame stateRest.cfg.neutral blk L .l3) ++ restQ1 L) ∧
    (∀ K : LayerNo, K.num < LayerNo.l3.num → WholeFrame K .l3 (restQ1 K)) ∧
    FrameStop .l3 .l3 (restQ1 .l3) .countOverrun 1 :=
  ⟨by decide, by decide, .empty, below_l1, by decide, by decide, fun L h => by
    cases L <;> first | exact absurd h (by decide) | decide +kernel, fun K h => by
    rcases below_l3 K h with e | e
    · rw [e]; exact (by decide : restQ1 .l1 ≠ [])
    · rw [e]; exact ⟨0, [], rfl, by decide, by decide⟩, .overrun 62 [] (by decide) (by decide)⟩

theorem witness_ContainerRoundTrip :
    Running stateA ∧ stateA.bwOpen = true ∧ stateA.bwFill = 0 ∧ (3 : Byte).toNat = LayerNo.l3.num ∧
    stateA.binPos + (1 : Word32).toNat ≤ stateA.binData.length ∧
    [blockA] = (stateA.binData.drop stateA.binPos).take (1 : Word32).toNat ∧ 64 * (1 : Word32).toNat + 4 ≤ 4294967295 ∧
    (0x43 : Byte).toNat % 16 = LayerNo.l3.num ∧ (0x43 : Byte).getLsbD 6 = true ∧ LayerNo.l3 ≠ .l1 ∧
    (∀ p : Pos, p ≠ ⟨0, 0⟩ → blockGet (block [(⟨0, 0⟩, 5)]) p = stateA.cfg.neutral) ∧
    Running (source bytesA) ∧ (source bytesA).brRem = 0 ∧ (source bytesA).cfg = stateA.cfg ∧
    (source bytesA).srcData.drop (source bytesA).srcPos = bytesA ++ [] :=
  ⟨by decide, by decide, by decide, by decide, by decide, rfl, by decide, by decide, by decide, by decide, by
    have h : ∀ r c : Fin 8, (⟨r, c⟩ : Pos) ≠ ⟨0, 0⟩ → blockGet (block [(⟨0, 0⟩, 5)]) ⟨r, c⟩ = 0x80 := by decide +kernel
    exact fun p hp => h p.r p.c hp, ⟨rfl, rfl⟩, rfl, rfl, by simp [source, State.reset]⟩

theorem witness_DeeperReconstructionOnlyAdds :
    Running stateQ1 ∧ stateQ1.layersField = LayerNo.l3.num ∧ maxLayer 1 .l3 ≤ maxLayer 0 .l3 ∧
    (∃ t, exec (.fsDecblk 1) stateQ1 = .next t) ∧ Running (nextOf (exec (.fsDecblk 1) stateQ1)) ∧
    (∃ t, exec (.fsDecblk 0) stateQ1 = .next t) ∧ Running (nextOf (exec (.fsDecblk 0) stateQ1)) :=
  ⟨by decide, by decide, by decide, ⟨_, rfl⟩, by decide +kernel, ⟨_, rfl⟩, by decide +kernel⟩

/-- A state in the middle of its work: three bits pending, a table of vector S10 with its tree and code, two Symbols
popped, and the word of `LS.POP 2` waiting. -/
def busy : State :=
  { slot2 { layerS10.rebuilt with rp := 2 } with
    bwAcc := 0xA0, bwFill := 3, hFlags := 0x42, inbox := [.command 0x4202000000000000] }

theorem layerInv_empty : LayerInv Layer.empty :=
  ⟨by decide, by decide, by decide, by decide, by decide, by decide, by decide⟩

theorem layerInv_busy : LayerInv { layerS10.rebuilt with rp := 2 } :=
  ⟨by decide, by decide, by decide, by decide +kernel, by decide +kernel, by decide, by decide +kernel⟩

theorem witness_inv : Inv busy :=
  ⟨fun L => by cases L <;> first | exact layerInv_empty | exact layerInv_busy, by decide, by decide, by decide,
    fun _ L => by cases L <;> decide, by decide⟩

/-- For `StepKeepsTheInvariant`, `StepsAreSafeUnderTheInvariant` and `StreamsOnlyMoveForward`. -/
theorem witness_StepKeepsTheInvariant :
    Inv busy ∧ (∃ t, step busy = .next t) ∧ busy.inbox = .command 0x4202000000000000 :: [] :=
  ⟨witness_inv, ⟨_, rfl⟩, rfl⟩

/-- The reset input, for `StreamsOnlyMoveForward`. -/
theorem witness_StreamsOnlyMoveForward_reset : ∃ t, step { busy with inbox := [.reset] } = .next t := ⟨_, rfl⟩

theorem witness_ReconstructionOnlyMovesCursors :
    Instr.fsDecblk 0 ∈ [Instr.fsDecblk 0, .fsRec 0 1, .lsPop 0, .lsRewind] ∧
    (∃ t, exec (.fsDecblk 0) stateQ1 = .next t) ∧ (∃ t, exec (.fsRec 0 1) stateQ1 = .next t) ∧
    (∃ t, exec (.lsPop 0) stateQ1 = .next t) ∧ ∃ t, exec .lsRewind stateQ1 = .next t :=
  ⟨by decide, ⟨_, rfl⟩, ⟨_, rfl⟩, ⟨_, rfl⟩, ⟨_, rfl⟩⟩

theorem witness_EventsAreSticky :
    ¬ Running { busy with refused := some .capacity } ∧
    (∃ t, step { busy with refused := some .capacity } = .next t) ∧
    ∃ t, step { offered 0x0400000000000000 with fault := some .contract } = .next t :=
  ⟨by decide, ⟨_, rfl⟩, ⟨_, rfl⟩⟩

theorem witness_ReaderAndWriterAreIndependent :
    (∃ t, exec (.bwWrite 8 0xA7) State.reset = .next t) ∧ Instr.bwWrite 8 0xA7 ≠ .sreset ∧
    (∀ a, Instr.bwWrite 8 0xA7 ∉ [Instr.brRead a, .brBit, .brSkip, .hfDec a, .cfGethdr, .cfGetlayer a, .cfDes]) ∧
    (∃ t, exec (.brRead 8) (source [0xFF]) = .next t) ∧ Instr.brRead 8 ≠ .sreset ∧
    ∀ a b, Instr.brRead 8 ∉ [Instr.bwWrite a b, .bwFlush, .bwClose, .hfEnc a b, .cfPuthdr, .cfPutlayer a, .cfSer] :=
  ⟨⟨_, rfl⟩, by decide, by simp, ⟨_, rfl⟩, by decide, by simp⟩

end Sys2Proof.Tests
end

section
/-!
PROOF. What every procedure of the core keeps, said once: an outcome either moves the machine forward and keeps what is
asked of the layer slots, or stops at a sound state with one event taken, or is stuck only where its premise fails. The
invariant (`10_state.md` R45), the safety of a step and the direction of the streams are read off that judgement.
-/

namespace Sys2Proof.Machine

/-! ## Moving forward -/

/-- The environment of `10_state.md` R40 to R43, `SNK_RELEASED` aside, and the parameters. -/
def State.streams (s : State) := (s.snkData, s.bout, s.srcData, s.binData, s.srcPos, s.binPos, s.cfg)

/-- All that is neither a register of the bit units, the scan, the header and the slots nor `SNK_RELEASED`. -/
def State.ports (s : State) := (s.streams, s.responses, s.inbox, s.fault, s.refused)

/-- From `s` to `t` the sinks are only appended to, the sources' contents and the parameters stay, no position goes
back (`10_state.md` R40 to R43). -/
structure StreamsForward (s t : State) : Prop where
  sink : s.snkData <+: t.snkData
  blockSink : s.bout <+: t.bout
  source : t.srcData = s.srcData
  blockSource : t.binData = s.binData
  sourcePos : s.srcPos ≤ t.srcPos
  blockPos : s.binPos ≤ t.binPos
  params : t.cfg = s.cfg

/-- The streams only move forward, and neither the command port nor an event register changes: what a procedure does
before it ends. -/
structure Forward (s t : State) : Prop extends StreamsForward s t where
  responses : t.responses = s.responses
  inbox : t.inbox = s.inbox
  fault : t.fault = s.fault
  refused : t.refused = s.refused

theorem StreamsForward.of_streams {s t : State} (h : t.streams = s.streams) : StreamsForward s t := by
  simp only [State.streams, Prod.mk.injEq] at h
  obtain ⟨snk, bout, src, bin, srcPos, binPos, cfg⟩ := h
  exact ⟨snk ▸ List.prefix_rfl, bout ▸ List.prefix_rfl, src, bin, srcPos.ge, binPos.ge, cfg⟩

theorem StreamsForward.trans {s t u : State} (h : StreamsForward s t) (k : StreamsForward t u) :
    StreamsForward s u where
  sink := h.sink.trans k.sink
  blockSink := h.blockSink.trans k.blockSink
  source := k.source.trans h.source
  blockSource := k.blockSource.trans h.blockSource
  sourcePos := h.sourcePos.trans k.sourcePos
  blockPos := h.blockPos.trans k.blockPos
  params := k.params.trans h.params

theorem Forward.trans {s t u : State} (h : Forward s t) (k : Forward t u) : Forward s u where
  toStreamsForward := h.toStreamsForward.trans k.toStreamsForward
  responses := k.responses.trans h.responses
  inbox := k.inbox.trans h.inbox
  fault := k.fault.trans h.fault
  refused := k.refused.trans h.refused

/-- A change of registers alone. -/
theorem Forward.of_ports {s t : State} (h : t.ports = s.ports) : Forward s t := by
  simp only [State.ports, Prod.mk.injEq] at h
  obtain ⟨streams, responses, inbox, fault, refused⟩ := h
  exact ⟨.of_streams streams, responses, inbox, fault, refused⟩

theorem Forward.refl (s : State) : Forward s s := .of_ports rfl

/-- What the bit writer does. -/
theorem Forward.writer {s : State} {snk : List Byte} (h : s.snkData <+: snk) (acc : Byte) (fill : Fin 8) :
    Forward s { s with bwAcc := acc, bwFill := fill, snkData := snk } :=
  ⟨⟨h, List.prefix_rfl, rfl, rfl, Nat.le_refl _, Nat.le_refl _, rfl⟩, rfl, rfl, rfl, rfl⟩

/-- What the bit reader does. -/
theorem Forward.reader (s : State) (cur : Byte) (rem : Fin 9) (n : Nat) :
    Forward s { s with brCur := cur, brRem := rem, srcPos := s.srcPos + n } :=
  ⟨⟨List.prefix_rfl, List.prefix_rfl, rfl, rfl, Nat.le_add_right _ _, Nat.le_refl _, rfl⟩, rfl, rfl, rfl, rfl⟩

theorem Forward.blockIn (s : State) : Forward s { s with binPos := s.binPos + 1 } :=
  ⟨⟨List.prefix_rfl, List.prefix_rfl, rfl, rfl, Nat.le_refl _, Nat.le_add_right _ _, rfl⟩, rfl, rfl, rfl, rfl⟩

theorem Forward.blockOut (s : State) (b : Block) : Forward s (blockOut b s) :=
  ⟨⟨List.prefix_rfl, List.prefix_append _ _, rfl, rfl, Nat.le_refl _, Nat.le_refl _, rfl⟩, rfl, rfl, rfl, rfl⟩

/-- A core that moves forward keeps running. -/
theorem Forward.running {s t : State} (h : Forward s t) (hs : Running s) : Running t :=
  ⟨h.fault.trans hs.1, h.refused.trans hs.2⟩

/-! ## Sound states -/

/-- The part of the invariant that holds in the middle of a command too: all but the events, and but the counting of
the Symbols, which `GetLayer` suspends while it reads a table (`44_container.md` R204). -/
structure Sound (s : State) : Prop where
  layers : ∀ L, LayerInv (s.layer L)
  tidy : WriterTidy s
  reserved : s.hFlags.getLsbD 4 = false

theorem Inv.sound {s : State} (h : Inv s) : Sound s := ⟨h.layers, h.tidy, h.reserved⟩

/-- A sound state whose slots have a property. -/
structure Holding (I : Layers → Prop) (s : State) : Prop extends Sound s where
  slots : I s.layers

/-- Only what `Sound` speaks of matters. -/
theorem Holding.congr {I : Layers → Prop} {s t : State} (h : Holding I s) (hl : t.layers = s.layers)
    (ht : WriterTidy t) (hf : t.hFlags.getLsbD 4 = false) : Holding I t where
  layers L := by rw [State.layer, hl]; exact h.layers L
  tidy := ht
  reserved := hf
  slots := hl ▸ h.slots

/-- A change of other registers and of the streams. -/
theorem Holding.of_same {I : Layers → Prop} {s t : State} (h : Holding I s)
    (ht : (t.layers, t.bwAcc, t.bwFill, t.hFlags) = (s.layers, s.bwAcc, s.bwFill, s.hFlags)) : Holding I t := by
  simp only [Prod.mk.injEq] at ht
  obtain ⟨hl, ha, hfill, hf⟩ := ht
  exact h.congr hl (by unfold WriterTidy; rw [ha, hfill]; exact h.tidy) (hf ▸ h.reserved)

/-- A slot replaced by one that meets its invariant. -/
theorem Holding.setLayer {I J : Layers → Prop} {s : State} (h : Holding I s) {L : LayerNo} {ly : Layer}
    (hl : LayerInv ly) (hj : J (s.layers.set L ly)) : Holding J (s.setLayer L ly) where
  layers M := by
    by_cases hM : M = L
    · subst hM; rw [State.layer_setLayer_same]; exact hl
    · rw [State.layer_setLayer_ne _ _ _ _ hM]; exact h.layers M
  tidy := h.tidy
  reserved := h.reserved
  slots := hj

/-! ## The judgement about a procedure -/

/-- The event a procedure stops with is taken (`60_exceptions.md` R280, R287). -/
def Stopped (u t : State) : Prop := (∃ k, t = u.takeFault k) ∨ ∃ r, t = u.takeRefusal r

/-- What is claimed of a procedure that began in `s`: however it ends it has only moved forward; from a state that
meets the premise `P` it ends normally with `Q`, or stops where the state was sound, and is not stuck. -/
def Res.Meets {α : Type} (s : State) (P : Prop) (r : Res α) (Q : α → State → Prop) : Prop :=
  match r with
  | .ok a t => Forward s t ∧ (P → Q a t)
  | .stop t => ∃ u, Forward s u ∧ (P → Sound u) ∧ Stopped u t
  | .stuck _ => ¬ P

section Judgement
variable {α β : Type} {s s' : State} {P P' : Prop} {r : Res α} {Q Q' : α → State → Prop}

theorem Res.Meets.ok {a : α} {t : State} (hf : Forward s t) (h : P → Q a t) : (Res.ok a t).Meets s P Q := ⟨hf, h⟩

theorem Res.Meets.raise (k : FaultKind) (h : P → Sound s) : (raiseFault k s : Res α).Meets s P Q :=
  ⟨s, .refl s, h, .inl ⟨k, rfl⟩⟩

theorem Res.Meets.refuse (e : Reason) (h : P → Sound s) : (refuse e s : Res α).Meets s P Q :=
  ⟨s, .refl s, h, .inr ⟨e, rfl⟩⟩

/-- A stronger premise and a weaker claim. -/
theorem Res.Meets.mono (h : r.Meets s P Q) (hp : P' → P) (hq : ∀ a t, Q a t → Q' a t) : r.Meets s P' Q' := by
  cases r with
  | ok a t => exact ⟨h.1, fun p => hq a t (h.2 (hp p))⟩
  | stop t =>
    obtain ⟨u, hf, hs, ht⟩ := h
    exact ⟨u, hf, fun p => hs (hp p), ht⟩
  | stuck e => exact fun p => h (hp p)

/-- A fact about no state is carried along. -/
theorem Res.Meets.and_right (h : r.Meets s P Q) (H : Prop) : r.Meets s (P ∧ H) fun a t => Q a t ∧ H := by
  cases r with
  | ok a t => exact ⟨h.1, fun p => ⟨h.2 p.1, p.2⟩⟩
  | stop t =>
    obtain ⟨u, hf, hs, ht⟩ := h
    exact ⟨u, hf, fun p => hs p.1, ht⟩
  | stuck e => exact fun p => h p.1

/-- A procedure that begins after an update. -/
theorem Res.Meets.after (h : r.Meets s' P' Q) (hf : Forward s s') (hp : P → P') : r.Meets s P Q := by
  cases r with
  | ok a t => exact ⟨hf.trans h.1, fun p => h.2 (hp p)⟩
  | stop t =>
    obtain ⟨u, hu, hs, ht⟩ := h
    exact ⟨u, hf.trans hu, fun p => hs (hp p), ht⟩
  | stuck e => exact fun p => h (hp p)

/-- One procedure after another, in terms of what the first answered. -/
theorem Res.Meets.andThen_eq {f : α → State → Res β} {R : β → State → Prop} (h : r.Meets s P Q)
    (hf : ∀ a t, r = .ok a t → (f a t).Meets t (Q a t) R) : (r.andThen f).Meets s P R := by
  cases r with
  | ok a t => exact (hf a t rfl).after h.1 h.2
  | stop t => exact h
  | stuck e => exact h

/-- One procedure after another. -/
theorem Res.Meets.andThen {f : α → State → Res β} {R : β → State → Prop} (h : r.Meets s P Q)
    (hf : ∀ a t, (f a t).Meets t (Q a t) R) : (r.andThen f).Meets s P R :=
  h.andThen_eq fun a t _ => hf a t

end Judgement

/-- A procedure that keeps a property of the slots, in sound states. -/
def Res.Keeps {α : Type} (I : Layers → Prop) (s : State) (r : Res α) : Prop :=
  r.Meets s (Holding I s) fun _ t => Holding I t

section Keeping
variable {α β : Type} {I : Layers → Prop} {s : State} {r : Res α}

theorem Res.Keeps.ok {a : α} {t : State} (hf : Forward s t) (h : Holding I s → Holding I t) :
    (Res.ok a t).Keeps I s := Res.Meets.ok hf h

theorem Res.Keeps.pure (a : α) : (Res.ok a s).Keeps I s := .ok (.refl s) id

theorem Res.Keeps.raise (k : FaultKind) : (raiseFault k s : Res α).Keeps I s := Res.Meets.raise k Holding.toSound

theorem Res.Keeps.refuse (e : Reason) : (refuse e s : Res α).Keeps I s := Res.Meets.refuse e Holding.toSound

theorem Res.Keeps.andThen {f : α → State → Res β} (h : r.Keeps I s) (hf : ∀ a t, (f a t).Keeps I t) :
    (r.andThen f).Keeps I s := Res.Meets.andThen h hf

theorem Res.Keeps.after {t : State} (h : r.Keeps I t) (hf : Forward s t) (hp : Holding I s → Holding I t) :
    r.Keeps I s := Res.Meets.after h hf hp

/-- The response of a command says nothing about the state. -/
theorem Res.Keeps.thenOkWith (h : r.Keeps I s) (v : α → State → Nat) :
    (r.andThen fun a s => okWith (v a s) s).Keeps I s := h.andThen fun _ _ => .pure _

theorem withLayerIndex_keeps {a : Byte} {body : LayerNo → State → Res α} (h : ∀ L, (body L s).Keeps I s) :
    (withLayerIndex a body s).Keeps I s := by
  rcases withLayerIndex_cases a body s with ⟨L, -, e⟩ | ⟨-, e⟩ <;> rw [e]
  · exact h L
  · exact .refuse _

theorem withLayerCount_keeps {n : Nat} {body : LayerNo → State → Res α} (h : ∀ N, (body N s).Keeps I s) :
    (withLayerCount n body s).Keeps I s := by
  rcases withLayerCount_cases n body s with ⟨N, -, e⟩ | ⟨-, e⟩ <;> rw [e]
  · exact h N
  · exact .refuse _

theorem whenWriterAligned_keeps {body : State → Res α} (h : (body s).Keeps I s) :
    (whenWriterAligned body s).Keeps I s := by
  rcases whenWriterAligned_cases body s with ⟨-, e⟩ | ⟨-, e⟩ <;> rw [e]
  · exact h
  · exact .refuse _

theorem whenReaderAligned_keeps {body : State → Res α} (h : (body s).Keeps I s) :
    (whenReaderAligned body s).Keeps I s := by
  rcases whenReaderAligned_cases body s with ⟨-, e⟩ | ⟨-, e⟩ <;> rw [e]
  · exact h
  · exact .refuse _

end Keeping

/-! ## Bit streams and header -/

section Streams
variable {I : Layers → Prop}

/-- The writer's registers and the sink, the accumulator staying tidy. -/
theorem Holding.writer {s : State} (h : Holding I s) {acc : Byte} {fill : Fin 8} {snk : List Byte}
    (ht : WriterTidy s → WriterTidy { s with bwAcc := acc, bwFill := fill, snkData := snk }) :
    Holding I { s with bwAcc := acc, bwFill := fill, snkData := snk } := h.congr rfl (ht h.tidy) h.reserved

theorem writeBits_keeps (v : Byte) (len : Nat) (s : State) : (writeBits v len s).Keeps I s := by
  rcases writeBits_cases v len s with ⟨-, e⟩ | ⟨-, -, e⟩ | ⟨-, -, e⟩ <;> rw [e]
  · exact .raise _
  · exact .refuse _
  · obtain ⟨acc, fill, snk, e', -, hp, ht⟩ := putBits_spec v len s
    rw [e']
    exact .ok (.writer hp acc fill) fun h => h.writer ht

theorem flush_keeps (s : State) : (flush s).Keeps I s := by
  rcases flush_cases s with ⟨-, e⟩ | ⟨-, -, e⟩ | ⟨-, -, e⟩ <;> rw [e]
  · exact .refuse _
  · exact .pure _
  · exact .ok (.writer (List.prefix_append _ _) 0 0) fun h => h.writer fun _ i _ _ => by simp

theorem closeWriter_keeps (s : State) : (closeWriter s).Keeps I s :=
  (flush_keeps s).andThen fun _ _ => .ok (.of_ports rfl) fun h => h.of_same rfl

theorem writeBytes_keeps (bs : List Byte) (s : State) : (writeBytes bs s).Keeps I s := by
  induction bs generalizing s with
  | nil => exact .pure _
  | cons b rest ih => exact (writeBits_keeps b 8 s).andThen fun _ t => ih t

/-- A pull writes the reader's registers and advances the source, and nothing else. -/
theorem pullBits_reader (len : Nat) (s : State) : ∃ v cur rem n,
    pullBits len s = (v, { s with brCur := cur, brRem := rem, srcPos := s.srcPos + n }) := by
  by_cases h : len ≤ (sourceBits s).length
  · obtain ⟨cur, rem, e, -⟩ := pullBitsFrom_enough len 0 s h
    exact ⟨_, cur, rem, _, e⟩
  · exact ⟨none, _, 0, _, pullBitsFrom_short len 0 s (by omega)⟩

theorem readBits_keeps (len : Nat) (s : State) : (readBits len s).Keeps I s := by
  obtain ⟨v, cur, rem, n, e⟩ := pullBits_reader len s
  unfold readBits
  split
  · exact .raise _
  · rw [e]
    cases v with
    | none => exact Res.Keeps.after (.raise _) (.reader s cur rem n) (·.of_same rfl)
    | some v => exact .ok (.reader s cur rem n) (·.of_same rfl)

theorem readBytes_keeps (n : Nat) (s : State) : (readBytes n s).Keeps I s := by
  induction n generalizing s with
  | zero => exact .pure _
  | succ n ih => exact (readBits_keeps 8 s).andThen fun b t => (ih t).andThen fun bs u => .pure _

theorem getU_keeps (n : Nat) (s : State) : (getU n s).Keeps I s :=
  (readBytes_keeps n s).andThen fun _ _ => .pure _

theorem readBytes_length {n : Nat} {s t : State} {bs : List Byte} (h : readBytes n s = .ok bs t) : bs.length = n := by
  induction n generalizing s t bs with
  | zero => cases h; rfl
  | succ n ih =>
    obtain ⟨b, s', -, h⟩ := Res.andThen_eq_ok.mp h
    obtain ⟨cs, u, hcs, h⟩ := Res.andThen_eq_ok.mp h
    cases h
    rw [List.length_cons, ih hcs]

theorem valueLE_lt (bs : List Byte) : valueLE bs < 256 ^ bs.length := by
  induction bs with
  | nil => simp [valueLE]
  | cons b rest ih =>
    have := b.isLt
    rw [valueLE, List.length_cons, Nat.pow_succ]
    omega

/-- A field of n bytes holds a number below 256^n. -/
theorem getU_lt {n v : Nat} {s t : State} (h : getU n s = .ok v t) : v < 256 ^ n := by
  obtain ⟨bs, _, hb, h⟩ := Res.andThen_eq_ok.mp h
  cases h
  rw [← readBytes_length hb]
  cases t.cfg.fieldByteOrder with
  | le => exact valueLE_lt bs
  | be => simpa [fieldValue] using valueLE_lt bs.reverse

theorem skipByte_holding {s : State} (h : Holding I s) : Holding I (skipByte s) := h.of_same rfl

/-- The reserved bit of a flags byte, cleared. -/
theorem clearReserved_bit4 (b : Byte) : (clearReserved b).getLsbD 4 = false := by
  simp [clearReserved]

/-- The reserved bit of a flags byte whose `LAYERS` is replaced. -/
theorem withLayersField_bit4 (b : Byte) (n : Nat) : (withLayersField b n).getLsbD 4 = b.getLsbD 4 := by
  simp only [withLayersField, BitVec.getLsbD_append]
  simp

theorem headerEnd_keeps (buf : List Byte) (s : State) : (headerEnd buf s).Keeps I s := by
  unfold headerEnd
  split
  · exact .raise _
  · split
    · exact .raise _
    · exact .raise _

theorem pullHeader_keeps (n : Nat) (buf : List Byte) (s : State) : (pullHeader n buf s).Keeps I s := by
  induction n generalizing buf s with
  | zero => exact .pure _
  | succ n ih =>
    obtain ⟨v, cur, rem, k, e⟩ := pullBits_reader 8 s
    rw [pullHeader, e]
    refine Res.Keeps.after ?_ (.reader s cur rem k) (·.of_same rfl)
    cases v with
    | none => exact headerEnd_keeps buf _
    | some x => exact ih _ _

theorem getHeader_keeps (s : State) : (getHeader s).Keeps I s := by
  refine (pullHeader_keeps 22 [] s).andThen fun buf t => ?_
  split
  · exact .ok (.of_ports rfl) fun h => h.congr rfl h.tidy (clearReserved_bit4 _)
  · exact .raise _

end Streams
end Sys2Proof.Machine
end

section
/-!
PROOF. The arena `BuildTree` makes (`42_huffman.md` R145): children below their parents, the root in use, leaves with
Symbols of the table. So a walk over the arena of a valid tree never breaks off.
-/

namespace Sys2Proof.Machine

/-! ## The arena of a table -/

/-- The nodes one pass makes are internal, over nodes of its working list. -/
theorem mergePass_children {b : Nat} (work : List (Nat × Word64)) (k : Nat) (h : ∀ p ∈ work, p.1 < b) :
    ∀ n ∈ (mergePass k work).2, ∃ x y w, n = .internal x y w ∧ x < b ∧ y < b := by
  fun_induction mergePass k work with
  | case1 k x wx y wy rest r ih =>
    intro n hn
    rcases List.mem_cons.mp hn with rfl | hn
    · exact ⟨x, y, _, rfl, h (x, wx) (by simp), h (y, wy) (by simp)⟩
    · exact ih (fun p hp => h p (by simp [hp])) n hn
  | case2 => simp
  | case3 => simp

/-- The side list of a pass names nodes in use. -/
theorem mergePass_indices (work : List (Nat × Word64)) (k : Nat) (h : ∀ p ∈ work, p.1 < k) :
    ∀ p ∈ (mergePass k work).1, p.1 < k + (mergePass k work).2.length := by
  fun_induction mergePass k work with
  | case1 k x wx y wy rest r ih =>
    have ih' : ∀ p ∈ r.1, p.1 < k + 1 + r.2.length := ih fun p hp => Nat.lt_succ_of_lt (h p (by simp [hp]))
    intro p hp
    rw [List.length_cons]
    rcases List.mem_cons.mp hp with rfl | hp
    · simp only; omega
    · have := ih' p hp; omega
  | case2 k one => simpa using h
  | case3 => simp

/-- The nodes all passes make are internal, each above its children. -/
theorem mergePasses_children (fuel k : Nat) (work : List (Nat × Word64)) (h : ∀ p ∈ work, p.1 < k) (i : Nat) (n : Node)
    (hn : (mergePasses fuel k work).2[i]? = some n) : ∃ x y w, n = .internal x y w ∧ x < k + i ∧ y < k + i := by
  induction fuel generalizing k work i with
  | zero => simp [mergePasses] at hn
  | succ fuel ih =>
    rw [mergePasses] at hn
    split at hn
    · simp at hn
    · rw [List.getElem?_append] at hn
      split at hn
      · obtain ⟨x, y, w, e, hx, hy⟩ := mergePass_children work k h n (List.mem_of_getElem? hn)
        exact ⟨x, y, w, e, by omega, by omega⟩
      · obtain ⟨x, y, w, e, hx, hy⟩ := ih _ _ (mergePass_indices work k h) _ hn
        exact ⟨x, y, w, e, by omega, by omega⟩

/-- The last working list names nodes in use. -/
theorem mergePasses_indices (fuel k : Nat) (work : List (Nat × Word64)) (h : ∀ p ∈ work, p.1 < k) :
    ∀ p ∈ (mergePasses fuel k work).1, p.1 < k + (mergePasses fuel k work).2.length := by
  induction fuel generalizing k work with
  | zero => simpa [mergePasses] using h
  | succ fuel ih =>
    rw [mergePasses]
    split
    · simpa using h
    · intro p hp
      have := ih _ _ (mergePass_indices work k h) p hp
      rw [List.length_append]
      omega

/-- The first working list names the leaves. -/
theorem leafWork_lt (leaves : List (Symbol × Word64)) :
    ∀ p ∈ leaves.zipIdx.map fun p => (p.2, p.1.2), p.1 < leaves.length := by
  intro p hp
  obtain ⟨q, hq, rfl⟩ := List.mem_map.mp hp
  exact List.snd_lt_of_mem_zipIdx hq

/-- A node of the arena of a table: a leaf of the table, or an internal node above its children. -/
theorem buildArena_node {freq : Table Word64} {k : Nat} {n : Node} (h : (buildArena freq).1[k]? = some n) :
    (∃ p ∈ freq, n = .leaf p.1 p.2) ∨ ∃ x y w, n = .internal x y w ∧ x < k ∧ y < k := by
  simp only [buildArena, List.getElem?_append, List.length_map] at h
  split at h
  · obtain ⟨p, hp, rfl⟩ := List.mem_map.mp (List.mem_of_getElem? h)
    exact .inl ⟨p, (orderLeaves_perm freq).mem_iff.mp hp, rfl⟩
  · obtain ⟨x, y, w, e, hx, hy⟩ := mergePasses_children _ _ _ (leafWork_lt _) _ _ h
    exact .inr ⟨x, y, w, e, by omega, by omega⟩

/-- The children of a node of the arena stand below it (`10_state.md` R34). -/
theorem buildArena_ordered (freq : Table Word64) : ArenaOrdered (buildArena freq).1 := by
  intro k _
  split
  · next c0 c1 w h =>
    rcases buildArena_node h with ⟨p, -, e⟩ | ⟨x, y, v, e, hx, hy⟩
    · cases e
    · cases e; exact ⟨hx, hy⟩
  · trivial

/-- The root of the arena is a node in use. -/
theorem buildArena_root_lt {freq : Table Word64} {k : Nat} (h : (buildArena freq).2 = some k) :
    k < (buildArena freq).1.length := by
  simp only [buildArena, Option.map_eq_some_iff] at h
  obtain ⟨p, hp, rfl⟩ := h
  have := mergePasses_indices _ _ _ (leafWork_lt (orderLeaves freq)) p (List.mem_of_head? hp)
  simpa [buildArena] using this

/-- A leaf of the arena carries a Symbol of the table. -/
theorem buildArena_leaf {freq : Table Word64} {x : Symbol} {w : Word64} (h : .leaf x w ∈ (buildArena freq).1) :
    (Table.get freq x).isSome := by
  obtain ⟨k, hk⟩ := List.getElem?_of_mem h
  rcases buildArena_node hk with ⟨p, hp, e⟩ | ⟨c0, c1, v, e, -⟩
  · cases e; exact Table.get_isSome.mpr ⟨p, hp, rfl⟩
  · cases e

/-! ## Walks over an ordered arena -/

theorem ArenaOrdered.children {nodes : List Node} (h : ArenaOrdered nodes) {k c0 c1 : Nat} {w : Word64}
    (hk : nodes[k]? = some (.internal c0 c1 w)) : c0 < k ∧ c1 < k := by
  have := h k (List.getElem?_eq_some_iff.mp hk).1
  rwa [hk] at this

/-- A walk that has a level for every node below its start reaches its leaves. -/
theorem walk_total {nodes : List Node} (h : ArenaOrdered nodes) (fuel k : Nat) (hk : k < nodes.length) (hf : k < fuel)
    (bits : Byte) (len : Nat) (t : Table CodeEntry) : ∃ u, walk nodes fuel k bits len t = some u := by
  induction fuel generalizing k bits len t with
  | zero => omega
  | succ fuel ih =>
    have hn := List.getElem?_eq_getElem hk
    rw [walk, hn]
    cases hnode : nodes[k] with
    | leaf x w => exact ⟨_, rfl⟩
    | internal c0 c1 w =>
      obtain ⟨h0, h1⟩ := h.children (hn.trans (congrArg some hnode))
      obtain ⟨u, hu⟩ := ih c0 (by omega) (by omega) (bits <<< 1) (len + 1) t
      obtain ⟨v, hv⟩ := ih c1 (by omega) (by omega) ((bits <<< 1) ||| 1) (len + 1) u
      exact ⟨v, by simp only [hu, Option.bind_some, hv]⟩

/-- The arena of a table has a code table. -/
theorem codeTable_buildArena (freq : Table Word64) :
    ∃ t, codeTable (buildArena freq).1 (buildArena freq).2 = some t := by
  cases hr : (buildArena freq).2 with
  | none => exact ⟨[], rfl⟩
  | some k => exact walk_total (buildArena_ordered freq) _ k (buildArena_root_lt hr) (Nat.lt_succ_self k) _ _ _

/-! ## What a valid tree is -/

section ValidTree
variable {ly : Layer} (h : LayerInv ly) (hv : ly.treeValid = true)
include h hv

theorem LayerInv.nodes_eq : ly.nodes = (buildArena ly.freq).1 := congrArg Prod.fst (h.treeOfTable hv)

theorem LayerInv.root_eq : ly.root = (buildArena ly.freq).2 := congrArg Prod.snd (h.treeOfTable hv)

theorem LayerInv.codeTable_some : ∃ t, codeTable ly.nodes ly.root = some t := by
  rw [h.nodes_eq hv, h.root_eq hv]
  exact codeTable_buildArena ly.freq

theorem LayerInv.arenaOrdered : ArenaOrdered ly.nodes := h.nodes_eq hv ▸ buildArena_ordered ly.freq

theorem LayerInv.root_lt {k : Nat} (hk : ly.root = some k) : k < ly.nodes.length := by
  rw [h.nodes_eq hv]
  exact buildArena_root_lt ((h.root_eq hv).symm.trans hk)

theorem LayerInv.leaf_listed {x : Symbol} {w : Word64} (hx : .leaf x w ∈ ly.nodes) : (Table.get ly.freq x).isSome :=
  buildArena_leaf (h.nodes_eq hv ▸ hx)

end ValidTree

/-! ## What keeps the invariant of a slot -/

theorem LayerInv.empty : LayerInv .empty where
  cursor := Nat.le_refl 0
  bounded := Nat.zero_le _
  freqOrdered := .nil
  codeOrdered := .nil
  treeOfTable h := nomatch h
  codeNeedsTree h := nomatch h
  codeOfTree h := nomatch h

theorem LayerInv.buildTree {ly : Layer} (h : LayerInv ly) : LayerInv ly.buildTree where
  cursor := h.cursor
  bounded := h.bounded
  freqOrdered := h.freqOrdered
  codeOrdered := h.codeOrdered
  treeOfTable _ := rfl
  codeNeedsTree hc := nomatch hc
  codeOfTree hc := nomatch hc

theorem LayerInv.withCode {ly : Layer} (h : LayerInv ly) (hv : ly.treeValid = true) {t : Table CodeEntry}
    (ht : codeTable ly.nodes ly.root = some t) : LayerInv (ly.withCode t) where
  cursor := h.cursor
  bounded := h.bounded
  freqOrdered := h.freqOrdered
  codeOrdered := codeTable_ordered ht
  treeOfTable := h.treeOfTable
  codeNeedsTree _ := hv
  codeOfTree _ := ht

theorem LayerInv.invalidate {ly : Layer} (h : LayerInv ly) : LayerInv ly.invalidate where
  cursor := h.cursor
  bounded := h.bounded
  freqOrdered := h.freqOrdered
  codeOrdered := h.codeOrdered
  treeOfTable hv := nomatch hv
  codeNeedsTree hc := nomatch hc
  codeOfTree hc := nomatch hc

/-- Another table, where no tree depends on it. -/
theorem LayerInv.withFreq {ly : Layer} (h : LayerInv ly) (hv : ly.treeValid = false) {t : Table Word64}
    (ht : TableOrdered t) : LayerInv { ly with freq := t } where
  cursor := h.cursor
  bounded := h.bounded
  freqOrdered := ht
  codeOrdered := h.codeOrdered
  treeOfTable hv' := nomatch hv.symm.trans hv'
  codeNeedsTree := h.codeNeedsTree
  codeOfTree := h.codeOfTree

/-- Other contents of the queue, with the cursor in them. -/
theorem LayerInv.withQueue {ly : Layer} (h : LayerInv ly) {seq : List Symbol} {rp : Nat} (hc : rp ≤ seq.length)
    (hb : seq.length ≤ maxSeqLength) : LayerInv { ly with seq := seq, rp := rp } where
  cursor := hc
  bounded := hb
  freqOrdered := h.freqOrdered
  codeOrdered := h.codeOrdered
  treeOfTable := h.treeOfTable
  codeNeedsTree := h.codeNeedsTree
  codeOfTree := h.codeOfTree

theorem LayerInv.withLsLen {ly : Layer} (h : LayerInv ly) (len : Word32) : LayerInv { ly with lsLen := len } where
  cursor := h.cursor
  bounded := h.bounded
  freqOrdered := h.freqOrdered
  codeOrdered := h.codeOrdered
  treeOfTable := h.treeOfTable
  codeNeedsTree := h.codeNeedsTree
  codeOfTree := h.codeOfTree

theorem LayerInv.pushed {ly : Layer} (h : LayerInv ly) (x : Symbol) (hl : ly.seq.length ≠ maxSeqLength) :
    LayerInv (ly.pushed x) := by
  have hb := h.bounded
  have hc := h.cursor
  refine (h.withQueue (seq := ly.seq ++ [x]) (rp := ly.rp) ?_ ?_).invalidate.withFreq rfl
    (Table.set_ordered h.freqOrdered x _)
  all_goals
    rw [List.length_append, List.length_singleton]
    omega

end Sys2Proof.Machine
end

section
/-!
PROOF. What the procedures on the layer slots keep: the Symbols of every sequence are listed in its table
(`44_container.md` R214), but for the one slot `GetLayer` is reading.
-/

namespace Sys2Proof.Machine

/-! ## Counted slots -/

/-- Every Symbol of the sequence is listed in the table (`44_container.md` R214). -/
def Layer.Counted (ly : Layer) : Prop := ∀ x ∈ ly.seq, (Table.get ly.freq x).isSome

/-- Every slot is counted. -/
def AllCounted (ls : Layers) : Prop := ∀ L, (ls.get L).Counted

/-- Every slot but L is counted. -/
def CountedBut (L : LayerNo) (ls : Layers) : Prop := ∀ M, M ≠ L → (ls.get M).Counted

/-- Where `GetLayer` is in reading the table of slot L: the other slots are counted, and slot L has a valid tree or has
none, as the flag says. -/
def Reading (L : LayerNo) (valid : Bool) (ls : Layers) : Prop := CountedBut L ls ∧ (ls.get L).treeValid = valid

/-- Where `GetLayer` is in reading the Symbols of slot L, and `CF.SER` between its tree and its code table: every slot
is counted, and slot L has a valid tree. -/
def Filling (L : LayerNo) (ls : Layers) : Prop := AllCounted ls ∧ (ls.get L).treeValid = true

theorem AllCounted.empty : AllCounted .empty := fun L => by simp [Layer.Counted, Layer.empty]

theorem AllCounted.but {ls : Layers} (h : AllCounted ls) (L : LayerNo) : CountedBut L ls := fun M _ => h M

theorem CountedBut.set {L : LayerNo} {ls : Layers} (h : CountedBut L ls) (ly : Layer) : CountedBut L (ls.set L ly) := by
  intro M hM
  rw [Layers.get_set_ne _ _ _ _ hM]
  exact h M hM

theorem CountedBut.set_counted {L : LayerNo} {ls : Layers} (h : CountedBut L ls) {ly : Layer} (hl : ly.Counted) :
    AllCounted (ls.set L ly) := by
  intro M
  rw [Layers.get_set]
  split
  · exact hl
  · next hM => exact h M hM

theorem AllCounted.set {L : LayerNo} {ls : Layers} (h : AllCounted ls) {ly : Layer} (hl : ly.Counted) :
    AllCounted (ls.set L ly) := (h.but L).set_counted hl

/-- A write into the table drops no Symbol. -/
theorem Table.isSome_set {α : Type} {t : Table α} {y : Symbol} (h : (Table.get t y).isSome) (x : Symbol) (a : α) :
    (Table.get (Table.set t x a) y).isSome := by
  rw [Table.get_set]
  split
  · rfl
  · exact h

theorem Layer.Counted.pushed {ly : Layer} (h : ly.Counted) (x : Symbol) : (ly.pushed x).Counted := by
  intro y hy
  rw [Layer.pushed_seq, List.mem_append, List.mem_singleton] at hy
  rcases hy with hy | rfl
  · exact Table.isSome_set (h y hy) x _
  · rw [Layer.pushed_get, if_pos rfl]; rfl

/-- A sound state whose slots are replaced by empty ones. -/
theorem Holding.clearLayers {I : Layers → Prop} {s : State} (h : Holding I s) : Holding AllCounted (clearLayers s) where
  layers L := by rw [State.layer_clearLayers]; exact .empty
  tidy := h.tidy
  reserved := h.reserved
  slots := .empty

theorem Holding.rewindAll {s : State} (h : Holding AllCounted s) : Holding AllCounted (rewindAll s) where
  layers L := by
    rw [State.layer_rewindAll]
    exact (h.layers L).withQueue (Nat.zero_le _) (h.layers L).bounded
  tidy := h.tidy
  reserved := h.reserved
  slots L := by
    rw [rewindAll_layers, Layers.get_mapAll]
    exact h.slots L

/-! ## Layer store -/

theorem push_keeps (L : LayerNo) (x : Symbol) (s : State) : (push L x s).Keeps AllCounted s := by
  rcases push_cases L x s with ⟨-, e⟩ | ⟨hl, e⟩ <;> rw [e]
  · exact .refuse _
  · exact .ok (.of_ports rfl) fun h =>
      h.setLayer ((h.layers L).pushed x hl) (h.slots.set ((h.slots L).pushed x))

theorem pushAll_keeps (L : LayerNo) (xs : List Symbol) (s : State) : (pushAll L xs s).Keeps AllCounted s := by
  induction xs generalizing s with
  | nil => exact .pure _
  | cons x rest ih => exact (push_keeps L x s).andThen fun _ t => ih t

/-- A cursor at a Symbol is below the sequence's end. -/
theorem Layer.rp_lt {ly : Layer} {v : Symbol} {rest : List Symbol} (h : ly.queue = v :: rest) :
    ly.rp < ly.seq.length := by
  have := congrArg List.length h
  simp only [Layer.queue, List.length_drop, List.length_cons] at this
  omega

theorem pop_keeps (L : LayerNo) (s : State) : (pop L s).Keeps AllCounted s := by
  rcases pop_cases L s with ⟨-, e⟩ | ⟨v, rest, hq, e⟩ <;> rw [e]
  · exact .refuse _
  · exact .ok (.of_ports rfl) fun h =>
      h.setLayer ((h.layers L).withQueue (Layer.rp_lt hq) (h.layers L).bounded) (h.slots.set (h.slots L))

/-! ## Trees and codes -/

theorem buildTree_holding {L : LayerNo} {s : State} (h : Holding AllCounted s) : Holding (Filling L) (buildTree L s) :=
  h.setLayer (h.layers L).buildTree ⟨h.slots.set (h.slots L), by rw [Layers.get_set_same]; rfl⟩

/-- With a valid tree `Traverse` is not stuck. -/
theorem traverse_meets (L : LayerNo) (s : State) :
    (traverse L s).Meets s (Holding (Filling L) s) fun _ t => Holding AllCounted t := by
  rcases traverse_cases L s with ⟨code, hc, e⟩ | ⟨hc, e⟩ <;> rw [e]
  · refine .ok (.of_ports rfl) fun h => ?_
    obtain ⟨hcounted, hvalid⟩ := h.slots
    exact h.setLayer ((h.layers L).withCode hvalid hc) (hcounted.set (hcounted L))
  · intro h
    obtain ⟨t, ht⟩ := (h.layers L).codeTable_some h.slots.2
    rw [hc] at ht
    cases ht

theorem traverse_keeps {L : LayerNo} {s : State} (hv : (s.layer L).treeValid = true) :
    (traverse L s).Keeps AllCounted s :=
  (traverse_meets L s).mono (fun h => ⟨h.toSound, h.slots, hv⟩) fun _ _ => id

/-- A descent in an ordered arena ends at a leaf of it. -/
theorem descend_meets {I : Layers → Prop} (nodes : List Node) (fuel k : Nat) (s : State) :
    (descend nodes fuel k s).Meets s (Holding I s ∧ ArenaOrdered nodes ∧ k < nodes.length ∧ k < fuel)
      fun x t => Holding I t ∧ ∃ w, .leaf x w ∈ nodes := by
  induction fuel generalizing k s with
  | zero => exact fun h => Nat.not_lt_zero k h.2.2.2
  | succ fuel ih =>
    rw [descend]
    cases hk : nodes[k]? with
    | none => exact fun h => absurd (List.getElem?_eq_none_iff.mp hk) (by omega)
    | some n =>
      cases n with
      | leaf x w => exact .ok (.refl s) fun h => ⟨h.1, w, List.mem_of_getElem? hk⟩
      | internal c0 c1 w =>
        refine ((readBits_keeps 1 s).and_right _).andThen fun b t => (ih _ t).mono ?_ fun _ _ => id
        rintro ⟨ht, ho, hl, hf⟩
        have ⟨h0, h1⟩ := ho.children hk
        refine ⟨ht, ho, ?_⟩
        split <;> omega

/-- `DecodeOne` keeps what is asked of the slots, and a Symbol it answers is listed in the table. -/
theorem decodeOne_meets {I : Layers → Prop} (L : LayerNo) (s : State) :
    (decodeOne L s).Meets s (Holding I s) fun x t => Holding I t ∧ (Table.get (t.layer L).freq x).isSome := by
  rcases decodeOne_cases L s with ⟨-, e⟩ | ⟨k, hv, hr, e⟩ <;> rw [e]
  · exact .refuse _ Holding.toSound
  · refine ((descend_meets (I := fun ls => I ls ∧ ls = s.layers) (s.layer L).nodes (k + 1) k s).and_right
      (LayerInv (s.layer L))).mono (fun h => ?_) fun x t h => ?_
    · have hl := h.layers L
      exact ⟨⟨⟨h.toSound, h.slots, rfl⟩, hl.arenaOrdered hv, hl.root_lt hv hr, Nat.lt_succ_self k⟩, hl⟩
    · obtain ⟨⟨ht, w, hw⟩, hl⟩ := h
      obtain ⟨hi, hs⟩ := ht.slots
      exact ⟨⟨ht.toSound, hi⟩, by rw [State.layer, hs]; exact hl.leaf_listed hv hw⟩

theorem decodeOne_keeps {I : Layers → Prop} (L : LayerNo) (s : State) : (decodeOne L s).Keeps I s :=
  (decodeOne_meets L s).mono id fun _ _ => And.left

theorem encodeOne_keeps {I : Layers → Prop} (L : LayerNo) (x : Symbol) (s : State) : (encodeOne L x s).Keeps I s := by
  rcases encodeOne_cases L x s with ⟨-, e⟩ | ⟨c, -, -, e⟩ <;> rw [e]
  · exact .refuse _
  · exact (writeBits_keeps c.bits c.len s).andThen fun _ _ => .pure _

/-! ## Layer sections -/

theorem encodeAll_keeps {I : Layers → Prop} (L : LayerNo) (xs : List Symbol) (s : State) :
    (encodeAll L xs s).Keeps I s := by
  induction xs generalizing s with
  | nil => exact .pure _
  | cons x rest ih => exact (encodeOne_keeps L x s).andThen fun _ t => ih t

theorem putLayer_keeps {I : Layers → Prop} (L : LayerNo) (s : State) : (putLayer L s).Keeps I s := by
  unfold putLayer
  split
  · exact .refuse _
  · cases codedBits (s.layer L).code (s.layer L).seq with
    | none => exact .refuse _
    | some nbits =>
      dsimp only
      split
      · exact .refuse _
      · exact (writeBytes_keeps _ s).andThen fun _ t => (encodeAll_keeps L _ t).andThen fun _ u =>
          (flush_keeps u).andThen fun _ _ => .pure _

/-- While the pairs are read the slot has no tree. -/
theorem readEntries_keeps (L : LayerNo) (n : Nat) (prev : Option Symbol) (s : State) :
    (readEntries L n prev s).Keeps (Reading L false) s := by
  induction n generalizing prev s with
  | zero => exact .pure _
  | succ n ih =>
    refine (readBits_keeps 8 s).andThen fun x t => (getU_keeps 8 t).andThen fun f u => ?_
    split
    · exact .refuse _
    · refine (ih _ _).after (.of_ports rfl) fun h => ?_
      obtain ⟨hc, hv⟩ := h.slots
      exact h.setLayer ((h.layers L).withFreq hv (Table.set_ordered (h.layers L).freqOrdered x _))
        ⟨hc.set _, by rw [Layers.get_set_same]; exact hv⟩

/-- `GetLayer`'s table part leaves a tree of the table read; the sequence is still the one of before. -/
theorem readTable_meets (L : LayerNo) (s : State) :
    (readTable L s).Meets s (Holding AllCounted s) fun _ t => Holding (Reading L true) t := by
  refine Res.Meets.andThen (getU_keeps 4 s) fun e t => ?_
  split
  · exact .refuse _ Holding.toSound
  · refine Res.Meets.andThen (P := Holding AllCounted t) (Q := fun _ u => Holding (Reading L false) u) ?_ fun _ u => ?_
    · exact Res.Meets.after (readEntries_keeps L e none _) (.of_ports rfl) fun h =>
        h.setLayer ((h.layers L).invalidate.withFreq rfl .nil)
          ⟨(h.slots.but L).set _, by rw [Layers.get_set_same]; rfl⟩
    · have hbuild : Holding (Reading L false) u → Holding (Reading L true) (buildTree L u) := fun h =>
        h.setLayer (h.layers L).buildTree ⟨h.slots.1.set _, by rw [Layers.get_set_same]; rfl⟩
      refine Res.Meets.andThen (Res.Meets.after (getU_keeps 4 _) (.of_ports rfl) hbuild) fun len v => ?_
      refine .ok (.of_ports rfl) fun h => ?_
      obtain ⟨hc, hv⟩ := h.slots
      exact h.setLayer ((h.layers L).withLsLen _) ⟨hc.set _, by rw [Layers.get_set_same]; exact hv⟩

/-- Symbols read from a slot's tree are counted in it, as many as the sequence has room for. -/
theorem decodeSeq_meets (L : LayerNo) (n : Nat) (s : State) :
    (decodeSeq L n s).Meets s (Holding (fun ls => Filling L ls ∧ (ls.get L).seq.length + n ≤ maxSeqLength) s)
      fun _ t => Holding AllCounted t := by
  induction n generalizing s with
  | zero => exact .ok (.refl s) fun h => ⟨h.toSound, h.slots.1.1⟩
  | succ n ih =>
    refine (decodeOne_meets L s).andThen fun x t => (ih _).after (.of_ports rfl) ?_
    rintro ⟨h, hx⟩
    obtain ⟨⟨hc, hv⟩, hn⟩ := h.slots
    have hcursor := (h.layers L).cursor
    have hroom : (t.layer L).seq.length + (n + 1) ≤ maxSeqLength := hn
    have hlen : ((t.layer L).seq ++ [x]).length = (t.layer L).seq.length + 1 := List.length_append
    refine h.setLayer ((h.layers L).withQueue (by omega) (by omega)) ⟨⟨hc.set fun y hy => ?_, ?_⟩, ?_⟩
    · rcases List.mem_append.mp hy with hy | hy
      · exact hc L y hy
      · exact List.mem_singleton.mp hy ▸ hx
    · rw [Layers.get_set_same]; exact hv
    · rw [Layers.get_set_same]
      dsimp only
      omega

theorem getLayer_keeps (L : LayerNo) (s : State) : (getLayer L s).Keeps AllCounted s := by
  refine (readTable_meets L s).andThen fun _ t => Res.Meets.andThen_eq (getU_keeps 4 t) fun m u hm => ?_
  refine Res.Meets.andThen (Q := fun _ v => Holding AllCounted v) ?_ fun _ v => .ok (.of_ports rfl) skipByte_holding
  have hlt := getU_lt hm
  refine (decodeSeq_meets L m _).after (.of_ports rfl) fun h => ?_
  obtain ⟨hc, hv⟩ := h.slots
  refine h.setLayer ((h.layers L).withQueue (Nat.le_refl 0) (Nat.zero_le _)) ⟨⟨hc.set_counted ?_, ?_⟩, ?_⟩
  · exact fun y hy => nomatch hy
  · rw [Layers.get_set_same]; exact hv
  · rw [Layers.get_set_same]
    simp only [List.length_nil, maxSeqLength]
    omega

/-! ## Containers -/

theorem serializeLayers_keeps (Ls : List LayerNo) (s : State) : (serializeLayers Ls s).Keeps AllCounted s := by
  induction Ls generalizing s with
  | nil => exact .pure _
  | cons L rest ih =>
    refine Res.Meets.andThen ((traverse_meets L _).after (.of_ports rfl) buildTree_holding) fun _ t => ?_
    exact (putLayer_keeps L t).andThen fun _ u => ih u

theorem serialize_keeps (s : State) : (serialize s).Keeps AllCounted s := by
  unfold serialize
  split
  · exact .refuse _
  · split
    · exact .refuse _
    · exact (writeBytes_keeps _ s).andThen fun _ t => serializeLayers_keeps _ t

theorem deserializeLayers_keeps (Ls : List LayerNo) (s : State) : (deserializeLayers Ls s).Keeps AllCounted s := by
  induction Ls generalizing s with
  | nil => exact .pure _
  | cons L rest ih => exact (getLayer_keeps L s).andThen fun _ t => ih t

theorem deserialize_keeps (s : State) : (deserialize s).Keeps AllCounted s := by
  refine (getHeader_keeps s).andThen fun _ t => ?_
  split
  · exact .refuse _
  · split
    · exact .refuse _
    · exact (deserializeLayers_keeps _ _).after (.of_ports rfl) Holding.clearLayers

/-! ## Frames -/

theorem pushFrames_keeps (blk : Block) (N : LayerNo) (Ls : List LayerNo) (s : State) :
    (pushFrames blk N Ls s).Keeps AllCounted s := by
  induction Ls generalizing s with
  | nil => exact .pure _
  | cons L rest ih => exact (pushAll_keeps L _ s).andThen fun _ t => ih t

theorem encodeBlock_keeps (blk : Block) (s : State) : (encodeBlock blk s).Keeps AllCounted s :=
  withLayerCount_keeps fun N => (push_keeps .l1 _ s).andThen fun _ t => pushFrames_keeps blk N _ t

theorem encodeNext_keeps (s : State) : (encodeNext s).Keeps AllCounted s := by
  unfold encodeNext
  cases hb : blockIn s with
  | none => exact .refuse _
  | some p =>
    obtain ⟨blk, t⟩ := p
    obtain ⟨-, rfl⟩ := blockIn_eq_some hb
    exact (encodeBlock_keeps blk _).after (.blockIn s) (·.of_same rfl)

theorem encodeBlocks_keeps (n : Nat) (s : State) : (encodeBlocks n s).Keeps AllCounted s := by
  induction n generalizing s with
  | zero => exact .pure _
  | succ n ih => exact (encodeNext_keeps s).andThen fun _ t => ih t

theorem encodeGrid_keeps (N : LayerNo) (n : Nat) (s : State) : (encodeGrid N n s).Keeps AllCounted s := by
  refine (encodeBlocks_keeps n _).after (.of_ports rfl) fun h => ?_
  exact h.clearLayers.congr rfl h.tidy ((withLayersField_bit4 _ _).trans h.reserved)

theorem popInto_keeps (L : LayerNo) (ps : List Pos) (blk : Block) (s : State) :
    (popInto L ps blk s).Keeps AllCounted s := by
  induction ps generalizing blk s with
  | nil => exact .pure _
  | cons p rest ih => exact (pop_keeps L s).andThen fun _ t => ih _ t

theorem popFrame_keeps (L N : LayerNo) (blk : Block) (s : State) : (popFrame L N blk s).Keeps AllCounted s := by
  refine (pop_keeps L s).andThen fun c t => ?_
  split
  · exact .refuse _
  · exact popInto_keeps L _ blk t

theorem popFrames_keeps (N : LayerNo) (Ls : List LayerNo) (blk : Block) (s : State) :
    (popFrames N Ls blk s).Keeps AllCounted s := by
  induction Ls generalizing blk s with
  | nil => exact .pure _
  | cons L rest ih => exact (popFrame_keeps L N blk s).andThen fun blk t => ih blk t

theorem decodeBlock_keeps (a : Nat) (s : State) : (decodeBlock a s).Keeps AllCounted s :=
  withLayerCount_keeps fun N => (pop_keeps .l1 s).andThen fun _ t =>
    (popFrames_keeps N _ _ t).andThen fun blk u => .ok (.blockOut u blk) (·.of_same rfl)

theorem decodeBlocks_keeps (a n : Nat) (s : State) : (decodeBlocks a n s).Keeps AllCounted s := by
  induction n generalizing s with
  | zero => exact .pure _
  | succ n ih => exact (decodeBlock_keeps a s).andThen fun _ t => ih t

theorem reconstruct_keeps (a n : Nat) (s : State) : (reconstruct a n s).Keeps AllCounted s :=
  withLayerCount_keeps fun _ =>
    Res.Keeps.andThen ((decodeBlocks_keeps a n _).after (.of_ports rfl) Holding.rewindAll) fun _ _ => .pure _

/-! ## Header registers -/

theorem withByteValue_keeps {α : Type} {I : Layers → Prop} {d : Word32} {body : Byte → State → Res α} {s : State}
    (h : ∀ v, (body v s).Keeps I s) : (withByteValue d body s).Keeps I s := by
  unfold withByteValue
  split
  · exact h _
  · exact .refuse _

theorem writeHeaderReg_keeps {I : Layers → Prop} (a : Byte) (d : Word32) (s : State) :
    (writeHeaderReg a d s).Keeps I s := by
  unfold writeHeaderReg
  split
  case h_5 =>
    exact withByteValue_keeps fun v => .ok (.of_ports rfl) fun h => h.congr rfl h.tidy (clearReserved_bit4 v)
  case h_6 => exact withByteValue_keeps fun v => .ok (.of_ports rfl) (·.of_same rfl)
  case h_7 => exact .refuse _
  all_goals exact .ok (.of_ports rfl) (·.of_same rfl)

theorem readHeaderReg_keeps {I : Layers → Prop} (a : Byte) (s : State) : (readHeaderReg a s).Keeps I s := by
  unfold readHeaderReg
  split
  case h_7 => exact .refuse _
  all_goals exact .pure _

end Sys2Proof.Machine
end

section
/-!
PROOF. From the commands to the steps: every command but `STAT.GET` and `SRESET` is a gated procedure that keeps the
slots counted, and a step is one of four things. The obligations of the state follow.
-/

namespace Sys2Proof

/-! ## Decoding -/

theorem Format.whenAdmits_eq_some {fmt : Format} {f : Fields} {i j : Instr} :
    fmt.whenAdmits f i = some j ↔ fmt.admits f = true ∧ i = j := by
  simp [Format.whenAdmits]

/-- The fields that decode to a command are the fields of that command (`30_encoding.md` R75, R76). -/
theorem encodeFields_of_decodeFields {f : Fields} {i : Instr} (h : decodeFields f = some i) : encodeFields i = f := by
  obtain ⟨op, a, b, rsv, d⟩ := f
  unfold decodeFields at h
  split at h
  case h_36 => cases h
  all_goals
    rename_i hop
    have hop' : op = BitVec.ofNat 8 op.toNat := by simp
    rw [hop] at hop'
    obtain ⟨hadmits, rfl⟩ := Format.whenAdmits_eq_some.mp h
    simp_all [Format.admits, encodeFields]

/-- Putting the fields of a word together gives the word. -/
theorem wordOf_fieldsOf (w : Command) : wordOf (fieldsOf w) = w := by
  refine BitVec.eq_of_getLsbD_eq fun i hi => ?_
  simp only [wordOf, fieldsOf, BitVec.getLsbD_append, BitVec.getLsbD_extractLsb']
  split_ifs
  all_goals
    rw [decide_eq_true (by omega), Bool.true_and]
    congr 1
    omega

/-- A word that decodes is the word of its command. -/
theorem encode_of_decode {w : Command} {i : Instr} (h : decode w = some i) : encode i = w := by
  rw [encode, encodeFields_of_decodeFields h, wordOf_fieldsOf]

end Sys2Proof

namespace Sys2Proof.Machine

/-! ## Commands -/

/-- Every command but `STAT.GET` and `SRESET` is a gated procedure (`60_exceptions.md` R288) that keeps a sound state
sound and its slots counted, and moves forward. -/
theorem exec_gated (i : Instr) (hget : i ≠ .statGet) (hreset : i ≠ .sreset) :
    ∃ body, (∀ s, exec i s = gated body s) ∧ ∀ s, (body s).Keeps AllCounted s := by
  cases i with
  | nop => exact ⟨_, fun _ => rfl, fun s => .pure _⟩
  | hdrSet a d => exact ⟨_, fun _ => rfl, fun s => writeHeaderReg_keeps a d s⟩
  | hdrGet a => exact ⟨_, fun _ => rfl, fun s => readHeaderReg_keeps a s⟩
  | statGet => exact absurd rfl hget
  | sreset => exact absurd rfl hreset
  | bwWrite a b => exact ⟨_, fun _ => rfl, fun s => (writeBits_keeps b a.toNat s).thenOkWith _⟩
  | bwFlush => exact ⟨_, fun _ => rfl, fun s => (flush_keeps s).thenOkWith _⟩
  | bwClose => exact ⟨_, fun _ => rfl, fun s => (closeWriter_keeps s).thenOkWith _⟩
  | brRead a => exact ⟨_, fun _ => rfl, fun s => (readBits_keeps a.toNat s).thenOkWith _⟩
  | brBit => exact ⟨_, fun _ => rfl, fun s => (readBits_keeps 1 s).thenOkWith _⟩
  | brSkip => exact ⟨_, fun _ => rfl, fun s => .ok (.of_ports rfl) skipByte_holding⟩
  | zsStart a =>
    exact ⟨_, fun _ => rfl, fun s => withLayerCount_keeps fun N => .ok (.of_ports rfl) (·.of_same rfl)⟩
  | zsNext =>
    refine ⟨_, fun _ => rfl, fun s => ?_⟩
    by_cases h : s.zsI.val < 64
    · rw [dif_pos h]; exact .ok (.of_ports rfl) (·.of_same rfl)
    · rw [dif_neg h]; exact .pure _
  | hfBuild a =>
    refine ⟨_, fun _ => rfl, fun s => withLayerIndex_keeps fun L => .ok (.of_ports rfl) fun h => ?_⟩
    exact ⟨(buildTree_holding h).toSound, (buildTree_holding h).slots.1⟩
  | hfTrav a =>
    refine ⟨_, fun _ => rfl, fun s => withLayerIndex_keeps fun L => ?_⟩
    split
    · exact .refuse _
    · next hv => exact (traverse_keeps (Bool.eq_true_of_not_eq_false hv)).thenOkWith _
  | hfDec a =>
    exact ⟨_, fun _ => rfl, fun s => withLayerIndex_keeps fun L => (decodeOne_keeps L s).thenOkWith _⟩
  | hfEnc a b =>
    exact ⟨_, fun _ => rfl, fun s => withLayerIndex_keeps fun L => (encodeOne_keeps L b s).thenOkWith _⟩
  | hfCode a b =>
    refine ⟨_, fun _ => rfl, fun s => withLayerIndex_keeps fun L => ?_⟩
    split
    · exact .refuse _
    · exact .pure _
  | lsClear => exact ⟨_, fun _ => rfl, fun s => .ok (.of_ports rfl) Holding.clearLayers⟩
  | lsPush a b => exact ⟨_, fun _ => rfl, fun s => withLayerIndex_keeps fun L => (push_keeps L b s).thenOkWith _⟩
  | lsPop a => exact ⟨_, fun _ => rfl, fun s => withLayerIndex_keeps fun L => (pop_keeps L s).thenOkWith _⟩
  | lsRewind => exact ⟨_, fun _ => rfl, fun s => .ok (.of_ports rfl) Holding.rewindAll⟩
  | lsFreq a b => exact ⟨_, fun _ => rfl, fun s => withLayerIndex_keeps fun L => .pure _⟩
  | lsSetf a b d =>
    refine ⟨_, fun _ => rfl, fun s => withLayerIndex_keeps fun L => .ok (.of_ports rfl) fun h => ?_⟩
    have hl := (h.layers L).invalidate.withFreq rfl (Table.set_ordered (h.layers L).freqOrdered b (d.zeroExtend 64))
    exact h.setLayer hl (h.slots.set fun x hx => Table.isSome_set (h.slots L x hx) b _)
  | lsInfo a b =>
    refine ⟨_, fun _ => rfl, fun s => withLayerIndex_keeps fun L => ?_⟩
    cases (s.layer L).info b with
    | none => exact .refuse _
    | some v => exact .pure _
  | cfPuthdr =>
    exact ⟨_, fun _ => rfl, fun s => whenWriterAligned_keeps ((writeBytes_keeps (headerBytes s) s).thenOkWith _)⟩
  | cfGethdr => exact ⟨_, fun _ => rfl, fun s => whenReaderAligned_keeps ((getHeader_keeps s).thenOkWith _)⟩
  | cfPutlayer a =>
    exact ⟨_, fun _ => rfl, fun s => withLayerIndex_keeps fun L =>
      whenWriterAligned_keeps ((putLayer_keeps L s).thenOkWith _)⟩
  | cfGetlayer a =>
    exact ⟨_, fun _ => rfl, fun s => withLayerIndex_keeps fun L =>
      whenReaderAligned_keeps ((getLayer_keeps L s).thenOkWith _)⟩
  | cfSer => exact ⟨_, fun _ => rfl, fun s => whenWriterAligned_keeps ((serialize_keeps s).thenOkWith _)⟩
  | cfDes => exact ⟨_, fun _ => rfl, fun s => whenReaderAligned_keeps ((deserialize_keeps s).thenOkWith _)⟩
  | fsEncblk => exact ⟨_, fun _ => rfl, fun s => (encodeNext_keeps s).thenOkWith _⟩
  | fsDecblk a => exact ⟨_, fun _ => rfl, fun s => (decodeBlock_keeps a.toNat s).thenOkWith _⟩
  | fsEnc a d =>
    exact ⟨_, fun _ => rfl, fun s => withLayerCount_keeps fun N => (encodeGrid_keeps N d.toNat s).thenOkWith _⟩
  | fsRec a d => exact ⟨_, fun _ => rfl, fun s => (reconstruct_keeps a.toNat d.toNat s).thenOkWith _⟩

/-- The three things a command word can be: `STAT.GET`, the one word of `SRESET`, or a gated procedure. -/
theorem runWord_cases (w : Command) (s : State) :
    runWord w s = .next (s.answer ⟨.ok, statusValue s⟩) ∨
    (w = 0x0400000000000000 ∧ runWord w s = .next (s.coreReset.answer (.okValue 0))) ∨
    ∃ body, runWord w s = gated body s ∧ (body s).Keeps AllCounted s := by
  unfold runWord
  cases hd : decode w with
  | none => exact .inr (.inr ⟨_, rfl, .refuse _⟩)
  | some i =>
    by_cases hget : i = .statGet
    · subst hget; exact .inl rfl
    · by_cases hreset : i = .sreset
      · subst hreset; exact .inr (.inl ⟨(encode_of_decode hd).symm, rfl⟩)
      · obtain ⟨body, he, hk⟩ := exec_gated i hget hreset
        exact .inr (.inr ⟨body, he s, hk s⟩)

/-! ## Steps -/

/-- With no event the core waits (log entry 3). -/
theorem step_nil {s : State} (h : s.inbox = []) : step s = .next s := by
  simp [step, takeEvent, h]

theorem step_reset {s : State} {rest : List HostEvent} (h : s.inbox = .reset :: rest) :
    step s = .next { s with inbox := rest }.coreReset := by
  simp [step, takeEvent, h]

theorem step_command {s : State} {w : Command} {rest : List HostEvent} (h : s.inbox = .command w :: rest) :
    step s = runWord w { s with inbox := rest } := by
  simp [step, takeEvent, h]

/-- A gated procedure that keeps sound states sound gives a next state from one: it is not stuck there. -/
theorem gated_next_of_holding {body : State → Res Response} {s : State} (hk : (body s).Keeps AllCounted s)
    (h : Running s → Holding AllCounted s) : ∃ t, gated body s = .next t := by
  cases hp : s.pending with
  | some r => exact ⟨_, gated_pending hp⟩
  | none =>
    have hr := State.pending_eq_none.mp hp
    rw [gated_running hr]
    cases hb : body s with
    | ok v t => exact ⟨_, rfl⟩
    | stop t => exact ⟨t, rfl⟩
    | stuck e => rw [hb] at hk; exact absurd (h hr) hk

/-- The three ends of a gated procedure: the pending event is answered, or the procedure has moved forward from a
running core and its response or its event is given. -/
theorem gated_ends {body : State → Res Response} {s t : State} (hk : (body s).Keeps AllCounted s)
    (h : gated body s = .next t) :
    (¬ Running s ∧ ∃ r, t = s.answer r) ∨
    (Running s ∧ ∃ u r, Forward s u ∧ (Holding AllCounted s → Holding AllCounted u) ∧ t = u.answer r) ∨
    (Running s ∧ ∃ u, Forward s u ∧ (Holding AllCounted s → Sound u) ∧ Stopped u t) := by
  rcases gated_cases h with ⟨r, hp, rfl⟩ | ⟨hr, hb⟩ | ⟨hr, v, u, hb, rfl⟩
  · exact .inl ⟨fun hr => by simp [State.pending_eq_none.mpr hr] at hp, r, rfl⟩
  · rw [hb] at hk; exact .inr (.inr ⟨hr, hk⟩)
  · rw [hb] at hk; exact .inr (.inl ⟨hr, u, v, hk.1, hk.2, rfl⟩)

/-! ## The invariant -/

theorem Inv.holding {s : State} (h : Inv s) (hr : Running s) : Holding AllCounted s :=
  ⟨h.sound, fun L => h.counted hr L⟩

theorem Holding.inv {s : State} (h : Holding AllCounted s) (he : s.fault = none ∨ s.refused = none)
    (hc : s.cfg.inRange = true) : Inv s := ⟨h.layers, h.tidy, h.reserved, he, fun _ => h.slots, hc⟩

theorem Inv.answer {s : State} (h : Inv s) (r : Response) : Inv (s.answer r) :=
  ⟨h.layers, h.tidy, h.reserved, h.oneEvent, h.counted, h.params⟩

/-- The core may stop at any sound state. -/
theorem Sound.inv_of_stopped {u t : State} (h : Sound u) (hr : Running u) (hc : u.cfg.inRange = true)
    (ht : Stopped u t) : Inv t := by
  rcases ht with ⟨k, rfl⟩ | ⟨r, rfl⟩
  · exact ⟨h.layers, h.tidy, h.reserved, .inr hr.2, (nomatch ·.1), hc⟩
  · exact ⟨h.layers, h.tidy, h.reserved, .inl hr.1, (nomatch ·.2), hc⟩

/-- Empty slots, an empty accumulator and clear flags are all a sound state needs. -/
theorem Holding.of_reset {s : State} (hl : s.layers = .empty) (ha : s.bwAcc = 0) (hf : s.hFlags = 0) :
    Holding AllCounted s where
  layers L := by rw [State.layer, hl, Layers.get_empty]; exact .empty
  tidy i _ _ := by simp [ha]
  reserved := by simp [hf]
  slots := hl ▸ .empty

theorem coreReset_inv (s : State) (hc : s.cfg.inRange = true) : Inv s.coreReset :=
  (Holding.of_reset rfl rfl rfl).inv (.inl rfl) hc

/-- A command keeps the invariant. -/
theorem runWord_inv {w : Command} {s t : State} (hi : Inv s) (h : runWord w s = .next t) : Inv t := by
  rcases runWord_cases w s with e | ⟨-, e⟩ | ⟨body, e, hk⟩ <;> rw [e] at h
  · cases h; exact hi.answer _
  · cases h; exact (coreReset_inv s hi.params).answer _
  · rcases gated_ends hk h with ⟨-, r, rfl⟩ | ⟨hr, u, r, hf, hu, rfl⟩ | ⟨hr, u, hf, hu, ht⟩
    · exact hi.answer r
    · exact ((hu (hi.holding hr)).inv (.inl (hf.running hr).1) (hf.params ▸ hi.params)).answer r
    · exact (hu (hi.holding hr)).inv_of_stopped (hf.running hr) (hf.params ▸ hi.params) ht

theorem Inv.withInbox {s : State} (h : Inv s) (rest : List HostEvent) : Inv { s with inbox := rest } :=
  ⟨h.layers, h.tidy, h.reserved, h.oneEvent, h.counted, h.params⟩

/-- Settles O54: every procedure keeps a sound state sound, and ends either with counted slots or with an event. -/
theorem stepKeepsTheInvariant : Obligations.StepKeepsTheInvariant := by
  intro s t hi h
  match hb : s.inbox with
  | [] => rw [step_nil hb] at h; cases h; exact hi
  | .reset :: rest => rw [step_reset hb] at h; cases h; exact coreReset_inv _ hi.params
  | .command w :: rest => rw [step_command hb] at h; exact runWord_inv (hi.withInbox rest) h

/-- Settles O56: a procedure is stuck only where its premise fails, and the invariant gives each command its premise. -/
theorem stepsAreSafeUnderTheInvariant : Obligations.StepsAreSafeUnderTheInvariant := by
  intro s hi
  match hb : s.inbox with
  | [] => exact ⟨_, step_nil hb⟩
  | .reset :: rest => exact ⟨_, step_reset hb⟩
  | .command w :: rest =>
    unfold SafeStep
    rw [step_command hb]
    rcases runWord_cases w { s with inbox := rest } with e | ⟨-, e⟩ | ⟨body, e, hk⟩ <;> rw [e]
    · exact ⟨_, rfl⟩
    · exact ⟨_, rfl⟩
    · exact gated_next_of_holding hk (hi.withInbox rest).holding

/-- Settles O55. -/
theorem resetMeetsTheInvariant : Obligations.ResetMeetsTheInvariant :=
  coreReset_inv State.reset (by decide)

/-! ## Streams and events -/

/-- What every command word does outside the core: one response, and the streams only forward. -/
structure Answered (s t : State) : Prop extends StreamsForward s t where
  inbox : t.inbox = s.inbox
  response : ∃ r, t.responses = s.responses ++ [r]

theorem Answered.answer (s : State) (r : Response) : Answered s (s.answer r) := ⟨.of_streams rfl, rfl, r, rfl⟩

theorem Stopped.answered {s t : State} (h : Stopped s t) : Answered s t := by
  rcases h with ⟨k, rfl⟩ | ⟨r, rfl⟩
  · exact ⟨.of_streams rfl, rfl, _, rfl⟩
  · exact ⟨.of_streams rfl, rfl, _, rfl⟩

/-- A procedure gives no response before it ends. -/
theorem Forward.answered {s u t : State} (h : Forward s u) (k : Answered u t) : Answered s t where
  toStreamsForward := h.toStreamsForward.trans k.toStreamsForward
  inbox := k.inbox.trans h.inbox
  response := h.responses ▸ k.response

theorem runWord_answered {w : Command} {s t : State} (h : runWord w s = .next t) : Answered s t := by
  rcases runWord_cases w s with e | ⟨-, e⟩ | ⟨body, e, hk⟩ <;> rw [e] at h
  · cases h; exact .answer s _
  · cases h; exact ⟨.of_streams rfl, rfl, _, rfl⟩
  · rcases gated_ends hk h with ⟨-, r, rfl⟩ | ⟨-, u, r, hf, -, rfl⟩ | ⟨-, u, hf, -, ht⟩
    · exact .answer s r
    · exact hf.answered (.answer u r)
    · exact hf.answered ht.answered

/-- What every step does outside the core. -/
theorem step_forward {s t : State} (h : step s = .next t) :
    StreamsForward s t ∧ s.responses <+: t.responses ∧
      ∀ w rest, s.inbox = .command w :: rest → t.inbox = rest ∧ ∃ r, t.responses = s.responses ++ [r] := by
  match hb : s.inbox with
  | [] =>
    rw [step_nil hb] at h
    cases h
    exact ⟨.of_streams rfl, List.prefix_rfl, nofun⟩
  | .reset :: rest =>
    rw [step_reset hb] at h
    cases h
    exact ⟨.of_streams rfl, List.prefix_rfl, nofun⟩
  | .command w :: rest =>
    rw [step_command hb] at h
    obtain ⟨hstreams, hinbox, r, hr⟩ := runWord_answered h
    have htaken : StreamsForward s { s with inbox := rest } := .of_streams rfl
    refine ⟨htaken.trans hstreams, hr ▸ List.prefix_append _ _, fun w' rest' e => ?_⟩
    cases e
    exact ⟨hinbox, r, hr⟩

/-- Settles O57: a command word is answered once, and no outcome of a procedure moves a stream back. -/
theorem streamsOnlyMoveForward : Obligations.StreamsOnlyMoveForward := by
  intro s t h
  obtain ⟨k, hresponses, hword⟩ := step_forward h
  exact ⟨hword, hresponses, k.sink, k.blockSink, k.source, k.blockSource, k.sourcePos, k.blockPos, k.params⟩

/-- Settles O59: in a stopped core only `STAT.GET` and `SRESET` run. -/
theorem eventsAreSticky : Obligations.EventsAreSticky := by
  intro s t h hstop
  match hb : s.inbox with
  | [] => rw [step_nil hb] at h; cases h; exact .inl ⟨rfl, rfl⟩
  | .reset :: rest => rw [step_reset hb] at h; cases h; exact .inr ⟨⟨rfl, rfl⟩, rest, .inl rfl⟩
  | .command w :: rest =>
    rw [step_command hb] at h
    rcases runWord_cases w { s with inbox := rest } with e | ⟨rfl, e⟩ | ⟨body, e, hk⟩ <;> rw [e] at h
    · cases h; exact .inl ⟨rfl, rfl⟩
    · cases h; exact .inr ⟨⟨rfl, rfl⟩, rest, .inr rfl⟩
    · rcases gated_ends hk h with ⟨-, r, rfl⟩ | ⟨hr, -⟩ | ⟨hr, -⟩
      · exact .inl ⟨rfl, rfl⟩
      · exact absurd hr hstop
      · exact absurd hr hstop

/-! ## Reset, and the tree command -/

/-- Reset gives every register its value of the table (`10_state.md` R39). -/
theorem coreReset_hasResetValues (s : State) : HasResetValues s.coreReset := by
  refine ⟨rfl, rfl, rfl, rfl, rfl, rfl, rfl, rfl, rfl, rfl, rfl, rfl, rfl, rfl, rfl, fun L _ => ?_⟩
  have hL : s.coreReset.layer L = .empty := Layers.get_empty L
  rw [hL]
  exact ⟨rfl, rfl, rfl, rfl, rfl, rfl, rfl, rfl, rfl⟩

/-- Settles O7. -/
theorem resetInputResets : Obligations.ResetInputResets := by
  intro s rest h
  exact ⟨_, step_reset h, coreReset_hasResetValues _, rfl, rfl, rfl, rfl, rfl, rfl, rfl, rfl, rfl, rfl⟩

/-- Settles O9: `SRESET` resets and then answers, which writes no register. -/
theorem registersAfterReset : Obligations.RegistersAfterReset :=
  ⟨coreReset_hasResetValues State.reset, fun s => ⟨s.coreReset.answer (.okValue 0), rfl, coreReset_hasResetValues s⟩⟩

/-- Settles O23: in a running core a layer index in range runs `BuildTree` on its slot. -/
theorem buildReplacesTheTree : Obligations.BuildReplacesTheTree := by
  intro s a L hr ha
  have hexec : exec (.hfBuild a) s = gated (withLayerIndex a fun L s =>
      okWith ((buildTree L s).layer L).nnodes (buildTree L s)) s := rfl
  rw [hexec, gated_running hr, withLayerIndex_num ha, State.layer_buildTree]
  rfl

end Sys2Proof.Machine
end

section
/-!
PROOF. The container header as it is written: where the bytes of a multi-byte field stand (`20_memory.md` R53, R54),
where the fields stand in the header (R60), and the two ends of `CF.PUTHDR` at an aligned writer (`44_container.md`
R194, R210).
-/

namespace Sys2Proof.Machine

/-! ## Bytes of a multi-byte field -/

/-- The place in the stream of byte `k` of an `n`-byte field, `k` counting from the least significant byte: the `j` of
`PutU` (`20_memory.md` R54). -/
def fieldIndex (o : ByteOrder) (n k : Nat) : Nat := if o = .le then k else n - 1 - k

theorem fieldIndex_lt (o : ByteOrder) {n k : Nat} (h : k < n) : fieldIndex o n k < n := by
  unfold fieldIndex
  split <;> omega

theorem bytesLE_getElem? {n k : Nat} (v : Nat) (h : k < n) :
    (bytesLE n v)[k]? = some (BitVec.ofNat 8 (v / 256 ^ k)) := by
  induction n generalizing k v with
  | zero => omega
  | succ n ih =>
    cases k with
    | zero => simp [bytesLE]
    | succ k => rw [bytesLE, List.getElem?_cons_succ, ih _ (by omega), Nat.div_div_eq_div_mul, ← Nat.pow_succ']

theorem fieldBytes_getElem? (o : ByteOrder) {n k : Nat} (v : Nat) (h : k < n) :
    (fieldBytes o n v)[fieldIndex o n k]? = some (BitVec.ofNat 8 (v / 256 ^ k)) := by
  rw [← bytesLE_getElem? v h]
  cases o with
  | le => rfl
  | be =>
    have hk : n - 1 - (n - 1 - k) = k := by omega
    have hlt : n - 1 - k < (bytesLE n v).length := by rw [bytesLE_length]; omega
    simp only [fieldBytes, fieldIndex, reduceCtorEq, if_false]
    rw [List.getElem?_reverse hlt, bytesLE_length, hk]

/-- Byte `k` of a number is a slice of its word. -/
theorem ofNat_toNat_div_pow {w : Nat} (x : BitVec w) (k : Nat) :
    BitVec.ofNat 8 (x.toNat / 256 ^ k) = x.extractLsb' (8 * k) 8 := by
  rw [BitVec.extractLsb', Nat.shiftRight_eq_div_pow, Nat.pow_mul]

/-! ## Fields of the header -/

/-- The four header fields with their offsets (`20_memory.md` R60). -/
def headerFields (s : State) : List (Nat × Word32) := [(6, s.hWidth), (10, s.hHeight), (14, s.hPadW), (18, s.hPadH)]

/-- The header around one of its fields. -/
theorem headerBytes_split {s : State} {p : Nat × Word32} (hp : p ∈ headerFields s) : ∃ pre post,
    headerBytes s = pre ++ fieldBytes s.cfg.fieldByteOrder 4 p.2.toNat ++ post ∧ pre.length = p.1 := by
  simp only [headerFields, List.mem_cons, List.not_mem_nil, or_false] at hp
  rcases hp with rfl | rfl | rfl | rfl
  · exact ⟨magicBytes s.cfg.magic ++ [s.hFlags], _, by simp only [headerBytes, List.append_assoc]; rfl, rfl⟩
  · exact ⟨magicBytes s.cfg.magic ++ [s.hFlags] ++ fieldBytes s.cfg.fieldByteOrder 4 s.hWidth.toNat, _,
      by simp only [headerBytes, List.append_assoc]; rfl, by simp [magicBytes]⟩
  · exact ⟨_, _, rfl, by simp [magicBytes]⟩
  · exact ⟨_, [], (List.append_nil _).symm, by simp [magicBytes]⟩

theorem headerBytes_take (s : State) : (headerBytes s).take 6 =
    [s.cfg.magic.m0, s.cfg.magic.m1, s.cfg.magic.m2, s.cfg.magic.m3, s.cfg.magic.m4, s.hFlags] := rfl

/-- Byte `k` of a header field, in the byte order of the parameters. -/
theorem headerBytes_getElem? {s : State} {p : Nat × Word32} (hp : p ∈ headerFields s) {k : Nat} (hk : k < 4) :
    (headerBytes s)[p.1 + fieldIndex s.cfg.fieldByteOrder 4 k]? = some (p.2.extractLsb' (8 * k) 8) := by
  obtain ⟨pre, post, e, hpre⟩ := headerBytes_split hp
  have hlt : fieldIndex s.cfg.fieldByteOrder 4 k < (fieldBytes s.cfg.fieldByteOrder 4 p.2.toNat).length := by
    rw [fieldBytes_length]; exact fieldIndex_lt _ hk
  rw [e, List.append_assoc, ← hpre, List.getElem?_append_right (Nat.le_add_right _ _), Nat.add_sub_cancel_left,
    List.getElem?_append_left hlt, fieldBytes_getElem? _ _ hk, ofNat_toNat_div_pow]

/-! ## The command -/

/-- `PutHeader` through a closed writer stops at its first byte. -/
theorem putHeader_closed {s : State} (ho : s.bwOpen = false) :
    putHeader s = .stop (s.takeRefusal .writerClosed) :=
  writeBytes_closed s.cfg.magic.m0 (headerBytes s).tail s ho

/-- `PutHeader` through an aligned open writer. -/
theorem putHeader_aligned {s : State} (h0 : s.bwFill = 0) (ho : s.bwOpen = true) :
    putHeader s = .ok () { s with bwAcc := 0, snkData := s.snkData ++ headerBytes s } := by
  have hne : headerBytes s ≠ [] := List.ne_nil_of_length_eq_add_one (headerBytes_length s)
  rw [putHeader, writeBytes_aligned _ s h0 ho, if_neg hne]

/-- In a running core with an aligned writer `CF.PUTHDR` is `PutHeader`. -/
theorem exec_cfPuthdr_aligned {s : State} (hr : Running s) (h0 : s.bwFill = 0) :
    exec .cfPuthdr s = ((putHeader s).andThen fun _ s => okWith 22 s).finish := by
  have hexec : exec .cfPuthdr s =
      gated (whenWriterAligned fun s => (putHeader s).andThen fun _ s => okWith 22 s) s := rfl
  rw [hexec, gated_running hr, whenWriterAligned, if_pos h0]

/-- Settles O40: `CF.PUTHDR` sends the bytes of `headerBytes`, or stops at the first. -/
theorem headerIsWritten : Obligations.HeaderIsWritten := by
  intro s hr h0
  rw [exec_cfPuthdr_aligned hr h0]
  refine ⟨fun ho => ?_, fun ho => ⟨headerBytes s, ?_, headerBytes_length s, headerBytes_take s, fun p hp k hk => ?_⟩⟩
  · rw [putHeader_closed ho]; rfl
  · rw [putHeader_aligned h0 ho]; rfl
  · exact headerBytes_getElem? hp hk

end Sys2Proof.Machine
end

section
/-!
PROOF. Decoding against encoding and against the opcode map (`30_encoding.md` R70 to R79), the step on a word that
decodes, and the operand ranges (R81). The decoder and the map are compared field by field: the words, the masks and
the rows are split into fields by the one function `fieldsOf`.
-/

namespace Sys2Proof

/-! ## Encoding and decoding -/

theorem decodeFields_encodeFields (i : Instr) : decodeFields (encodeFields i) = some i := by
  cases i <;> rfl

theorem decode_encode (i : Instr) : decode (encode i) = some i := by
  rw [decode, encode, fieldsOf_wordOf, decodeFields_encodeFields]

theorem decode_eq_some_iff {w : Command} {i : Instr} : decode w = some i ↔ encode i = w :=
  ⟨encode_of_decode, fun h => h ▸ decode_encode i⟩

/-- Settles O1: the fields of a word that decodes are those of its command, and a command's fields decode to it. -/
theorem decodeAnswersExactlyTheEncodedCommand : Obligations.DecodeAnswersExactlyTheEncodedCommand :=
  fun _ _ => decode_eq_some_iff

/-! ## Masks, by fields -/

/-- The fields of a format's mask: all ones in the opcode and in every field that must be 0 (`30_encoding.md` R72). -/
def Format.maskFields : Format → Fields
  | .f0 => ⟨.allOnes 8, .allOnes 8, .allOnes 8, .allOnes 8, .allOnes 32⟩
  | .fa => ⟨.allOnes 8, 0, .allOnes 8, .allOnes 8, .allOnes 32⟩
  | .fab => ⟨.allOnes 8, 0, 0, .allOnes 8, .allOnes 32⟩
  | .fad => ⟨.allOnes 8, 0, .allOnes 8, .allOnes 8, 0⟩
  | .fabd => ⟨.allOnes 8, 0, 0, .allOnes 8, 0⟩

theorem Format.fieldsOf_mask (fmt : Format) : fieldsOf fmt.mask = fmt.maskFields := by
  cases fmt <;> rfl

theorem OpRow.fieldsOf_matchWord (r : OpRow) : fieldsOf r.matchWord = ⟨r.op, 0, 0, 0, 0⟩ := by
  have hword : r.matchWord = wordOf ⟨r.op, 0, 0, 0, 0⟩ := by
    refine BitVec.eq_of_toNat_eq ?_
    simp only [OpRow.matchWord, wordOf, BitVec.toNat_append]
    simp [← Nat.shiftLeft_add]
  rw [hword, fieldsOf_wordOf]

theorem fieldsOf_and (v w : Command) : fieldsOf (v &&& w) =
    ⟨(fieldsOf v).op &&& (fieldsOf w).op, (fieldsOf v).a &&& (fieldsOf w).a, (fieldsOf v).b &&& (fieldsOf w).b,
      (fieldsOf v).rsv &&& (fieldsOf w).rsv, (fieldsOf v).d &&& (fieldsOf w).d⟩ := by
  simp only [fieldsOf, BitVec.extractLsb'_and]

theorem fieldsOf_inj {v w : Command} : fieldsOf v = fieldsOf w ↔ v = w :=
  ⟨fun h => by rw [← wordOf_fieldsOf v, h, wordOf_fieldsOf], congrArg fieldsOf⟩

/-- A word matches a row under its format's mask exactly when it has the row's opcode and 0 in every field the format
requires to be 0 (`30_encoding.md` R72). -/
theorem and_mask_eq_matchWord_iff (w : Command) (r : OpRow) :
    w &&& r.format.mask = r.matchWord ↔ r.op = (fieldsOf w).op ∧ r.format.admits (fieldsOf w) = true := by
  rw [← fieldsOf_inj, fieldsOf_and, Format.fieldsOf_mask, OpRow.fieldsOf_matchWord, eq_comm (a := r.op)]
  cases r.format <;> simp [Format.maskFields, Format.admits, and_assoc, -BitVec.reduceAllOnes]

/-! ## The decoder against the rows of the opcode map -/

/-- On the opcode of a row the decoder asks that row's format. -/
theorem decodeFields_of_row {f : Fields} {r : OpRow} (hr : r ∈ opcodeTable) (hop : r.op = f.op) :
    ∃ i, decodeFields f = r.format.whenAdmits f i := by
  obtain ⟨op, a, b, rsv, d⟩ := f
  obtain rfl : r.op = op := hop
  fin_cases hr <;> exact ⟨_, rfl⟩

/-- The lemma of `Laws/PerInstr.lean` for every command. -/
theorem Laws.EncodeFields.statement : ∀ i, Statement i
  | .nop => nop | .hdrSet a d => hdrSet a d | .hdrGet a => hdrGet a | .statGet => statGet | .sreset => sreset
  | .bwWrite a b => bwWrite a b | .bwFlush => bwFlush | .bwClose => bwClose
  | .brRead a => brRead a | .brBit => brBit | .brSkip => brSkip
  | .zsStart a => zsStart a | .zsNext => zsNext
  | .hfBuild a => hfBuild a | .hfTrav a => hfTrav a | .hfDec a => hfDec a
  | .hfEnc a b => hfEnc a b | .hfCode a b => hfCode a b
  | .lsClear => lsClear | .lsPush a b => lsPush a b | .lsPop a => lsPop a | .lsRewind => lsRewind
  | .lsFreq a b => lsFreq a b | .lsSetf a b d => lsSetf a b d | .lsInfo a b => lsInfo a b
  | .cfPuthdr => cfPuthdr | .cfGethdr => cfGethdr | .cfPutlayer a => cfPutlayer a
  | .cfGetlayer a => cfGetlayer a | .cfSer => cfSer | .cfDes => cfDes
  | .fsEncblk => fsEncblk | .fsDecblk a => fsDecblk a | .fsEnc a d => fsEnc a d | .fsRec a d => fsRec a d

/-- The fields that decode are those with the opcode of a row whose format admits them (`30_encoding.md` R75, R76). -/
theorem decodeFields_isSome_iff (f : Fields) :
    (decodeFields f).isSome ↔ ∃ r ∈ opcodeTable, r.op = f.op ∧ r.format.admits f = true := by
  constructor
  · intro h
    obtain ⟨i, hi⟩ := Option.isSome_iff_exists.mp h
    obtain ⟨-, -, hrow⟩ := Laws.EncodeFields.statement i
    rwa [encodeFields_of_decodeFields hi] at hrow
  · rintro ⟨r, hr, hop, hadmits⟩
    obtain ⟨i, hi⟩ := decodeFields_of_row hr hop
    rw [hi, Format.whenAdmits_eq_some.mpr ⟨hadmits, rfl⟩]
    rfl

/-- Settles O2: both sides say that a row has the word's opcode and its format admits the word's fields. -/
theorem decodeAcceptsExactlyTheMaskMatches : Obligations.DecodeAcceptsExactlyTheMaskMatches := by
  intro w
  simp only [and_mask_eq_matchWord_iff]
  exact decodeFields_isSome_iff (fieldsOf w)

/-- Settles O3: the five words are encodings; of the four others, one has an unassigned opcode and three a nonzero
field that must be 0. -/
theorem specWordsDecode : Obligations.SpecWordsDecode :=
  ⟨decode_encode (.bwWrite 3 0x05), decode_encode (.zsStart 8), decode_encode (.lsSetf 1 0x41 5),
    decode_encode (.fsEnc 8 12), decode_encode .cfDes, rfl, rfl, rfl, rfl⟩

end Sys2Proof

namespace Sys2Proof.Machine

/-! ## The step on a word that decodes -/

theorem runWord_of_decode {w : Command} {i : Instr} (h : decode w = some i) (s : State) : runWord w s = exec i s := by
  rw [runWord, h]

theorem withFetchWord_toNat (s : State) (w : Command) : s.withFetchWord 64 w.toNat = offerCommand w s := by
  rw [State.withFetchWord, Nat.mod_eq_of_lt w.isLt, BitVec.ofNat_toNat, BitVec.setWidth_eq]

theorem step_offerCommand (w : Command) (s : State) : step (offerCommand w s) = runWord w s :=
  step_command (offerCommand_inbox w s)

/-- Settles O4: the word offered is the next event, and a word that decodes runs as its command. -/
theorem stepRunsTheDecodedCommand : Obligations.StepRunsTheDecodedCommand := by
  refine ⟨fun s w rest i hb hd => ?_, fun s i => ?_, fun s hb => step_nil hb⟩
  · rw [step_command hb, runWord_of_decode hd]
  · rw [withFetchWord_toNat, step_offerCommand, runWord_of_decode (decode_encode i)]

/-! ## Operands out of range -/

/-- A command with a layer index outside 1..8 is refused before its own checks (`30_encoding.md` R77, R81). -/
theorem gated_withLayerIndex_out {s : State} {a : Byte} (hr : Running s) (ha : a.toNat = 0 ∨ 8 < a.toNat)
    (body : LayerNo → State → Res Response) :
    gated (withLayerIndex a body) s = .next (s.takeRefusal .layerIndex) := by
  rw [gated_running hr, withLayerIndex_out ha]
  rfl

/-- A command with a layer count outside 1..8 is refused before its own checks (`30_encoding.md` R77, R81). -/
theorem gated_withLayerCount_out {s : State} {n : Nat} (hr : Running s) (hn : n = 0 ∨ 8 < n)
    (body : LayerNo → State → Res Response) :
    gated (withLayerCount n body) s = .next (s.takeRefusal .layerCount) := by
  rw [gated_running hr, withLayerCount_out hn]
  rfl

/-- Settles O22: each of the commands begins with the check of its operand. -/
theorem outOfRangeLayersAreRefused : Obligations.OutOfRangeLayersAreRefused := by
  intro s a b d hr ha
  refine ⟨fun i hi => ?_, fun i hi => ?_⟩
  · fin_cases hi <;> exact gated_withLayerIndex_out hr ha _
  · fin_cases hi <;> exact gated_withLayerCount_out hr ha _

end Sys2Proof.Machine
end

section
/-!
PROOF. The bit stream commands (`40_bitstream.md` R101 to R113): what each does in a running core, and the fidelity of
the stream. The bits of a list of writes follow those of the sink, `Flush` pads them to whole bytes, and the reader
takes the same bits off the source again.
-/

namespace Sys2Proof.Machine

/-! ## Lists of bits as numbers -/

@[simp] theorem bitsValue_nil : bitsValue [] = 0 := rfl

theorem bitsValue_append_singleton (bs : List Bool) (b : Bool) :
    bitsValue (bs ++ [b]) = 2 * bitsValue bs + b.toNat := by
  simp [bitsValue]

/-- The first bit weighs as much as all numbers the rest can spell. -/
theorem bitsValue_cons (b : Bool) (bs : List Bool) : bitsValue (b :: bs) = b.toNat * 2 ^ bs.length + bitsValue bs := by
  induction bs using List.reverseRecOn with
  | nil => simp [bitsValue]
  | append_singleton bs c ih =>
    rw [← List.cons_append, bitsValue_append_singleton, bitsValue_append_singleton, ih, List.length_append,
      List.length_singleton, Nat.pow_succ]
    ring

theorem bitsValue_lt (bs : List Bool) : bitsValue bs < 2 ^ bs.length := by
  induction bs with
  | nil => simp
  | cons b bs ih =>
    have hb : b.toNat * 2 ^ bs.length ≤ 1 * 2 ^ bs.length := Nat.mul_le_mul_right _ b.toNat_le
    rw [bitsValue_cons, List.length_cons, Nat.pow_succ]
    omega

/-- The `n` low bits of a value spell the value modulo `2 ^ n`. -/
theorem bitsValue_lowBits (v : Byte) (n : Nat) : bitsValue (lowBits v n) = v.toNat % 2 ^ n := by
  induction n with
  | zero => simp [Nat.mod_one]
  | succ n ih =>
    rw [lowBits_succ, bitsValue_cons, ih, lowBits_length, BitVec.getLsbD, Nat.toNat_testBit, Nat.mod_pow_succ]
    ring

/-- Behind the first `m` of `m + n` low bits stand the `n` low bits. -/
theorem drop_lowBits (v : Byte) (m n : Nat) : (lowBits v (m + n)).drop m = lowBits v n := by
  induction m with
  | zero => simp
  | succ m ih => rw [Nat.add_right_comm, lowBits_succ, List.drop_succ_cons, ih]

/-! ## Whole bytes -/

theorem packBits_length (bs : List Bool) : (packBits bs).length = (bs.length + 7) / 8 := by
  simp [packBits]

@[simp] theorem packBits_nil : packBits [] = [] := rfl

/-- Eight bits in front fill the first byte. -/
theorem packBits_byte (b : Byte) (bs : List Bool) : packBits (lowBits b 8 ++ bs) = b :: packBits bs := by
  have hlen : ((lowBits b 8 ++ bs).length + 7) / 8 = (bs.length + 7) / 8 + 1 := by simp; omega
  simp only [packBits, hlen, List.range_succ_eq_map, List.map_cons, List.map_map]
  refine congrArg₂ _ ?_ (List.map_congr_left fun k _ => ?_)
  · rw [Nat.mul_zero, List.drop_zero, List.append_assoc, List.take_left' (lowBits_length b 8), bitsValue_lowBits_byte]
  · simp only [Function.comp]
    rw [Nat.mul_succ, Nat.add_comm, ← List.drop_drop, List.append_assoc, List.drop_left' (lowBits_length b 8)]

/-- Fewer than eight bits, but at least one, become one byte, padded with zeros. -/
theorem packBits_pad {b : Byte} {bs : List Bool} {n : Nat} (h0 : 0 < bs.length) (h8 : bs.length + n = 8)
    (h : lowBits b 8 = bs ++ List.replicate n false) : packBits bs = [b] := by
  have hlen : (bs.length + 7) / 8 = 1 := by omega
  have htake : (bs ++ List.replicate 7 false).take 8 = lowBits b 8 := by
    rw [h, List.take_append, List.take_of_length_le (by omega), List.take_replicate]
    congr 2
    omega
  rw [packBits, hlen, List.range_one, List.map_singleton, Nat.mul_zero, List.drop_zero, htake, bitsValue_lowBits_byte]

/-- Whole bytes with bits behind them. -/
theorem packBits_bytes (bytes : List Byte) (bs : List Bool) :
    packBits (bytesBits bytes ++ bs) = bytes ++ packBits bs := by
  induction bytes with
  | nil => rfl
  | cons b rest ih => rw [bytesBits_cons, List.append_assoc, packBits_byte, ih, List.cons_append]

/-! ## The writer's pending bits -/

/-- The bits the accumulator holds (`10_state.md` R21, R22): the last part of `sinkBits`. -/
def State.pendingBits (s : State) : List Bool := (lowBits s.bwAcc 8).take s.bwFill.val

/-- The bytes `Flush` emits: the accumulator if it holds a bit (`40_bitstream.md` R102). -/
def State.pendingBytes (s : State) : List Byte := if s.bwFill = 0 then [] else [s.bwAcc]

theorem sinkBits_eq (s : State) : sinkBits s = bytesBits s.snkData ++ s.pendingBits := rfl

/-- The bits written so far, at an aligned writer. -/
theorem sinkBits_aligned {s : State} (h0 : s.bwFill = 0) : sinkBits s = bytesBits s.snkData := by
  rw [sinkBits, h0, Fin.val_zero, List.take_zero, List.append_nil]

theorem State.pendingBits_length (s : State) : s.pendingBits.length = s.bwFill.val := by
  simp [pendingBits]

/-- A tidy accumulator holds the pending bits and zeros behind them. -/
theorem WriterTidy.lowBits_eq {s : State} (h : WriterTidy s) :
    lowBits s.bwAcc 8 = s.pendingBits ++ List.replicate (8 - s.bwFill.val) false := by
  have hzero : lowBits s.bwAcc (8 - s.bwFill.val) = List.replicate (8 - s.bwFill.val) false := by
    refine List.eq_replicate_iff.mpr ⟨lowBits_length .., fun b hb => ?_⟩
    obtain ⟨i, hi, rfl⟩ := List.mem_map.mp hb
    have := List.mem_range.mp hi
    exact h _ (by omega) (by omega)
  have hdrop : (lowBits s.bwAcc 8).drop s.bwFill.val = lowBits s.bwAcc (8 - s.bwFill.val) := by
    have := drop_lowBits s.bwAcc s.bwFill.val (8 - s.bwFill.val)
    rwa [Nat.add_sub_cancel' (by omega)] at this
  rw [← hzero, ← hdrop, State.pendingBits, List.take_append_drop]

/-- The bytes `Flush` emits are the pending bits, padded. -/
theorem WriterTidy.packBits_pendingBits {s : State} (h : WriterTidy s) : packBits s.pendingBits = s.pendingBytes := by
  have hlen := s.pendingBits_length
  by_cases h0 : s.bwFill = 0
  · have hnil : s.pendingBits = [] := List.length_eq_zero_iff.mp (by rw [hlen, h0]; rfl)
    rw [hnil, State.pendingBytes, if_pos h0, packBits_nil]
  · have hpos : s.bwFill.val ≠ 0 := fun e => h0 (Fin.ext e)
    rw [State.pendingBytes, if_neg h0, packBits_pad (by omega) (by omega) h.lowBits_eq]

/-- The bits of the bytes `Flush` emits begin with the pending bits. -/
theorem State.pendingBits_prefix (s : State) : s.pendingBits <+: bytesBits s.pendingBytes := by
  by_cases h0 : s.bwFill = 0
  · simp [pendingBits, h0]
  · simpa [pendingBits, pendingBytes, h0] using List.take_prefix _ _

/-! ## The commands in a running core -/

theorem exec_bwWrite {s : State} (hr : Running s) (a b : Byte) :
    exec (.bwWrite a b) s = ((writeBits b a.toNat s).andThen fun _ s => okWith 0 s).finish := by
  rw [exec, execBwWrite, gated_running hr]

theorem exec_bwFlush {s : State} (hr : Running s) :
    exec .bwFlush s = ((flush s).andThen fun _ s => okWith 0 s).finish := by
  rw [exec, execBwFlush, gated_running hr]

theorem exec_bwClose {s : State} (hr : Running s) :
    exec .bwClose s = ((closeWriter s).andThen fun _ s => okWith 0 s).finish := by
  rw [exec, execBwClose, gated_running hr]

theorem exec_brRead {s : State} (hr : Running s) (a : Byte) :
    exec (.brRead a) s = ((readBits a.toNat s).andThen fun v s => okWith v.toNat s).finish := by
  rw [exec, execBrRead, gated_running hr]

theorem exec_brBit {s : State} (hr : Running s) :
    exec .brBit s = ((readBits 1 s).andThen fun v s => okWith v.toNat s).finish := by
  rw [exec, execBrBit, gated_running hr]

theorem exec_brSkip {s : State} (hr : Running s) : exec .brSkip s = (okWith 0 (skipByte s)).finish := by
  rw [exec, execBrSkip, gated_running hr]

/-- Settles O17. -/
theorem skipDropsTheUnreadBits : Obligations.SkipDropsTheUnreadBits :=
  ⟨decode_encode .brSkip, fun _ hr => exec_brSkip hr⟩

/-- Settles O15: the outcomes of `Flush`, and of `Close` after it. -/
theorem flushAndCloseEmitThePendingByte : Obligations.FlushAndCloseEmitThePendingByte := by
  intro s hr
  rw [exec_bwFlush hr, exec_bwClose hr, closeWriter]
  rcases flush_cases s with ⟨ho, e⟩ | ⟨ho, hf, e⟩ | ⟨ho, hf, e⟩
  · refine ⟨fun _ i hi => ?_, fun h => absurd (h.symm.trans ho) (by decide),
      fun h => absurd (h.symm.trans ho) (by decide)⟩
    simp only [List.mem_cons, List.not_mem_nil, or_false] at hi
    rcases hi with rfl | rfl
    · rw [exec_bwFlush hr, e]; rfl
    · rw [exec_bwClose hr, closeWriter, e]; rfl
  · rw [e]
    exact ⟨fun h => absurd (h.symm.trans ho) (by decide), fun _ _ => ⟨rfl, rfl⟩, fun _ h => absurd hf h⟩
  · rw [e]
    exact ⟨fun h => absurd (h.symm.trans ho) (by decide), fun _ h => absurd h hf, fun _ _ => ⟨rfl, rfl⟩⟩

/-- Settles O14: the checks of `WriteBits`, and what its loop does. -/
theorem writeAppendsTheLowBits : Obligations.WriteAppendsTheLowBits := by
  intro s a b hr
  rw [exec_bwWrite hr]
  rcases writeBits_cases b a.toNat s with ⟨hl, e⟩ | ⟨hl, ho, e⟩ | ⟨hl, ho, e⟩
  · rw [e]
    exact ⟨fun _ => rfl, fun h => absurd hl (by omega), fun h => absurd hl (by omega)⟩
  · rw [e]
    exact ⟨fun h => absurd hl (by omega), fun _ _ => rfl, fun _ h => absurd (h.symm.trans ho) (by decide)⟩
  · obtain ⟨acc, fill, snk, hput, hbits, hsink, htidy⟩ := putBits_spec b a.toNat s
    rw [e, hput]
    exact ⟨fun h => absurd hl (by omega), fun _ h => absurd (h.symm.trans ho) (by decide),
      fun _ _ => ⟨acc, fill, snk, rfl, hbits, hsink, htidy⟩⟩

/-- `BR.READ` and `BR.BIT` in a running core are `ReadBits`. -/
theorem exec_readBits {s : State} {i : Instr} {n : Nat} (hr : Running s)
    (hi : (∃ a : Byte, i = .brRead a ∧ n = a.toNat) ∨ i = .brBit ∧ n = 1) :
    exec i s = ((readBits n s).andThen fun v s => okWith v.toNat s).finish := by
  rcases hi with ⟨a, rfl, rfl⟩ | ⟨rfl, rfl⟩
  · exact exec_brRead hr a
  · exact exec_brBit hr

/-- At most eight bits fit the value `ReadBits` answers. -/
theorem toNat_ofNat_bitsValue_take {n : Nat} (bs : List Bool) (h : n ≤ 8) :
    (BitVec.ofNat 8 (bitsValue (bs.take n))).toNat = bitsValue (bs.take n) := by
  have hlen : (bs.take n).length ≤ 8 := (List.length_take_le n bs).trans h
  rw [BitVec.toNat_ofNat]
  exact Nat.mod_eq_of_lt ((bitsValue_lt _).trans_le (Nat.pow_le_pow_right (by decide) hlen))

/-- Settles O16: the outcomes of `ReadBits`. -/
theorem readTakesTheNextBits : Obligations.ReadTakesTheNextBits := by
  intro s i n hr hi
  rw [exec_readBits hr hi]
  rcases readBits_cases n s with ⟨hn, e⟩ | ⟨hn, hl, cur, rem, e, hbits⟩ | ⟨hn, hl, e⟩
  · rw [e]
    exact ⟨fun _ => rfl, fun h => absurd hn (by omega), fun h => absurd hn (by omega)⟩
  · rw [e, Res.andThen_ok, toNat_ofNat_bitsValue_take _ hn]
    exact ⟨fun h => absurd hn (by omega), fun _ _ => ⟨cur, rem, rfl, hbits⟩, fun _ h => absurd hl (by omega)⟩
  · rw [e]
    exact ⟨fun h => absurd hn (by omega), fun _ h => absurd hl (by omega), fun _ _ => rfl⟩

/-! ## Writes and reads one after another -/

theorem execAll_cons {i : Instr} {s t : State} (h : exec i s = .next t) (is : List Instr) :
    execAll (i :: is) s = execAll is t := by
  rw [execAll, h]

/-- A length of at most eight bits as an operand field. -/
theorem toNat_ofNat_length (n : Fin 9) : (BitVec.ofNat 8 n.val).toNat = n.val := by
  rw [BitVec.toNat_ofNat]
  omega

/-- A running core with an open and tidy writer. -/
structure WriterReady (s : State) : Prop where
  running : Running s
  isOpen : s.bwOpen = true
  tidy : WriterTidy s

/-- A ready writer takes a value's low bits and is ready for the next (`40_bitstream.md` R101, R107). -/
theorem WriterReady.exec_bwWrite {s : State} (h : WriterReady s) (n : Fin 9) (v : Byte) : ∃ t,
    exec (.bwWrite (BitVec.ofNat 8 n.val) v) s = .next t ∧ WriterReady t ∧
    sinkBits t = sinkBits s ++ lowBits v n.val ∧ s.snkData <+: t.snkData := by
  have hn := toNat_ofNat_length n
  obtain ⟨-, -, hwrite⟩ := writeAppendsTheLowBits s (BitVec.ofNat 8 n.val) v h.running
  obtain ⟨acc, fill, snk, e, hbits, hsink, htidy⟩ := hwrite (by omega) h.isOpen
  rw [hn] at hbits
  exact ⟨_, e, ⟨h.running, h.isOpen, htidy h.tidy⟩, hbits, hsink⟩

/-- Writes before other commands: their bits follow one another. -/
theorem WriterReady.execAll_bwWrite {s : State} (h : WriterReady s) (ops : List (Byte × Fin 9)) (is : List Instr) :
    ∃ t, execAll (ops.map (fun p => .bwWrite (BitVec.ofNat 8 p.2.val) p.1) ++ is) s = execAll is t ∧
      WriterReady t ∧ sinkBits t = sinkBits s ++ (ops.flatMap fun p => lowBits p.1 p.2.val) ∧
      s.snkData <+: t.snkData := by
  induction ops generalizing s with
  | nil => exact ⟨s, rfl, h, (List.append_nil _).symm, List.prefix_rfl⟩
  | cons p ops ih =>
    obtain ⟨t, e, ht, hbits, hsink⟩ := h.exec_bwWrite p.2 p.1
    obtain ⟨u, e', hu, hbits', hsink'⟩ := ih ht
    refine ⟨u, ?_, hu, ?_, hsink.trans hsink'⟩
    · rw [List.map_cons, List.cons_append, execAll_cons e, e']
    · rw [hbits', hbits, List.flatMap_cons, List.append_assoc]

/-- `BW.FLUSH` of an open writer sends the pending bytes (`40_bitstream.md` R102). -/
theorem exec_bwFlush_open {s : State} (hr : Running s) (ho : s.bwOpen = true) :
    ∃ t, exec .bwFlush s = .next t ∧ t.snkData = s.snkData ++ s.pendingBytes := by
  obtain ⟨-, hempty, hfull⟩ := flushAndCloseEmitThePendingByte s hr
  by_cases hf : s.bwFill = 0
  · exact ⟨_, (hempty ho hf).1, by simp [State.pendingBytes, hf]⟩
  · exact ⟨_, (hfull ho hf).1, by simp [State.pendingBytes, hf]⟩

/-- The bits unread at an aligned reader are those of the bytes not yet pulled. -/
theorem sourceBits_aligned {s : State} (h0 : s.brRem = 0) : sourceBits s = bytesBits (s.srcData.drop s.srcPos) := by
  rw [sourceBits, h0]
  rfl

/-- `BR.READ` of bits that were a value's low bits answers the value modulo 2 to their number. -/
theorem exec_brRead_lowBits {s : State} (hr : Running s) (n : Fin 9) (v : Byte) {rest : List Bool}
    (h : sourceBits s = lowBits v n.val ++ rest) : ∃ t,
    exec (.brRead (BitVec.ofNat 8 n.val)) s = .next t ∧ Running t ∧ sourceBits t = rest ∧
    t.responses = s.responses ++ [⟨.ok, BitVec.ofNat 64 (v.toNat % 2 ^ n.val)⟩] := by
  obtain ⟨-, hread, -⟩ := readTakesTheNextBits s (.brRead (BitVec.ofNat 8 n.val)) n.val hr
    (.inl ⟨_, rfl, (toNat_ofNat_length n).symm⟩)
  obtain ⟨cur, rem, e, hbits⟩ := hread (by omega) (by rw [h]; simp)
  rw [h, List.take_left' (lowBits_length ..), bitsValue_lowBits] at e
  rw [h, List.drop_left' (lowBits_length ..)] at hbits
  exact ⟨_, e, hr, hbits, rfl⟩

/-- Reads of bits that were written one after another. -/
theorem execAll_brRead {s : State} (hr : Running s) (ops : List (Byte × Fin 9)) {rest : List Bool}
    (h : sourceBits s = (ops.flatMap fun p => lowBits p.1 p.2.val) ++ rest) : ∃ t,
    execAll (ops.map fun p => .brRead (BitVec.ofNat 8 p.2.val)) s = .next t ∧
    t.responses = s.responses ++ ops.map fun p => ⟨.ok, BitVec.ofNat 64 (p.1.toNat % 2 ^ p.2.val)⟩ := by
  induction ops generalizing s with
  | nil => exact ⟨s, rfl, (List.append_nil _).symm⟩
  | cons p ops ih =>
    rw [List.flatMap_cons, List.append_assoc] at h
    obtain ⟨t, e, ht, hbits, hresp⟩ := exec_brRead_lowBits hr p.2 p.1 h
    obtain ⟨u, e', hresp'⟩ := ih ht hbits
    refine ⟨u, by rw [List.map_cons, execAll_cons e, e'], ?_⟩
    rw [hresp', hresp, List.map_cons, List.append_assoc, List.singleton_append]

/-- Settles O18: the bits written are those of the bytes sent so far and of the pending ones, so the flush leaves them
packed; the reader finds them at the front of the source. -/
theorem writtenBitsReadBack : Obligations.WrittenBitsReadBack := by
  intro ops s hr ho h0 htidy
  obtain ⟨t, hwrites, ht, hbits, out, hout⟩ := WriterReady.execAll_bwWrite ⟨hr, ho, htidy⟩ ops [.bwFlush]
  obtain ⟨u, hflush, hsink⟩ := exec_bwFlush_open ht.running ht.isOpen
  have hops : (ops.flatMap fun p => lowBits p.1 p.2.val) = bytesBits out ++ t.pendingBits := by
    rw [sinkBits_eq, sinkBits_aligned h0, ← hout, bytesBits_append, List.append_assoc] at hbits
    exact (List.append_cancel_left hbits).symm
  have hpack : out ++ t.pendingBytes = packBits (ops.flatMap fun p => lowBits p.1 p.2.val) := by
    rw [hops, packBits_bytes, ht.tidy.packBits_pendingBits]
  refine ⟨u, out ++ t.pendingBytes, ?_, ?_, hpack, ?_, fun r rest hrun hrem hsrc => ?_⟩
  · rw [hwrites, execAll_cons hflush]
    rfl
  · rw [hsink, ← hout, List.append_assoc]
  · rw [hpack, packBits_length]
    simp
  · obtain ⟨pad, hpad⟩ := t.pendingBits_prefix
    refine execAll_brRead hrun ops (rest := pad ++ bytesBits rest) ?_
    rw [sourceBits_aligned hrem, hsrc, bytesBits_append, bytesBits_append, ← hpad, hops]
    simp only [List.append_assoc]

end Sys2Proof.Machine
end

section
/-!
PROOF. The Huffman decoder (`42_huffman.md` R149, R152): from a node the descent takes the bits of a path to a leaf off
the source one by one, and a source that ends inside a path is drained.
-/

namespace Sys2Proof.Machine

/-! ## One bit -/

/-- `ReadBits(1)` answers the bit pulled. -/
theorem readBits_one {s t : State} {b : Bool} (h : pullBit s = some (b, t)) :
    readBits 1 s = .ok (BitVec.ofNat 8 b.toNat) t := by
  simp only [readBits, pullBits, pullBitsFrom, h, shift_or_bit]
  simp

/-- The reader and the source after a read that found too few bits: all of them are lost (`40_bitstream.md` R104,
`60_exceptions.md` R293). -/
def State.drained (s : State) : State :=
  { s with
    brCur := (s.srcData.drop s.srcPos).getLast?.getD s.brCur
    brRem := 0
    srcPos := s.srcPos + (s.srcData.drop s.srcPos).length }

/-- Bits pulled before the source is drained make no difference. -/
theorem drained_of_pullBit {s t : State} {b : Bool} (h : pullBit s = some (b, t)) : t.drained = s.drained := by
  obtain ⟨n, hn⟩ : ∃ n, n = (sourceBits s).length + (sourceBits t).length + 1 := ⟨_, rfl⟩
  have hs := pullBitsFrom_short (n + 1) 0 s (by omega)
  have ht := pullBitsFrom_short n ((0 <<< 1) ||| (BitVec.ofBool b).zeroExtend 8) t (by omega)
  simp only [pullBitsFrom, h] at hs
  exact congrArg Prod.snd (ht.symm.trans hs)

/-- `ReadBits(1)` with nothing left. -/
theorem readBits_one_nil {s : State} (h : sourceBits s = []) :
    readBits 1 s = .stop (s.drained.takeFault .exhausted) := by
  rcases readBits_cases 1 s with ⟨hn, -⟩ | ⟨-, hl, -⟩ | ⟨-, -, e⟩
  · omega
  · simp [h] at hl
  · exact e

/-! ## One node -/

/-- The child a path goes to. -/
theorem LeafAt.child {nodes : List Node} {k : Nat} {b : Bool} {path : List Bool} {x : Symbol}
    (h : LeafAt nodes k (b :: path) x) :
    ∃ c0 c1 w, nodes[k]? = some (.internal c0 c1 w) ∧ LeafAt nodes (if b then c1 else c0) path x := by
  cases h with
  | zero h below => exact ⟨_, _, _, h, below⟩
  | one h below => exact ⟨_, _, _, h, below⟩

theorem descend_leaf {nodes : List Node} {k : Nat} {x : Symbol} (h : LeafAt nodes k [] x) (fuel : Nat) (s : State) :
    descend nodes (fuel + 1) k s = .ok x s := by
  cases h with
  | leaf h => rw [descend, h]

/-- At an internal node the descent asks for a bit. -/
theorem descend_internal {nodes : List Node} {k c0 c1 : Nat} {w : Word64} (h : nodes[k]? = some (.internal c0 c1 w))
    (fuel : Nat) (s : State) : descend nodes (fuel + 1) k s =
      (readBits 1 s).andThen fun b s => descend nodes fuel (if b = 0 then c0 else c1) s := by
  rw [descend, h]

/-- A bit of the path takes the descent to the next node of the path. -/
theorem descend_bit {nodes : List Node} (ho : ArenaOrdered nodes) {k : Nat} {b : Bool} {path : List Bool} {x : Symbol}
    (h : LeafAt nodes k (b :: path) x) {s t : State} (hb : pullBit s = some (b, t)) (fuel : Nat) :
    ∃ c, c < k ∧ LeafAt nodes c path x ∧ descend nodes (fuel + 1) k s = descend nodes fuel c t := by
  obtain ⟨c0, c1, w, hk, below⟩ := h.child
  obtain ⟨h0, h1⟩ := ho.children hk
  refine ⟨if b then c1 else c0, by cases b <;> assumption, below, ?_⟩
  rw [descend_internal hk, readBits_one hb, Res.andThen_ok]
  cases b <;> rfl

/-! ## Whole paths -/

/-- The bytes pulled for the first bit and for the `n` bits behind it, from `r` bits unread. -/
theorem bytesPulled_succ (n : Nat) (r : Fin 9) :
    (if r = 0 then 1 else 0) + (n - ((if r = 0 then 8 else r.val) - 1) + 7) / 8 = (n + 1 - r.val + 7) / 8 := by
  by_cases h : r = 0
  · simp only [h, if_true, Fin.val_zero]
    omega
  · have : r.val ≠ 0 := fun e => h (Fin.ext e)
    simp only [h, if_false]
    omega

/-- The bits of a path to a leaf take the descent to the leaf, and no further byte is pulled. -/
theorem descend_path {nodes : List Node} (ho : ArenaOrdered nodes) {x : Symbol} (path rest : List Bool)
    {fuel k : Nat} (hf : k < fuel) (hleaf : LeafAt nodes k path x) {s : State} (hs : sourceBits s = path ++ rest) :
    ∃ cur rem,
      descend nodes fuel k s = .ok x { s with
        brCur := cur, brRem := rem, srcPos := s.srcPos + (path.length - s.brRem.val + 7) / 8 } ∧
      sourceBits { s with
        brCur := cur, brRem := rem, srcPos := s.srcPos + (path.length - s.brRem.val + 7) / 8 } = rest := by
  induction path generalizing fuel k s with
  | nil =>
    obtain ⟨fuel, rfl⟩ := Nat.exists_eq_add_one_of_ne_zero (Nat.ne_zero_of_lt hf)
    exact ⟨s.brCur, s.brRem, by simp [descend_leaf hleaf], by simpa using hs⟩
  | cons b path ih =>
    obtain ⟨fuel, rfl⟩ := Nat.exists_eq_add_one_of_ne_zero (Nat.ne_zero_of_lt hf)
    obtain ⟨cur, rem, hpull, hbits, hrem⟩ := pullBit_cons hs
    obtain ⟨c, hc, below, e⟩ := descend_bit ho hleaf hpull fuel
    obtain ⟨cur', rem', e', hbits'⟩ := ih (fuel := fuel) (by omega) below hbits
    simp only [hrem, Nat.add_assoc, bytesPulled_succ] at e' hbits'
    exact ⟨cur', rem', e.trans e', hbits'⟩

/-- Bits that end inside a path to a leaf are lost. -/
theorem descend_short {nodes : List Node} (ho : ArenaOrdered nodes) {x : Symbol} (path : List Bool)
    {fuel k : Nat} (hf : k < fuel) (hleaf : LeafAt nodes k path x) {s : State} (hs : sourceBits s <+: path)
    (hl : (sourceBits s).length < path.length) :
    descend nodes fuel k s = .stop (s.drained.takeFault .exhausted) := by
  induction path generalizing fuel k s with
  | nil => simp at hl
  | cons b path ih =>
    obtain ⟨fuel, rfl⟩ := Nat.exists_eq_add_one_of_ne_zero (Nat.ne_zero_of_lt hf)
    cases hsrc : sourceBits s with
    | nil =>
      obtain ⟨c0, c1, w, hk, -⟩ := hleaf.child
      rw [descend_internal hk, readBits_one_nil hsrc, Res.andThen_stop]
    | cons d rest =>
      rw [hsrc] at hs hl
      obtain ⟨rfl, hrest⟩ := List.cons_prefix_cons.mp hs
      obtain ⟨cur, rem, hpull, hbits, -⟩ := pullBit_cons hsrc
      obtain ⟨c, hc, below, e⟩ := descend_bit ho hleaf hpull fuel
      rw [e, ih (by omega) below (hbits ▸ hrest) (by rw [hbits]; simpa using hl), drained_of_pullBit hpull]

/-! ## The command -/

/-- In a running core `HF.DEC` of a slot in range is `DecodeOne`. -/
theorem exec_hfDec {s : State} (hr : Running s) {a : Byte} {L : LayerNo} (ha : a.toNat = L.num) :
    exec (.hfDec a) s = ((decodeOne L s).andThen fun x s => okWith x.toNat s).finish := by
  rw [exec, execHfDec, gated_running hr, withLayerIndex_num ha]

theorem decodeOne_noTree {L : LayerNo} {s : State} (h : (s.layer L).treeValid = false ∨ (s.layer L).root = none) :
    decodeOne L s = .stop (s.takeRefusal .noTree) := by
  rcases decodeOne_cases L s with ⟨-, e⟩ | ⟨k, hv, hroot, -⟩
  · exact e
  · simp [hv, hroot] at h

theorem decodeOne_root {L : LayerNo} {s : State} {k : Nat} (hv : (s.layer L).treeValid = true)
    (hroot : (s.layer L).root = some k) : decodeOne L s = descend (s.layer L).nodes (k + 1) k s := by
  simp [decodeOne, hv, hroot]

/-- Settles O28: `DecodeOne` without a tree, and its descent from the root. -/
theorem decodeFollowsTheBits : Obligations.DecodeFollowsTheBits := by
  intro s a L hr ha
  rw [exec_hfDec hr ha]
  refine ⟨fun h => ?_, fun root path x hv hroot ho hleaf => ?_⟩
  · rw [decodeOne_noTree h]
    rfl
  · rw [decodeOne_root hv hroot]
    refine ⟨fun rest hs => ?_, fun hs hl => ?_⟩
    · obtain ⟨cur, rem, e, hbits⟩ := descend_path ho path rest (Nat.lt_succ_self root) hleaf hs
      refine ⟨cur, rem, ?_, hbits⟩
      rw [State.layer, e, Res.andThen_ok, okWith_eq, Response.okValue, BitVec.ofNat_toNat]
      rfl
    · rw [State.layer, descend_short ho path (Nat.lt_succ_self root) hleaf hs hl]
      rfl

end Sys2Proof.Machine
end

section
/-!
PROOF. The scanner (`41_scanner.md` R120 to R128). Band d of the scan begins at scan index Start(d + 1), which settles
where each layer begins and ends; the value of `ZS.NEXT` is read field by field.
-/

namespace Sys2Proof.Machine

/-! ## The order of the positions -/

/-- The traversal visits no position twice (`41_scanner.md` R120). -/
theorem zzList_nodup : zzList.Nodup := by
  refine List.nodup_iff_injective_get.mpr fun i j h => ?_
  have hij : i.cast zzList_length = j.cast zzList_length := zz_injective h
  simpa using hij

/-- The traversal visits every position (`41_scanner.md` R120). -/
theorem mem_zzList (p : Pos) : p ∈ zzList := by
  obtain ⟨i, rfl⟩ := zz_surjective p
  exact zz_mem i

theorem zzList_getElem? (i : Fin 64) : zzList[i.val]? = some (zz i) :=
  List.getElem?_eq_getElem _

/-- Odd bands descend and even bands ascend (`41_scanner.md` R120). -/
theorem zz_step_within_band : ∀ i : Fin 63, (zz i.succ).band = (zz i.castSucc).band →
    if (zz i.castSucc).band % 2 = 1 then (zz i.succ).r.val = (zz i.castSucc).r.val + 1
    else (zz i.castSucc).r.val = (zz i.succ).r.val + 1 := by
  decide

/-- Odd bands are entered at their top row and even bands at their bottom row (`41_scanner.md` R120). -/
theorem zz_step_out_of_band : ∀ i : Fin 63, (zz i.succ).band ≠ (zz i.castSucc).band →
    (zz i.succ).band = (zz i.castSucc).band + 1 ∧
    (zz i.succ).r.val = if (zz i.succ).band % 2 = 1 then (zz i.succ).band - 7 else min (zz i.succ).band 7 := by
  decide

/-! ## Layers as ranges of scan indices -/

/-- The bands from n - 1 on are the scan indices from Start(n) on (`41_scanner.md` R124). -/
theorem le_band_add_one_iff {n : Nat} (h : n ≤ 8) (i : Fin 64) : n ≤ (zz i).band + 1 ↔ layerStart n ≤ i.val := by
  have table : ∀ (m : Fin 9) (i : Fin 64), m.val ≤ (zz i).band + 1 ↔ layerStart m.val ≤ i.val := by decide
  exact table ⟨n, by omega⟩ i

/-- The next layer begins behind the L positions of band L - 1. -/
theorem layerStart_succ (n : Nat) : layerStart (n + 1) = layerStart n + n := Nat.triangle_succ n

theorem layerSize_of_lt {L N : LayerNo} (h : L.num < N.num) : layerSize L N = L.num := if_pos h

/-- The last layer reaches to the end of the block. -/
theorem layerStart_add_layerSize_self (N : LayerNo) : layerStart N.num + layerSize N N = 64 := by
  cases N <;> rfl

/-- A layer below N is one band (`41_scanner.md` R123). -/
theorem layerOf_eq_iff_of_lt {L N : LayerNo} (h : L.num < N.num) (i : Fin 64) :
    layerOf i N = L.num ↔ (zz i).band + 1 = L.num := by
  rw [layerOf]
  omega

/-- Layer N is all bands from N - 1 on (`41_scanner.md` R123). -/
theorem layerOf_eq_self_iff (N : LayerNo) (i : Fin 64) : layerOf i N = N.num ↔ N.num ≤ (zz i).band + 1 :=
  min_eq_right_iff

/-- The scan indices of a layer (`41_scanner.md` R124). -/
theorem layerOf_eq_num_iff {L N : LayerNo} (h : L.num ≤ N.num) (i : Fin 64) :
    layerOf i N = L.num ↔ layerStart L.num ≤ i.val ∧ i.val < layerStart L.num + layerSize L N := by
  have hN := N.num_le
  have hfrom := le_band_add_one_iff (h.trans hN) i
  rcases Nat.lt_or_eq_of_le h with hlt | heq
  · have hnext := le_band_add_one_iff (n := L.num + 1) (by omega) i
    rw [layerStart_succ] at hnext
    rw [layerOf_eq_iff_of_lt hlt, layerSize_of_lt hlt]
    omega
  · obtain rfl := LayerNo.num_inj heq
    rw [layerOf_eq_self_iff, hfrom, layerStart_add_layerSize_self]
    exact (and_iff_left i.isLt).symm

/-- The index in the layer is the position's place in the layer's part of the scan (`41_scanner.md` R125). -/
theorem layerScan_indexInLayer {L N : LayerNo} (hLN : L.num ≤ N.num) {i : Fin 64} (h : layerOf i N = L.num) :
    (layerScan L N)[indexInLayer i N]? = some (zz i) := by
  obtain ⟨hstart, hend⟩ := (layerOf_eq_num_iff hLN i).mp h
  rw [indexInLayer, h, layerScan, List.getElem?_take_of_lt (by omega), List.getElem?_drop, Nat.add_sub_cancel' hstart,
    zzList_getElem?]

/-- Settles O21: the steps of the table, and the layers by the bands' first scan indices. -/
theorem zigzagOrderAndLayers : Obligations.ZigzagOrderAndLayers := by
  refine ⟨zzList_nodup, fun r c => mem_zzList ⟨r, c⟩, rfl, fun i => ?_, fun L N hLN i => ?_⟩
  · dsimp only
    split
    next hband => exact zz_step_within_band i hband
    next hband => exact zz_step_out_of_band i hband
  · refine ⟨rfl, layerOf_eq_num_iff hLN i, fun h => ⟨?_, layerScan_indexInLayer hLN h⟩, rfl, rfl⟩
    rw [indexInLayer, h]

/-! ## The report of `ZS.NEXT` -/

/-- A field appended below a word is added to the word's multiple. -/
theorem toNat_append_ofNat {m : Nat} (v : BitVec m) {n x : Nat} (h : x < 2 ^ n) :
    (v ++ BitVec.ofNat n x).toNat = 2 ^ n * v.toNat + x := by
  rw [BitVec.toNat_append, BitVec.toNat_ofNat, Nat.mod_eq_of_lt h, ← Nat.shiftLeft_add_eq_or_of_lt h,
    Nat.shiftLeft_eq, Nat.mul_comm]

theorem layerOf_le (i : Fin 64) (N : LayerNo) : layerOf i N ≤ 8 :=
  (Nat.min_le_right _ _).trans N.num_le

theorem indexInLayer_lt (i : Fin 64) (N : LayerNo) : indexInLayer i N < 64 :=
  (Nat.sub_le _ _).trans_lt i.isLt

/-- The fields of the report are wide enough for what they hold (`41_scanner.md` R128). -/
theorem scanValue_toNat (i : Fin 64) (N : LayerNo) :
    (scanValue i N).toNat =
      (zz i).c.val + 8 * (zz i).r.val + 64 * i.val + 4096 * layerOf i N + 65536 * indexInLayer i N := by
  have hindex := indexInLayer_lt i N
  have hlayer := layerOf_le i N
  rw [scanValue, BitVec.zeroExtend, BitVec.toNat_setWidth_of_le (by decide),
    toNat_append_ofNat _ (zz i).c.isLt, toNat_append_ofNat _ (zz i).r.isLt, toNat_append_ofNat _ i.isLt,
    toNat_append_ofNat _ (by omega), BitVec.toNat_ofNat, Nat.mod_eq_of_lt hindex]
  omega

/-! ## The commands -/

/-- In a running core `ZS.NEXT` reports the next position (`41_scanner.md` R128). -/
theorem exec_zsNext_position {s : State} (hr : Running s) (h : s.zsI.val < 64) :
    exec .zsNext s = .next { s with
      zsI := ⟨s.zsI.val + 1, by omega⟩
      responses := s.responses ++ [⟨.ok, scanValue ⟨s.zsI.val, h⟩ s.zsN⟩] } := by
  rw [exec, execZsNext, gated_running hr, dif_pos h]
  rfl

/-- In a running core `ZS.NEXT` after the last position answers `END` (`41_scanner.md` R128). -/
theorem exec_zsNext_end {s : State} (hr : Running s) (h : s.zsI.val = 64) :
    exec .zsNext s = .next { s with responses := s.responses ++ [⟨.scanEnd, 0⟩] } := by
  rw [exec, execZsNext, gated_running hr, dif_neg (by omega)]
  rfl

/-- Settles O20. -/
theorem scanReportsEachPosition : Obligations.ScanReportsEachPosition :=
  fun _ hr => ⟨fun h => ⟨_, exec_zsNext_position hr h, scanValue_toNat _ _⟩, exec_zsNext_end hr⟩

/-- In a running core `ZS.START` with a layer count in range begins a scan (`41_scanner.md` R127). -/
theorem exec_zsStart_num {s : State} (hr : Running s) {a : Byte} {N : LayerNo} (ha : a.toNat = N.num) :
    exec (.zsStart a) s = .next { s with zsN := N, zsI := 0, responses := s.responses ++ [⟨.ok, 0⟩] } := by
  rw [exec, execZsStart, gated_running hr, withLayerCount_num ha]
  rfl

/-- The word of an opcode and an operand `a`, all else 0. -/
theorem wordOf_op_a (op a : Byte) : wordOf ⟨op, a, 0, 0, 0⟩ = op ++ a ++ (0 : BitVec 48) := by
  refine BitVec.eq_of_toNat_eq ?_
  simp only [wordOf, BitVec.toNat_append]
  simp [← Nat.shiftLeft_add]

/-- Settles O19: the word is the command's encoding, and the command begins with the check of its layer count. -/
theorem scanStarts : Obligations.ScanStarts := by
  refine fun _ a => ⟨?_, fun _ hr ha => exec_zsStart_num hr ha, fun hr ha => gated_withLayerCount_out hr ha _⟩
  rw [← wordOf_op_a]
  exact decode_encode (.zsStart a)

end Sys2Proof.Machine
end

section
/-!
PROOF. The passes of the tree builder (`42_huffman.md` R143 to R145): what one pass makes of a working list, and the
principle by which what every pass keeps holds of the arena `BuildTree` makes; with it the size of the arena, its root
and its weights.
-/

namespace Sys2Proof.Machine

/-! ## One pass -/

theorem mergePass_length (k : Nat) (work : List (Nat × Word64)) :
    (mergePass k work).1.length = (work.length + 1) / 2 ∧ (mergePass k work).2.length = work.length / 2 := by
  fun_induction mergePass k work with
  | case1 k x wx y wy rest r ih =>
    obtain ⟨hside, hmade⟩ := ih
    simp only [List.length_cons, r, hside, hmade]
    omega
  | case2 | case3 => simp

/-- The pair at the places 2i and 2i + 1 makes the i-th new node, which has the i-th place of the side list. -/
theorem mergePass_pair (k : Nat) (work : List (Nat × Word64)) {i x y : Nat} {wx wy : Word64}
    (hx : work[2 * i]? = some (x, wx)) (hy : work[2 * i + 1]? = some (y, wy)) :
    (mergePass k work).1[i]? = some (k + i, wx + wy) ∧
    (mergePass k work).2[i]? = some (.internal x y (wx + wy)) := by
  fun_induction mergePass k work generalizing i
  case case1 k x' wx' y' wy' rest r ih =>
    cases i with
    | zero => simp_all
    | succ i => simpa [Nat.add_assoc, Nat.add_comm 1] using ih hx hy
  case case2 | case3 => simp at hy

/-- An odd last node is carried to the end of the side list. -/
theorem mergePass_odd (k : Nat) (work : List (Nat × Word64)) {j : Nat} (h : work.length = 2 * j + 1) :
    (mergePass k work).1[j]? = work[2 * j]? := by
  fun_induction mergePass k work generalizing j
  case case1 k x wx y wy rest r ih =>
    cases j with
    | zero => simp at h
    | succ j => exact ih (by simpa [Nat.mul_succ] using h)
  case case2 k one =>
    obtain rfl : j = 0 := by simpa [eq_comm] using h
    rfl
  case case3 => simp at h

/-- Settles O25. -/
theorem passCombinesPairsInOrder : Obligations.PassCombinesPairsInOrder := fun k work =>
  ⟨(mergePass_length k work).1, (mergePass_length k work).2, fun _ _ _ _ _ => mergePass_pair k work,
    fun _ => mergePass_odd k work⟩

/-- A node a pass makes is the sum of two of the working list. -/
theorem mergePass_made {k : Nat} {work : List (Nat × Word64)} {i : Nat} (h : i < work.length / 2) :
    ∃ p ∈ work, ∃ q ∈ work, (mergePass k work).1[i]? = some (k + i, p.2 + q.2) ∧
      (mergePass k work).2[i]? = some (.internal p.1 q.1 (p.2 + q.2)) :=
  ⟨_, List.getElem_mem (by omega), _, List.getElem_mem (by omega),
    mergePass_pair k work (List.getElem?_eq_getElem (by omega)) (List.getElem?_eq_getElem (by omega))⟩

/-- The side list names the nodes made, and perhaps one node of the working list. -/
theorem mergePass_side {k : Nat} {work : List (Nat × Word64)} {p : Nat × Word64} (h : p ∈ (mergePass k work).1) :
    p ∈ work ∨ ∃ i n, (mergePass k work).2[i]? = some n ∧ p.1 = k + i ∧ p.2 = n.weight := by
  obtain ⟨i, hi⟩ := List.getElem?_of_mem h
  by_cases hpair : i < work.length / 2
  · obtain ⟨q, -, r, -, hside, hmade⟩ := mergePass_made (k := k) hpair
    obtain rfl := Option.some.inj (hi.symm.trans hside)
    exact .inr ⟨i, _, hmade, rfl, rfl⟩
  · have hlt := (List.getElem?_eq_some_iff.mp hi).1
    rw [(mergePass_length k work).1] at hlt
    rw [mergePass_odd k work (j := i) (by omega)] at hi
    exact .inl (List.mem_of_getElem? hi)

/-! ## All passes -/

/-- What every pass keeps holds when the passes end. -/
theorem mergePasses_induct {P : List Node → List (Nat × Word64) → Prop}
    (pass : ∀ nodes work, 2 ≤ work.length → P nodes work →
      P (nodes ++ (mergePass nodes.length work).2) (mergePass nodes.length work).1)
    (fuel : Nat) {nodes : List Node} {work : List (Nat × Word64)} (h : P nodes work) :
    P (nodes ++ (mergePasses fuel nodes.length work).2) (mergePasses fuel nodes.length work).1 := by
  induction fuel generalizing nodes work with
  | zero => simpa [mergePasses] using h
  | succ fuel ih =>
    rw [mergePasses]
    split
    · simpa using h
    · have := ih (pass nodes work (by omega) h)
      rwa [List.length_append, List.append_assoc] at this

/-- As many passes as the working list is long leave at most one node. -/
theorem mergePasses_length_le (fuel k : Nat) (work : List (Nat × Word64)) (h : work.length ≤ fuel) :
    (mergePasses fuel k work).1.length ≤ 1 := by
  induction fuel generalizing k work with
  | zero => exact h.trans (by decide)
  | succ fuel ih =>
    rw [mergePasses]
    split
    · assumption
    · exact ih _ _ (by rw [(mergePass_length k work).1]; omega)

/-- The leaf nodes of a table (`42_huffman.md` R142). -/
def leafNodes (freq : Table Word64) : List Node := (orderLeaves freq).map fun p => .leaf p.1 p.2

/-- The working list of the first pass: the leaf nodes in order (`42_huffman.md` R142). -/
def leafWork (freq : Table Word64) : List (Nat × Word64) := (orderLeaves freq).zipIdx.map fun p => (p.2, p.1.2)

@[simp] theorem leafNodes_length (freq : Table Word64) : (leafNodes freq).length = freq.length := by
  rw [leafNodes, List.length_map, (orderLeaves_perm freq).length_eq]

@[simp] theorem leafWork_length (freq : Table Word64) : (leafWork freq).length = freq.length := by
  rw [leafWork, List.length_map, List.length_zipIdx, (orderLeaves_perm freq).length_eq]

/-- What holds of the leaves and is kept by every pass holds of the arena, with at most one node, the root, left. -/
theorem buildArena_induct {freq : Table Word64} (P : List Node → List (Nat × Word64) → Prop)
    (leaves : P (leafNodes freq) (leafWork freq))
    (pass : ∀ nodes work, 2 ≤ work.length → P nodes work →
      P (nodes ++ (mergePass nodes.length work).2) (mergePass nodes.length work).1) :
    ∃ work, P (buildArena freq).1 work ∧ work.length ≤ 1 ∧ (buildArena freq).2 = work.head?.map (·.1) := by
  have hk : (orderLeaves freq).length = (leafNodes freq).length := (List.length_map _).symm
  have harena : buildArena freq =
      (leafNodes freq ++ (mergePasses (orderLeaves freq).length (leafNodes freq).length (leafWork freq)).2,
        (mergePasses (orderLeaves freq).length (leafNodes freq).length (leafWork freq)).1.head?.map (·.1)) := by
    rw [← hk]; rfl
  rw [harena]
  exact ⟨_, mergePasses_induct pass _ leaves,
    mergePasses_length_le _ _ _ (by rw [hk, leafNodes_length, leafWork_length]), rfl⟩

/-! ## Size and root -/

/-- After some passes over `n` leaves: each node made has taken the place of two, and the newest node is in the working
list. -/
structure Counted (n : Nat) (nodes : List Node) (work : List (Nat × Word64)) : Prop where
  total : nodes.length + work.length = 2 * n
  newest : nodes ≠ [] → ∃ w, (nodes.length - 1, w) ∈ work

theorem Counted.leaves (freq : Table Word64) : Counted freq.length (leafNodes freq) (leafWork freq) where
  total := by rw [leafNodes_length, leafWork_length]; omega
  newest h := by
    have hpos := List.length_pos_of_ne_nil h
    rw [leafNodes, List.length_map] at hpos
    rw [leafNodes, List.length_map]
    exact ⟨_, List.mem_map.mpr ⟨(_, (orderLeaves freq).length - 1),
      List.mk_mem_zipIdx_iff_getElem?.mpr (List.getElem?_eq_getElem (by omega)), rfl⟩⟩

theorem Counted.pass {n : Nat} {nodes : List Node} {work : List (Nat × Word64)} (h2 : 2 ≤ work.length)
    (h : Counted n nodes work) :
    Counted n (nodes ++ (mergePass nodes.length work).2) (mergePass nodes.length work).1 := by
  have htotal := h.total
  obtain ⟨hside, hmade⟩ := mergePass_length nodes.length work
  constructor
  · rw [List.length_append, hside, hmade]
    omega
  · intro _
    have hlast : work.length / 2 - 1 < work.length / 2 := by omega
    obtain ⟨p, -, q, -, hnew, -⟩ := mergePass_made (k := nodes.length) hlast
    rw [List.length_append, hmade, Nat.add_sub_assoc (by omega)]
    exact ⟨_, List.mem_of_getElem? hnew⟩

/-- The arena of no leaves is empty; that of n leaves has 2n - 1 nodes, the last of them the root. -/
theorem buildArena_size (freq : Table Word64) :
    (freq.length = 0 → (buildArena freq).1 = [] ∧ (buildArena freq).2 = none) ∧
    (1 ≤ freq.length → (buildArena freq).1.length = 2 * freq.length - 1 ∧
      (buildArena freq).2 = some (2 * freq.length - 2)) := by
  obtain ⟨work, ⟨htotal, hnewest⟩, hle, hroot⟩ :=
    buildArena_induct (Counted freq.length) (.leaves freq) fun _ _ => Counted.pass
  refine ⟨fun h0 => ?_, fun h1 => ?_⟩
  · have hwork : work = [] := List.length_eq_zero_iff.mp (by omega)
    exact ⟨List.length_eq_zero_iff.mp (by omega), by rw [hroot, hwork]; rfl⟩
  · obtain ⟨w, hw⟩ := hnewest (List.ne_nil_of_length_pos (by omega))
    obtain ⟨p, rfl⟩ := List.length_eq_one_iff.mp (hle.antisymm (List.length_pos_of_mem hw))
    obtain rfl := List.mem_singleton.mp hw
    rw [List.length_singleton] at htotal
    exact ⟨by omega, by rw [hroot, List.head?_cons, Option.map_some]; congr 1; omega⟩

/-! ## Weights -/

/-- A node with the weight of its children. -/
def IsSum (nodes : List Node) (n : Node) : Prop :=
  ∃ c0 c1 x y, n = .internal c0 c1 (x.weight + y.weight) ∧ nodes[c0]? = some x ∧ nodes[c1]? = some y

/-- After some passes over `n` leaves: the working list has the weights of its nodes, and the nodes made are sums. -/
structure Weighed (n : Nat) (nodes : List Node) (work : List (Nat × Word64)) : Prop where
  listed : ∀ p ∈ work, ∃ x, nodes[p.1]? = some x ∧ x.weight = p.2
  sums : ∀ k x, n ≤ k → nodes[k]? = some x → IsSum nodes x

theorem getElem?_append_of_some {α : Type} {l : List α} {i : Nat} {a : α} (h : l[i]? = some a) (m : List α) :
    (l ++ m)[i]? = some a := by
  rw [List.getElem?_append_left (List.getElem?_eq_some_iff.mp h).1, h]

theorem IsSum.append {nodes : List Node} {n : Node} (h : IsSum nodes n) (made : List Node) :
    IsSum (nodes ++ made) n := by
  obtain ⟨c0, c1, x, y, hn, hx, hy⟩ := h
  exact ⟨c0, c1, x, y, hn, getElem?_append_of_some hx made, getElem?_append_of_some hy made⟩

theorem Weighed.leaves (freq : Table Word64) : Weighed freq.length (leafNodes freq) (leafWork freq) where
  listed p hp := by
    obtain ⟨⟨q, i⟩, hq, rfl⟩ := List.mem_map.mp hp
    exact ⟨.leaf q.1 q.2, by simp [leafNodes, List.mk_mem_zipIdx_iff_getElem?.mp hq], rfl⟩
  sums k x hk hx := by
    have := (List.getElem?_eq_some_iff.mp hx).1
    rw [leafNodes_length] at this
    omega

theorem Weighed.pass {n : Nat} {nodes : List Node} {work : List (Nat × Word64)} (h : Weighed n nodes work) :
    Weighed n (nodes ++ (mergePass nodes.length work).2) (mergePass nodes.length work).1 where
  listed p hp := by
    rcases mergePass_side hp with hp | ⟨i, x, hx, hi, hw⟩
    · obtain ⟨x, hx, hw⟩ := h.listed p hp
      exact ⟨x, getElem?_append_of_some hx _, hw⟩
    · exact ⟨x, by rw [hi, List.getElem?_append_right (by omega), Nat.add_sub_cancel_left, hx], hw.symm⟩
  sums k x hk hx := by
    rcases lt_or_ge k nodes.length with hlt | hge
    · rw [List.getElem?_append_left hlt] at hx
      exact (h.sums k x hk hx).append _
    · rw [List.getElem?_append_right hge] at hx
      have hlt := (List.getElem?_eq_some_iff.mp hx).1
      rw [(mergePass_length nodes.length work).2] at hlt
      obtain ⟨p, hp, q, hq, -, hmade⟩ := mergePass_made (k := nodes.length) hlt
      obtain rfl := Option.some.inj (hx.symm.trans hmade)
      obtain ⟨y, hy, hyw⟩ := h.listed p hp
      obtain ⟨z, hz, hzw⟩ := h.listed q hq
      exact ⟨p.1, q.1, y, z, by rw [hyw, hzw], getElem?_append_of_some hy _, getElem?_append_of_some hz _⟩

/-- Every node behind the leaves is the sum of its children. -/
theorem buildArena_sums {freq : Table Word64} {k : Nat} {n : Node} (hk : freq.length ≤ k)
    (h : (buildArena freq).1[k]? = some n) : IsSum (buildArena freq).1 n := by
  obtain ⟨work, hw, -, -⟩ := buildArena_induct (Weighed freq.length) (.leaves freq) fun _ _ _ => Weighed.pass
  exact hw.sums k n hk h

/-- The arena begins with the leaves. -/
theorem buildArena_take (freq : Table Word64) : (buildArena freq).1.take freq.length = leafNodes freq :=
  List.take_left' (leafNodes_length freq)

/-- The leaves of a table are in strictly ascending order of (weight, Symbol): no Symbol has two. -/
theorem orderLeaves_strict {freq : Table Word64} (ht : TableOrdered freq) :
    (orderLeaves freq).Pairwise fun p q => p.2.toNat < q.2.toNat ∨ p.2 = q.2 ∧ p.1.toNat < q.1.toNat := by
  have hne : (orderLeaves freq).Pairwise fun p q => p.1.toNat ≠ q.1.toNat :=
    ((orderLeaves_perm freq).pairwise_iff fun h => Ne.symm h).mpr (ht.imp fun h => Nat.ne_of_lt h)
  refine ((orderLeaves_sorted freq).and hne).imp fun {p q} ⟨hle, hpq⟩ => ?_
  simp only [leafBefore, Bool.or_eq_true, Bool.and_eq_true, decide_eq_true_eq] at hle
  exact hle.imp_right fun ⟨hw, hs⟩ => ⟨BitVec.eq_of_toNat_eq hw, lt_of_le_of_ne hs hpq⟩

/-- Settles O24. -/
theorem treeOfATable : Obligations.TreeOfATable := by
  intro freq ht
  obtain ⟨hnone, hsome⟩ := buildArena_size freq
  refine ⟨hnone, hsome, ⟨orderLeaves freq, orderLeaves_perm freq, orderLeaves_strict ht, buildArena_take freq⟩, ?_⟩
  intro k hk hlt
  have hnode := List.getElem?_eq_getElem hlt
  obtain ⟨c0, c1, x, y, hn, hx, hy⟩ := buildArena_sums hk hnode
  rw [hn] at hnode
  obtain ⟨h0, h1⟩ := (buildArena_ordered freq).children hnode
  exact ⟨c0, c1, x, y, hnode, h0, h1, hx, hy⟩

end Sys2Proof.Machine
end

section
/-!
PROOF. The leaves of a tree from left to right with their paths (`42_huffman.md` R147, R148). A pass joins the leaves of
two neighbours and so keeps their order: the leaves below the root are those of the table, each Symbol once, and no
deeper than the passes are many.
-/

namespace Sys2Proof.Machine

/-! ## The leaves below a node -/

/-- The leaves of a tree from left to right, each with the path to it. -/
abbrev Leaves := List (List Bool × Symbol)

/-- The leaves of a node whose children have these. -/
def Leaves.join (zeros ones : Leaves) : Leaves :=
  zeros.map (fun q => (false :: q.1, q.2)) ++ ones.map fun q => (true :: q.1, q.2)

/-- The leaves below node `k`. -/
inductive Spans (nodes : List Node) : Nat → Leaves → Prop where
  | leaf {k : Nat} {x : Symbol} {w : Word64} (h : nodes[k]? = some (.leaf x w)) : Spans nodes k [([], x)]
  | internal {k c0 c1 : Nat} {w : Word64} {zeros ones : Leaves} (h : nodes[k]? = some (.internal c0 c1 w))
      (zero : Spans nodes c0 zeros) (one : Spans nodes c1 ones) : Spans nodes k (zeros.join ones)

theorem Spans.append {nodes : List Node} {k : Nat} {ls : Leaves} (h : Spans nodes k ls) (made : List Node) :
    Spans (nodes ++ made) k ls := by
  induction h with
  | leaf h => exact .leaf (getElem?_append_of_some h made)
  | internal h _ _ zero one => exact .internal (getElem?_append_of_some h made) zero one

/-- The leaves listed are the leaves there are. -/
theorem Spans.mem_iff {nodes : List Node} {k : Nat} {ls : Leaves} (h : Spans nodes k ls) {path : List Bool}
    {x : Symbol} : (path, x) ∈ ls ↔ LeafAt nodes k path x := by
  induction h generalizing path with
  | leaf h =>
    constructor
    · intro hm
      obtain ⟨rfl, rfl⟩ := Prod.mk.inj (List.mem_singleton.mp hm)
      exact .leaf h
    · rintro (h' | ⟨h', -⟩ | ⟨h', -⟩) <;> cases h.symm.trans h'
      exact List.mem_singleton.mpr rfl
  | internal h _ _ zero one =>
    simp only [Leaves.join, List.mem_append, List.mem_map, Prod.mk.injEq, Prod.exists]
    constructor
    · rintro (⟨p, y, hm, rfl, rfl⟩ | ⟨p, y, hm, rfl, rfl⟩)
      · exact .zero h (zero.mp hm)
      · exact .one h (one.mp hm)
    · rintro (h' | ⟨h', below⟩ | ⟨h', below⟩) <;> cases h.symm.trans h'
      · exact .inl ⟨_, _, zero.mpr below, rfl, rfl⟩
      · exact .inr ⟨_, _, one.mpr below, rfl, rfl⟩

@[simp] theorem Leaves.join_symbols (zeros ones : Leaves) :
    (zeros.join ones).map Prod.snd = zeros.map Prod.snd ++ ones.map Prod.snd := by
  rw [join, List.map_append, List.map_map, List.map_map]
  rfl

/-- Below a node leaves are one deeper than below its children. -/
theorem Leaves.mem_join {zeros ones : Leaves} {q : List Bool × Symbol} (h : q ∈ zeros.join ones) :
    ∃ r, (r ∈ zeros ∨ r ∈ ones) ∧ q.1.length = r.1.length + 1 := by
  rcases List.mem_append.mp h with h | h
  all_goals obtain ⟨r, hr, rfl⟩ := List.mem_map.mp h
  · exact ⟨r, .inl hr, rfl⟩
  · exact ⟨r, .inr hr, rfl⟩

/-! ## The leaves after a pass -/

/-- The leaves of the side list of a pass over trees with these leaves. -/
def joinPairs : List Leaves → List Leaves
  | zeros :: ones :: rest => zeros.join ones :: joinPairs rest
  | odd => odd

theorem joinPairs_symbols (ts : List Leaves) : (joinPairs ts).flatten.map Prod.snd = ts.flatten.map Prod.snd := by
  fun_induction joinPairs ts with
  | case1 zeros ones rest ih => simp [ih]
  | case2 => rfl

/-- A leaf after a pass is one deeper than before, or a leaf of the odd last tree. -/
theorem mem_joinPairs {ts : List Leaves} {q : List Bool × Symbol} (h : q ∈ (joinPairs ts).flatten) :
    ∃ r ∈ ts.flatten, q.1.length = r.1.length + 1 ∨ q = r ∧ ts.length % 2 = 1 := by
  fun_induction joinPairs ts with
  | case1 zeros ones rest ih =>
    rw [List.flatten_cons, List.mem_append] at h
    rcases h with h | h
    · obtain ⟨r, hr, hlen⟩ := Leaves.mem_join h
      exact ⟨r, by simpa [← or_assoc] using .inl hr, .inl hlen⟩
    · obtain ⟨r, hr, hlen⟩ := ih h
      exact ⟨r, by simp [hr], hlen.imp_right fun ⟨e, hodd⟩ => ⟨e, by rw [List.length_cons, List.length_cons]; omega⟩⟩
  | case2 ts hts =>
    match ts, hts with
    | [], _ => simp at h
    | [_], _ => exact ⟨q, h, .inr ⟨rfl, rfl⟩⟩
    | zeros :: ones :: rest, hts => exact absurd rfl (hts zeros ones rest)

/-- A pass joins the leaves of neighbours. -/
theorem mergePass_spans {arena : List Node} {k : Nat} {work : List (Nat × Word64)} {ts : List Leaves}
    (hmade : (mergePass k work).2 <+: arena.drop k) (h : List.Forall₂ (fun p ls => Spans arena p.1 ls) work ts) :
    List.Forall₂ (fun p ls => Spans arena p.1 ls) (mergePass k work).1 (joinPairs ts) := by
  fun_induction mergePass k work generalizing ts
  case case1 k x wx y wy rest r ih =>
    obtain ⟨made, hmade⟩ := hmade
    have hk : arena[k]? = some (.internal x y (wx + wy)) := by rw [← List.head?_drop, ← hmade]; rfl
    have hrest : r.2 <+: arena.drop (k + 1) := ⟨made, by rw [← List.drop_drop, ← hmade]; rfl⟩
    match ts, h with
    | zeros :: ones :: ts, .cons zero (.cons one h) => exact .cons (.internal hk zero one) (ih hrest h)
  case case2 one =>
    match ts, h with
    | [_], .cons h .nil => exact .cons h .nil
  case case3 =>
    cases h
    exact .nil

/-! ## The leaves of the arena -/

/-- After `d` passes of at most `p`: the trees of the working list have the leaves of the table, in their order and at
most `d` deep; with 2^p leaves every pass pairs all nodes, and all leaves are `d` deep. -/
structure Spanned (freq : Table Word64) (d e : Nat) (ts : List Leaves) (nodes : List Node)
    (work : List (Nat × Word64)) : Prop where
  spans : List.Forall₂ (fun p ls => Spans nodes p.1 ls) work ts
  symbols : ts.flatten.map Prod.snd = (orderLeaves freq).map Prod.fst
  few : work.length ≤ 2 ^ e
  shallow : ∀ q ∈ ts.flatten, q.1.length ≤ d
  full : freq.length = 2 ^ (d + e) → work.length = 2 ^ e ∧ ∀ q ∈ ts.flatten, q.1.length = d

/-- The leaves of the trees of the first working list: each tree is a leaf. -/
def leafSpans (freq : Table Word64) : List Leaves := (orderLeaves freq).map fun q => [([], q.1)]

theorem leafSpans_flatten (freq : Table Word64) :
    (leafSpans freq).flatten = (orderLeaves freq).map fun q => ([], q.1) := by
  rw [leafSpans, ← List.flatMap_def, List.map_eq_flatMap]

theorem leafSpans_depth {freq : Table Word64} {q : List Bool × Symbol} (h : q ∈ (leafSpans freq).flatten) :
    q.1.length = 0 := by
  rw [leafSpans_flatten] at h
  obtain ⟨_, -, rfl⟩ := List.mem_map.mp h
  rfl

theorem Spanned.leaves {freq : Table Word64} {p : Nat} (hp : freq.length ≤ 2 ^ p) :
    Spanned freq 0 p (leafSpans freq) (leafNodes freq) (leafWork freq) where
  spans := by
    refine List.forall₂_iff_get.mpr ⟨by simp [leafWork, leafSpans], fun i h _ => ?_⟩
    have hi : i < (orderLeaves freq).length := by simpa [leafWork] using h
    simpa [leafWork, leafSpans] using Spans.leaf (w := (orderLeaves freq)[i].2) (by simp [leafNodes, hi])
  symbols := by rw [leafSpans_flatten, List.map_map]; rfl
  few := by rwa [leafWork_length]
  shallow q hq := (leafSpans_depth hq).le
  full h := ⟨by rwa [leafWork_length, ← Nat.zero_add p], fun _ => leafSpans_depth⟩

theorem Spanned.pass {freq : Table Word64} {d e : Nat} {ts : List Leaves} {nodes : List Node}
    {work : List (Nat × Word64)} (h : Spanned freq d (e + 1) ts nodes work) :
    Spanned freq (d + 1) e (joinPairs ts) (nodes ++ (mergePass nodes.length work).2)
      (mergePass nodes.length work).1 where
  spans := mergePass_spans (by rw [List.drop_left]) (h.spans.imp fun _ _ hs => hs.append _)
  symbols := by rw [joinPairs_symbols, h.symbols]
  few := by
    have := h.few
    rw [(mergePass_length _ _).1]
    omega
  shallow q hq := by
    obtain ⟨r, hr, hlen | ⟨rfl, -⟩⟩ := mem_joinPairs hq
    · have := h.shallow r hr
      omega
    · exact (h.shallow q hr).trans (Nat.le_succ d)
  full hfull := by
    obtain ⟨hwork, hdepth⟩ := h.full (by rw [hfull, Nat.add_right_comm, Nat.add_assoc])
    refine ⟨by rw [(mergePass_length _ _).1]; omega, fun q hq => ?_⟩
    obtain ⟨r, hr, hlen | ⟨-, hodd⟩⟩ := mem_joinPairs hq
    · rw [hlen, hdepth r hr]
    · rw [← h.spans.length_eq] at hodd
      omega

/-- The leaves below the root are those of the table, in their order; with at most 2^p entries they are at most `p`
deep, with 2^p exactly `p`. -/
theorem buildArena_spans {freq : Table Word64} {root : Nat} (hroot : (buildArena freq).2 = some root) {p : Nat}
    (hp : freq.length ≤ 2 ^ p) :
    ∃ ls, Spans (buildArena freq).1 root ls ∧ ls.map Prod.snd = (orderLeaves freq).map Prod.fst ∧
      (∀ q ∈ ls, q.1.length ≤ p) ∧ (freq.length = 2 ^ p → ∀ q ∈ ls, q.1.length = p) := by
  obtain ⟨work, ⟨d, e, ts, rfl, h⟩, hle, hwork⟩ := buildArena_induct (freq := freq)
    (fun nodes work => ∃ d e ts, d + e = p ∧ Spanned freq d e ts nodes work)
    ⟨0, p, _, Nat.zero_add p, .leaves hp⟩ (by
      rintro nodes work h2 ⟨d, _ | e, ts, rfl, h⟩
      · exact absurd h.few (by omega)
      · exact ⟨d + 1, e, _, by omega, h.pass⟩)
  obtain ⟨q, hq, rfl⟩ := Option.map_eq_some_iff.mp (hwork.symm.trans hroot)
  obtain ⟨spans, symbols, -, shallow, full⟩ := h
  match work, ts, spans, hle with
  | [r], [ls], .cons hs .nil, _ =>
    obtain rfl := Option.some.inj hq
    simp only [List.flatten_cons, List.flatten_nil, List.append_nil] at symbols shallow full
    refine ⟨ls, hs, symbols, fun q hq => (shallow q hq).trans (Nat.le_add_right d e), fun hfull q hq => ?_⟩
    obtain ⟨hone, hdepth⟩ := full hfull
    obtain rfl : e = 0 := (Nat.pow_eq_one.mp hone.symm).resolve_left (by decide)
    exact hdepth q hq

/-- Settles O26. -/
theorem leavesAreAsDeepAsThePasses : Obligations.LeavesAreAsDeepAsThePasses := by
  intro freq root path x hroot hleaf
  refine ⟨fun p hp => ?_, fun p hp => ?_⟩
  · obtain ⟨ls, hs, -, hle, -⟩ := buildArena_spans hroot hp
    exact hle _ (hs.mem_iff.mpr hleaf)
  · obtain ⟨ls, hs, -, -, heq⟩ := buildArena_spans hroot hp.le
    exact heq hp _ (hs.mem_iff.mpr hleaf)

end Sys2Proof.Machine
end

section
/-!
PROOF. The code table (`42_huffman.md` R148, R151): a walk enters the leaves below its node from left to right, so the
code table of a tree has for each Symbol of its table the path to the Symbol's leaf.
-/

namespace Sys2Proof.Machine

/-! ## Tables -/

/-- Entries written one after another. -/
def Table.setAll {α : Type} (t : Table α) (es : List (Symbol × α)) : Table α :=
  es.foldl (fun t e => Table.set t e.1 e.2) t

theorem Table.setAll_append {α : Type} (t : Table α) (es fs : List (Symbol × α)) :
    Table.setAll t (es ++ fs) = Table.setAll (Table.setAll t es) fs := List.foldl_append

/-- Where no Symbol is written twice, every entry written is read again. -/
theorem Table.get_setAll {α : Type} {t : Table α} {es : List (Symbol × α)} (h : (es.map Prod.fst).Nodup) {x : Symbol}
    {a : α} : Table.get (Table.setAll t es) x = some a ↔ (x, a) ∈ es ∨ x ∉ es.map Prod.fst ∧ Table.get t x = some a := by
  induction es generalizing t with
  | nil => simp [setAll]
  | cons e es ih =>
    obtain ⟨y, b⟩ := e
    obtain ⟨hy, hes⟩ := List.nodup_cons.mp h
    refine (ih hes (t := Table.set t y b)).trans ?_
    rw [Table.get_set]
    by_cases hx : x = y
    · subst hx
      have hnot : ∀ c, (x, c) ∉ es := fun c hm => hy (List.mem_map.mpr ⟨(x, c), hm, rfl⟩)
      simp [hnot, eq_comm]
    · simp [hx]

theorem TableOrdered.nodup {α : Type} {t : Table α} (h : TableOrdered t) : (t.map Prod.fst).Nodup :=
  List.pairwise_map.mpr (h.imp fun hlt e => Nat.ne_of_lt hlt (congrArg BitVec.toNat e))

/-- Two ordered tables with entries for the same Symbols list the same Symbols. -/
theorem Table.symbols_eq {α β : Type} {t : Table α} {u : Table β} (ht : TableOrdered t) (hu : TableOrdered u)
    (h : ∀ x, (Table.get t x).isSome ↔ (Table.get u x).isSome) : t.map Prod.fst = u.map Prod.fst := by
  have hperm : (t.map Prod.fst).Perm (u.map Prod.fst) := by
    refine (List.perm_ext_iff_of_nodup ht.nodup hu.nodup).mpr fun x => ?_
    simpa only [Table.get_isSome, List.mem_map] using h x
  exact hperm.eq_of_pairwise (le := fun x y : Symbol => x.toNat < y.toNat)
    (fun _ _ _ _ hxy hyx => absurd hxy hyx.asymm) (List.pairwise_map.mpr ht) (List.pairwise_map.mpr hu)

/-! ## Walks -/

/-- The bits of a path with one more bit (`42_huffman.md` R148). -/
theorem pathEntry_bits_append (path : List Bool) (b : Bool) :
    (pathEntry (path ++ [b])).bits = ((pathEntry path).bits <<< 1) ||| (BitVec.ofBool b).zeroExtend 8 := by
  rw [shift_or_bit]
  refine BitVec.eq_of_toNat_eq ?_
  simp only [pathEntry, bitsValue_append_singleton, BitVec.toNat_ofNat]
  omega

/-- The entries of leaves below the end of a path. -/
def codeEntries (path : List Bool) (ls : Leaves) : List (Symbol × CodeEntry) :=
  ls.map fun q => (q.2, pathEntry (path ++ q.1))

theorem codeEntries_join (path : List Bool) (zeros ones : Leaves) :
    codeEntries path (zeros.join ones) = codeEntries (path ++ [false]) zeros ++ codeEntries (path ++ [true]) ones := by
  simp only [codeEntries, Leaves.join, List.map_append, List.map_map, List.append_assoc]
  rfl

theorem codeEntries_symbols (path : List Bool) (ls : Leaves) :
    (codeEntries path ls).map Prod.fst = ls.map Prod.snd := by
  simp [codeEntries]

/-- A walk from the end of a path enters the leaves below it. -/
theorem walk_spans {nodes : List Node} (ho : ArenaOrdered nodes) {k : Nat} {ls : Leaves} (hs : Spans nodes k ls)
    {fuel : Nat} (hf : k < fuel) (path : List Bool) (t : Table CodeEntry) :
    walk nodes fuel k (pathEntry path).bits path.length t = some (Table.setAll t (codeEntries path ls)) := by
  induction hs generalizing fuel path t with
  | leaf h =>
    obtain ⟨fuel, rfl⟩ := Nat.exists_eq_add_one_of_ne_zero (Nat.ne_zero_of_lt hf)
    simp [walk, h, codeEntries, Table.setAll, pathEntry]
  | @internal k c0 c1 w zeros ones h _ _ zero one =>
    obtain ⟨fuel, rfl⟩ := Nat.exists_eq_add_one_of_ne_zero (Nat.ne_zero_of_lt hf)
    obtain ⟨h0, h1⟩ := ho.children h
    have hzero : walk nodes fuel c0 ((pathEntry path).bits <<< 1) (path.length + 1) t =
        some (Table.setAll t (codeEntries (path ++ [false]) zeros)) := by
      simpa [pathEntry_bits_append] using zero (fuel := fuel) (by omega) (path ++ [false]) t
    have hone : ∀ t, walk nodes fuel c1 ((pathEntry path).bits <<< 1 ||| 1) (path.length + 1) t =
        some (Table.setAll t (codeEntries (path ++ [true]) ones)) := fun t => by
      simpa [pathEntry_bits_append] using one (fuel := fuel) (by omega) (path ++ [true]) t
    simp only [walk, h, hzero, Option.bind_some, hone, codeEntries_join, Table.setAll_append]

/-- The code table of a tree enters its leaves with their paths. -/
theorem codeTable_spans {nodes : List Node} (ho : ArenaOrdered nodes) {root : Nat} {ls : Leaves}
    (hs : Spans nodes root ls) : codeTable nodes (some root) = some (Table.setAll [] (codeEntries [] ls)) :=
  walk_spans ho hs (Nat.lt_succ_self root) [] []

/-! ## The code table of a frequency table -/

theorem codeTable_eq_codeOf (freq : Table Word64) :
    codeTable (buildArena freq).1 (buildArena freq).2 = some (codeOf freq) := by
  obtain ⟨t, ht⟩ := codeTable_buildArena freq
  rw [codeOf, ht, Option.getD_some]

/-- A path from the root of the tree of a frequency table to a leaf. -/
abbrev PathTo (freq : Table Word64) (path : List Bool) (x : Symbol) : Prop :=
  ∃ root, (buildArena freq).2 = some root ∧ LeafAt (buildArena freq).1 root path x

/-- The code table of a frequency table enters the leaves of its tree: one for each Symbol. -/
theorem codeOf_leaves (freq : Table Word64) : ∃ ls : Leaves,
    codeOf freq = Table.setAll [] (codeEntries [] ls) ∧ (ls.map Prod.snd).Perm (freq.map Prod.fst) ∧
    ∀ path x, (path, x) ∈ ls ↔ PathTo freq path x := by
  have hcode := codeTable_eq_codeOf freq
  cases hroot : (buildArena freq).2 with
  | none =>
    have hnil : freq = [] := by
      refine List.length_eq_zero_iff.mp (Nat.eq_zero_of_not_pos fun h => ?_)
      cases hroot.symm.trans ((buildArena_size freq).2 h).2
    rw [hroot] at hcode
    refine ⟨[], (Option.some.inj hcode).symm, by rw [hnil]; rfl, fun path x => ?_⟩
    simp [PathTo, hroot]
  | some root =>
    obtain ⟨ls, hs, hsymbols, -, -⟩ := buildArena_spans hroot (p := freq.length) Nat.lt_two_pow_self.le
    rw [hroot, codeTable_spans (buildArena_ordered freq) hs] at hcode
    refine ⟨ls, (Option.some.inj hcode).symm, ?_, fun path x => ?_⟩
    · rw [hsymbols]
      exact (orderLeaves_perm freq).map _
    · simp [PathTo, hroot, hs.mem_iff]

/-- A Symbol's code is the path to its leaf. -/
theorem get_codeOf {freq : Table Word64} (ht : TableOrdered freq) {x : Symbol} {e : CodeEntry} :
    Table.get (codeOf freq) x = some e ↔ ∃ path, PathTo freq path x ∧ e = pathEntry path := by
  obtain ⟨ls, hcode, hsymbols, hleaves⟩ := codeOf_leaves freq
  have hnodup : ((codeEntries [] ls).map Prod.fst).Nodup := by
    rw [codeEntries_symbols]
    exact hsymbols.nodup_iff.mpr ht.nodup
  rw [hcode, Table.get_setAll hnodup]
  simp [codeEntries, Table.get, ← hleaves, eq_comm]

/-- The tree of a table has leaves for exactly its Symbols. -/
theorem exists_pathTo (freq : Table Word64) (x : Symbol) : (∃ path, PathTo freq path x) ↔ (Table.get freq x).isSome := by
  obtain ⟨ls, -, hsymbols, hleaves⟩ := codeOf_leaves freq
  rw [Table.get_isSome, ← List.mem_map, ← hsymbols.mem_iff]
  simp [← hleaves]

/-- Exactly the Symbols of a table have codes. -/
theorem get_codeOf_isSome {freq : Table Word64} (ht : TableOrdered freq) (x : Symbol) :
    (Table.get (codeOf freq) x).isSome ↔ (Table.get freq x).isSome := by
  rw [← exists_pathTo, Option.isSome_iff_exists]
  simp only [get_codeOf ht]
  exact ⟨fun ⟨_, path, h, _⟩ => ⟨path, h⟩, fun ⟨path, h⟩ => ⟨_, path, h, rfl⟩⟩

theorem codeOf_symbols {freq : Table Word64} (ht : TableOrdered freq) :
    (codeOf freq).map Prod.fst = freq.map Prod.fst :=
  Table.symbols_eq (codeTable_ordered (codeTable_eq_codeOf freq)) ht (get_codeOf_isSome ht)

/-! ## The command -/

/-- In a running core `HF.TRAV` of a slot in range: refused, or `Traverse`. -/
theorem exec_hfTrav {s : State} (hr : Running s) {a : Byte} {L : LayerNo} (ha : a.toNat = L.num) :
    exec (.hfTrav a) s = (if (s.layer L).treeValid = false then refuse .noTree s
      else (traverse L s).andThen fun _ s => okWith (s.layer L).code.length s).finish := by
  rw [exec, execHfTrav, gated_running hr, withLayerIndex_num ha]

/-- Settles O27: `Traverse` makes the code table of the frequency table. -/
theorem traverseDerivesThePathCodes : Obligations.TraverseDerivesThePathCodes := by
  intro s a L hr ha
  rw [exec_hfTrav hr ha]
  refine ⟨fun hv => ?_, fun hv ht harena => ?_⟩
  · rw [State.layer, if_pos hv]
    rfl
  · have hnodes : (s.layers.get L).nodes = (buildArena (s.layers.get L).freq).1 := congrArg Prod.fst harena
    have hroot : (s.layers.get L).root = (buildArena (s.layers.get L).freq).2 := congrArg Prod.snd harena
    have hcode : codeTable (s.layer L).nodes (s.layer L).root = some (codeOf (s.layers.get L).freq) := by
      rw [State.layer, hnodes, hroot]
      exact codeTable_eq_codeOf _
    have hsymbols := codeOf_symbols ht
    have hlength : (codeOf (s.layers.get L).freq).length = (s.layers.get L).freq.length := by
      simpa using congrArg List.length hsymbols
    obtain ⟨code, hcode', htraverse⟩ := (traverse_cases L s).resolve_right fun h => by simp [hcode] at h
    obtain rfl := Option.some.inj (hcode.symm.trans hcode')
    refine ⟨codeOf (s.layers.get L).freq, ?_, hsymbols, fun x e => ?_⟩
    · rw [State.layer, if_neg (by simp [hv]), ← State.layer, htraverse, Res.andThen_ok,
        State.layer_setLayer_same, Layer.withCode_code, hlength]
      rfl
    · rw [get_codeOf ht, hnodes, hroot]
      exact ⟨fun ⟨path, ⟨root, hr, hleaf⟩, he⟩ => ⟨root, path, hr, hleaf, he⟩,
        fun ⟨root, path, hr, hleaf, he⟩ => ⟨path, ⟨root, hr, hleaf⟩, he⟩⟩

end Sys2Proof.Machine
end

section
/-!
PROOF. What the Huffman codes are for (`42_huffman.md` R152 to R157): a code spells the path to its Symbol's leaf, so no
code begins another and decoding undoes encoding; the commands that write a code and report it; the layer of one
Symbol, whose code is empty.
-/

namespace Sys2Proof.Machine

/-! ## Codes are paths -/

/-- As many bits that spell the same number are the same bits. -/
theorem bitsValue_inj {bs cs : List Bool} (hl : bs.length = cs.length) (h : bitsValue bs = bitsValue cs) : bs = cs := by
  induction bs generalizing cs with
  | nil => exact (List.length_eq_zero_iff.mp hl.symm).symm
  | cons b bs ih =>
    cases cs with
    | nil => simp at hl
    | cons c cs =>
      have hl' : bs.length = cs.length := Nat.succ.inj hl
      have hb := bitsValue_lt bs
      have hc := bitsValue_lt cs
      rw [bitsValue_cons, bitsValue_cons, hl'] at h
      rw [hl'] at hb
      have hrest : bitsValue bs = bitsValue cs :=
        (Nat.mul_add_mod_of_lt hb).symm.trans ((congrArg (· % 2 ^ cs.length) h).trans (Nat.mul_add_mod_of_lt hc))
      have hfirst : b.toNat = c.toNat :=
        Nat.eq_of_mul_eq_mul_right (Nat.two_pow_pos _) (Nat.add_right_cancel (hrest ▸ h))
      have hbool : ∀ b c : Bool, b.toNat = c.toNat → b = c := by decide
      rw [hbool b c hfirst, ih hl' hrest]

/-- The bits of the entry of a path that fits a byte are the path. -/
theorem entryBits_pathEntry {path : List Bool} (h : path.length ≤ 8) : entryBits (pathEntry path) = path := by
  refine bitsValue_inj (lowBits_length ..) ?_
  have hlt := bitsValue_lt path
  have hle : 2 ^ path.length ≤ 2 ^ 8 := Nat.pow_le_pow_right (by decide) h
  rw [entryBits, bitsValue_lowBits]
  simp only [pathEntry, BitVec.toNat_ofNat]
  rw [Nat.mod_eq_of_lt (hlt.trans_le hle), Nat.mod_eq_of_lt hlt]

/-- A path in the tree of a table of Symbols fits a byte (`42_huffman.md` R147). -/
theorem PathTo.length_le {freq : Table Word64} (ht : TableOrdered freq) {path : List Bool} {x : Symbol}
    (h : PathTo freq path x) : path.length ≤ 8 := by
  obtain ⟨root, hroot, hleaf⟩ := h
  exact (leavesAreAsDeepAsThePasses freq root path x hroot hleaf).1 8 (Table.length_le ht)

/-- A Symbol's code is the path to its leaf, bit by bit. -/
theorem pathTo_of_get_codeOf {freq : Table Word64} (ht : TableOrdered freq) {x : Symbol} {e : CodeEntry}
    (h : Table.get (codeOf freq) x = some e) : PathTo freq (entryBits e) x := by
  obtain ⟨path, hpath, rfl⟩ := (get_codeOf ht).mp h
  rwa [entryBits_pathEntry (hpath.length_le ht)]

@[simp] theorem entryBits_length (e : CodeEntry) : (entryBits e).length = e.len := lowBits_length ..

/-- No path to a leaf goes on to another leaf. -/
theorem LeafAt.eq_of_prefix {nodes : List Node} {k : Nat} {p q : List Bool} {x y : Symbol} (hx : LeafAt nodes k p x)
    (hy : LeafAt nodes k q y) (h : p <+: q) : x = y := by
  induction hx generalizing q with
  | leaf hk => rcases hy with hk' | ⟨hk', -⟩ | ⟨hk', -⟩ <;> cases hk.symm.trans hk'; rfl
  | zero hk _ ih | one hk _ ih =>
    obtain ⟨q, rfl, hprefix⟩ := List.cons_prefix_iff.mp h
    obtain ⟨c0, c1, w, hk', below⟩ := hy.child
    cases hk.symm.trans hk'
    exact ih below hprefix

theorem PathTo.eq_of_prefix {freq : Table Word64} {p q : List Bool} {x y : Symbol} (hx : PathTo freq p x)
    (hy : PathTo freq q y) (h : p <+: q) : x = y := by
  obtain ⟨root, hroot, hx⟩ := hx
  obtain ⟨root', hroot', hy⟩ := hy
  cases hroot.symm.trans hroot'
  exact hx.eq_of_prefix hy h

/-! ## Coded lengths -/

/-- A sum over a list, Symbol by Symbol of a table that lists them all. -/
theorem sum_map_eq_sum_count {α : Type} {t : Table α} (ht : TableOrdered t) (f : Symbol → Nat) {seq : List Symbol}
    (h : ∀ x ∈ seq, (Table.get t x).isSome) :
    (seq.map f).sum = (t.map fun p => f p.1 * seq.count p.1).sum := by
  have hsub : seq.toFinset ⊆ (t.map Prod.fst).toFinset := fun x hx => by
    rw [List.mem_toFinset] at hx ⊢
    exact List.mem_map.mpr (Table.get_isSome.mp (h x hx))
  calc (seq.map f).sum
      = ∑ x ∈ seq.toFinset, f x * seq.count x := by
        simp only [Finset.sum_list_map_count, smul_eq_mul, Nat.mul_comm]
    _ = ∑ x ∈ (t.map Prod.fst).toFinset, f x * seq.count x :=
        Finset.sum_subset hsub fun x _ hx => by
          rw [List.count_eq_zero_of_not_mem (by simpa using hx), Nat.mul_zero]
    _ = (t.map fun p => f p.1 * seq.count p.1).sum := by
        rw [List.sum_toFinset _ ht.nodup, List.map_map]
        rfl

theorem codedSymbols_length (code : Table CodeEntry) (seq : List Symbol) :
    (codedSymbols code seq).length = (seq.map fun x => ((Table.get code x).map CodeEntry.len).getD 0).sum := by
  rw [codedSymbols, List.length_flatMap]
  refine congrArg List.sum (List.map_congr_left fun x _ => ?_)
  cases Table.get code x with
  | none => rfl
  | some e => exact entryBits_length e

/-- Settles O31: codes are the paths of the tree, and the decoder follows paths. -/
theorem huffmanDecodesWhatItEncodes : Obligations.HuffmanDecodesWhatItEncodes := by
  rintro freq ly ht rfl
  refine ⟨get_codeOf_isSome ht, fun x y ex ey hx hy => ?_, fun s a L x e rest hr ha hv hnodes hroot hx hs => ?_,
    fun seq hseq => ?_⟩
  · exact (pathTo_of_get_codeOf ht hx).eq_of_prefix (pathTo_of_get_codeOf ht hy)
  · obtain ⟨root, hroot', hleaf⟩ := pathTo_of_get_codeOf ht hx
    have ho : ArenaOrdered (s.layers.get L).nodes := hnodes ▸ buildArena_ordered freq
    obtain ⟨-, hdec⟩ := decodeFollowsTheBits s a L hr ha
    obtain ⟨hdec, -⟩ := hdec root (entryBits e) x hv (hroot.trans hroot') ho (hnodes ▸ hleaf)
    simpa only [entryBits_length] using hdec rest hs
  · rw [codedSymbols_length, sum_map_eq_sum_count ht _ hseq]

/-! ## The commands -/

theorem exec_hfEnc {s : State} (hr : Running s) {a : Byte} {L : LayerNo} (ha : a.toNat = L.num) (b : Byte) :
    exec (.hfEnc a b) s = ((encodeOne L b s).andThen fun n s => okWith n s).finish := by
  rw [exec, execHfEnc, gated_running hr, withLayerIndex_num ha]

/-- Settles O29: the checks of `EncodeOne`, and what `WriteBits` does with a code. -/
theorem encodeWritesTheCode : Obligations.EncodeWritesTheCode := by
  intro s a b L hr ha
  rw [exec_hfEnc hr ha]
  rcases encodeOne_cases L b s with ⟨hno, henc⟩ | ⟨e, hv, hx, henc⟩
  · rw [henc]
    exact ⟨fun _ => rfl, fun e hv hx => absurd hno (by simp [State.layer, hv, hx])⟩
  · refine ⟨fun hno => absurd hno (by rw [State.layer] at hv hx; simp [hv, hx]), fun e' _ hx' hlen => ?_⟩
    obtain rfl := Option.some.inj (hx.symm.trans hx')
    rw [henc]
    rcases writeBits_cases e.bits e.len s with ⟨hl, -⟩ | ⟨-, ho, hw⟩ | ⟨-, ho, hw⟩
    · omega
    · rw [hw]
      exact ⟨fun _ => rfl, fun h => absurd (h.symm.trans ho) (by decide)⟩
    · obtain ⟨acc, fill, snk, hput, hbits, -, -⟩ := putBits_spec e.bits e.len s
      rw [hw, hput]
      exact ⟨fun h => absurd (h.symm.trans ho) (by decide), fun _ => ⟨acc, fill, snk, rfl, hbits⟩⟩

/-- The value `HF.CODE` reports for an entry, field by field (`42_huffman.md` R154). -/
theorem codeValue_some {e : CodeEntry} (h : e.len ≤ 8) :
    codeValue (some e) = BitVec.ofNat 64 (e.bits.toNat + 256 * e.len + 4096) := by
  have hhead : ((1 : BitVec 1) ++ BitVec.ofNat 4 e.len).toNat = 16 + e.len := toNat_append_ofNat 1 (by omega)
  have hbits := toNat_append_ofNat ((1 : BitVec 1) ++ BitVec.ofNat 4 e.len) e.bits.isLt
  rw [BitVec.ofNat_toNat, BitVec.setWidth_eq, hhead] at hbits
  refine BitVec.eq_of_toNat_eq ?_
  rw [codeValue, BitVec.zeroExtend, BitVec.toNat_setWidth, hbits, BitVec.toNat_ofNat]
  congr 1
  omega

theorem exec_hfCode {s : State} (hr : Running s) {a : Byte} {L : LayerNo} (ha : a.toNat = L.num) (b : Byte) :
    exec (.hfCode a b) s = (if (s.layer L).codeValid = false then refuse .noCode s
      else .ok ⟨.ok, codeValue (Table.get (s.layer L).code b)⟩ s).finish := by
  rw [exec, execHfCode, gated_running hr, withLayerIndex_num ha]

/-- Settles O30: the three cases of the code table. -/
theorem codeTableIsRead : Obligations.CodeTableIsRead := by
  intro s a b L hr ha
  rw [exec_hfCode hr ha, State.layer]
  refine ⟨fun hv => ?_, fun hv hx => ?_, fun e hv hx hlen => ?_⟩
  · rw [if_pos hv]
    rfl
  · rw [if_neg (by simp [hv]), hx]
    rfl
  · rw [if_neg (by simp [hv]), hx, codeValue_some hlen]
    rfl

/-- The tree of one entry is its leaf (`42_huffman.md` R144, R157). -/
theorem buildArena_singleton (x : Symbol) (n : Word64) : buildArena [(x, n)] = ([.leaf x n], some 0) := rfl

/-- Settles O32: the descent begins at the leaf, and the walk enters the empty path. -/
theorem singleSymbolLayerReadsNothing : Obligations.SingleSymbolLayerReadsNothing := by
  intro s a L x n hr ha hv hnodes hroot
  rw [buildArena_singleton] at hnodes hroot
  have hleaf : LeafAt (s.layer L).nodes 0 [] x := .leaf (by rw [State.layer, hnodes]; rfl)
  refine ⟨?_, by rw [hnodes, hroot]; rfl⟩
  rw [exec_hfDec hr ha, decodeOne_root hv hroot, descend_leaf hleaf, Res.andThen_ok, okWith_eq, Response.okValue,
    BitVec.ofNat_toNat]
  rfl

end Sys2Proof.Machine
end

section
/-!
PROOF. The layer store (`43_layerstore.md` R172 to R181). In a running core each command is its procedure on the slot of
its index; a run of pushes appends its Symbols, as the loop `pushAll` does.
-/

namespace Sys2Proof.Machine

/-! ## The commands in a running core -/

/-- A command with a layer index in range runs on that slot (`30_encoding.md` R81). -/
theorem gated_withLayerIndex_num {s : State} {a : Byte} {L : LayerNo} (hr : Running s) (ha : a.toNat = L.num)
    (body : LayerNo → State → Res Response) : gated (withLayerIndex a body) s = (body L s).finish := by
  rw [gated_running hr, withLayerIndex_num ha]

/-- A value that is a register's content, zero-extended (`30_encoding.md` R73). -/
theorem Response.okValue_toNat {w : Nat} (v : BitVec w) : Response.okValue v.toNat = ⟨.ok, v.zeroExtend 64⟩ := by
  rw [Response.okValue, BitVec.ofNat_toNat]

section Commands
variable {s : State} {a : Byte} {L : LayerNo}

/-- In a running core `LS.CLEAR` empties the slots (`43_layerstore.md` R174). -/
theorem exec_lsClear (hr : Running s) : exec .lsClear s = .next ((clearLayers s).answer ⟨.ok, 0⟩) := by
  rw [exec, execLsClear, gated_running hr]
  rfl

/-- In a running core `LS.REWIND` rewinds the slots (`43_layerstore.md` R177). -/
theorem exec_lsRewind (hr : Running s) : exec .lsRewind s = .next ((rewindAll s).answer ⟨.ok, 0⟩) := by
  rw [exec, execLsRewind, gated_running hr]
  rfl

theorem exec_lsPush (hr : Running s) (ha : a.toNat = L.num) (x : Symbol) : exec (.lsPush a x) s =
    ((push L x s).andThen fun _ t => okWith (t.layer L).seq.length t).finish :=
  gated_withLayerIndex_num hr ha _

theorem exec_lsPop (hr : Running s) (ha : a.toNat = L.num) : exec (.lsPop a) s =
    ((pop L s).andThen fun v t => okWith v.toNat t).finish :=
  gated_withLayerIndex_num hr ha _

theorem exec_lsFreq (hr : Running s) (ha : a.toNat = L.num) (x : Symbol) : exec (.lsFreq a x) s =
    .next (s.answer ⟨.ok, (s.layer L).count x⟩) := by
  have hvalue := Response.okValue_toNat ((s.layer L).count x)
  rw [BitVec.zeroExtend, BitVec.setWidth_eq] at hvalue
  rw [← hvalue]
  exact gated_withLayerIndex_num hr ha _

theorem exec_lsSetf (hr : Running s) (ha : a.toNat = L.num) (x : Symbol) (d : Word32) : exec (.lsSetf a x d) s =
    .next ((s.setLayer L { s.layer L with freq := Table.set (s.layer L).freq x (d.zeroExtend 64) }.invalidate).answer
      ⟨.ok, 0⟩) :=
  gated_withLayerIndex_num hr ha _

theorem exec_lsInfo_some (hr : Running s) (ha : a.toNat = L.num) {b : Byte} {v : Nat}
    (hv : (s.layer L).info b = some v) : exec (.lsInfo a b) s = .next (s.answer (.okValue v)) := by
  rw [exec, execLsInfo, gated_withLayerIndex_num hr ha, hv]
  rfl

theorem exec_lsInfo_none (hr : Running s) (ha : a.toNat = L.num) {b : Byte} (hv : (s.layer L).info b = none) :
    exec (.lsInfo a b) s = .next (s.takeRefusal .badRegister) := by
  rw [exec, execLsInfo, gated_withLayerIndex_num hr ha, hv]
  rfl

end Commands

/-! ## Pushes -/

/-- Settles O34: the two cases of `Push`. -/
theorem pushAppendsAndCounts : Obligations.PushAppendsAndCounts := by
  intro s a x L hr ha
  rw [exec_lsPush hr ha]
  rcases push_cases L x s with ⟨hfull, hpush⟩ | ⟨hroom, hpush⟩
  · rw [hpush]
    exact ⟨fun _ => rfl, fun h => absurd hfull h⟩
  · refine ⟨fun h => absurd h hroom, fun _ => ⟨((s.layer L).pushed x).freq, ?_, (s.layer L).pushed_get x⟩⟩
    rw [hpush, Res.andThen_ok, State.layer_setLayer_same, Layer.pushed_seq, List.length_append]
    rfl

/-- The sequence after pushes, of none as well. -/
theorem Appended.seq_eq {ly ly' : Layer} {xs : List Symbol} (h : Appended ly ly' xs) : ly'.seq = ly.seq ++ xs := by
  obtain ⟨hnone, hsome, -⟩ := h
  by_cases hx : xs = []
  · rw [hnone hx, hx, List.append_nil]
  · rw [hsome hx]

/-- The counts of pushes into an empty slot are the numbers of occurrences (`43_layerstore.md` R173). -/
theorem Appended.get_of_empty {ly : Layer} {xs : List Symbol} (h : Appended .empty ly xs) (y : Symbol) :
    Table.get ly.freq y = if y ∈ xs then some (BitVec.ofNat 64 (xs.count y)) else none := by
  obtain ⟨-, -, hget⟩ := h
  have hcount : Layer.empty.count y = 0#64 := rfl
  rw [hget y, hcount, BitVec.zero_add]
  rfl

/-- `LS.PUSH` one after another, of Symbols that fit, appends them to one slot. -/
theorem execAll_lsPush {s : State} {a : Byte} {L : LayerNo} (hr : Running s) (ha : a.toNat = L.num) (xs : List Symbol)
    (h : (s.layer L).seq.length + xs.length ≤ maxSeqLength) : ∃ t ly,
    execAll (xs.map fun x => .lsPush a x) s = .next t ∧ t.layers = s.layers.set L ly ∧ Appended (s.layer L) ly xs := by
  induction xs generalizing s with
  | nil => exact ⟨s, s.layer L, rfl, (Layers.set_get ..).symm, .nil _⟩
  | cons x xs ih =>
    rw [List.length_cons] at h
    rcases push_cases L x s with ⟨hfull, -⟩ | ⟨-, hpush⟩
    · omega
    · have hexec := exec_lsPush hr ha x
      rw [hpush, Res.andThen_ok, okWith_eq, Res.finish_ok] at hexec
      generalize Response.okValue _ = r at hexec
      have hlayer : ((s.setLayer L ((s.layer L).pushed x)).answer r).layer L = (s.layer L).pushed x :=
        Layers.get_set_same ..
      obtain ⟨t, ly, hrest, hlayers, happended⟩ := ih (s := (s.setLayer L ((s.layer L).pushed x)).answer r) hr (by
        rw [hlayer, Layer.pushed_seq, List.length_append, List.length_singleton]
        omega)
      rw [hlayer] at happended
      refine ⟨t, ly, ?_, ?_, happended.cons⟩
      · rw [List.map_cons, execAll_cons hexec, hrest]
      · rw [hlayers, State.answer_layers, State.setLayer_layers, Layers.set_set]

/-- Settles O38: the pushes append to the slot that `LS.CLEAR` left empty. -/
theorem pushesCountOccurrences : Obligations.PushesCountOccurrences := by
  intro s a L xs hr ha hlen
  have hempty : ((clearLayers s).answer ⟨.ok, 0⟩).layer L = .empty := Layers.get_empty L
  obtain ⟨t, ly, hpushes, hlayers, happended⟩ := execAll_lsPush (s := (clearLayers s).answer ⟨.ok, 0⟩) hr ha xs
    (by rw [hempty]; exact (Nat.zero_add _).trans_le hlen)
  have hly : t.layers.get L = ly := by rw [hlayers, Layers.get_set_same]
  rw [hempty] at happended
  refine ⟨t, ?_, ?_, fun y => ?_, fun L' hL' => ?_⟩
  · rw [execAll_cons (exec_lsClear hr), hpushes]
  · rw [hly, happended.seq_eq]
    rfl
  · rw [hly, happended.get_of_empty]
  · rw [hlayers, Layers.get_set_ne _ _ _ _ hL']
    exact Layers.get_empty L'

/-! ## Slots cleared, rewound, popped and read -/

/-- Settles O33: both commands act on each of the eight slots alike. -/
theorem clearAndRewindTouchEverySlot : Obligations.ClearAndRewindTouchEverySlot := fun _ hr =>
  ⟨⟨_, exec_lsClear hr, Layers.get_empty⟩, ⟨_, exec_lsRewind hr, Layers.get_mapAll _ _⟩⟩

/-- Settles O35: the two cases of `Pop`. -/
theorem popTakesTheHeadOfTheQueue : Obligations.PopTakesTheHeadOfTheQueue := by
  intro s a L hr ha
  rw [exec_lsPop hr ha]
  rcases pop_cases L s with ⟨hempty, hpop⟩ | ⟨v, rest, hhead, hpop⟩
  · rw [hpop]
    exact ⟨fun _ => rfl, fun v rest h => absurd (hempty.symm.trans h) (List.cons_ne_nil v rest).symm⟩
  · refine ⟨fun h => absurd (hhead.symm.trans h) (List.cons_ne_nil v rest), fun w rest' h => ?_⟩
    obtain ⟨rfl, -⟩ := List.cons.inj (hhead.symm.trans h)
    rw [hpop, Res.andThen_ok, okWith_eq, Response.okValue_toNat]
    rfl

/-- Settles O36: a count is written and read back through the table. -/
theorem countsAreSetAndRead : Obligations.CountsAreSetAndRead := fun s _ x d L hr ha =>
  ⟨⟨_, exec_lsSetf hr ha x d, fun y => Table.get_set (s.layers.get L).freq x y _⟩, exec_lsFreq hr ha x⟩

/-- The validity bits as a sum (`43_layerstore.md` R180). -/
theorem Layer.validity_eq (ly : Layer) :
    ly.validity = (if ly.treeValid then 1 else 0) + if ly.codeValid then 2 else 0 := by
  rw [Layer.validity]
  cases ly.treeValid <;> cases ly.codeValid <;> rfl

/-- There are seven selectors (`43_layerstore.md` R180). -/
theorem Layer.info_of_lt (ly : Layer) {b : Byte} (h : 6 < b.toNat) : ly.info b = none := by
  obtain ⟨n, hn⟩ : ∃ n, b.toNat = n + 7 := ⟨b.toNat - 7, (Nat.sub_add_cancel h).symm⟩
  rw [Layer.info, hn]
  rfl

/-- Settles O37: each selector's value, and the refusal of the others. -/
theorem bookkeepingIsReported : Obligations.BookkeepingIsReported := by
  intro s a L hr ha
  refine ⟨fun p hp => exec_lsInfo_some hr ha ?_, fun b hb => exec_lsInfo_none hr ha ((s.layer L).info_of_lt hb)⟩
  rw [← Layer.validity_eq] at hp
  fin_cases hp <;> rfl

end Sys2Proof.Machine
end

section
/-!
PROOF. Reconstruction, pops and rewinds move cursors and send blocks, and nothing else (`45_frame_sequencer.md` R243,
`43_layerstore.md` R181): a judgement about a procedure's end states, kept by one procedure after another.
-/

namespace Sys2Proof.Machine

/-! ## The judgement -/

/-- From `s` to `t` only the slots' cursors, the block sink, the event registers and the responses may differ. -/
def CursorsMove (s t : State) : Prop :=
  ∃ ls bout fault refused responses,
    t = { s with layers := ls, bout := bout, fault := fault, refused := refused, responses := responses } ∧
    ∀ L, ls.get L = { s.layers.get L with rp := (ls.get L).rp }

/-- A procedure that began in `s` moves only cursors, however it ends. -/
def Res.MovesCursors {α : Type} (s : State) : Res α → Prop
  | .ok _ t => CursorsMove s t
  | .stop t => CursorsMove s t
  | .stuck _ => True

section Judgement
variable {α β : Type} {s t u : State}

theorem CursorsMove.refl (s : State) : CursorsMove s s := ⟨_, _, _, _, _, rfl, fun _ => rfl⟩

theorem CursorsMove.trans (h : CursorsMove s t) (k : CursorsMove t u) : CursorsMove s u := by
  obtain ⟨ls, bout, fault, refused, responses, rfl, hls⟩ := h
  obtain ⟨ls', bout', fault', refused', responses', rfl, hls'⟩ := k
  refine ⟨ls', bout', fault', refused', responses', rfl, fun L => (hls' L).trans ?_⟩
  exact congrArg (fun ly : Layer => { ly with rp := (ls'.get L).rp }) (hls L)

theorem CursorsMove.answer (s : State) (r : Response) : CursorsMove s (s.answer r) :=
  ⟨_, _, _, _, _, rfl, fun _ => rfl⟩

theorem CursorsMove.takeRefusal (s : State) (r : Reason) : CursorsMove s (s.takeRefusal r) :=
  ⟨_, _, _, _, _, rfl, fun _ => rfl⟩

theorem CursorsMove.blockOut (s : State) (blk : Block) : CursorsMove s (blockOut blk s) :=
  ⟨_, _, _, _, _, rfl, fun _ => rfl⟩

theorem CursorsMove.rewindAll (s : State) : CursorsMove s (rewindAll s) :=
  ⟨_, _, _, _, _, rfl, fun L => by rw [Layers.get_mapAll]⟩

theorem CursorsMove.setCursor (s : State) (L : LayerNo) (n : Nat) :
    CursorsMove s (s.setLayer L { s.layer L with rp := n }) := by
  refine ⟨_, _, _, _, _, rfl, fun M => ?_⟩
  rw [Layers.get_set]
  split
  next h => rw [h]; rfl
  next => rfl

theorem Res.MovesCursors.refuse (s : State) (r : Reason) : (refuse r s : Res α).MovesCursors s := .takeRefusal s r

/-- A procedure that begins after other moves. -/
theorem Res.MovesCursors.after {r : Res α} (h : r.MovesCursors t) (hst : CursorsMove s t) : r.MovesCursors s := by
  cases r with
  | ok a u => exact hst.trans h
  | stop u => exact hst.trans h
  | stuck e => trivial

/-- One procedure after another. -/
theorem Res.MovesCursors.andThen {r : Res α} {f : α → State → Res β} (h : r.MovesCursors s)
    (hf : ∀ a t, (f a t).MovesCursors t) : (r.andThen f).MovesCursors s := by
  cases r with
  | ok a t => exact (hf a t).after h
  | stop t => exact h
  | stuck e => trivial

/-- A procedure and then its response. -/
theorem Res.MovesCursors.thenOkWith {r : Res α} (h : r.MovesCursors s) (v : α → State → Nat) :
    (r.andThen fun a t => okWith (v a t) t).MovesCursors s :=
  h.andThen fun _ t => .refl t

theorem withLayerIndex_movesCursors {a : Byte} {body : LayerNo → State → Res α}
    (h : ∀ L, (body L s).MovesCursors s) : (withLayerIndex a body s).MovesCursors s := by
  rcases withLayerIndex_cases a body s with ⟨L, -, e⟩ | ⟨-, e⟩ <;> rw [e]
  · exact h L
  · exact .refuse s _

theorem withLayerCount_movesCursors {n : Nat} {body : LayerNo → State → Res α}
    (h : ∀ N, (body N s).MovesCursors s) : (withLayerCount n body s).MovesCursors s := by
  rcases withLayerCount_cases n body s with ⟨N, -, e⟩ | ⟨-, e⟩ <;> rw [e]
  · exact h N
  · exact .refuse s _

/-- A gated command whose procedure moves only cursors; a stopped core only answers. -/
theorem gated_cursorsMove {body : State → Res Response} (hb : (body s).MovesCursors s) (h : gated body s = .next t) :
    CursorsMove s t := by
  rcases gated_cases h with ⟨r, -, rfl⟩ | ⟨-, e⟩ | ⟨-, v, u, e, rfl⟩
  · exact .answer s r
  · rw [e] at hb; exact hb
  · rw [e] at hb; exact hb.trans (.answer u v)

end Judgement

/-! ## The procedures -/

theorem pop_movesCursors (L : LayerNo) (s : State) : (pop L s).MovesCursors s := by
  rcases pop_cases L s with ⟨-, e⟩ | ⟨v, rest, -, e⟩ <;> rw [e]
  · exact .refuse s _
  · exact .setCursor s L _

theorem popInto_movesCursors (L : LayerNo) (ps : List Pos) (blk : Block) (s : State) :
    (popInto L ps blk s).MovesCursors s := by
  induction ps generalizing blk s with
  | nil => exact .refl s
  | cons p ps ih => exact (pop_movesCursors L s).andThen fun _ t => ih _ t

theorem popFrame_movesCursors (L N : LayerNo) (blk : Block) (s : State) : (popFrame L N blk s).MovesCursors s := by
  refine (pop_movesCursors L s).andThen fun c t => ?_
  split
  next => exact .refuse t _
  next => exact popInto_movesCursors L _ blk t

theorem popFrames_movesCursors (N : LayerNo) (Ls : List LayerNo) (blk : Block) (s : State) :
    (popFrames N Ls blk s).MovesCursors s := by
  induction Ls generalizing blk s with
  | nil => exact .refl s
  | cons L rest ih => exact (popFrame_movesCursors L N blk s).andThen ih

theorem decodeBlock_movesCursors (a : Nat) (s : State) : (decodeBlock a s).MovesCursors s :=
  withLayerCount_movesCursors fun N => (pop_movesCursors .l1 s).andThen fun _ t =>
    (popFrames_movesCursors N _ _ t).andThen fun blk u => .blockOut u blk

theorem decodeBlocks_movesCursors (a n : Nat) (s : State) : (decodeBlocks a n s).MovesCursors s := by
  induction n generalizing s with
  | zero => exact .refl s
  | succ n ih => exact (decodeBlock_movesCursors a s).andThen fun _ t => ih t

theorem reconstruct_movesCursors (a n : Nat) (s : State) : (reconstruct a n s).MovesCursors s :=
  withLayerCount_movesCursors fun _ =>
    Res.MovesCursors.andThen ((decodeBlocks_movesCursors a n _).after (.rewindAll s)) fun _ t => .refl t

/-- Each of the four commands is a gated procedure that moves only cursors. -/
theorem exec_movesCursors {a : Byte} {d : Word32} {i : Instr}
    (hi : i ∈ [Instr.fsDecblk a, .fsRec a d, .lsPop a, .lsRewind]) :
    ∃ body, (∀ s, exec i s = gated body s) ∧ ∀ s, (body s).MovesCursors s := by
  fin_cases hi
  · exact ⟨_, fun _ => rfl, fun s => (decodeBlock_movesCursors a.toNat s).thenOkWith _⟩
  · exact ⟨_, fun _ => rfl, fun s => (reconstruct_movesCursors a.toNat d.toNat s).thenOkWith _⟩
  · exact ⟨_, fun _ => rfl, fun s => withLayerIndex_movesCursors fun L => (pop_movesCursors L s).thenOkWith _⟩
  · exact ⟨_, fun _ => rfl, CursorsMove.rewindAll⟩

/-- Settles O58: a gated procedure that moves only cursors does so however the command ends. -/
theorem reconstructionOnlyMovesCursors : Obligations.ReconstructionOnlyMovesCursors := by
  intro s t a d i hi h
  obtain ⟨body, hexec, hbody⟩ := exec_movesCursors hi
  exact gated_cursorsMove (hbody s) ((hexec s).symm.trans h)

end Sys2Proof.Machine
end

section
/-!
PROOF. `EncodeBlock` (`45_frame_sequencer.md` R233, R240). The frames of a block, layer 1's single value included, are
lists of pushes to the layers 1 to N in order; such lists fill the slots up to the first that they overfill.
-/

namespace Sys2Proof.Machine

/-! ## Pushes to several slots -/

/-- `f L` pushed to each listed slot L in order. -/
def pushEach (f : LayerNo → List Symbol) : List LayerNo → State → Res Unit
  | [], s => .ok () s
  | L :: rest, s => (pushAll L (f L) s).andThen fun _ t => pushEach f rest t

theorem pushEach_append (f : LayerNo → List Symbol) (Ks Ls : List LayerNo) (s : State) :
    pushEach f (Ks ++ Ls) s = (pushEach f Ks s).andThen fun _ t => pushEach f Ls t := by
  induction Ks generalizing s with
  | nil => rfl
  | cons K Ks ih => simp only [List.cons_append, pushEach, ih, Res.andThen_assoc]

/-- Pushes that fit append to each listed slot and leave the others. -/
theorem pushEach_fits {f : LayerNo → List Symbol} {Ls : List LayerNo} {s : State} (hnd : Ls.Nodup)
    (h : ∀ L ∈ Ls, (s.layer L).seq.length + (f L).length ≤ maxSeqLength) : ∃ ls,
    pushEach f Ls s = .ok () { s with layers := ls } ∧ (∀ L ∈ Ls, Appended (s.layer L) (ls.get L) (f L)) ∧
    ∀ L, L ∉ Ls → ls.get L = s.layer L := by
  induction Ls generalizing s with
  | nil => exact ⟨s.layers, rfl, by simp, fun _ _ => rfl⟩
  | cons K Ls ih =>
    obtain ⟨hK, hnd⟩ := List.nodup_cons.mp hnd
    obtain ⟨hfirst, hrest⟩ := List.forall_mem_cons.mp h
    obtain ⟨ly, hpush, hly⟩ := pushAll_fits K (f K) s hfirst
    have hother : ∀ L, L ≠ K → (s.setLayer K ly).layer L = s.layer L := fun L => s.layer_setLayer_ne K L ly
    have hne : ∀ L ∈ Ls, L ≠ K := fun L hL e => hK (e ▸ hL)
    obtain ⟨ls, hpushes, hin, hout⟩ := ih (s := s.setLayer K ly) hnd fun L hL => by
      rw [hother L (hne L hL)]; exact hrest L hL
    refine ⟨ls, ?_, List.forall_mem_cons.mpr ⟨?_, fun L hL => ?_⟩, fun L hL => ?_⟩
    · rw [pushEach, hpush, Res.andThen_ok, hpushes]
      rfl
    · rw [hout K hK, State.layer_setLayer_same]; exact hly
    · rw [← hother L (hne L hL)]; exact hin L hL
    · rw [hout L (List.not_mem_of_not_mem_cons hL), hother L (List.ne_of_not_mem_cons hL)]

/-- Pushes that fit the slots before `L` and overfill `L` fill it, stop there and leave the later slots. -/
theorem pushEach_full {f : LayerNo → List Symbol} {Ks Ls : List LayerNo} {L : LayerNo} {s : State} (hnd : Ks.Nodup)
    (hL : L ∉ Ks) (h : ∀ K ∈ Ks, (s.layer K).seq.length + (f K).length ≤ maxSeqLength)
    (hle : (s.layer L).seq.length ≤ maxSeqLength) (hover : maxSeqLength < (s.layer L).seq.length + (f L).length) :
    ∃ ls, pushEach f (Ks ++ L :: Ls) s = .stop ({ s with layers := ls }.takeRefusal .capacity) ∧
      (∀ K ∈ Ks, Appended (s.layer K) (ls.get K) (f K)) ∧
      Appended (s.layer L) (ls.get L) ((f L).take (maxSeqLength - (s.layer L).seq.length)) ∧
      ∀ K, K ∉ Ks → K ≠ L → ls.get K = s.layer K := by
  obtain ⟨ls, hpushes, hin, hout⟩ := pushEach_fits hnd h
  have hsame : State.layer { s with layers := ls } L = s.layer L := hout L hL
  obtain ⟨ly, hstop, hly⟩ := pushAll_full L (f L) { s with layers := ls } (by rw [hsame]; exact hle)
    (by rw [hsame]; exact hover)
  rw [hsame] at hly
  refine ⟨ls.set L ly, ?_, fun K hK => ?_, ?_, fun K hK hKL => ?_⟩
  · rw [pushEach_append, hpushes, Res.andThen_ok, pushEach, hstop]
    rfl
  · have hKL : K ≠ L := fun e => hL (e ▸ hK)
    rw [Layers.get_set_ne _ _ _ _ hKL]
    exact hin K hK
  · rw [Layers.get_set_same]; exact hly
  · rw [Layers.get_set_ne _ _ _ _ hKL, hout K hK]

/-! ## The frames of a block as pushes -/

/-- What follows a procedure matters only where it ends normally. -/
theorem Res.andThen_congr {α β : Type} {r : Res α} {f g : α → State → Res β} (h : ∀ a t, r = .ok a t → f a t = g a t) :
    r.andThen f = r.andThen g := by
  cases r with
  | ok a t => exact h a t rfl
  | stop t => rfl
  | stuck e => rfl

theorem pushAll_singleton (L : LayerNo) (x : Symbol) (s : State) : pushAll L [x] s = push L x s := by
  rw [pushAll]
  cases push L x s <;> rfl

/-- Pushes leave the parameters. -/
theorem pushAll_cfg {L : LayerNo} {xs : List Symbol} {s t : State} (h : pushAll L xs s = .ok () t) : t.cfg = s.cfg := by
  have hk := pushAll_keeps L xs s
  rw [h] at hk
  exact hk.1.params

/-- The layer loop of `EncodeBlock` pushes the frames of layers above 1. -/
theorem pushFrames_eq_pushEach {neutral : Symbol} (blk : Block) (N : LayerNo) {Ls : List LayerNo} (h1 : .l1 ∉ Ls)
    {s : State} (hs : s.cfg.neutral = neutral) :
    pushFrames blk N Ls s = pushEach (fun L => frame neutral blk L N) Ls s := by
  induction Ls generalizing s with
  | nil => rfl
  | cons L Ls ih =>
    rw [pushFrames, pushEach, frame, if_neg (List.ne_of_not_mem_cons h1).symm, hs]
    exact Res.andThen_congr fun _ t ht => ih (List.not_mem_of_not_mem_cons h1) (by rw [pushAll_cfg ht, hs])

/-- `EncodeBlock` pushes the frame of each layer 1 to N in order (`45_frame_sequencer.md` R233). -/
theorem encodeBlock_eq_pushEach {N : LayerNo} {s : State} (hN : s.layersField = N.num) (blk : Block) :
    encodeBlock blk s = pushEach (fun L => frame s.cfg.neutral blk L N) (LayerNo.upTo N.num) s := by
  have h1 : .l1 ∉ LayerNo.twoTo N.num := fun h => absurd ((LayerNo.mem_twoTo N.num_le).mp h).1 (by decide)
  rw [encodeBlock, withLayerCount_num hN, LayerNo.upTo_eq _ N.num_pos, pushEach, frame, if_pos rfl,
    pushAll_singleton]
  exact Res.andThen_congr fun _ t ht =>
    pushFrames_eq_pushEach blk N h1 (by rw [pushAll_cfg ((pushAll_singleton ..).trans ht)])

/-- The layers below `L` come before it in the order 1 to N. -/
theorem LayerNo.upTo_split {L N : LayerNo} (h : L.num ≤ N.num) :
    ∃ rest, LayerNo.upTo N.num = LayerNo.upTo (L.num - 1) ++ L :: rest := by
  refine ⟨(LayerNo.upTo N.num).drop L.num, ?_⟩
  revert h
  cases L <;> cases N <;> decide

theorem LayerNo.mem_upTo_pred {K L : LayerNo} : K ∈ LayerNo.upTo (L.num - 1) ↔ K.num < L.num := by
  have hpos := L.num_pos
  have hle := L.num_le
  rw [LayerNo.mem_upTo (by omega)]
  omega

/-! ## What `EncodeBlock` can do -/

section EncodeBlock
variable {s : State} {N : LayerNo} (blk : Block)

theorem encodeBlock_out (h : s.layersField = 0 ∨ 8 < s.layersField) :
    encodeBlock blk s = .stop (s.takeRefusal .layerCount) :=
  withLayerCount_out h _ s

/-- Frames that fit are appended to the layers 1 to N. -/
theorem encodeBlock_fits (hN : s.layersField = N.num)
    (h : ∀ L, L.num ≤ N.num → (s.layer L).seq.length + (frame s.cfg.neutral blk L N).length ≤ maxSeqLength) : ∃ ls,
    encodeBlock blk s = .ok () { s with layers := ls } ∧
    (∀ L, L.num ≤ N.num → Appended (s.layer L) (ls.get L) (frame s.cfg.neutral blk L N)) ∧
    ∀ L, N.num < L.num → ls.get L = s.layer L := by
  have hmem : ∀ L, L ∈ LayerNo.upTo N.num ↔ L.num ≤ N.num := fun _ => LayerNo.mem_upTo N.num_le
  obtain ⟨ls, hpush, hin, hout⟩ := pushEach_fits (f := fun L => frame s.cfg.neutral blk L N) (LayerNo.upTo_nodup N.num)
    fun L hL => h L ((hmem L).mp hL)
  refine ⟨ls, (encodeBlock_eq_pushEach hN blk).trans hpush, fun L hL => hin L ((hmem L).mpr hL), fun L hL => ?_⟩
  exact hout L fun hL' => Nat.not_lt_of_le ((hmem L).mp hL') hL

/-- The first layer that its frame overfills is filled, and the block stops there (`60_exceptions.md` R293). -/
theorem encodeBlock_full {L : LayerNo} (hN : s.layersField = N.num) (hLN : L.num ≤ N.num)
    (h : ∀ K : LayerNo, K.num < L.num →
      (s.layer K).seq.length + (frame s.cfg.neutral blk K N).length ≤ maxSeqLength)
    (hle : (s.layer L).seq.length ≤ maxSeqLength)
    (hover : maxSeqLength < (s.layer L).seq.length + (frame s.cfg.neutral blk L N).length) : ∃ ls,
    encodeBlock blk s = .stop ({ s with layers := ls }.takeRefusal .capacity) ∧
    (∀ K : LayerNo, K.num < L.num → Appended (s.layer K) (ls.get K) (frame s.cfg.neutral blk K N)) ∧
    Appended (s.layer L) (ls.get L)
      ((frame s.cfg.neutral blk L N).take (maxSeqLength - (s.layer L).seq.length)) ∧
    ∀ K : LayerNo, L.num < K.num → ls.get K = s.layer K := by
  obtain ⟨rest, hsplit⟩ := LayerNo.upTo_split hLN
  have hL : L ∉ LayerNo.upTo (L.num - 1) := fun hL => Nat.lt_irrefl _ (LayerNo.mem_upTo_pred.mp hL)
  obtain ⟨ls, hpush, hin, hpart, hout⟩ := pushEach_full (f := fun L => frame s.cfg.neutral blk L N) (Ls := rest)
    (LayerNo.upTo_nodup (L.num - 1)) hL (fun K hK => h K (LayerNo.mem_upTo_pred.mp hK)) hle hover
  refine ⟨ls, ?_, fun K hK => hin K (LayerNo.mem_upTo_pred.mpr hK), hpart, fun K hK => hout K ?_ ?_⟩
  · rw [encodeBlock_eq_pushEach hN, hsplit, hpush]
  · exact fun hK' => Nat.lt_asymm hK (LayerNo.mem_upTo_pred.mp hK')
  · exact fun e => Nat.ne_of_gt hK (congrArg LayerNo.num e)

end EncodeBlock

/-! ## The command -/

/-- With a block at the source, `FS.ENCBLK` takes it and encodes it (`45_frame_sequencer.md` R240). -/
theorem exec_fsEncblk_block {s : State} (hr : Running s) {blk : Block} (h : s.binData[s.binPos]? = some blk) :
    exec .fsEncblk s =
      ((encodeBlock blk { s with binPos := s.binPos + 1 }).andThen fun _ t => okWith 0 t).finish := by
  rw [exec, execFsEncblk, gated_running hr, encodeNext, blockIn, h]

/-- At the end of the block source `FS.ENCBLK` is refused (`45_frame_sequencer.md` R240). -/
theorem exec_fsEncblk_end {s : State} (hr : Running s) (h : s.binData[s.binPos]? = none) :
    exec .fsEncblk s = .next (s.takeRefusal .blockSourceEnd) := by
  rw [exec, execFsEncblk, gated_running hr, encodeNext, blockIn_eq_none.mpr h]
  rfl

/-- Settles O48: the block source, and what `EncodeBlock` can do with the block taken. -/
theorem blockIsEncoded : Obligations.BlockIsEncoded := by
  refine fun s hr => ⟨exec_fsEncblk_end hr, fun blk hblk => ?_⟩
  rw [exec_fsEncblk_block hr hblk]
  refine ⟨fun hout => ?_, fun N hN hfit => ?_, fun N L hN hLN hfit hle hover => ?_⟩
  · rw [encodeBlock_out (s := { s with binPos := s.binPos + 1 }) blk hout]
    rfl
  · obtain ⟨ls, henc, hin, hrest⟩ := encodeBlock_fits (s := { s with binPos := s.binPos + 1 }) blk hN hfit
    rw [henc]
    exact ⟨ls, rfl, hin, hrest⟩
  · obtain ⟨ls, henc, hin, hpart, hlater⟩ :=
      encodeBlock_full (s := { s with binPos := s.binPos + 1 }) blk hN hLN hfit hle hover
    rw [henc]
    exact ⟨ls, rfl, hin, hpart, hlater⟩

end Sys2Proof.Machine
end

section
/-!
PROOF. The container header as it is read (`44_container.md` R195 to R197, R211, R216), and the alignment guard before
every container command (R207). A source of 22 bytes is one that holds a header; a shorter one ends inside it.
-/

namespace Sys2Proof.Machine

/-! ## The alignment guard -/

theorem whenWriterAligned_misaligned {α : Type} {s : State} (h : s.bwFill ≠ 0) (body : State → Res α) :
    whenWriterAligned body s = .stop (s.takeRefusal .misaligned) := if_neg h

theorem whenWriterAligned_aligned {α : Type} {s : State} (h : s.bwFill = 0) (body : State → Res α) :
    whenWriterAligned body s = body s := if_pos h

theorem whenReaderAligned_misaligned {α : Type} {s : State} (h : s.brRem ≠ 0) (body : State → Res α) :
    whenReaderAligned body s = .stop (s.takeRefusal .misaligned) := if_neg h

theorem whenReaderAligned_aligned {α : Type} {s : State} (h : s.brRem = 0) (body : State → Res α) :
    whenReaderAligned body s = body s := if_pos h

section Guarded
variable {s : State} {a : Byte} {L : LayerNo} {i : Instr}

/-- In a running core the writing container commands begin with the writer's guard. -/
theorem exec_writerGuarded (hr : Running s) (ha : a.toNat = L.num) (hi : i ∈ [Instr.cfPuthdr, .cfPutlayer a, .cfSer]) :
    ∃ body, exec i s = (whenWriterAligned body s).finish := by
  simp only [List.mem_cons, List.not_mem_nil, or_false] at hi
  rcases hi with rfl | rfl | rfl
  · exact ⟨_, gated_running hr⟩
  · exact ⟨_, gated_withLayerIndex_num hr ha _⟩
  · exact ⟨_, gated_running hr⟩

/-- In a running core the reading container commands begin with the reader's guard. -/
theorem exec_readerGuarded (hr : Running s) (ha : a.toNat = L.num) (hi : i ∈ [Instr.cfGethdr, .cfGetlayer a, .cfDes]) :
    ∃ body, exec i s = (whenReaderAligned body s).finish := by
  simp only [List.mem_cons, List.not_mem_nil, or_false] at hi
  rcases hi with rfl | rfl | rfl
  · exact ⟨_, gated_running hr⟩
  · exact ⟨_, gated_withLayerIndex_num hr ha _⟩
  · exact ⟨_, gated_running hr⟩

end Guarded

/-- Settles O39: each command begins with its guard. -/
theorem misalignedContainerCommandsAreRefused : Obligations.MisalignedContainerCommandsAreRefused := by
  refine fun s a L hr ha => ⟨fun h0 i hi => ?_, fun h0 i hi => ?_⟩
  · obtain ⟨body, e⟩ := exec_writerGuarded hr ha hi
    rw [e, whenWriterAligned_misaligned h0]
    rfl
  · obtain ⟨body, e⟩ := exec_readerGuarded hr ha hi
    rw [e, whenReaderAligned_misaligned h0]
    rfl

/-! ## What `GetHeader` can do -/

/-- The last byte pulled, where there are enough. -/
theorem State.pulled_succ_brCur {s : State} {k : Nat} (h : k < (s.srcData.drop s.srcPos).length) :
    (s.pulled (k + 1)).brCur = (s.srcData.drop s.srcPos).getD k 0 := by
  rw [State.pulled_brCur, List.getLast?_take, if_neg (Nat.succ_ne_zero k), Nat.add_sub_cancel,
    List.getElem?_eq_getElem h, Option.some_or, Option.getD_some, List.getD_eq_getElem _ _ h]

/-- All bytes pulled. -/
theorem State.pulled_all (s : State) : s.pulled (s.srcData.drop s.srcPos).length = { s with
    brCur := (s.srcData.drop s.srcPos).getLast?.getD s.brCur
    srcPos := s.srcPos + (s.srcData.drop s.srcPos).length } := by
  rw [State.pulled, List.take_length]

/-- `GetHeader` over a source of 22 bytes or more: all 22 are pulled before the magic is looked at. -/
theorem getHeader_enough {s : State} (h0 : s.brRem = 0) (hl : 22 ≤ (s.srcData.drop s.srcPos).length) :
    getHeader s = if (s.srcData.drop s.srcPos).take 5 = magicBytes s.cfg.magic
      then .ok () (loadHeader ((s.srcData.drop s.srcPos).take 22) (s.pulled 22))
      else .stop ((s.pulled 22).takeFault .badMagic) := by
  have hlen : ((s.srcData.drop s.srcPos).take 22).length = 22 := List.length_take_of_le hl
  have hpull := pullHeader_enough _ _ [] s h0 (List.take_append_drop 22 (s.srcData.drop s.srcPos)).symm
  rw [hlen] at hpull
  rw [getHeader, hpull, Res.andThen_ok, List.nil_append, List.take_take]
  rfl

/-- Where the source ends inside the header (R195): the fault, by the number of bytes there were. -/
theorem headerEnd_eq (buf : List Byte) (s : State) : headerEnd buf s = .stop (s.takeFault
    (if buf.length < shortLimitBytes s.cfg.shortLimit then .shortFile
      else if buf.take 5 = magicBytes s.cfg.magic then .exhausted else .badMagic)) := by
  rw [headerEnd]
  split
  · rfl
  · split <;> rfl

/-- `GetHeader` over a source that ends first: all its bytes are pulled. -/
theorem getHeader_short {s : State} (h0 : s.brRem = 0) (hl : (s.srcData.drop s.srcPos).length < 22) :
    getHeader s = .stop ((s.pulled (s.srcData.drop s.srcPos).length).takeFault
      (if (s.srcData.drop s.srcPos).length < shortLimitBytes s.cfg.shortLimit then .shortFile
        else if (s.srcData.drop s.srcPos).take 5 = magicBytes s.cfg.magic then .exhausted else .badMagic)) := by
  rw [getHeader, pullHeader_short 22 [] s h0 hl, List.nil_append, headerEnd_eq, Res.andThen_stop, State.pulled_all]

/-- A file too short is shorter than a header. -/
theorem shortLimitBytes_le (l : ShortLimit) : shortLimitBytes l ≤ 22 := by
  cases l <;> decide

/-! ## The commands -/

theorem exec_cfGethdr_aligned {s : State} (hr : Running s) (h0 : s.brRem = 0) :
    exec .cfGethdr s = ((getHeader s).andThen fun _ t => okWith t.hFlags.toNat t).finish := by
  rw [exec, execCfGethdr, gated_running hr, whenReaderAligned_aligned h0]

theorem exec_cfDes_aligned {s : State} (hr : Running s) (h0 : s.brRem = 0) :
    exec .cfDes s = ((deserialize s).andThen fun _ t => okWith t.layersField t).finish := by
  rw [exec, execCfDes, gated_running hr, whenReaderAligned_aligned h0]

/-- Where `GetHeader` stops, both commands that begin with it do. -/
theorem exec_of_getHeader_stop {s t : State} {i : Instr} (hi : i ∈ [Instr.cfGethdr, .cfDes]) (hr : Running s)
    (h0 : s.brRem = 0) (h : getHeader s = .stop t) : exec i s = .next t := by
  simp only [List.mem_cons, List.not_mem_nil, or_false] at hi
  rcases hi with rfl | rfl
  · rw [exec_cfGethdr_aligned hr h0, h]
    rfl
  · rw [exec_cfDes_aligned hr h0, deserialize, h]
    rfl

/-- A byte among the first `n`. -/
theorem getD_take (buf : List Byte) {k n : Nat} (h : k < n) : (buf.take n).getD k 0 = buf.getD k 0 := by
  rw [List.getD_eq_getElem?_getD, List.getElem?_take_of_lt h, List.getD_eq_getElem?_getD]

/-- A field of the header lies in the first 22 bytes. -/
theorem field4_take (o : ByteOrder) (buf : List Byte) {k : Nat} (h : k ≤ 18) :
    field4 o (buf.take 22) k = BitVec.ofNat 32 (fieldValue o ((buf.drop k).take 4)) := by
  rw [field4, List.drop_take, List.take_take, Nat.min_eq_left (by omega)]

/-- Settles O41: the outcomes of `GetHeader`. -/
theorem headerIsRead : Obligations.HeaderIsRead := by
  rintro s buf hr h0 rfl
  have hcur := fun h => State.pulled_succ_brCur (s := s) (k := 21) h
  refine ⟨fun hl hmagic => ?_, fun i hi => ⟨fun hl hmagic => ?_, fun hl => ?_, fun hl hl' => ⟨_, rfl, ?_⟩⟩⟩
  · rw [exec_cfGethdr_aligned hr h0, getHeader_enough h0 hl, if_pos hmagic, Res.andThen_ok, okWith_eq,
      Response.okValue_toNat, ← hcur hl, ← field4_take _ _ (k := 6) (by decide),
      ← field4_take _ _ (k := 10) (by decide), ← field4_take _ _ (k := 14) (by decide),
      ← field4_take _ _ (k := 18) (by decide),
      ← getD_take _ (k := 5) (n := 22) (by decide)]
    rfl
  · have hget := getHeader_enough h0 hl
    rw [if_neg hmagic] at hget
    rw [exec_of_getHeader_stop hi hr h0 hget, ← hcur hl]
    rfl
  · have hlt := hl.trans_le (shortLimitBytes_le _)
    have hget := getHeader_short h0 hlt
    rw [if_pos hl] at hget
    rw [exec_of_getHeader_stop hi hr h0 hget, State.pulled_all]
    rfl
  · have hget := getHeader_short h0 hl'
    rw [if_neg (Nat.not_lt.mpr hl)] at hget
    rw [exec_of_getHeader_stop hi hr h0 hget, State.pulled_all]
    rfl

/-! ## The header written is the header read -/

/-- A field of the header that was written. -/
theorem field4_headerBytes {h : State} {p : Nat × Word32} (hp : p ∈ headerFields h) :
    field4 h.cfg.fieldByteOrder (headerBytes h) p.1 = p.2 := by
  obtain ⟨pre, post, e, hpre⟩ := headerBytes_split hp
  rw [field4, e, List.append_assoc, List.drop_left' hpre, List.take_left' (fieldBytes_length _ 4 _),
    fieldValue_fieldBytes]
  have hlt := p.2.isLt
  exact BitVec.eq_of_toNat_eq (by rw [BitVec.toNat_ofNat]; omega)

/-- The registers loaded from the header of `h`. -/
theorem loadHeader_headerBytes {s h : State} (hc : h.cfg = s.cfg) : loadHeader (headerBytes h) s = s.headerFrom h := by
  have hfield := fun p hp => field4_headerBytes (h := h) (p := p) hp
  simp only [headerFields, List.forall_mem_cons] at hfield
  obtain ⟨hw, hh, hpw, hph, -⟩ := hfield
  have horder : s.cfg.fieldByteOrder = h.cfg.fieldByteOrder := congrArg _ hc.symm
  rw [loadHeader, horder, hw, hh, hpw, hph]
  rfl

/-- `GetHeader` over the header of `h`. -/
theorem getHeader_headerBytes {s h : State} {rest : List Byte} (h0 : s.brRem = 0) (hc : h.cfg = s.cfg)
    (hd : s.srcData.drop s.srcPos = headerBytes h ++ rest) : getHeader s = .ok () ((s.pulled 22).headerFrom h) := by
  have hlen := headerBytes_length h
  have hmagic : (headerBytes h ++ rest).take 5 = magicBytes s.cfg.magic := by rw [← hc]; rfl
  rw [getHeader_enough h0 (by rw [hd, List.length_append, hlen]; omega), hd, if_pos hmagic, List.take_left' hlen,
    loadHeader_headerBytes (s := s.pulled 22) hc]

/-- A flags byte with the reserved bit clear (`44_container.md` R192). -/
theorem and_reserved_of_bit4 {b : Byte} (h : b.getLsbD 4 = false) : b &&& 0xEF = b := by
  revert b
  decide

/-- Settles O42: `GetHeader` takes the header `PutHeader` sends back into the registers. -/
theorem headerRoundTrip : Obligations.HeaderRoundTrip := by
  intro s hr ho h0 hflags
  have hput : exec .cfPuthdr s =
      .next (State.answer { s with bwAcc := 0, snkData := s.snkData ++ headerBytes s } (.okValue 22)) := by
    rw [exec_cfPuthdr_aligned hr h0, putHeader_aligned h0 ho]
    rfl
  refine ⟨_, headerBytes s, hput, rfl, fun u rest hu hu0 hc hd => ⟨(u.pulled 22).brCur, ?_⟩⟩
  rw [exec_cfGethdr_aligned hu hu0, getHeader_headerBytes hu0 hc.symm hd, Res.andThen_ok, okWith_eq,
    Response.okValue_toNat, State.headerFrom, and_reserved_of_bit4 hflags]
  rfl

end Sys2Proof.Machine
end

section
/-!
PROOF. The section of a layer as it is written (`44_container.md` R198 to R203, R212): the codes of a sequence are
appended bit by bit to the section's head and `Flush` pads them to whole bytes.
-/

namespace Sys2Proof.Machine

/-! ## Bytes sent by an aligned writer -/

/-- The state after an aligned writer has sent bytes: its accumulator is empty (`10_state.md` R21). -/
def State.sent (s : State) (bytes : List Byte) : State := { s with bwAcc := 0, snkData := s.snkData ++ bytes }

/-- Bytes sent one run after another. -/
theorem State.sent_sent (s : State) (xs ys : List Byte) : (s.sent xs).sent ys = s.sent (xs ++ ys) := by
  rw [sent, sent, sent, List.append_assoc]

theorem State.sent_tidy (s : State) (bytes : List Byte) : WriterTidy (s.sent bytes) := fun _ _ _ => BitVec.getLsbD_zero

/-- `writeBytes_aligned` in terms of `sent`. -/
theorem writeBytes_sent {bytes : List Byte} {s : State} (hne : bytes ≠ []) (h0 : s.bwFill = 0) (ho : s.bwOpen = true) :
    writeBytes bytes s = .ok () (s.sent bytes) := by
  rw [writeBytes_aligned bytes s h0 ho, if_neg hne]
  rfl

/-! ## The codes of a sequence -/

/-- Every Symbol of the sequence has a code that fits a byte. -/
def Layer.Encodable (ly : Layer) : Prop := ∀ x ∈ ly.seq, ∃ e, Table.get ly.code x = some e ∧ e.len ≤ 8

/-- A code in front of the codes of a sequence. -/
theorem codedSymbols_cons {code : Table CodeEntry} {x : Symbol} {e : CodeEntry} (h : Table.get code x = some e)
    (seq : List Symbol) : codedSymbols code (x :: seq) = entryBits e ++ codedSymbols code seq := by
  simp [codedSymbols, h]

/-- The bits the codes take, where every Symbol has one (`44_container.md` R202). -/
theorem codedBits_eq {code : Table CodeEntry} {seq : List Symbol} (h : ∀ x ∈ seq, ∃ e, Table.get code x = some e) :
    codedBits code seq = some (codedSymbols code seq).length := by
  induction seq with
  | nil => rfl
  | cons x seq ih =>
    obtain ⟨⟨e, he⟩, hrest⟩ := List.forall_mem_cons.mp h
    rw [codedBits, he, Option.bind_some, ih hrest, codedSymbols_cons he, List.length_append, entryBits_length]
    rfl

/-- What an open writer has written after the codes of a sequence (`44_container.md` R201). -/
theorem encodeAll_spec {L : LayerNo} {seq : List Symbol} {s : State} (ho : s.bwOpen = true)
    (hv : (s.layer L).codeValid = true)
    (h : ∀ x ∈ seq, ∃ e, Table.get (s.layer L).code x = some e ∧ e.len ≤ 8) : ∃ acc fill snk,
    encodeAll L seq s = .ok () { s with bwAcc := acc, bwFill := fill, snkData := snk } ∧
    sinkBits { s with bwAcc := acc, bwFill := fill, snkData := snk } =
      sinkBits s ++ codedSymbols (s.layer L).code seq ∧
    (WriterTidy s → WriterTidy { s with bwAcc := acc, bwFill := fill, snkData := snk }) := by
  induction seq generalizing s with
  | nil => exact ⟨s.bwAcc, s.bwFill, s.snkData, rfl, (List.append_nil _).symm, id⟩
  | cons x seq ih =>
    obtain ⟨⟨e, he, hlen⟩, hrest⟩ := List.forall_mem_cons.mp h
    obtain ⟨acc, fill, snk, hput, hbits, -, htidy⟩ := putBits_spec e.bits e.len s
    have henc : encodeOne L x s = .ok e.len { s with bwAcc := acc, bwFill := fill, snkData := snk } := by
      simp [encodeOne, hv, he, writeBits, Nat.not_lt.mpr hlen, ho, hput]
    obtain ⟨acc', fill', snk', hseq, hbits', htidy'⟩ :=
      ih (s := { s with bwAcc := acc, bwFill := fill, snkData := snk }) ho hv hrest
    refine ⟨acc', fill', snk', ?_, ?_, fun ht => htidy' (htidy ht)⟩
    · rw [encodeAll, henc, Res.andThen_ok, hseq]
    · rw [hbits', hbits, codedSymbols_cons he, List.append_assoc]
      rfl

/-- An empty accumulator, where the writer is aligned. -/
theorem WriterTidy.acc_eq_zero {s : State} (h : WriterTidy s) (h0 : s.bwFill = 0) : s.bwAcc = 0 := by
  refine BitVec.eq_of_getLsbD_eq fun i hi => ?_
  rw [h i hi (by rw [h0]; exact hi)]
  exact BitVec.getLsbD_zero.symm

/-- `Flush` of an open and tidy writer. -/
theorem flush_tidy {s : State} (ho : s.bwOpen = true) (h : WriterTidy s) :
    flush s = .ok () { s with snkData := s.snkData ++ s.pendingBytes, bwAcc := 0, bwFill := 0 } := by
  rcases flush_cases s with ⟨hc, -⟩ | ⟨-, h0, e⟩ | ⟨-, h0, e⟩
  · exact absurd (hc.symm.trans ho) (by decide)
  · rw [e, State.pendingBytes, if_pos h0, List.append_nil, ← h.acc_eq_zero h0, ← h0]
  · rw [e, State.pendingBytes, if_neg h0]

/-- The codes of a sequence at an aligned writer, and `Flush` after them: whole bytes (`44_container.md` R201). -/
theorem encodeAll_flush {L : LayerNo} {s : State} (ho : s.bwOpen = true) (h0 : s.bwFill = 0) (ht : WriterTidy s)
    (hv : (s.layer L).codeValid = true) (h : (s.layer L).Encodable) :
    ((encodeAll L (s.layer L).seq s).andThen fun _ t => flush t) =
      .ok () (s.sent (codedBytes (s.layer L))) := by
  obtain ⟨acc, fill, snk, hseq, hbits, htidy⟩ := encodeAll_spec ho hv h
  have hflush := flush_tidy (s := { s with bwAcc := acc, bwFill := fill, snkData := snk }) ho (htidy ht)
  have hpack := congrArg packBits hbits
  rw [sinkBits_aligned h0, sinkBits_eq, packBits_bytes, packBits_bytes, (htidy ht).packBits_pendingBits] at hpack
  rw [hseq, Res.andThen_ok, hflush, hpack, ← h0]
  rfl

/-! ## The bytes of a section -/

@[simp] theorem tableBytes_length (o : ByteOrder) (t : Table Word64) : (tableBytes o t).length = 9 * t.length := by
  induction t with
  | nil => rfl
  | cons p t ih =>
    rw [tableBytes] at ih ⊢
    rw [List.flatMap_cons, List.length_append, ih, List.length_cons, List.length_cons, fieldBytes_length]
    omega

/-- A section is its head and its coded symbols (`44_container.md` R198). -/
theorem sectionBytes_eq (cfg : Config) (ly : Layer) :
    sectionBytes cfg ly = sectionHead cfg ly (lengthField cfg (codedBytes ly).length) ++ codedBytes ly := rfl

theorem sectionHead_length (cfg : Config) (ly : Layer) (len : Nat) :
    (sectionHead cfg ly len).length = 4 + 9 * ly.entryCount + 8 := by
  simp only [sectionHead, List.length_append, fieldBytes_length, tableBytes_length]
  rfl

theorem sectionHead_ne_nil (cfg : Config) (ly : Layer) (len : Nat) : sectionHead cfg ly len ≠ [] := by
  refine List.ne_nil_of_length_pos ?_
  rw [sectionHead_length]
  omega

/-! ## What `PutLayer` can do -/

section PutLayer
variable {L : LayerNo} {s : State}

theorem putLayer_noCode (hv : (s.layer L).codeValid = false) : putLayer L s = .stop (s.takeRefusal .noCode) := by
  rw [putLayer, if_pos hv]
  rfl

/-- Where every Symbol has its code, the length field is checked and then the section written. -/
theorem putLayer_encodable (hv : (s.layer L).codeValid = true) (h : (s.layer L).Encodable) :
    putLayer L s =
      if 4294967295 < lengthField s.cfg (codedBytes (s.layer L)).length then .stop (s.takeRefusal .capacity)
      else (writeBytes (sectionHead s.cfg (s.layer L) (lengthField s.cfg (codedBytes (s.layer L)).length)) s).andThen
        fun _ t => ((encodeAll L (s.layer L).seq t).andThen fun _ t => flush t).andThen fun _ t =>
          .ok (sectionBytes s.cfg (s.layer L)).length t := by
  have hbits := codedBits_eq fun x hx => (h x hx).imp fun _ ⟨he, _⟩ => he
  have hcoded : (codedBytes (s.layer L)).length = ((codedSymbols (s.layer L).code (s.layer L).seq).length + 7) / 8 :=
    packBits_length _
  simp only [putLayer, hv, hbits, ← hcoded, sectionBytes_eq, List.length_append, sectionHead_length, Res.andThen_assoc]
  rfl

theorem putLayer_capacity (hv : (s.layer L).codeValid = true) (h : (s.layer L).Encodable)
    (hl : 4294967295 < lengthField s.cfg (codedBytes (s.layer L)).length) :
    putLayer L s = .stop (s.takeRefusal .capacity) := by
  rw [putLayer_encodable hv h, if_pos hl]

theorem putLayer_closed (hv : (s.layer L).codeValid = true) (h : (s.layer L).Encodable)
    (hl : lengthField s.cfg (codedBytes (s.layer L)).length ≤ 4294967295) (ho : s.bwOpen = false) :
    putLayer L s = .stop (s.takeRefusal .writerClosed) := by
  obtain ⟨b, bs, hhead⟩ := List.exists_cons_of_ne_nil
    (sectionHead_ne_nil s.cfg (s.layer L) (lengthField s.cfg (codedBytes (s.layer L)).length))
  rw [putLayer_encodable hv h, if_neg (Nat.not_lt.mpr hl), hhead, writeBytes_closed b bs s ho, Res.andThen_stop]

/-- `PutLayer` at an aligned open writer sends the section. -/
theorem putLayer_aligned (hv : (s.layer L).codeValid = true) (h : (s.layer L).Encodable)
    (hl : lengthField s.cfg (codedBytes (s.layer L)).length ≤ 4294967295) (h0 : s.bwFill = 0) (ho : s.bwOpen = true) :
    putLayer L s = .ok (sectionBytes s.cfg (s.layer L)).length (s.sent (sectionBytes s.cfg (s.layer L))) := by
  have hcodes := encodeAll_flush (L := L) (s := s.sent (sectionHead s.cfg (s.layer L)
    (lengthField s.cfg (codedBytes (s.layer L)).length))) ho h0 (s.sent_tidy _) hv h
  rw [putLayer_encodable hv h, if_neg (Nat.not_lt.mpr hl), writeBytes_sent (sectionHead_ne_nil _ _ _) h0 ho,
    Res.andThen_ok, sectionBytes_eq, ← State.sent_sent]
  exact congrArg (Res.andThen · _) hcodes

end PutLayer

/-! ## The command -/

theorem exec_cfPutlayer_aligned {s : State} {a : Byte} {L : LayerNo} (hr : Running s) (ha : a.toNat = L.num)
    (h0 : s.bwFill = 0) :
    exec (.cfPutlayer a) s = ((putLayer L s).andThen fun n t => okWith n t).finish := by
  rw [exec, execCfPutlayer, gated_withLayerIndex_num hr ha, whenWriterAligned_aligned h0]

/-- Settles O43: the outcomes of `PutLayer`. -/
theorem layerSectionIsWritten : Obligations.LayerSectionIsWritten := by
  intro s a L hr ha h0
  rw [exec_cfPutlayer_aligned hr ha h0]
  refine ⟨fun hv => ?_, fun hv h => ⟨fun hl => ?_, fun hl => ⟨fun ho => ?_, fun ho => ?_⟩⟩⟩
  · rw [putLayer_noCode hv]
    rfl
  · rw [putLayer_capacity hv h hl]
    rfl
  · rw [putLayer_closed hv h hl ho]
    rfl
  · rw [putLayer_aligned hv h hl h0 ho]
    rfl

end Sys2Proof.Machine
end

section
/-!
PROOF. The codes of a section as they are read (`44_container.md` R204): the decoder takes the bits of one code after
another, byte by byte from an aligned source; pad bits may follow the last code (R203), and a source that ends inside a
code is drained.
-/

namespace Sys2Proof.Machine

/-! ## Bits pulled by an aligned reader -/

/-- The state after an aligned reader has pulled the next `n` bits: the bytes begun are pulled, the bits not asked for
are unread (`10_state.md` R25, `40_bitstream.md` R104). -/
def State.bitsPulled (s : State) (n : Nat) : State :=
  { s.pulled ((n + 7) / 8) with brRem := ⟨8 * ((n + 7) / 8) - n, by omega⟩ }

/-- Whole bytes of bits. -/
theorem State.bitsPulled_bytes {s : State} (h0 : s.brRem = 0) (k : Nat) : s.bitsPulled (8 * k) = s.pulled k := by
  have hk : (8 * k + 7) / 8 = k := by omega
  have hrem : (⟨8 * ((8 * k + 7) / 8) - 8 * k, by omega⟩ : Fin 9) = s.brRem := by
    rw [h0]
    exact Fin.ext (by simp only [Fin.val_zero]; omega)
  rw [bitsPulled, hrem, hk]
  rfl

theorem State.bitsPulled_zero {s : State} (h0 : s.brRem = 0) : s.bitsPulled 0 = s :=
  (State.bitsPulled_bytes h0 0).trans s.pulled_zero

/-- The unread bits of the last byte are dropped. -/
theorem skipByte_bitsPulled {s : State} (h0 : s.brRem = 0) (n : Nat) :
    skipByte (s.bitsPulled n) = s.pulled ((n + 7) / 8) :=
  congrArg (fun r => { s.pulled ((n + 7) / 8) with brRem := r }) h0.symm

/-- The first bit of a byte pulls the byte. -/
theorem pullBit_byte {s : State} (h0 : s.brRem = 0) (hne : sourceBits s ≠ []) :
    (pullBit s).map Prod.snd = some { s.pulled 1 with brRem := 7 } := by
  cases hd : s.srcData.drop s.srcPos with
  | nil => exact absurd (sourceBits_eq_nil.mpr ⟨h0, hd⟩) hne
  | cons c cs =>
    simp only [pullBit, refill, h0, if_true, srcPull_cons hd, Option.map_some, State.pulled, hd]
    rfl

/-- A bit of a byte that has been pulled. -/
theorem pullBit_unread {s : State} (h : s.brRem ≠ 0) :
    (pullBit s).map Prod.snd = some { s with brRem := ⟨s.brRem.val - 1, by omega⟩ } := by
  simp only [pullBit, refill, if_neg h, Option.map_some]

/-- The next bit of an aligned source. -/
theorem pullBit_bitsPulled {s : State} (h0 : s.brRem = 0) {n : Nat} {b : Bool} {rest : List Bool}
    (hs : sourceBits (s.bitsPulled n) = b :: rest) :
    pullBit (s.bitsPulled n) = some (b, s.bitsPulled (n + 1)) ∧ sourceBits (s.bitsPulled (n + 1)) = rest := by
  have hnext : (pullBit (s.bitsPulled n)).map Prod.snd = some (s.bitsPulled (n + 1)) := by
    by_cases hn : n % 8 = 0
    · obtain ⟨k, rfl⟩ : ∃ k, n = 8 * k := ⟨n / 8, by omega⟩
      have hk : (8 * k + 1 + 7) / 8 = k + 1 := by omega
      have hrem : (⟨8 * ((8 * k + 1 + 7) / 8) - (8 * k + 1), by omega⟩ : Fin 9) = 7 :=
        Fin.ext (by simp only [hk]; omega)
      rw [State.bitsPulled_bytes h0] at hs ⊢
      rw [pullBit_byte (s := s.pulled k) h0 (by rw [hs]; exact List.cons_ne_nil b rest), State.pulled_pulled,
        State.bitsPulled, hrem, hk]
    · have hk : (n + 1 + 7) / 8 = (n + 7) / 8 := by omega
      have hrem : (s.bitsPulled n).brRem.val = 8 * ((n + 7) / 8) - n := rfl
      rw [pullBit_unread fun e => by rw [e, Fin.val_zero] at hrem; omega]
      simp only [State.bitsPulled, hk, Nat.sub_sub]
  obtain ⟨cur, rem, hpull, hbits, -⟩ := pullBit_cons hs
  have hstate := Option.some.inj ((congrArg (Option.map Prod.snd) hpull).symm.trans hnext)
  rw [← hstate]
  exact ⟨hpull, hbits⟩

/-- The rest of an aligned source is its bytes. -/
theorem drained_aligned {s : State} (h0 : s.brRem = 0) : s.drained = s.pulled (s.srcData.drop s.srcPos).length := by
  rw [State.pulled_all, State.drained, ← h0]

/-- Where bits have been pulled and the rest of an aligned source is lost, all its bytes have been pulled. -/
theorem drained_bitsPulled {s : State} (h0 : s.brRem = 0) {n : Nat} (hn : n ≤ 8 * (s.srcData.drop s.srcPos).length) :
    (s.bitsPulled n).drained = s.pulled (s.srcData.drop s.srcPos).length := by
  obtain ⟨k, hk⟩ : ∃ k, k = (n + 7) / 8 := ⟨_, rfl⟩
  have hbits : (s.bitsPulled n).drained = (s.pulled k).drained := by rw [hk]; rfl
  have hlen : k + ((s.pulled k).srcData.drop (s.pulled k).srcPos).length = (s.srcData.drop s.srcPos).length := by
    simp only [State.pulled_srcData, State.pulled_srcPos, ← List.drop_drop, List.length_drop] at hn ⊢
    omega
  rw [hbits, drained_aligned (s := s.pulled k) h0, State.pulled_pulled, hlen]

/-! ## One Symbol -/

/-- The bits of a path take the descent to its leaf, bit by bit. -/
theorem descend_bitsPulled {nodes : List Node} (ho : ArenaOrdered nodes) {s : State} (h0 : s.brRem = 0) {x : Symbol}
    (path : List Bool) {rest : List Bool} {fuel k n : Nat} (hf : k < fuel) (hleaf : LeafAt nodes k path x)
    (hs : sourceBits (s.bitsPulled n) = path ++ rest) :
    descend nodes fuel k (s.bitsPulled n) = .ok x (s.bitsPulled (n + path.length)) ∧
      sourceBits (s.bitsPulled (n + path.length)) = rest := by
  induction path generalizing fuel k n with
  | nil =>
    obtain ⟨fuel, rfl⟩ := Nat.exists_eq_add_one_of_ne_zero (Nat.ne_zero_of_lt hf)
    exact ⟨descend_leaf hleaf fuel _, hs⟩
  | cons b path ih =>
    obtain ⟨fuel, rfl⟩ := Nat.exists_eq_add_one_of_ne_zero (Nat.ne_zero_of_lt hf)
    obtain ⟨hpull, hbits⟩ := pullBit_bitsPulled h0 hs
    obtain ⟨c, hc, below, e⟩ := descend_bit ho hleaf hpull fuel
    rw [e, List.length_cons, Nat.add_comm path.length, ← Nat.add_assoc]
    exact ih (by omega) below hbits

/-- A slot with the valid tree of a table. -/
structure Layer.TreeOf (ly : Layer) (t : Table Word64) : Prop where
  valid : ly.treeValid = true
  nodes : ly.nodes = (buildArena t).1
  root : ly.root = (buildArena t).2

section Decode
variable {L : LayerNo} {s : State} {t : Table Word64} (h0 : s.brRem = 0) (ht : TableOrdered t)
  (htree : (s.layer L).TreeOf t)
include h0 ht htree

/-- `DecodeOne` over the code of a Symbol. -/
theorem decodeOne_code {x : Symbol} {e : CodeEntry} (he : Table.get (codeOf t) x = some e) {n : Nat}
    {rest : List Bool} (hs : sourceBits (s.bitsPulled n) = entryBits e ++ rest) :
    decodeOne L (s.bitsPulled n) = .ok x (s.bitsPulled (n + e.len)) ∧
      sourceBits (s.bitsPulled (n + e.len)) = rest := by
  obtain ⟨root, hroot, hleaf⟩ := pathTo_of_get_codeOf ht he
  have ho : ArenaOrdered (s.layer L).nodes := htree.nodes ▸ buildArena_ordered t
  obtain ⟨hdescend, hrest⟩ := descend_bitsPulled ho h0 _ (Nat.lt_succ_self root) (htree.nodes ▸ hleaf) hs
  rw [entryBits_length] at hdescend hrest
  exact ⟨(decodeOne_root (s := s.bitsPulled n) htree.valid (htree.root.trans hroot)).trans hdescend, hrest⟩

/-- `DecodeOne` over a source that ends inside the code. -/
theorem decodeOne_cut {x : Symbol} {e : CodeEntry} (he : Table.get (codeOf t) x = some e) {n : Nat}
    (hn : n ≤ 8 * (s.srcData.drop s.srcPos).length) (hs : sourceBits (s.bitsPulled n) <+: entryBits e)
    (hl : (sourceBits (s.bitsPulled n)).length < e.len) :
    decodeOne L (s.bitsPulled n) = .stop ((s.pulled (s.srcData.drop s.srcPos).length).takeFault .exhausted) := by
  obtain ⟨root, hroot, hleaf⟩ := pathTo_of_get_codeOf ht he
  have ho : ArenaOrdered (s.layer L).nodes := htree.nodes ▸ buildArena_ordered t
  rw [← drained_bitsPulled h0 hn]
  exact (decodeOne_root (s := s.bitsPulled n) htree.valid (htree.root.trans hroot)).trans
    (descend_short ho _ (Nat.lt_succ_self root) (htree.nodes ▸ hleaf) hs (by rwa [entryBits_length]))

end Decode

/-! ## A sequence of Symbols -/

/-- Symbols appended to the sequence of slot L, the table untouched. -/
def State.decoded (s : State) (L : LayerNo) (seq : List Symbol) : State :=
  s.setLayer L { s.layer L with seq := (s.layer L).seq ++ seq }

@[simp] theorem State.decoded_nil (s : State) (L : LayerNo) : s.decoded L [] = s := by
  rw [decoded, List.append_nil, State.setLayer_layer]

theorem State.decoded_cons (s : State) (L : LayerNo) (x : Symbol) (seq : List Symbol) :
    (s.decoded L [x]).decoded L seq = s.decoded L (x :: seq) := by
  simp [decoded]

theorem Layer.TreeOf.decoded {s : State} {L : LayerNo} {t : Table Word64} (h : (s.layer L).TreeOf t)
    (seq : List Symbol) : ((s.decoded L seq).layer L).TreeOf t := by
  rw [State.decoded, State.layer_setLayer_same]
  exact ⟨h.valid, h.nodes, h.root⟩

/-- A Symbol of the table has a code. -/
theorem exists_code {t : Table Word64} (ht : TableOrdered t) {x : Symbol} (h : (Table.get t x).isSome) :
    ∃ e, Table.get (codeOf t) x = some e :=
  Option.isSome_iff_exists.mp ((get_codeOf_isSome ht x).mpr h)

/-- The first Symbols of a sequence, over their codes. -/
theorem decodeSeq_codes {L : LayerNo} {s : State} {t : Table Word64} (h0 : s.brRem = 0) (ht : TableOrdered t)
    (htree : (s.layer L).TreeOf t) {seq : List Symbol} (hseq : ∀ x ∈ seq, (Table.get t x).isSome) (m : Nat) {n : Nat}
    {rest : List Bool} (hs : sourceBits (s.bitsPulled n) = codedSymbols (codeOf t) seq ++ rest) :
    decodeSeq L (seq.length + m) (s.bitsPulled n) =
        decodeSeq L m ((s.decoded L seq).bitsPulled (n + (codedSymbols (codeOf t) seq).length)) ∧
      sourceBits (s.bitsPulled (n + (codedSymbols (codeOf t) seq).length)) = rest := by
  induction seq generalizing s n with
  | nil => exact ⟨by rw [List.length_nil, Nat.zero_add, State.decoded_nil]; rfl, hs⟩
  | cons x seq ih =>
    obtain ⟨hx, hseq⟩ := List.forall_mem_cons.mp hseq
    obtain ⟨e, he⟩ := exists_code ht hx
    rw [codedSymbols_cons he, List.append_assoc] at hs
    obtain ⟨hone, hbits⟩ := decodeOne_code h0 ht htree he hs
    have hstep : decodeSeq L ((x :: seq).length + m) (s.bitsPulled n) =
        decodeSeq L (seq.length + m) ((s.decoded L [x]).bitsPulled (n + e.len)) := by
      rw [List.length_cons, Nat.succ_add, decodeSeq, hone]
      rfl
    have hih := ih (s := s.decoded L [x]) h0 (htree.decoded [x]) hseq hbits
    rw [State.decoded_cons] at hih
    rw [hstep, codedSymbols_cons he, List.length_append, entryBits_length, ← Nat.add_assoc]
    exact hih

end Sys2Proof.Machine
end

section
/-!
PROOF. The section of a layer as it is read (`44_container.md` R203 to R206, R213). `GetLayer` goes through the parts of
a section one after another: from an aligned source each part leaves the bytes of the parts before it pulled and the
slot as far as it has been read. A source that ends in a part, and a part that is refused, stop it there.
-/

namespace Sys2Proof.Machine

/-! ## A slot replaced and bytes pulled -/

@[simp] theorem State.setLayer_pulled (s : State) (L : LayerNo) (ly : Layer) (k : Nat) :
    (s.pulled k).setLayer L ly = (s.setLayer L ly).pulled k := rfl

@[simp] theorem State.layer_pulled (s : State) (L : LayerNo) (k : Nat) : (s.pulled k).layer L = s.layer L := rfl

/-- `readBits_byte` in terms of `pulled`. -/
theorem readBits_pulled {s : State} {b : Byte} {rest : List Byte} (h0 : s.brRem = 0)
    (hd : s.srcData.drop s.srcPos = b :: rest) : readBits 8 s = .ok b (s.pulled 1) := by
  rw [readBits_byte h0 hd]
  simp [State.pulled, hd]

/-- A byte from a source that has ended. -/
theorem readBits_byte_end {s : State} (h0 : s.brRem = 0) (hd : s.srcData.drop s.srcPos = []) :
    readBits 8 s = .stop (s.takeFault .exhausted) := by
  have hs : sourceBits s = [] := sourceBits_eq_nil.mpr ⟨h0, hd⟩
  rcases readBits_cases 8 s with ⟨h, -⟩ | ⟨-, h, -⟩ | ⟨-, -, e⟩
  · exact absurd h (by decide)
  · simp [hs] at h
  · rw [e, hd, ← h0]
    rfl

/-- A field of a number that fits it, at an aligned reader. -/
theorem getU_fits {s : State} (h0 : s.brRem = 0) {n v : Nat} (hv : v < 256 ^ n) {rest : List Byte}
    (hd : s.srcData.drop s.srcPos = fieldBytes s.cfg.fieldByteOrder n v ++ rest) :
    getU n s = .ok v (s.pulled n) := by
  rw [getU_pulled n v rest s h0 hd, Nat.mod_eq_of_lt hv]

/-- What is left of the source behind a part of it that has been pulled. -/
theorem drop_pulled_of_length {s : State} {bytes rest : List Byte} {k : Nat}
    (hd : s.srcData.drop s.srcPos = bytes ++ rest) (hk : bytes.length = k) :
    (s.pulled k).srcData.drop (s.pulled k).srcPos = rest := by
  rw [← hk]
  exact State.drop_pulled hd

/-! ## The parts of a section -/

/-- A slot of whose table `t` has been read so far (`44_container.md` R204, R293). -/
def Layer.partRead (ly : Layer) (t : Table Word64) : Layer :=
  { ly with freq := t, treeValid := false, codeValid := false }

/-- What follows `LEN` in `GetLayer`: the value count, the codes, the skip to the byte boundary (`44_container.md`
R204). -/
def readSymbols (L : LayerNo) (s : State) : Res Nat :=
  (getU 4 s).andThen fun m s =>
  (decodeSeq L m (s.setLayer L { s.layer L with seq := [], rp := 0 })).andThen fun _ s => .ok m (skipByte s)

/-- A slot of which everything before the codes has been read (`44_container.md` R204). -/
def Layer.startRead (ly : Layer) (t : Table Word64) (len : Word32) : Layer :=
  { ly.tableRead t with lsLen := len, seq := [], rp := 0 }

/-- What follows the table in `GetLayer`: the tree, `LEN`, and the rest (`44_container.md` R204). -/
def readLength (L : LayerNo) (s : State) : Res Nat :=
  (getU 4 (buildTree L s)).andThen fun len s =>
    readSymbols L (s.setLayer L { s.layer L with lsLen := BitVec.ofNat 32 len })

/-- The parts of `GetLayer`. -/
theorem getLayer_eq (L : LayerNo) (s : State) : getLayer L s =
    (getU 4 s).andThen fun e t => if 256 < e then .stop (t.takeRefusal .tableSize)
      else (readEntries L e none (t.setLayer L ((t.layer L).partRead []))).andThen fun _ u => readLength L u := by
  rw [getLayer, readTable, Res.andThen_assoc]
  congr 1
  funext e t
  split
  · rfl
  · rw [Res.andThen_assoc]
    congr 1
    funext _ u
    rw [Res.andThen_assoc]
    rfl

theorem sectionTable_length (o : ByteOrder) (e : Nat) (t : Table Word64) :
    (sectionTable o e t).length = 4 + 9 * t.length := by
  rw [sectionTable, List.length_append, fieldBytes_length, tableBytes_length]

theorem sectionStart_length (o : ByteOrder) (t : Table Word64) (len m : Word32) :
    (sectionStart o t len m).length = 4 + 9 * t.length + 8 := by
  rw [sectionStart, List.length_append, List.length_append, sectionTable_length, fieldBytes_length, fieldBytes_length]

/-- A field cut off by the end of the source, behind bytes that have been pulled. -/
theorem getU_cut {s : State} (h0 : s.brRem = 0) {bytes part : List Byte} {k n : Nat}
    (hd : s.srcData.drop s.srcPos = bytes ++ part) (hk : bytes.length = k) (hp : part.length < n) :
    getU n (s.pulled k) = .stop ((s.pulled (s.srcData.drop s.srcPos).length).takeFault .exhausted) := by
  have hrest := drop_pulled_of_length hd hk
  rw [getU_short n (s.pulled k) h0 (by rw [hrest]; exact hp), hrest, State.pulled_pulled, hd, List.length_append, hk]

/-! ## The table -/

/-- In an ordered table the entries before one are below it. -/
theorem TableOrdered.lt_of_append {t u : Table Word64} {p : Symbol × Word64} (h : TableOrdered (t ++ p :: u)) :
    ∀ q ∈ t, q.1.toNat < p.1.toNat := by
  obtain ⟨-, -, hlt⟩ := List.pairwise_append.mp h
  exact fun q hq => hlt q hq p List.mem_cons_self

/-- The last Symbol of a table, the one the next entry is compared with (`44_container.md` R204). -/
def lastSymbol (t : Table Word64) : Option Symbol := t.getLast?.map Prod.fst

/-- The Symbol of the next entry of an ordered table is above the last one. -/
theorem TableOrdered.lastSymbol_lt {t u : Table Word64} {p : Symbol × Word64} (h : TableOrdered (t ++ p :: u)) :
    ((lastSymbol t).any fun y => decide (p.1.toNat ≤ y.toNat)) = false := by
  cases hl : t.getLast? with
  | none => rw [lastSymbol, hl]; rfl
  | some q =>
    have hlt := h.lt_of_append q (List.mem_of_getLast? hl)
    simpa [lastSymbol, hl] using hlt

section Reading
variable {L : LayerNo} {s : State} (h0 : s.brRem = 0)
include h0

/-- One entry of the table: its bytes, then the check of its Symbol. -/
theorem readEntries_entry {p : Symbol × Word64} {rest : List Byte} (prev : Option Symbol) (n : Nat)
    (hd : s.srcData.drop s.srcPos = p.1 :: fieldBytes s.cfg.fieldByteOrder 8 p.2.toNat ++ rest) :
    readEntries L (n + 1) prev s =
      if prev.any (fun y => decide (p.1.toNat ≤ y.toNat)) then .stop ((s.pulled 9).takeRefusal .tableOrder)
      else readEntries L n (some p.1)
        ((s.setLayer L { s.layer L with freq := Table.set (s.layer L).freq p.1 p.2 }).pulled 9) := by
  have hcount := getU_fits (n := 8) (s := s.pulled 1) h0 p.2.isLt (drop_pulled_of_length (bytes := [p.1]) hd rfl)
  rw [readEntries, readBits_pulled h0 hd, Res.andThen_ok, hcount, Res.andThen_ok, BitVec.ofNat_toNat,
    BitVec.setWidth_eq, State.pulled_pulled]
  rfl

/-- A source that ends inside an entry. -/
theorem readEntries_cut (prev : Option Symbol) (n : Nat) (hl : (s.srcData.drop s.srcPos).length < 9) :
    readEntries L (n + 1) prev s = .stop ((s.pulled (s.srcData.drop s.srcPos).length).takeFault .exhausted) := by
  cases hd : s.srcData.drop s.srcPos with
  | nil =>
    rw [readEntries, readBits_byte_end h0 hd, Res.andThen_stop, List.length_nil, State.pulled_zero]
  | cons x cs =>
    have hcs : (s.pulled 1).srcData.drop (s.pulled 1).srcPos = cs := drop_pulled_of_length (bytes := [x]) hd rfl
    rw [hd, List.length_cons] at hl
    rw [readEntries, readBits_pulled h0 hd, Res.andThen_ok, getU_short 8 (s.pulled 1) h0 (by rw [hcs]; omega), hcs,
      Res.andThen_stop, State.pulled_pulled, List.length_cons, Nat.add_comm]

/-- The first entries of a table, all in order (`44_container.md` R204). -/
theorem readEntries_table {t u : Table Word64} (hf : (s.layer L).freq = t) (ht : TableOrdered (t ++ u)) (n : Nat)
    {rest : List Byte} (hd : s.srcData.drop s.srcPos = tableBytes s.cfg.fieldByteOrder u ++ rest) :
    readEntries L (u.length + n) (lastSymbol t) s = readEntries L n (lastSymbol (t ++ u))
      ((s.setLayer L { s.layer L with freq := t ++ u }).pulled (9 * u.length)) := by
  induction u generalizing s t with
  | nil =>
    rw [List.append_nil, ← hf, State.setLayer_layer, List.length_nil, Nat.zero_add, Nat.mul_zero, State.pulled_zero]
  | cons p u ih =>
    have hd' : s.srcData.drop s.srcPos = (p.1 :: fieldBytes s.cfg.fieldByteOrder 8 p.2.toNat) ++
        (tableBytes s.cfg.fieldByteOrder u ++ rest) := by
      rw [hd, tableBytes, List.flatMap_cons, List.append_assoc]
      rfl
    have hlast : some p.1 = lastSymbol (t ++ [p]) := by rw [lastSymbol, List.getLast?_concat]; rfl
    have hassoc : t ++ p :: u = t ++ [p] ++ u := (List.append_cons t p u)
    have hnext := ih (s := (s.setLayer L { s.layer L with freq := t ++ [p] }).pulled 9) (t := t ++ [p]) h0
      (by rw [State.layer_pulled, State.layer_setLayer_same]) (hassoc ▸ ht)
      (drop_pulled_of_length (s := s.setLayer L { s.layer L with freq := t ++ [p] }) hd'
        (by rw [List.length_cons, fieldBytes_length]))
    rw [List.length_cons, Nat.succ_add, readEntries_entry h0 _ _ hd', if_neg (by rw [ht.lastSymbol_lt]; decide), hf,
      Table.set_append ht.lt_of_append, hlast, hnext, hassoc]
    simp [Nat.mul_add, Nat.add_comm]

/-! ## From the table to the codes -/

/-- A source that ends inside `E`. -/
theorem getLayer_cut (hl : (s.srcData.drop s.srcPos).length < 4) :
    getLayer L s = .stop ((s.pulled (s.srcData.drop s.srcPos).length).takeFault .exhausted) := by
  rw [getLayer_eq, getU_short 4 s h0 hl, Res.andThen_stop]

/-- Too many entries are refused before the slot is touched. -/
theorem getLayer_tableSize {e : Word32} {rest : List Byte} (he : 256 < e.toNat)
    (hd : s.srcData.drop s.srcPos = fieldBytes s.cfg.fieldByteOrder 4 e.toNat ++ rest) :
    getLayer L s = .stop ((s.pulled 4).takeRefusal .tableSize) := by
  rw [getLayer_eq, getU_fits h0 e.isLt hd, Res.andThen_ok, if_pos he]

/-- `GetLayer` up to some entries of the announced ones. -/
theorem getLayer_entries {t : Table Word64} (ht : TableOrdered t) {n : Nat} (hn : t.length + n ≤ 256)
    {rest : List Byte} (hd : s.srcData.drop s.srcPos = sectionTable s.cfg.fieldByteOrder (t.length + n) t ++ rest) :
    getLayer L s = (readEntries L n (lastSymbol t)
      ((s.setLayer L ((s.layer L).partRead t)).pulled (4 + 9 * t.length))).andThen fun _ u => readLength L u := by
  rw [sectionTable, List.append_assoc] at hd
  have hcount := getU_fits h0 (by omega) hd
  have htable := readEntries_table (L := L) (t := []) (u := t) (n := n)
    (s := (s.setLayer L ((s.layer L).partRead [])).pulled 4) h0
    (by rw [State.layer_pulled, State.layer_setLayer_same]; rfl) ht
    (drop_pulled_of_length (s := s.setLayer L ((s.layer L).partRead [])) hd (fieldBytes_length ..))
  have hslot : ((s.setLayer L ((s.layer L).partRead [])).pulled 4).setLayer L
      { ((s.setLayer L ((s.layer L).partRead [])).pulled 4).layer L with freq := t } =
      (s.setLayer L ((s.layer L).partRead t)).pulled 4 := by
    simp only [State.layer_pulled, State.layer_setLayer_same, State.setLayer_pulled, State.setLayer_setLayer]
    rfl
  rw [List.nil_append, hslot, State.pulled_pulled] at htable
  rw [getLayer_eq, hcount, Res.andThen_ok, if_neg (by omega), ← htable]
  rfl

/-- An entry that does not stand above the one before it is refused, the entries before it read (`44_container.md`
R205). -/
theorem getLayer_tableOrder {t : Table Word64} {p q : Symbol × Word64} {e : Nat} (he : e ≤ 256)
    (hl : t.length + 2 ≤ e) (ht : TableOrdered (t ++ [p])) (hq : q.1.toNat ≤ p.1.toNat) {rest : List Byte}
    (hd : s.srcData.drop s.srcPos = sectionTable s.cfg.fieldByteOrder e (t ++ [p, q]) ++ rest) :
    getLayer L s = .stop (((s.setLayer L ((s.layer L).partRead (t ++ [p]))).pulled (4 + 9 * (t.length + 2))).takeRefusal
      .tableOrder) := by
  obtain ⟨n, rfl⟩ : ∃ n, e = (t ++ [p]).length + (n + 1) := ⟨e - t.length - 2, by simp; omega⟩
  have hentries : sectionTable s.cfg.fieldByteOrder ((t ++ [p]).length + (n + 1)) (t ++ [p, q]) ++ rest =
      sectionTable s.cfg.fieldByteOrder ((t ++ [p]).length + (n + 1)) (t ++ [p]) ++
        (q.1 :: fieldBytes s.cfg.fieldByteOrder 8 q.2.toNat ++ rest) := by
    simp [sectionTable, tableBytes]
  rw [hentries] at hd
  have hrest := drop_pulled_of_length (s := s.setLayer L ((s.layer L).partRead (t ++ [p]))) hd (sectionTable_length ..)
  have hlast : lastSymbol (t ++ [p]) = some p.1 := by rw [lastSymbol, List.getLast?_concat]; rfl
  rw [getLayer_entries h0 ht he hd, readEntries_entry (by exact h0) _ _ hrest, hlast,
    if_pos (by simpa using hq), Res.andThen_stop, State.pulled_pulled, List.length_append]
  rfl

/-- A source that ends inside an announced entry, the entries before it read. -/
theorem getLayer_cut_entry {t : Table Word64} {e : Nat} (he : e ≤ 256) (hl : t.length < e)
    (ht : TableOrdered t) {part : List Byte} (hp : part.length < 9)
    (hd : s.srcData.drop s.srcPos = sectionTable s.cfg.fieldByteOrder e t ++ part) :
    getLayer L s = .stop (((s.setLayer L ((s.layer L).partRead t)).pulled (s.srcData.drop s.srcPos).length).takeFault
      .exhausted) := by
  obtain ⟨n, rfl⟩ : ∃ n, e = t.length + (n + 1) := ⟨e - t.length - 1, by omega⟩
  have hrest := drop_pulled_of_length (s := s.setLayer L ((s.layer L).partRead t)) hd (sectionTable_length ..)
  rw [getLayer_entries h0 ht he hd, readEntries_cut (by exact h0) _ _ (by rw [hrest]; exact hp), hrest,
    Res.andThen_stop, State.pulled_pulled, hd, List.length_append, sectionTable_length]

/-- `GetLayer` up to its whole table: the tree is built of it. -/
theorem getLayer_table {t : Table Word64} (ht : TableOrdered t) {rest : List Byte}
    (hd : s.srcData.drop s.srcPos = sectionTable s.cfg.fieldByteOrder t.length t ++ rest) :
    getLayer L s = (getU 4 ((s.setLayer L ((s.layer L).tableRead t)).pulled (4 + 9 * t.length))).andThen fun len u =>
      readSymbols L (u.setLayer L { u.layer L with lsLen := BitVec.ofNat 32 len }) := by
  have hbuild : buildTree L ((s.setLayer L ((s.layer L).partRead t)).pulled (4 + 9 * t.length)) =
      (s.setLayer L ((s.layer L).tableRead t)).pulled (4 + 9 * t.length) := by
    rw [buildTree, State.layer_pulled, State.layer_setLayer_same, State.setLayer_pulled, State.setLayer_setLayer]
    rfl
  rw [getLayer_entries h0 ht (n := 0) (Table.length_le ht) hd, readEntries, Res.andThen_ok, readLength, hbuild]

/-- A source that ends inside `LEN`: the tree is built. -/
theorem getLayer_cut_length {t : Table Word64} (ht : TableOrdered t) {part : List Byte} (hp : part.length < 4)
    (hd : s.srcData.drop s.srcPos = sectionTable s.cfg.fieldByteOrder t.length t ++ part) :
    getLayer L s = .stop (((s.setLayer L ((s.layer L).tableRead t)).pulled (s.srcData.drop s.srcPos).length).takeFault
      .exhausted) := by
  have hcut := getU_cut (s := s.setLayer L ((s.layer L).tableRead t)) h0 hd (sectionTable_length ..) hp
  rw [getLayer_table h0 ht hd, hcut, Res.andThen_stop]
  rfl

/-- `GetLayer` up to `LEN`, which is stored and not used (`44_container.md` R203). -/
theorem getLayer_length {t : Table Word64} (ht : TableOrdered t) {len : Word32} {rest : List Byte}
    (hd : s.srcData.drop s.srcPos =
      sectionTable s.cfg.fieldByteOrder t.length t ++ fieldBytes s.cfg.fieldByteOrder 4 len.toNat ++ rest) :
    getLayer L s = readSymbols L
      ((s.setLayer L { (s.layer L).tableRead t with lsLen := len }).pulled (4 + 9 * t.length + 4)) := by
  rw [List.append_assoc] at hd
  have hlen := getU_fits (s := (s.setLayer L ((s.layer L).tableRead t)).pulled (4 + 9 * t.length)) h0 len.isLt
    (drop_pulled_of_length (s := s.setLayer L ((s.layer L).tableRead t)) hd (sectionTable_length ..))
  rw [getLayer_table h0 ht hd, hlen, Res.andThen_ok, BitVec.ofNat_toNat, BitVec.setWidth_eq, State.pulled_pulled,
    State.layer_pulled, State.layer_setLayer_same, State.setLayer_pulled, State.setLayer_setLayer]

/-- A source that ends inside the value count. -/
theorem getLayer_cut_count {t : Table Word64} (ht : TableOrdered t) {len : Word32} {part : List Byte}
    (hp : part.length < 4) (hd : s.srcData.drop s.srcPos =
      sectionTable s.cfg.fieldByteOrder t.length t ++ fieldBytes s.cfg.fieldByteOrder 4 len.toNat ++ part) :
    getLayer L s = .stop (((s.setLayer L { (s.layer L).tableRead t with lsLen := len }).pulled
      (s.srcData.drop s.srcPos).length).takeFault .exhausted) := by
  have hcut := getU_cut (s := s.setLayer L { (s.layer L).tableRead t with lsLen := len }) h0 hd
    (k := 4 + 9 * t.length + 4) (by rw [List.length_append, sectionTable_length, fieldBytes_length]) hp
  rw [getLayer_length h0 ht hd, readSymbols, hcut, Res.andThen_stop]
  rfl

/-- `GetLayer` up to the codes. -/
theorem getLayer_start {t : Table Word64} (ht : TableOrdered t) {len m : Word32} {rest : List Byte}
    (hd : s.srcData.drop s.srcPos = sectionStart s.cfg.fieldByteOrder t len m ++ rest) :
    getLayer L s = (decodeSeq L m.toNat
      ((s.setLayer L ((s.layer L).startRead t len)).pulled (4 + 9 * t.length + 8))).andThen fun _ u =>
        .ok m.toNat (skipByte u) := by
  rw [sectionStart, List.append_assoc] at hd
  have hcount := getU_fits (s := (s.setLayer L { (s.layer L).tableRead t with lsLen := len }).pulled
    (4 + 9 * t.length + 4)) h0 m.isLt
    (drop_pulled_of_length (s := s.setLayer L { (s.layer L).tableRead t with lsLen := len }) hd
      (by rw [List.length_append, sectionTable_length, fieldBytes_length]))
  rw [getLayer_length h0 ht hd, readSymbols, hcount, Res.andThen_ok, State.pulled_pulled, State.layer_pulled,
    State.layer_setLayer_same, State.setLayer_pulled, State.setLayer_setLayer]
  rfl

end Reading

/-! ## The codes -/

theorem Layer.startRead_treeOf (ly : Layer) (t : Table Word64) (len : Word32) : (ly.startRead t len).TreeOf t :=
  ⟨rfl, rfl, rfl⟩

section Codes
variable {L : LayerNo} {s : State} (h0 : s.brRem = 0)
include h0

/-- A value count above 0 without a table: there is no tree to decode with (`44_container.md` R206). -/
theorem getLayer_noTree {len m : Word32} (hm : m ≠ 0) {rest : List Byte}
    (hd : s.srcData.drop s.srcPos = sectionStart s.cfg.fieldByteOrder [] len m ++ rest) :
    getLayer L s = .stop (((s.setLayer L ((s.layer L).startRead [] len)).pulled 12).takeRefusal .noTree) := by
  obtain ⟨n, hn⟩ : ∃ n, m.toNat = n + 1 :=
    Nat.exists_eq_add_one_of_ne_zero fun h => hm (BitVec.eq_of_toNat_eq (h.trans rfl))
  have hroot : (((s.setLayer L ((s.layer L).startRead [] len)).pulled 12).layer L).root = none := by
    rw [State.layer_pulled, State.layer_setLayer_same]
    rfl
  rw [getLayer_start h0 .nil hd, hn, decodeSeq, List.length_nil, Nat.mul_zero, decodeOne_noTree (.inr hroot)]
  rfl

variable {t : Table Word64} (ht : TableOrdered t) {seq : List Symbol} (hseq : ∀ x ∈ seq, (Table.get t x).isSome)
  {len : Word32} {coded : List Byte} (hcodes : codedSymbols (codeOf t) seq <+: bytesBits coded)
include ht hseq hcodes

/-- The first Symbols of a section are decoded, byte by byte behind its start. -/
theorem decodeSeq_section {m : Word32} {rest : List Byte}
    (hd : s.srcData.drop s.srcPos = sectionStart s.cfg.fieldByteOrder t len m ++ coded ++ rest) (n : Nat) :
    ∃ u tail, u = (s.setLayer L { (s.layer L).startRead t len with seq := seq }).pulled (4 + 9 * t.length + 8) ∧
      codedSymbols (codeOf t) seq ++ tail = bytesBits coded ∧
      decodeSeq L (seq.length + n) ((s.setLayer L ((s.layer L).startRead t len)).pulled (4 + 9 * t.length + 8)) =
        decodeSeq L n (u.bitsPulled (codedSymbols (codeOf t) seq).length) ∧
      sourceBits (u.bitsPulled (codedSymbols (codeOf t) seq).length) = tail ++ bytesBits rest := by
  obtain ⟨tail, htail⟩ := hcodes
  rw [List.append_assoc] at hd
  obtain ⟨v, hv⟩ : ∃ v, v = (s.setLayer L ((s.layer L).startRead t len)).pulled (4 + 9 * t.length + 8) := ⟨_, rfl⟩
  have hlayer : v.layer L = (s.layer L).startRead t len := by
    rw [hv, State.layer_pulled, State.layer_setLayer_same]
  have hv0 : v.brRem = 0 := hv ▸ h0
  have hdrop : v.srcData.drop v.srcPos = coded ++ rest := by
    rw [hv]
    exact drop_pulled_of_length (s := s.setLayer L ((s.layer L).startRead t len)) hd (sectionStart_length ..)
  have hbits : sourceBits (v.bitsPulled 0) = codedSymbols (codeOf t) seq ++ (tail ++ bytesBits rest) := by
    rw [State.bitsPulled_zero hv0, sourceBits_aligned hv0, hdrop, bytesBits_append, ← htail, List.append_assoc]
  obtain ⟨hdec, hrest⟩ := decodeSeq_codes hv0 ht (hlayer ▸ (s.layer L).startRead_treeOf t len) hseq n hbits
  rw [State.bitsPulled_zero hv0, Nat.zero_add] at hdec
  rw [Nat.zero_add] at hrest
  refine ⟨v.decoded L seq, tail, ?_, htail, hv ▸ hdec, hrest⟩
  rw [State.decoded, hlayer, hv, State.setLayer_pulled, State.setLayer_setLayer]
  rfl

/-- A whole section is read, whatever `LEN` and the pad bits hold (`44_container.md` R203). -/
theorem getLayer_codes {m : Word32} (hm : seq.length = m.toNat)
    (hl : coded.length = ((codedSymbols (codeOf t) seq).length + 7) / 8) {rest : List Byte}
    (hd : s.srcData.drop s.srcPos = sectionStart s.cfg.fieldByteOrder t len m ++ coded ++ rest) :
    getLayer L s = .ok m.toNat ((s.setLayer L { (s.layer L).startRead t len with seq := seq }).pulled
      (4 + 9 * t.length + 8 + coded.length)) := by
  obtain ⟨u, -, rfl, -, hdec, -⟩ := decodeSeq_section (L := L) h0 ht hseq hcodes hd 0
  rw [Nat.add_zero, hm] at hdec
  rw [getLayer_start h0 ht (by rw [hd, List.append_assoc]), hdec, decodeSeq, Res.andThen_ok,
    skipByte_bitsPulled (by exact h0), State.pulled_pulled, hl]

/-- A source that ends inside the code of the next Symbol. -/
theorem getLayer_cut_codes {x : Symbol} (hx : (Table.get t x).isSome) {m : Word32} (hm : seq.length < m.toNat)
    (hprefix : bytesBits coded <+: codedSymbols (codeOf t) (seq ++ [x]))
    (hne : bytesBits coded ≠ codedSymbols (codeOf t) (seq ++ [x]))
    (hd : s.srcData.drop s.srcPos = sectionStart s.cfg.fieldByteOrder t len m ++ coded) :
    getLayer L s = .stop (((s.setLayer L { (s.layer L).startRead t len with seq := seq }).pulled
      (s.srcData.drop s.srcPos).length).takeFault .exhausted) := by
  obtain ⟨e, he⟩ := exists_code ht hx
  obtain ⟨n, hn⟩ : ∃ n, m.toNat = seq.length + (n + 1) := ⟨m.toNat - seq.length - 1, by omega⟩
  obtain ⟨u, tail, hu, htail, hdec, hbits⟩ :=
    decodeSeq_section (L := L) h0 ht hseq hcodes (rest := []) (hd.trans (List.append_nil _).symm) (n + 1)
  have hlast : codedSymbols (codeOf t) (seq ++ [x]) = codedSymbols (codeOf t) seq ++ entryBits e := by
    rw [codedSymbols, List.flatMap_append]
    exact congrArg _ ((codedSymbols_cons he []).trans (List.append_nil _))
  have hpos : (codedSymbols (codeOf t) seq).length ≤ 8 * coded.length := bytesBits_length coded ▸ hcodes.length_le
  rw [hlast, ← htail] at hprefix hne
  rw [bytesBits_nil, List.append_nil] at hbits
  have htailPrefix : tail <+: entryBits e := (List.prefix_append_right_inj _).mp hprefix
  have htailLt : tail.length < e.len := by
    rw [← entryBits_length]
    refine lt_of_le_of_ne htailPrefix.length_le fun h => hne ?_
    rw [htailPrefix.eq_of_length h]
  have hu0 : u.brRem = 0 := hu ▸ h0
  have hdrop : u.srcData.drop u.srcPos = coded := by
    rw [hu]
    exact drop_pulled_of_length (s := s.setLayer L { (s.layer L).startRead t len with seq := seq }) hd
      (sectionStart_length ..)
  have htree : (u.layer L).TreeOf t := by
    rw [hu, State.layer_pulled, State.layer_setLayer_same]
    exact ⟨rfl, rfl, rfl⟩
  have hcut := decodeOne_cut hu0 ht htree he (hdrop ▸ hpos) (hbits ▸ htailPrefix) (hbits ▸ htailLt)
  rw [getLayer_start h0 ht hd, hn, hdec, decodeSeq, hcut, hdrop, hu, State.pulled_pulled, hd, List.length_append,
    sectionStart_length]
  rfl

end Codes

/-! ## The section written is the section read -/

/-- Eight bits are a byte. -/
theorem exists_byte {bs : List Bool} (h : bs.length = 8) : ∃ b, lowBits b 8 = bs :=
  ⟨(pathEntry bs).bits, by rw [← h]; exact entryBits_pathEntry h.le⟩

/-- Packed bits begin with the bits; the rest is padding (`44_container.md` R201). -/
theorem prefix_packBits (bs : List Bool) : bs <+: bytesBits (packBits bs) := by
  by_cases h8 : bs.length < 8
  · by_cases hnil : bs = []
    · rw [hnil]
      exact List.nil_prefix
    · obtain ⟨b, hb⟩ := exists_byte (bs := bs ++ List.replicate (8 - bs.length) false)
        (by rw [List.length_append, List.length_replicate]; omega)
      rw [packBits_pad (List.length_pos_of_ne_nil hnil) (by omega) hb, bytesBits_cons, hb, List.append_assoc]
      exact List.prefix_append ..
  · obtain ⟨b, hb⟩ := exists_byte (bs := bs.take 8) (List.length_take_of_le (by omega))
    obtain ⟨rest, hrest⟩ : ∃ rest, bs = lowBits b 8 ++ rest := ⟨bs.drop 8, by rw [hb, List.take_append_drop]⟩
    have htail := prefix_packBits rest
    rw [hrest, packBits_byte, bytesBits_cons]
    exact (List.prefix_append_right_inj _).mpr htail
termination_by bs.length
decreasing_by rw [hrest, List.length_append, lowBits_length]; omega

/-- The section of a slot that can be written, in the terms of the sections that are read. -/
theorem sectionBytes_rebuilt {cfg : Config} {ly : Layer} (h : Writable cfg ly) :
    sectionBytes cfg ly.rebuilt = sectionStart cfg.fieldByteOrder ly.freq
      (BitVec.ofNat 32 (lengthField cfg (codedBytes ly.rebuilt).length)) (BitVec.ofNat 32 ly.seq.length) ++
        codedBytes ly.rebuilt := by
  obtain ⟨-, -, hcount, hlen⟩ := h
  have hfits : ∀ n, n ≤ 4294967295 → (BitVec.ofNat 32 n).toNat = n := fun n hn => by
    rw [BitVec.toNat_ofNat]
    omega
  rw [sectionStart, hfits _ hcount, hfits (lengthField cfg _) hlen]
  rfl

/-- `GetLayer` over the section of a slot that can be written. -/
theorem getLayer_section {L : LayerNo} {s : State} (h0 : s.brRem = 0) {ly : Layer} (h : Writable s.cfg ly)
    {rest : List Byte} (hd : s.srcData.drop s.srcPos = sectionBytes s.cfg ly.rebuilt ++ rest) :
    getLayer L s = .ok ly.seq.length ((s.setLayer L (readBack s.cfg ly (s.layer L).code)).pulled
      (sectionBytes s.cfg ly.rebuilt).length) := by
  have hsection := sectionBytes_rebuilt h
  obtain ⟨ht, hseq, hcount, -⟩ := h
  have hm : (BitVec.ofNat 32 ly.seq.length).toNat = ly.seq.length := by
    rw [BitVec.toNat_ofNat]
    exact Nat.mod_eq_of_lt (Nat.lt_succ_of_le hcount)
  rw [hsection] at hd ⊢
  rw [getLayer_codes h0 ht hseq (prefix_packBits _) hm.symm (packBits_length _) hd, hm, List.length_append,
    sectionStart_length]
  rfl

/-! ## The command -/

theorem exec_cfGetlayer_aligned {s : State} {a : Byte} {L : LayerNo} (hr : Running s) (ha : a.toNat = L.num)
    (h0 : s.brRem = 0) :
    exec (.cfGetlayer a) s = ((getLayer L s).andThen fun m t => okWith m t).finish := by
  rw [exec, execCfGetlayer, gated_withLayerIndex_num hr ha, whenReaderAligned_aligned h0]

/-- Settles O44: `GetLayer` over a whole section, and its stop in each part of one. -/
theorem layerSectionIsRead : Obligations.LayerSectionIsRead := by
  rintro s a L o data old hr ha h0 rfl rfl rfl
  rw [exec_cfGetlayer_aligned hr ha h0]
  refine ⟨fun ly rest h hd => ?written, fun t seq len m coded rest ht hseq hm hcodes hl hd => ?any,
    fun e rest he hd => ?tableSize, fun e t p q rest he hl ht hq hd => ?tableOrder, fun len m rest hm hd => ?noTree,
    fun hl => ?cut, fun e t part he hl ht hp hd => ?cutEntry, fun t part ht hp hd => ?cutLength,
    fun t len part ht hp hd => ?cutCount,
    fun t seq x len m coded ht hseq hm hcodes hprefix hne hd => ?cutCodes⟩
  case written =>
    rw [getLayer_section h0 h hd]
    rfl
  case any =>
    rw [getLayer_codes h0 ht hseq hcodes hm hl hd, Res.andThen_ok, okWith_eq, Response.okValue_toNat]
    rfl
  case tableSize =>
    rw [getLayer_tableSize h0 he hd]
    rfl
  case tableOrder =>
    rw [getLayer_tableOrder h0 he hl ht hq hd]
    rfl
  case noTree =>
    rw [getLayer_noTree h0 hm hd]
    rfl
  case cut =>
    rw [getLayer_cut h0 hl]
    rfl
  case cutEntry =>
    rw [getLayer_cut_entry h0 he hl ht hp hd]
    rfl
  case cutLength =>
    rw [getLayer_cut_length h0 ht hp hd]
    rfl
  case cutCount =>
    rw [getLayer_cut_count h0 ht hp hd]
    rfl
  case cutCodes =>
    obtain ⟨hseq, hx⟩ := List.forall_mem_append.mp hseq
    rw [getLayer_cut_codes h0 ht hseq hcodes (hx x List.mem_cons_self) hm hprefix hne hd]
    rfl

end Sys2Proof.Machine
end

section
/-!
PROOF. The container (`44_container.md` R190, R208, R209, R214, R215): the header, then the sections of the layers 1 to
`LAYERS` one after another. What `Serialize` and `Deserialize` do with the layers before one they stop at is said once
for any list of layers with others behind it.
-/

namespace Sys2Proof.Machine

/-! ## Layers -/

/-- A number of a layer. -/
theorem LayerNo.exists_num {n : Nat} (h : 1 ≤ n) (h8 : n ≤ 8) : ∃ N : LayerNo, n = N.num := by
  cases hN : LayerNo.fromNat n with
  | none =>
    have := LayerNo.fromNat_eq_none.mp hN
    omega
  | some N => exact ⟨N, LayerNo.fromNat_eq_some.mp hN⟩

/-- The layers 1 to `n` around one of them. -/
theorem LayerNo.upTo_around {L : LayerNo} {n : Nat} (h : L.num ≤ n) (h8 : n ≤ 8) :
    ∃ rest, LayerNo.upTo n = LayerNo.upTo (L.num - 1) ++ L :: rest := by
  obtain ⟨N, rfl⟩ := LayerNo.exists_num (L.num_pos.trans h) h8
  exact LayerNo.upTo_split h

/-! ## Sections written one after another -/

/-- A slot with an ordered table that lists its Symbols has a code of at most eight bits for each of them once its tree
is built (`42_huffman.md` R147). -/
theorem Layer.rebuilt_encodable {ly : Layer} (ht : TableOrdered ly.freq)
    (hseq : ∀ x ∈ ly.seq, (Table.get ly.freq x).isSome) : ly.rebuilt.Encodable := by
  intro x hx
  obtain ⟨e, he⟩ := exists_code ht (hseq x hx)
  obtain ⟨path, hpath, rfl⟩ := (get_codeOf ht).mp he
  exact ⟨_, he, hpath.length_le ht⟩

/-- `Traverse` of the tree just built (`44_container.md` R208). -/
theorem traverse_buildTree (L : LayerNo) (s : State) :
    traverse L (buildTree L s) = .ok () (s.setLayer L (s.layer L).rebuilt) := by
  rw [traverse, State.layer_buildTree, Layer.buildTree_nodes, Layer.buildTree_root, codeTable_eq_codeOf]
  exact congrArg (Res.ok ()) (State.setLayer_setLayer ..)

/-- The sections of the listed slots, as `CF.SER` writes them (`44_container.md` R208). -/
def sections (cfg : Config) (f : LayerNo → Layer) (Ls : List LayerNo) : List Byte :=
  Ls.flatMap fun L => sectionBytes cfg (f L).rebuilt

theorem sections_cons (cfg : Config) (f : LayerNo → Layer) (L : LayerNo) (Ls : List LayerNo) :
    sections cfg f (L :: Ls) = sectionBytes cfg (f L).rebuilt ++ sections cfg f Ls := List.flatMap_cons

/-- A container up to some layer is its header and the sections of the layers (`44_container.md` R190). -/
theorem containerPrefix_eq (s : State) (n : Nat) :
    containerPrefix s n = headerBytes s ++ sections s.cfg s.layer (LayerNo.upTo n) := rfl

section Serialize
variable {s : State}

/-- A slot whose length field does not fit is refused with its tree built (`60_exceptions.md` R293). -/
theorem serializeLayers_capacity {L : LayerNo} (ht : TableOrdered (s.layer L).freq)
    (hseq : ∀ x ∈ (s.layer L).seq, (Table.get (s.layer L).freq x).isSome)
    (hlen : 4294967295 < lengthField s.cfg (codedBytes (s.layer L).rebuilt).length) (Ls : List LayerNo) :
    serializeLayers (L :: Ls) s = .stop ((s.setLayer L (s.layer L).rebuilt).takeRefusal .capacity) := by
  have hlayer : (s.setLayer L (s.layer L).rebuilt).layer L = (s.layer L).rebuilt := State.layer_setLayer_same ..
  have hput := putLayer_capacity (L := L) (s := s.setLayer L (s.layer L).rebuilt) (by rw [hlayer]; rfl)
    (by rw [hlayer]; exact Layer.rebuilt_encodable ht hseq) (by rw [hlayer]; exact hlen)
  rw [serializeLayers, traverse_buildTree, Res.andThen_ok, hput, Res.andThen_stop]

variable (h0 : s.bwFill = 0) (ho : s.bwOpen = true)
include h0 ho

/-- A slot that can be written. -/
theorem serializeLayers_writable {L : LayerNo} (h : Writable s.cfg (s.layer L)) (Ls : List LayerNo) :
    serializeLayers (L :: Ls) s =
      serializeLayers Ls ((s.setLayer L (s.layer L).rebuilt).sent (sectionBytes s.cfg (s.layer L).rebuilt)) := by
  obtain ⟨ht, hseq, -, hlen⟩ := h
  have hlayer : (s.setLayer L (s.layer L).rebuilt).layer L = (s.layer L).rebuilt := State.layer_setLayer_same ..
  have hput := putLayer_aligned (L := L) (s := s.setLayer L (s.layer L).rebuilt) (by rw [hlayer]; rfl)
    (by rw [hlayer]; exact Layer.rebuilt_encodable ht hseq) (by rw [hlayer]; exact hlen) h0 ho
  rw [hlayer] at hput
  rw [serializeLayers, traverse_buildTree, Res.andThen_ok, hput, Res.andThen_ok]
  rfl

/-- Slots that can be written, behind bytes sent and before other slots. -/
theorem serializeLayers_append {Ks : List LayerNo} (hnd : Ks.Nodup) (h : ∀ K ∈ Ks, Writable s.cfg (s.layer K))
    (Ls : List LayerNo) (bytes : List Byte) : ∃ ls,
    serializeLayers (Ks ++ Ls) (s.sent bytes) =
        serializeLayers Ls (State.sent { s with layers := ls } (bytes ++ sections s.cfg s.layer Ks)) ∧
      ∀ K, ls.get K = if K ∈ Ks then (s.layer K).rebuilt else s.layer K := by
  induction Ks generalizing s bytes with
  | nil => exact ⟨s.layers, by rw [sections, List.flatMap_nil, List.append_nil]; rfl, fun K => rfl⟩
  | cons L Ks ih =>
    obtain ⟨hL, hnd⟩ := List.nodup_cons.mp hnd
    obtain ⟨hfirst, hrest⟩ := List.forall_mem_cons.mp h
    have hother : ∀ K ∈ Ks, (s.setLayer L (s.layer L).rebuilt).layer K = s.layer K := fun K hK =>
      s.layer_setLayer_ne L K _ fun e => hL (e ▸ hK)
    have hsections : sections s.cfg (s.setLayer L (s.layer L).rebuilt).layer Ks = sections s.cfg s.layer Ks :=
      List.flatMap_congr fun K hK => by rw [hother K hK]
    obtain ⟨ls, hser, hls⟩ := ih (s := s.setLayer L (s.layer L).rebuilt) h0 ho hnd
      (fun K hK => by rw [hother K hK]; exact hrest K hK) (bytes ++ sectionBytes s.cfg (s.layer L).rebuilt)
    have hone : serializeLayers (L :: (Ks ++ Ls)) (s.sent bytes) = serializeLayers (Ks ++ Ls)
        ((s.setLayer L (s.layer L).rebuilt).sent (bytes ++ sectionBytes s.cfg (s.layer L).rebuilt)) := by
      rw [← State.sent_sent]
      exact serializeLayers_writable (s := s.sent bytes) h0 ho hfirst _
    refine ⟨ls, ?_, fun K => ?_⟩
    · rw [List.cons_append, hone, hser, sections_cons, ← List.append_assoc, ← hsections]
      rfl
    · rw [hls K]
      by_cases hK : K = L
      · rw [hK, if_neg hL, State.layer_setLayer_same, if_pos List.mem_cons_self]
      · rw [State.layer_setLayer_ne _ _ _ _ hK]
        simp only [List.mem_cons, hK, false_or]

end Serialize

/-! ## `CF.SER` -/

theorem exec_cfSer_aligned {s : State} (hr : Running s) (h0 : s.bwFill = 0) :
    exec .cfSer s = ((serialize s).andThen fun _ t => okWith 0 t).finish := by
  rw [exec, execCfSer, gated_running hr, whenWriterAligned_aligned h0]

/-- `Serialize` past its refusals, at a closed writer (`60_exceptions.md` R290). -/
theorem serialize_closed {s : State} (hh : s.huff = true) (h8 : s.layersField ≤ 8) (ho : s.bwOpen = false) :
    serialize s = .stop (s.takeRefusal .writerClosed) := by
  rw [serialize, if_neg (by simp [hh]), if_neg (Nat.not_lt.mpr h8), putHeader_closed ho, Res.andThen_stop]

/-- `Serialize` past its refusals, at an aligned open writer: the header, then the layer loop. -/
theorem serialize_open {s : State} (hh : s.huff = true) (h8 : s.layersField ≤ 8) (h0 : s.bwFill = 0)
    (ho : s.bwOpen = true) :
    serialize s = serializeLayers (LayerNo.upTo s.layersField) (s.sent (headerBytes s)) := by
  rw [serialize, if_neg (by simp [hh]), if_neg (Nat.not_lt.mpr h8), putHeader_aligned h0 ho, Res.andThen_ok]
  rfl

/-- The layers before `L`, and `L` with them. -/
theorem LayerNo.mem_upTo_pred_or_eq {K L : LayerNo} : K = L ∨ K ∈ LayerNo.upTo (L.num - 1) ↔ K.num ≤ L.num := by
  rw [LayerNo.mem_upTo_pred, Nat.le_iff_lt_or_eq, or_comm]
  exact or_congr_right ⟨congrArg LayerNo.num, LayerNo.num_inj⟩

/-- Settles O45: the refusals of `Serialize`, and its layer loop with and without a layer that does not fit. -/
theorem containerIsWritten : Obligations.ContainerIsWritten := by
  intro s hr h0
  rw [exec_cfSer_aligned hr h0]
  refine ⟨fun hh => ?nonHuffman, fun hh h8 => ?layerCount, fun hh h8 ho => ?closed, fun hh h8 ho h => ?written,
    fun L hh h8 ho hL h ht hseq hlen => ?capacity⟩
  case nonHuffman =>
    rw [serialize, if_pos hh]
    rfl
  case layerCount =>
    rw [serialize, if_neg (by simp [hh]), if_pos h8]
    rfl
  case closed =>
    rw [serialize_closed hh h8 ho]
    rfl
  case written =>
    have hmem : ∀ K, K ∈ LayerNo.upTo s.layersField ↔ K.num ≤ s.layersField := fun _ => LayerNo.mem_upTo h8
    obtain ⟨ls, hser, hls⟩ := serializeLayers_append h0 ho (LayerNo.upTo_nodup s.layersField)
      (fun K hK => h K ((hmem K).mp hK)) [] (headerBytes s)
    rw [List.append_nil] at hser
    refine ⟨ls, ?_, fun K => (hls K).trans (if_congr (hmem K) rfl rfl)⟩
    rw [serialize_open hh h8 h0 ho, hser]
    rfl
  case capacity =>
    obtain ⟨rest, hsplit⟩ := LayerNo.upTo_around hL h8
    obtain ⟨ls, hser, hls⟩ := serializeLayers_append h0 ho (LayerNo.upTo_nodup (L.num - 1))
      (fun K hK => h K (LayerNo.mem_upTo_pred.mp hK)) (L :: rest) (headerBytes s)
    have hlayer : ls.get L = s.layers.get L :=
      (hls L).trans (if_neg fun hL => Nat.lt_irrefl _ (LayerNo.mem_upTo_pred.mp hL))
    rw [← hlayer] at ht hseq hlen
    refine ⟨ls.set L (ls.get L).rebuilt, ?_, fun K => ?_⟩
    · rw [serialize_open hh h8 h0 ho, hsplit, hser,
        serializeLayers_capacity (by exact ht) (by exact hseq) (by exact hlen), Res.andThen_stop]
      rfl
    · rw [Layers.get_set, hlayer, hls K]
      simp only [← LayerNo.mem_upTo_pred_or_eq]
      by_cases hK : K = L
      · rw [if_pos hK, if_pos (.inl hK), hK]
      · simp only [hK, if_false, false_or]
        rfl

end Sys2Proof.Machine
end

section
/-!
PROOF. The container as it is read (`44_container.md` R195, R209, R214, R215): the header is loaded, then the sections
of the layers before any layer are read into their slots, so that `Deserialize` ends as `GetLayer` does in that layer.
-/

namespace Sys2Proof.Machine

/-! ## The header of a container -/

/-- The reserved bit lies outside `LAYERS` (`10_state.md` R28). -/
theorem State.headerFrom_layersField (s h : State) : (s.headerFrom h).layersField = h.layersField := by
  have hbits : ∀ b : Byte, (b &&& 0xEF).extractLsb' 0 4 = b.extractLsb' 0 4 := by decide
  exact congrArg BitVec.toNat (hbits h.hFlags)

/-- The reserved bit is not `HUFF` (`10_state.md` R28). -/
theorem State.headerFrom_huff (s h : State) : (s.headerFrom h).huff = h.huff := by
  have hbit : ∀ b : Byte, (b &&& 0xEF).getLsbD 6 = b.getLsbD 6 := by decide
  exact hbit h.hFlags

/-- `Deserialize` over the header of `h`: the refusals with the header loaded, then the layer loop on empty slots. -/
theorem deserialize_header {s h : State} {rest : List Byte} (h0 : s.brRem = 0) (hc : h.cfg = s.cfg)
    (hd : s.srcData.drop s.srcPos = headerBytes h ++ rest) : deserialize s =
      if 8 < h.layersField then .stop (((s.pulled 22).headerFrom h).takeRefusal .layerCount)
      else if h.huff = false then .stop (((s.pulled 22).headerFrom h).takeRefusal .nonHuffman)
      else deserializeLayers (LayerNo.upTo h.layersField) (clearLayers ((s.headerFrom h).pulled 22)) := by
  rw [deserialize, getHeader_headerBytes h0 hc hd, Res.andThen_ok, State.headerFrom_layersField, State.headerFrom_huff]
  rfl

/-! ## Sections read one after another -/

/-- The sections of slots that can be written, before others: each slot is read into an empty one. -/
theorem deserializeLayers_append {s : State} (h0 : s.brRem = 0) {f : LayerNo → Layer} {Ks : List LayerNo}
    (hnd : Ks.Nodup) (h : ∀ K ∈ Ks, Writable s.cfg (f K)) (hempty : ∀ K ∈ Ks, (s.layer K).code = [])
    {rest : List Byte} (hd : s.srcData.drop s.srcPos = sections s.cfg f Ks ++ rest) (Ls : List LayerNo) : ∃ ls,
    deserializeLayers (Ks ++ Ls) s =
        deserializeLayers Ls (State.pulled { s with layers := ls } (sections s.cfg f Ks).length) ∧
      ∀ K, ls.get K = if K ∈ Ks then readBack s.cfg (f K) [] else s.layer K := by
  induction Ks generalizing s with
  | nil => exact ⟨s.layers, by rw [sections, List.flatMap_nil, List.length_nil, State.pulled_zero]; rfl, fun K => rfl⟩
  | cons L Ks ih =>
    obtain ⟨hL, hnd⟩ := List.nodup_cons.mp hnd
    obtain ⟨hfirst, hrest⟩ := List.forall_mem_cons.mp h
    obtain ⟨hcode, hempty⟩ := List.forall_mem_cons.mp hempty
    have hother : ∀ K, K ≠ L → (s.setLayer L (readBack s.cfg (f L) [])).layer K = s.layer K := fun K hK =>
      s.layer_setLayer_ne L K _ hK
    rw [sections_cons, List.append_assoc] at hd
    have hget := getLayer_section (L := L) h0 hfirst hd
    rw [hcode] at hget
    obtain ⟨ls, hdes, hls⟩ := ih
      (s := (s.setLayer L (readBack s.cfg (f L) [])).pulled (sectionBytes s.cfg (f L).rebuilt).length) h0 hnd hrest
      (fun K hK => by rw [State.layer_pulled, hother K fun e => hL (e ▸ hK)]; exact hempty K hK)
      (State.drop_pulled (s := s.setLayer L (readBack s.cfg (f L) [])) hd)
    refine ⟨ls, ?_, fun K => ?_⟩
    · rw [List.cons_append, deserializeLayers, hget, Res.andThen_ok, hdes, sections_cons, List.length_append,
        ← State.pulled_pulled]
      rfl
    · rw [hls K]
      by_cases hK : K = L
      · rw [hK, if_neg hL, State.layer_pulled, State.layer_setLayer_same, if_pos List.mem_cons_self]
      · rw [State.layer_pulled, hother K hK]
        simp only [List.mem_cons, hK, false_or]
        rfl

/-! ## `CF.DES` -/

/-- A layer's number as an operand field. -/
theorem LayerNo.toNat_ofNat_num (L : LayerNo) : (BitVec.ofNat 8 L.num).toNat = L.num := by
  cases L <;> rfl

/-- Where `CF.GETLAYER` leaves a core that does not run on, `GetLayer` stopped. -/
theorem getLayer_of_exec {s v : State} {a : Byte} {L : LayerNo} (h : exec (.cfGetlayer a) s = .next v)
    (hr : Running s) (ha : a.toNat = L.num) (h0 : s.brRem = 0) (hv : ¬ Running v) : getLayer L s = .stop v := by
  rw [exec_cfGetlayer_aligned hr ha h0, Res.finish_eq_next] at h
  have hkeeps := getLayer_keeps L s
  rcases h with hstop | ⟨r, u, hok, rfl⟩
  · rcases Res.andThen_eq_stop.mp hstop with hstop | ⟨m, t, -, hok⟩
    · exact hstop
    · cases hok
  · obtain ⟨m, t, hget, hok⟩ := Res.andThen_eq_ok.mp hok
    cases hok
    rw [hget] at hkeeps
    obtain ⟨hforward, -⟩ := hkeeps
    exact absurd (hforward.running hr) hv

section Deserialize
variable {s h : State} (h0 : s.brRem = 0) (hc : h.cfg = s.cfg) (hh : h.huff = true) (h8 : h.layersField ≤ 8)
include h0 hc hh h8

/-- `Deserialize` over the header of `h` and the sections of the layers before others. -/
theorem deserialize_prefix {n : Nat} {Ls : List LayerNo} (hsplit : LayerNo.upTo h.layersField = LayerNo.upTo n ++ Ls)
    (hwrite : ∀ K ∈ LayerNo.upTo n, Writable s.cfg (h.layers.get K)) {rest : List Byte}
    (hd : s.srcData.drop s.srcPos = containerPrefix h n ++ rest) : ∃ ls,
    deserialize s =
        deserializeLayers Ls { (s.pulled (containerPrefix h n).length).headerFrom h with layers := ls } ∧
      ∀ K, ls.get K = if K ∈ LayerNo.upTo n then readBack s.cfg (h.layers.get K) [] else .empty := by
  rw [containerPrefix_eq, hc, List.append_assoc] at hd
  obtain ⟨ls, hdes, hls⟩ := deserializeLayers_append (s := clearLayers ((s.headerFrom h).pulled 22)) (f := h.layer) h0
    (LayerNo.upTo_nodup n) hwrite (fun K _ => congrArg Layer.code (Layers.get_empty K))
    (drop_pulled_of_length (s := clearLayers (s.headerFrom h)) hd (headerBytes_length h)) Ls
  refine ⟨ls, ?_, fun K => (hls K).trans (if_congr Iff.rfl rfl (Layers.get_empty K))⟩
  rw [deserialize_header h0 hc hd, if_neg (Nat.not_lt.mpr h8), if_neg (by simp [hh]), hsplit, hdes,
    containerPrefix_eq, hc, List.length_append, headerBytes_length, ← State.pulled_pulled]
  rfl

end Deserialize

/-- Settles O46: the refusals of `Deserialize`, and its layer loop to the end or to the layer it stops in. -/
theorem containerIsRead : Obligations.ContainerIsRead := by
  intro s h rest hr h0 hc
  have hexec := exec_cfDes_aligned hr h0
  refine ⟨fun hh h8 hwrite hd => ?written, fun hd => ⟨fun h8 => ?layerCount, fun h8 hh => ?nonHuffman⟩,
    fun L ls v hh h8 hL hwrite hd hls hget hv => ?stop⟩
  case written =>
    have hmem : ∀ K, K ∈ LayerNo.upTo h.layersField ↔ K.num ≤ h.layersField := fun _ => LayerNo.mem_upTo h8
    obtain ⟨ls, hdes, hls⟩ := deserialize_prefix h0 hc hh h8 (List.append_nil _).symm
      (fun K hK => hwrite K ((hmem K).mp hK)) hd
    refine ⟨ls, ?_, fun K => (hls K).trans (if_congr (hmem K) rfl rfl)⟩
    have hfield : State.layersField { (s.pulled (containerBytes h).length).headerFrom h with layers := ls } =
      h.layersField := State.headerFrom_layersField s h
    rw [hexec, hdes, deserializeLayers, Res.andThen_ok, okWith_eq, ← containerBytes, hfield]
    rfl
  case layerCount =>
    rw [hexec, deserialize_header h0 hc hd, if_pos h8]
    rfl
  case nonHuffman =>
    rw [hexec, deserialize_header h0 hc hd, if_neg (Nat.not_lt.mpr h8), if_pos hh]
    rfl
  case stop =>
    obtain ⟨rest', hsplit⟩ := LayerNo.upTo_around hL h8
    obtain ⟨ls', hdes, hls'⟩ := deserialize_prefix h0 hc hh h8 hsplit
      (fun K hK => hwrite K (LayerNo.mem_upTo_pred.mp hK)) hd
    obtain rfl : ls' = ls := Layers.ext_get fun K =>
      (hls' K).trans ((if_congr LayerNo.mem_upTo_pred rfl rfl).trans (hls K).symm)
    have hstop := getLayer_of_exec hget hr L.toNat_ofNat_num h0 hv
    rw [hexec, hdes, deserializeLayers, hstop]
    rfl

end Sys2Proof.Machine
end

section
/-!
PROOF. The frames of a block (`45_frame_sequencer.md` R230, R233, R239): what the count rule keeps of a list of values,
and the values of a layer by scan index.
-/

namespace Sys2Proof.Machine

/-! ## The count rule -/

theorem keepCount_cons (neutral v : Symbol) (rest : List Symbol) : keepCount neutral (v :: rest) =
    if keepCount neutral rest = 0 then (if v = neutral then 0 else 1) else keepCount neutral rest + 1 := by
  rw [keepCount]
  split
  next h => rw [h, if_pos rfl]
  next c h => rw [h, if_neg c.succ_ne_zero]

/-- The values dropped are `NEUTRAL` (`45_frame_sequencer.md` R239). -/
theorem eq_neutral_of_keepCount_le {neutral v : Symbol} {vals : List Symbol} {j : Nat}
    (hj : keepCount neutral vals ≤ j) (hv : vals[j]? = some v) : v = neutral := by
  induction vals generalizing j with
  | nil => simp at hv
  | cons w rest ih =>
    rw [keepCount_cons] at hj
    split at hj
    next hzero =>
      cases j with
      | zero =>
        obtain rfl := Option.some.inj hv
        by_contra hw
        rw [if_neg hw] at hj
        omega
      | succ j => exact ih (hzero.trans_le j.zero_le) hv
    next hzero =>
      obtain ⟨j, rfl⟩ := Nat.exists_eq_add_one_of_ne_zero (Nat.ne_zero_of_lt hj)
      exact ih (Nat.le_of_succ_le_succ hj) hv

/-- The last value kept is not `NEUTRAL` (`45_frame_sequencer.md` R239). -/
theorem keepCount_last_ne {neutral : Symbol} {vals : List Symbol} (h : 0 < keepCount neutral vals) :
    vals[keepCount neutral vals - 1]? ≠ some neutral := by
  induction vals with
  | nil => exact absurd h (Nat.lt_irrefl 0)
  | cons w rest ih =>
    rw [keepCount_cons] at h ⊢
    by_cases hzero : keepCount neutral rest = 0
    · rw [if_pos hzero] at h ⊢
      by_cases hw : w = neutral
      · rw [if_pos hw] at h
        exact absurd h (Nat.lt_irrefl 0)
      · rw [if_neg hw]
        exact fun e => hw (Option.some.inj e)
    · rw [if_neg hzero, Nat.add_sub_cancel]
      have hpos := Nat.pos_of_ne_zero hzero
      rw [← Nat.sub_add_cancel hpos, List.getElem?_cons_succ]
      exact ih hpos

/-! ## The values of a layer -/

theorem layerValues_length (blk : Block) {L N : LayerNo} (h : L.num ≤ N.num) :
    (layerValues blk L N).length = layerSize L N := by
  rw [layerValues, List.length_map, layerScan_length L N h]

theorem layerValues_indexInLayer (blk : Block) {L N : LayerNo} (h : L.num ≤ N.num) {i : Fin 64}
    (hi : layerOf i N = L.num) : (layerValues blk L N)[indexInLayer i N]? = some (blockGet blk (zz i)) := by
  rw [layerValues, List.getElem?_map, layerScan_indexInLayer h hi]
  rfl

theorem LayerNo.ne_l1_iff {L : LayerNo} : L ≠ .l1 ↔ 2 ≤ L.num := by
  cases L <;> decide

/-- A layer above 1 lacks position (0,0) (`45_frame_sequencer.md` R230). -/
theorem layerSize_lt {L N : LayerNo} (h1 : L ≠ .l1) (h : L.num ≤ N.num) : layerSize L N < 64 := by
  revert h1 h
  cases L <;> cases N <;> decide

theorem frame_of_ne {L : LayerNo} (h1 : L ≠ .l1) (neutral : Symbol) (blk : Block) (N : LayerNo) :
    frame neutral blk L N = BitVec.ofNat 8 (keepCount neutral (layerValues blk L N)) ::
      (layerValues blk L N).take (keepCount neutral (layerValues blk L N)) :=
  if_neg h1

theorem keepCount_layerValues_le (neutral : Symbol) (blk : Block) {L N : LayerNo} (h : L.num ≤ N.num) :
    keepCount neutral (layerValues blk L N) ≤ layerSize L N :=
  (keepCount_le _ _).trans_eq (layerValues_length blk h)

/-- Settles O47: the count is `keepCount` of the layer's values. -/
theorem frameFollowsTheCountRule : Obligations.FrameFollowsTheCountRule := by
  intro neutral blk L N h2 hLN
  have h1 := LayerNo.ne_l1_iff.mpr h2
  have hcount := keepCount_layerValues_le neutral blk hLN
  exact ⟨keepCount neutral (layerValues blk L N), layerValues blk L N, layerValues_length blk hLN,
    fun _ => layerValues_indexInLayer blk hLN, frame_of_ne h1 neutral blk N, hcount,
    hcount.trans_lt (layerSize_lt h1 hLN), fun _ _ => eq_neutral_of_keepCount_le, keepCount_last_ne⟩

end Sys2Proof.Machine
end

section
/-!
PROOF. Reconstruction of one block (`45_frame_sequencer.md` R234 to R236, R241, R244). Pops advance cursors, each by the
Symbols of one frame, so `DecodeBlock` is told from the queues at its start: those of the layers up to the deepest begin
with whole frames, or one of them is the first that stops it.
-/

namespace Sys2Proof.Machine

/-! ## Cursors moved on -/

/-- A slot with its cursor moved on by `n` Symbols (`43_layerstore.md` R181). -/
def Layer.skip (ly : Layer) (n : Nat) : Layer := { ly with rp := ly.rp + n }

/-- Every slot with its cursor moved on, slot L by `n L`. -/
def Layers.advance (ls : Layers) (n : LayerNo → Nat) : Layers :=
  ⟨ls.l1.skip (n .l1), ls.l2.skip (n .l2), ls.l3.skip (n .l3), ls.l4.skip (n .l4), ls.l5.skip (n .l5),
    ls.l6.skip (n .l6), ls.l7.skip (n .l7), ls.l8.skip (n .l8)⟩

/-- The state with every slot's cursor moved on. -/
def State.advance (s : State) (n : LayerNo → Nat) : State := { s with layers := s.layers.advance n }

theorem Layer.queue_skip (ly : Layer) (n : Nat) : (ly.skip n).queue = ly.queue.drop n := List.drop_drop.symm

@[simp] theorem Layers.get_advance (ls : Layers) (n : LayerNo → Nat) (L : LayerNo) :
    (ls.advance n).get L = (ls.get L).skip (n L) := by
  cases L <;> rfl

@[simp] theorem State.layer_advance (s : State) (n : LayerNo → Nat) (L : LayerNo) :
    (s.advance n).layer L = (s.layer L).skip (n L) := Layers.get_advance ..

theorem Layers.advance_advance (ls : Layers) (m n : LayerNo → Nat) :
    (ls.advance m).advance n = ls.advance fun L => m L + n L :=
  Layers.ext_get fun L => by simp [Layer.skip, Nat.add_assoc]

theorem State.advance_advance (s : State) (m n : LayerNo → Nat) :
    (s.advance m).advance n = s.advance fun L => m L + n L :=
  congrArg (fun ls => { s with layers := ls }) (Layers.advance_advance ..)

theorem State.advance_zero (s : State) : (s.advance fun _ => 0) = s :=
  congrArg (fun ls => { s with layers := ls }) (Layers.ext_get fun L => by simp [Layer.skip])

/-- One cursor moved on. -/
theorem State.setLayer_skip (s : State) (L : LayerNo) (n : Nat) :
    s.setLayer L ((s.layer L).skip n) = s.advance fun K => if K = L then n else 0 := by
  refine congrArg (fun ls => { s with layers := ls }) (Layers.ext_get fun K => ?_)
  rw [Layers.get_advance, Layers.get_set]
  split
  next hK => rw [hK]; rfl
  next => rfl

/-- The unread parts of the slots' sequences. -/
def State.queues (s : State) (L : LayerNo) : List Symbol := (s.layer L).queue

theorem State.queues_advance (s : State) (n : LayerNo → Nat) (L : LayerNo) :
    (s.advance n).queues L = (s.queues L).drop (n L) := by
  rw [State.queues, State.layer_advance, Layer.queue_skip]
  rfl

/-! ## Values placed at positions -/

/-- The values written one after another at the positions. -/
def placeValues (ps : List Pos) (vals : List Symbol) (blk : Block) : Block :=
  (ps.zip vals).foldl (fun b p => blockSet b p.1 p.2) blk

theorem placeValues_cons (p : Pos) (ps : List Pos) (v : Symbol) (vals : List Symbol) (blk : Block) :
    placeValues (p :: ps) (v :: vals) blk = placeValues ps vals (blockSet blk p v) := rfl

theorem blockGet_placeValues_of_notMem {ps : List Pos} {p : Pos} (hp : p ∉ ps) (vals : List Symbol) (blk : Block) :
    blockGet (placeValues ps vals blk) p = blockGet blk p := by
  induction ps generalizing vals blk with
  | nil => rfl
  | cons q ps ih =>
    cases vals with
    | nil => rfl
    | cons v vals =>
      rw [placeValues_cons, ih (List.not_mem_of_not_mem_cons hp), blockGet_blockSet,
        if_neg (List.ne_of_not_mem_cons hp)]

/-- The k-th position holds the k-th value, or what it held where the values are fewer. -/
theorem blockGet_placeValues {ps : List Pos} (hnd : ps.Nodup) {k : Nat} {p : Pos} (hp : ps[k]? = some p)
    (vals : List Symbol) (blk : Block) :
    blockGet (placeValues ps vals blk) p = vals[k]?.getD (blockGet blk p) := by
  induction ps generalizing k vals blk with
  | nil => simp at hp
  | cons q ps ih =>
    obtain ⟨hq, hnd⟩ := List.nodup_cons.mp hnd
    cases vals with
    | nil => rfl
    | cons v vals =>
      rw [placeValues_cons]
      cases k with
      | zero =>
        obtain rfl := Option.some.inj hp
        rw [blockGet_placeValues_of_notMem hq, blockGet_blockSet, if_pos rfl]
        rfl
      | succ k =>
        have hne : p ≠ q := fun e => hq (e ▸ List.mem_of_getElem? hp)
        rw [ih hnd hp, blockGet_blockSet, if_neg hne, List.getElem?_cons_succ]

/-- Positions and values beyond the first `c` of either play no part. -/
theorem placeValues_take (ps : List Pos) (vals : List Symbol) (c : Nat) (blk : Block) :
    placeValues (ps.take c) (vals.take c) blk = placeValues ps (vals.take c) blk := by
  induction c generalizing ps vals blk with
  | zero => cases ps <;> rfl
  | succ c ih =>
    match ps, vals with
    | [], _ => rfl
    | _ :: _, [] => rfl
    | p :: ps, v :: vals => exact ih ps vals (blockSet blk p v)

/-! ## One frame -/

/-- The values of the whole frame at the head of a queue of a layer above 1 (`45_frame_sequencer.md` R230). -/
def frameValues (queue : List Symbol) : List Symbol := (queue.drop 1).take (queue.headD 0).toNat

/-- A queue of a layer begins with a whole frame or stops reconstruction. -/
theorem wholeFrame_or_frameStop (L N : LayerNo) (queue : List Symbol) :
    WholeFrame L N queue ∨ ∃ r n, FrameStop L N queue r n := by
  cases queue with
  | nil => exact .inr ⟨_, _, .empty⟩
  | cons c rest =>
    by_cases h1 : L = .l1
    · exact .inl (by simp [WholeFrame, h1])
    · rcases Nat.lt_or_ge (layerSize L N) c.toNat with hlarge | hfits
      · exact .inr ⟨_, _, .overrun c rest h1 hlarge⟩
      · rcases Nat.lt_or_ge rest.length c.toNat with hshort | hlong
        · exact .inr ⟨_, _, .cut c rest h1 hfits hshort⟩
        · exact .inl ((if_neg h1).mpr ⟨c, rest, rfl, hfits, hlong⟩)

/-- Layer 1 stops reconstruction only with nothing to pop. -/
theorem FrameStop.of_l1 {N : LayerNo} {queue : List Symbol} {r : Reason} {n : Nat} (h : FrameStop .l1 N queue r n) :
    queue = [] ∧ r = .queueUnderflow ∧ n = 0 := by
  cases h with
  | empty => exact ⟨rfl, rfl, rfl⟩
  | cut _ _ h1 => exact absurd rfl h1
  | overrun _ _ h1 => exact absurd rfl h1

section CountedQueue
variable {L N : LayerNo} (h1 : L ≠ .l1) (hN : L.num ≤ N.num) {vals : List Symbol} (hlen : vals.length ≤ layerSize L N)
  (rest : List Symbol)
include h1 hN hlen

theorem toNat_ofNat_frameCount : (BitVec.ofNat 8 vals.length).toNat = vals.length := by
  have := layerSize_lt h1 hN
  rw [BitVec.toNat_ofNat]
  exact Nat.mod_eq_of_lt (by omega)

theorem wholeFrame_counted : WholeFrame L N (BitVec.ofNat 8 vals.length :: (vals ++ rest)) := by
  refine (if_neg h1).mpr ⟨_, _, rfl, ?_, ?_⟩
  · rwa [toNat_ofNat_frameCount h1 hN hlen]
  · rw [toNat_ofNat_frameCount h1 hN hlen, List.length_append]
    exact Nat.le_add_right _ _

theorem frameTaken_counted : frameTaken L (BitVec.ofNat 8 vals.length :: (vals ++ rest)) = 1 + vals.length := by
  rw [frameTaken_cons h1, toNat_ofNat_frameCount h1 hN hlen]

theorem frameValues_counted : frameValues (BitVec.ofNat 8 vals.length :: (vals ++ rest)) = vals := by
  rw [frameValues, List.headD_cons, toNat_ofNat_frameCount h1 hN hlen]
  exact List.take_left

end CountedQueue

theorem popFrame_wholeFrame {L N : LayerNo} (h1 : L ≠ .l1) (hN : L.num ≤ N.num) (blk : Block) (s : State)
    (h : WholeFrame L N (s.queues L)) :
    popFrame L N blk s = .ok (placeValues (layerScan L N) (frameValues (s.queues L)) blk)
      (s.advance fun K => if K = L then frameTaken L (s.queues L) else 0) := by
  rw [WholeFrame, if_neg h1] at h
  obtain ⟨c, rest, hq, hfits, hlong⟩ := h
  rw [popFrame_whole hN blk s hq hfits hlong, hq, frameTaken_cons h1, ← State.setLayer_skip]
  exact congrArg (Res.ok · _) (placeValues_take ..)

theorem popFrame_frameStop {L N : LayerNo} {r : Reason} {n : Nat} (hN : L.num ≤ N.num) (blk : Block) (s : State)
    (h : FrameStop L N (s.queues L) r n) :
    popFrame L N blk s = .stop ((s.advance fun K => if K = L then n else 0).takeRefusal r) := by
  rw [popFrame_stop hN blk s h, ← State.setLayer_skip]
  rfl

/-- The layers up to the deepest all begin with whole frames, or there is a first one that does not. -/
theorem wholeFrames_or_frameStop (N : LayerNo) (q : LayerNo → List Symbol) (m : Nat) :
    (∀ L : LayerNo, L.num ≤ m → WholeFrame L N (q L)) ∨
    ∃ (L : LayerNo) (r : Reason) (n : Nat), L.num ≤ m ∧
      (∀ K : LayerNo, K.num < L.num → WholeFrame K N (q K)) ∧ FrameStop L N (q L) r n := by
  induction m with
  | zero => exact .inl fun L hL => absurd L.num_pos (Nat.not_lt.mpr hL)
  | succ m ih =>
    rcases ih with hwhole | ⟨L, r, n, hL, hwhole, hstop⟩
    · by_cases hM : ∃ M : LayerNo, m + 1 = M.num
      · obtain ⟨M, hM⟩ := hM
        rcases wholeFrame_or_frameStop M N (q M) with hnext | ⟨r, n, hstop⟩
        · refine .inl fun L hL => ?_
          rcases Nat.le_succ_iff.mp hL with hL | hL
          · exact hwhole L hL
          · exact LayerNo.num_inj (hL.trans hM) ▸ hnext
        · exact .inr ⟨M, r, n, hM.ge, fun K hK => hwhole K (by omega), hstop⟩
      · exact .inl fun L hL => hwhole L (Nat.le_of_lt_succ (Nat.lt_of_le_of_ne hL fun e => hM ⟨L, e.symm⟩))
    · exact .inr ⟨L, r, n, Nat.le_succ_of_le hL, hwhole, hstop⟩

/-! ## The frames of several layers -/

/-- What the whole frames of the listed layers take of the queues `q`. -/
def takenFrames (q : LayerNo → List Symbol) (Ls : List LayerNo) (K : LayerNo) : Nat :=
  if K ∈ Ls then frameTaken K (q K) else 0

/-- The values of the frames of the listed layers at the heads of the queues `q`, placed at their layers' positions. -/
def placeFrames (N : LayerNo) (q : LayerNo → List Symbol) (Ls : List LayerNo) (blk : Block) : Block :=
  Ls.foldl (fun b L => placeValues (layerScan L N) (frameValues (q L)) b) blk

theorem popFrames_append (N : LayerNo) (Ks Ls : List LayerNo) (blk : Block) (s : State) :
    popFrames N (Ks ++ Ls) blk s = (popFrames N Ks blk s).andThen fun b t => popFrames N Ls b t := by
  induction Ks generalizing blk s with
  | nil => rfl
  | cons K Ks ih => simp only [List.cons_append, popFrames, ih, Res.andThen_assoc]

theorem takenFrames_cons {q : LayerNo → List Symbol} {L : LayerNo} {Ls : List LayerNo} (hL : L ∉ Ls) (K : LayerNo) :
    takenFrames q (L :: Ls) K = (if K = L then frameTaken L (q L) else 0) + takenFrames q Ls K := by
  by_cases hK : K = L
  · subst hK
    simp [takenFrames, hL]
  · simp [takenFrames, hK]

theorem takenFrames_of_notMem {q : LayerNo → List Symbol} {Ls : List LayerNo} {K : LayerNo} (h : K ∉ Ls) :
    takenFrames q Ls K = 0 := if_neg h

/-- The frame of layer 1 and then those of the layers 2 to `n`. -/
theorem takenFrames_upTo {q : LayerNo → List Symbol} {n : Nat} (h : 1 ≤ n) :
    (fun K => takenFrames q [.l1] K + takenFrames q (LayerNo.twoTo n) K) = takenFrames q (LayerNo.upTo n) := by
  have hnd := LayerNo.upTo_nodup n
  rw [LayerNo.upTo_eq n h] at hnd ⊢
  refine funext fun K => ?_
  rw [takenFrames_cons (List.nodup_cons.mp hnd).1]
  congr 1
  by_cases hK : K = .l1 <;> simp [takenFrames, hK]

theorem LayerNo.l1_notMem_twoTo (n : Nat) : .l1 ∉ LayerNo.twoTo n := by
  rcases Nat.eq_zero_or_pos n with rfl | h
  · exact List.not_mem_nil
  · have hnd := LayerNo.upTo_nodup n
    rw [LayerNo.upTo_eq n h] at hnd
    exact (List.nodup_cons.mp hnd).1

/-- The layers 2 to `n` around one of them. -/
theorem LayerNo.twoTo_around {L : LayerNo} {n : Nat} (h2 : 2 ≤ L.num) (h : L.num ≤ n) (h8 : n ≤ 8) :
    ∃ rest, LayerNo.twoTo n = LayerNo.twoTo (L.num - 1) ++ L :: rest := by
  obtain ⟨rest, hsplit⟩ := LayerNo.upTo_around h h8
  rw [LayerNo.upTo_eq _ (by omega), LayerNo.upTo_eq _ (by omega)] at hsplit
  exact ⟨rest, (List.cons.inj hsplit).2⟩

theorem takenFrames_l1_of_mem {q : LayerNo → List Symbol} {n : Nat} {K : LayerNo} (h : K ∈ LayerNo.twoTo n) :
    takenFrames q [.l1] K = 0 :=
  takenFrames_of_notMem fun hK => LayerNo.l1_notMem_twoTo n (List.mem_singleton.mp hK ▸ h)

theorem takenFrames_upTo_eq (q : LayerNo → List Symbol) {n : Nat} (h8 : n ≤ 8) (L : LayerNo) :
    takenFrames q (LayerNo.upTo n) L = if L.num ≤ n then frameTaken L (q L) else 0 :=
  if_congr (LayerNo.mem_upTo h8) rfl rfl

/-- The frames of the layers before `L`, and Symbols of `L` itself. -/
theorem takenFrames_upTo_pred (q : LayerNo → List Symbol) (L K : LayerNo) (n : Nat) :
    (takenFrames q (LayerNo.upTo (L.num - 1)) K + if K = L then n else 0) =
      if K.num < L.num then frameTaken K (q K) else if K = L then n else 0 := by
  rw [takenFrames, if_congr LayerNo.mem_upTo_pred rfl rfl]
  by_cases hK : K.num < L.num
  · rw [if_pos hK, if_pos hK, if_neg fun e => Nat.ne_of_lt hK (congrArg LayerNo.num e)]
    rfl
  · rw [if_neg hK, if_neg hK, Nat.zero_add]

/-- A queue no frame was taken of. -/
theorem State.queues_advance_of_eq_zero {s : State} {n : LayerNo → Nat} {L : LayerNo} (h : n L = 0) :
    (s.advance n).queues L = s.queues L := by
  rw [State.queues_advance, h, List.drop_zero]

/-- Layers above 1 whose queues begin with whole frames. -/
theorem popFrames_wholeFrames {N : LayerNo} {q : LayerNo → List Symbol} {Ls : List LayerNo} (hnd : Ls.Nodup)
    (h1 : .l1 ∉ Ls) (hN : ∀ L ∈ Ls, L.num ≤ N.num) (hwhole : ∀ L ∈ Ls, WholeFrame L N (q L)) (blk : Block) (s : State)
    (hq : ∀ L ∈ Ls, s.queues L = q L) :
    popFrames N Ls blk s = .ok (placeFrames N q Ls blk) (s.advance (takenFrames q Ls)) := by
  induction Ls generalizing blk s with
  | nil => exact congrArg (Res.ok blk) s.advance_zero.symm
  | cons L Ls ih =>
    obtain ⟨hL, hnd⟩ := List.nodup_cons.mp hnd
    obtain ⟨hN, hNs⟩ := List.forall_mem_cons.mp hN
    obtain ⟨hwhole, hwholes⟩ := List.forall_mem_cons.mp hwhole
    obtain ⟨hq, hqs⟩ := List.forall_mem_cons.mp hq
    rw [popFrames, popFrame_wholeFrame (List.ne_of_not_mem_cons h1).symm hN blk s (hq ▸ hwhole), Res.andThen_ok, hq,
      ih hnd (List.not_mem_of_not_mem_cons h1) hNs hwholes _ _ fun K hK => ?_, State.advance_advance]
    · exact congrArg (fun n => Res.ok _ (s.advance n)) (funext fun K => (takenFrames_cons hL K).symm)
    · rw [State.queues_advance_of_eq_zero (if_neg fun e : K = L => hL (e ▸ hK)), hqs K hK]

/-! ## One block -/

theorem maxLayer_le (a : Nat) (N : LayerNo) : maxLayer a N ≤ N.num := by
  rw [maxLayer]
  split
  next => exact Nat.le_refl _
  next h => omega

theorem maxLayer_pos (a : Nat) (N : LayerNo) : 1 ≤ maxLayer a N := by
  rw [maxLayer]
  split
  next => exact N.num_pos
  next h => omega

/-- The block that `DecodeBlock` sends at deepest layer `m`, when the queues `q` begin with whole frames
(`45_frame_sequencer.md` R235). -/
def shownBlock (neutral : Symbol) (N : LayerNo) (m : Nat) (q : LayerNo → List Symbol) : Block :=
  placeFrames N q (LayerNo.twoTo m) (blockSet (blockFill neutral) (zz 0) ((q .l1).headD 0))

section DecodeBlock
variable {s : State} {a : Nat} {N : LayerNo} (hN : s.layersField = N.num)
include hN

/-- `DecodeBlock` once layer 1 has given the value at (0,0). -/
theorem decodeBlock_l1 (h1 : WholeFrame .l1 N (s.queues .l1)) : decodeBlock a s =
    (popFrames N (LayerNo.twoTo (maxLayer a N)) (blockSet (blockFill s.cfg.neutral) (zz 0) ((s.queues .l1).headD 0))
      (s.advance (takenFrames s.queues [.l1]))).andThen fun blk t => .ok (maxLayer a N) (blockOut blk t) := by
  obtain ⟨v, rest, hv⟩ := List.exists_cons_of_ne_nil ((if_pos rfl).mp h1)
  have hskip := s.setLayer_skip .l1 1
  have htaken : takenFrames s.queues [.l1] = fun K => if K = .l1 then 1 else 0 := funext fun K => by
    by_cases hK : K = .l1 <;> simp [takenFrames, frameTaken, hK]
  have hpop : pop .l1 s = .ok v (s.setLayer .l1 ((s.layer .l1).skip 1)) := pop_cons hv
  rw [decodeBlock, withLayerCount_num hN, hpop, Res.andThen_ok, htaken, ← hskip, hv]
  rfl

/-- The queues of the layers up to the deepest begin with whole frames (`45_frame_sequencer.md` R235). -/
theorem decodeBlock_wholeFrames (hwhole : ∀ L, L.num ≤ maxLayer a N → WholeFrame L N (s.queues L)) : decodeBlock a s =
    .ok (maxLayer a N) (blockOut (shownBlock s.cfg.neutral N (maxLayer a N) s.queues)
      (s.advance (takenFrames s.queues (LayerNo.upTo (maxLayer a N))))) := by
  have hle := maxLayer_le a N
  have hmem : ∀ L ∈ LayerNo.twoTo (maxLayer a N), 2 ≤ L.num ∧ L.num ≤ maxLayer a N := fun L hL =>
    (LayerNo.mem_twoTo (hle.trans N.num_le)).mp hL
  rw [decodeBlock_l1 hN (hwhole .l1 (maxLayer_pos a N)), popFrames_wholeFrames (q := s.queues)
    (LayerNo.twoTo_nodup _) (LayerNo.l1_notMem_twoTo _) (fun L hL => (hmem L hL).2.trans hle)
    (fun L hL => hwhole L (hmem L hL).2) _ _ fun L hL => ?_, Res.andThen_ok, State.advance_advance,
    takenFrames_upTo (maxLayer_pos a N)]
  · rfl
  · rw [State.queues_advance_of_eq_zero (takenFrames_l1_of_mem hL)]

/-- With nothing to pop in layer 1 it stops at once. -/
theorem decodeBlock_empty (hempty : s.queues .l1 = []) : decodeBlock a s = .stop (s.takeRefusal .queueUnderflow) := by
  rcases pop_cases .l1 s with ⟨-, hpop⟩ | ⟨v, rest, hhead, -⟩
  · rw [decodeBlock, withLayerCount_num hN, hpop, Res.andThen_stop]
  · exact absurd (hhead.symm.trans hempty) (List.cons_ne_nil v rest)

/-- The first layer whose queue does not begin with a whole frame stops it, the pops made kept
(`45_frame_sequencer.md` R235, R244, `60_exceptions.md` R293). -/
theorem decodeBlock_frameStop {L : LayerNo} {r : Reason} {n : Nat} (hL : L.num ≤ maxLayer a N)
    (hwhole : ∀ K : LayerNo, K.num < L.num → WholeFrame K N (s.queues K)) (hstop : FrameStop L N (s.queues L) r n) :
    decodeBlock a s = .stop ((s.advance fun K =>
      if K.num < L.num then frameTaken K (s.queues K) else if K = L then n else 0).takeRefusal r) := by
  simp only [← takenFrames_upTo_pred]
  by_cases h1 : L = .l1
  · subst h1
    obtain ⟨hempty, rfl, rfl⟩ := hstop.of_l1
    have hnone : (fun K => takenFrames s.queues (LayerNo.upTo (LayerNo.l1.num - 1)) K + if K = .l1 then 0 else 0) =
        fun _ => 0 := funext fun K => by
      rw [takenFrames_of_notMem fun hK => Nat.not_lt.mpr K.num_pos (LayerNo.mem_upTo_pred.mp hK), ite_self]
    rw [decodeBlock_empty hN hempty, hnone, State.advance_zero]
  · have h2 := LayerNo.ne_l1_iff.mp h1
    have hLN := hL.trans (maxLayer_le a N)
    obtain ⟨rest, hsplit⟩ := LayerNo.twoTo_around h2 hL ((maxLayer_le a N).trans N.num_le)
    have hmem : ∀ K ∈ LayerNo.twoTo (L.num - 1), K.num < L.num := fun K hK => by
      have hK := (LayerNo.mem_twoTo ((Nat.sub_le _ 1).trans L.num_le)).mp hK
      omega
    have hlast : L ∉ LayerNo.upTo (L.num - 1) := fun h => Nat.lt_irrefl _ (LayerNo.mem_upTo_pred.mp h)
    rw [decodeBlock_l1 hN (hwhole .l1 h2), hsplit, popFrames_append, popFrames_wholeFrames (q := s.queues)
      (LayerNo.twoTo_nodup _) (LayerNo.l1_notMem_twoTo _) (fun K hK => (hmem K hK).le.trans hLN)
      (fun K hK => hwhole K (hmem K hK)) _ _ fun K hK => ?_, Res.andThen_ok, State.advance_advance,
      takenFrames_upTo (by omega), popFrames, popFrame_frameStop hLN _ _ (r := r) (n := n) ?_]
    · rw [Res.andThen_stop, Res.andThen_stop, State.advance_advance]
    · rw [State.queues_advance_of_eq_zero (takenFrames_of_notMem hlast)]
      exact hstop
    · rw [State.queues_advance_of_eq_zero (takenFrames_l1_of_mem hK)]

end DecodeBlock

/-! ## The block sent -/

theorem layerOf_zero (N : LayerNo) : layerOf 0 N = 1 := Nat.min_eq_left N.num_pos

theorem exists_layerOf (i : Fin 64) (N : LayerNo) : ∃ L : LayerNo, layerOf i N = L.num ∧ L.num ≤ N.num := by
  have hpos : 1 ≤ layerOf i N := Nat.le_min.mpr ⟨Nat.le_add_left 1 _, N.num_pos⟩
  obtain ⟨L, hL⟩ := LayerNo.exists_num hpos (layerOf_le i N)
  exact ⟨L, hL, hL ▸ Nat.min_le_right _ _⟩

theorem layerScan_nodup (L N : LayerNo) : (layerScan L N).Nodup :=
  zzList_nodup.sublist ((List.take_sublist _ _).trans (List.drop_sublist _ _))

/-- A position of a layer's part of the scan is of that layer (`41_scanner.md` R124). -/
theorem layerOf_of_mem_layerScan {L N : LayerNo} (h : L.num ≤ N.num) {i : Fin 64} (hi : zz i ∈ layerScan L N) :
    layerOf i N = L.num := by
  obtain ⟨k, hk⟩ := List.mem_iff_getElem?.mp hi
  have hlt : k < layerSize L N := layerScan_length L N h ▸ (List.getElem?_eq_some_iff.mp hk).1
  rw [layerScan, List.getElem?_take_of_lt hlt, List.getElem?_drop] at hk
  have hend : layerStart L.num + k < 64 := zzList_length ▸ (List.getElem?_eq_some_iff.mp hk).1
  have hindex : (⟨layerStart L.num + k, hend⟩ : Fin 64) = i :=
    zz_injective (Option.some.inj ((zzList_getElem? _).symm.trans hk))
  rw [layerOf_eq_num_iff h, ← hindex]
  exact ⟨Nat.le_add_right _ _, Nat.add_lt_add_left hlt _⟩

theorem blockGet_placeFrames {N : LayerNo} (q : LayerNo → List Symbol) {Ls : List LayerNo} (hnd : Ls.Nodup)
    (hN : ∀ L ∈ Ls, L.num ≤ N.num) (blk : Block) {i : Fin 64} {L : LayerNo} (hi : layerOf i N = L.num) :
    blockGet (placeFrames N q Ls blk) (zz i) =
      if L ∈ Ls then (frameValues (q L))[indexInLayer i N]?.getD (blockGet blk (zz i)) else blockGet blk (zz i) := by
  induction Ls generalizing blk with
  | nil => rfl
  | cons K Ls ih =>
    obtain ⟨hK, hnd⟩ := List.nodup_cons.mp hnd
    obtain ⟨hKN, hN⟩ := List.forall_mem_cons.mp hN
    refine (ih hnd hN _).trans ?_
    by_cases hLK : L = K
    · subst hLK
      rw [if_neg hK, if_pos List.mem_cons_self,
        blockGet_placeValues (layerScan_nodup L N) (layerScan_indexInLayer hKN hi)]
    · rw [blockGet_placeValues_of_notMem fun hmem =>
        hLK (LayerNo.num_inj (hi.symm.trans (layerOf_of_mem_layerScan hKN hmem)))]
      simp only [List.mem_cons, hLK, false_or]

/-- The positions of the block sent (`45_frame_sequencer.md` R234, R235). -/
theorem blockGet_shownBlock (neutral : Symbol) {N : LayerNo} {m : Nat} (hm : m ≤ N.num) (q : LayerNo → List Symbol)
    {i : Fin 64} {L : LayerNo} (hi : layerOf i N = L.num) : blockGet (shownBlock neutral N m q) (zz i) =
      if i = 0 then (q .l1).headD 0
      else if 2 ≤ L.num ∧ L.num ≤ m then (frameValues (q L))[indexInLayer i N]?.getD neutral
      else neutral := by
  have hmem : ∀ K, K ∈ LayerNo.twoTo m ↔ 2 ≤ K.num ∧ K.num ≤ m := fun _ => LayerNo.mem_twoTo (hm.trans N.num_le)
  rw [shownBlock, blockGet_placeFrames q (LayerNo.twoTo_nodup m) (fun K hK => ((hmem K).mp hK).2.trans hm) _ hi,
    if_congr (hmem L) rfl rfl, blockGet_blockSet, blockGet_blockFill]
  by_cases h0 : i = 0
  · subst h0
    rw [if_pos rfl, if_pos rfl, if_neg fun h => ?_]
    rw [layerOf_zero] at hi
    omega
  · rw [if_neg fun e => h0 (zz_injective e), if_neg h0]

/-! ## The command -/

/-- `FS.DECBLK` in a running core (`45_frame_sequencer.md` R241). -/
theorem exec_fsDecblk {s : State} (hr : Running s) (a : Byte) :
    exec (.fsDecblk a) s = ((decodeBlock a.toNat s).andThen fun m t => okWith m t).finish := by
  rw [exec, execFsDecblk, gated_running hr]

theorem decodeBlock_out {s : State} (h : s.layersField = 0 ∨ 8 < s.layersField) (a : Nat) :
    decodeBlock a s = .stop (s.takeRefusal .layerCount) :=
  withLayerCount_out h _ s

/-- Settles O49: what `DecodeBlock` can do. -/
theorem blockIsDecoded : Obligations.BlockIsDecoded := by
  intro s a hr
  rw [exec_fsDecblk hr]
  refine ⟨fun hout => ?out, fun N m hN hm => ?_⟩
  case out =>
    rw [decodeBlock_out hout]
    rfl
  obtain rfl : m = maxLayer a.toNat N := hm
  refine ⟨fun L r n hL hwhole hstop => ?stop, fun v1 vals rest h1 hvals => ?sent⟩
  case stop =>
    rw [decodeBlock_frameStop hN hL hwhole hstop]
    exact ⟨_, rfl, fun K => Layers.get_advance ..⟩
  case sent =>
    change s.queues .l1 = v1 :: rest .l1 at h1
    have hcounted : ∀ L : LayerNo, L ≠ .l1 → L.num ≤ maxLayer a.toNat N → L.num ≤ N.num ∧
        (vals L).length ≤ layerSize L N ∧
        s.queues L = BitVec.ofNat 8 (vals L).length :: (vals L ++ rest L) := fun L hL hm =>
      ⟨hm.trans (maxLayer_le _ N), hvals L (LayerNo.ne_l1_iff.mp hL) hm⟩
    have hwhole : ∀ L : LayerNo, L.num ≤ maxLayer a.toNat N → WholeFrame L N (s.queues L) := fun L hm => by
      by_cases hL : L = .l1
      · subst hL
        exact (if_pos rfl).mpr (h1 ▸ List.cons_ne_nil _ _)
      · obtain ⟨hLN, hlen, hq⟩ := hcounted L hL hm
        exact hq ▸ wholeFrame_counted hL hLN hlen _
    rw [decodeBlock_wholeFrames hN hwhole]
    refine ⟨_, _, rfl, fun L => (Layers.get_advance ..).trans (congrArg (s.layer L).skip ?_), fun i L hi => ?_⟩
    · rw [takenFrames_upTo_eq _ ((maxLayer_le _ N).trans N.num_le)]
      by_cases hL : L = .l1
      · subst hL
        exact if_pos (maxLayer_pos _ N)
      · rw [if_neg hL]
        refine if_ctx_congr Iff.rfl (fun hm => ?_) fun _ => rfl
        obtain ⟨hLN, hlen, hq⟩ := hcounted L hL hm
        rw [hq, frameTaken_counted hL hLN hlen]
    · rw [blockGet_shownBlock _ (maxLayer_le _ N) _ hi]
      refine if_ctx_congr Iff.rfl (fun _ => ?_) fun _ => if_ctx_congr Iff.rfl (fun ⟨h2, hm⟩ => ?_) fun _ => rfl
      · exact congrArg (fun queue : List Symbol => queue.headD 0) h1
      · obtain ⟨hLN, hlen, hq⟩ := hcounted L (LayerNo.ne_l1_iff.mpr h2) hm
        rw [hq, frameValues_counted (LayerNo.ne_l1_iff.mpr h2) hLN hlen]

/-! ## Two depths -/

/-- Where `FS.DECBLK` leaves a core that runs on, the block is told from the queues. -/
theorem exec_fsDecblk_running {s t : State} {a : Byte} {N : LayerNo} (hr : Running s) (hN : s.layersField = N.num)
    (h : exec (.fsDecblk a) s = .next t) (ht : Running t) :
    t.bout = s.bout ++ [shownBlock s.cfg.neutral N (maxLayer a.toNat N) s.queues] := by
  rw [exec_fsDecblk hr] at h
  rcases wholeFrames_or_frameStop N s.queues (maxLayer a.toNat N) with
    hwhole | ⟨L, r, n, hL, hwhole, hstop⟩
  · rw [decodeBlock_wholeFrames hN hwhole] at h
    obtain rfl := Host.Outcome.next.inj h
    rfl
  · rw [decodeBlock_frameStop hN hL hwhole hstop] at h
    obtain rfl := Host.Outcome.next.inj h
    exact absurd ht.2 (Option.some_ne_none r)

/-- Settles O53: both blocks come of the same queues, and a position of a layer is placed from that depth on. -/
theorem deeperReconstructionOnlyAdds : Obligations.DeeperReconstructionOnlyAdds := by
  intro s t1 t2 a1 a2 N hr hN hle h1 ht1 h2 ht2
  refine ⟨_, _, exec_fsDecblk_running hr hN h1 ht1, exec_fsDecblk_running hr hN h2 ht2, fun p => ?_⟩
  obtain ⟨i, rfl⟩ := zz_surjective p
  obtain ⟨L, hi, hLN⟩ := exists_layerOf i N
  rw [show min ((zz i).band + 1) N.num = L.num from hi, blockGet_shownBlock _ (maxLayer_le _ N) _ hi,
    blockGet_shownBlock _ (maxLayer_le _ N) _ hi]
  refine ⟨fun hshown => ?_, fun hdeep => ?_⟩
  · simp only [hshown, hshown.trans hle]
  · have h0 : i ≠ 0 := by
      rintro rfl
      have := maxLayer_pos a1.toNat N
      rw [layerOf_zero] at hi
      omega
    rw [if_neg h0, if_neg fun h => Nat.not_lt.mpr h.2 hdeep]

end Sys2Proof.Machine
end

section
/-!
PROOF. A block command given again and again (`45_frame_sequencer.md` R237, R238). `EncodeBlock` and `DecodeBlock` look
at no response, so a loop of either in one command ends where as many commands end, but for the responses.
-/

namespace Sys2Proof.Machine

/-! ## Procedures that look at no response -/

/-- The state with other responses given. -/
def State.withResponses (s : State) (rs : List Response) : State := { s with responses := rs }

/-- Whatever the responses given before, a procedure ends alike from `s`: normally with no event, or at a refusal. -/
def Quiet {α : Type} (f : State → Res α) (s : State) : Prop :=
  (∃ (a : α) (t : State), t.fault = s.fault ∧ t.refused = s.refused ∧
    ∀ rs, f (s.withResponses rs) = .ok a (t.withResponses rs)) ∨
  ∃ (t : State) (r : Reason), t.fault = s.fault ∧
    ∀ rs, f (s.withResponses rs) = .stop ((t.withResponses rs).takeRefusal r)

section Quiet
variable {α β : Type} {s t : State} {f : State → Res α}

theorem Quiet.ok (a : α) (hf : t.fault = s.fault) (hr : t.refused = s.refused)
    (h : ∀ rs, f (s.withResponses rs) = .ok a (t.withResponses rs)) : Quiet f s := .inl ⟨a, t, hf, hr, h⟩

theorem Quiet.stop (r : Reason) (hf : t.fault = s.fault)
    (h : ∀ rs, f (s.withResponses rs) = .stop ((t.withResponses rs).takeRefusal r)) : Quiet f s := .inr ⟨t, r, hf, h⟩

/-- One procedure after another. -/
theorem Quiet.andThen {g : α → State → Res β} (h : Quiet f s) (hg : ∀ a t, Quiet (g a) t) :
    Quiet (fun s => (f s).andThen g) s := by
  rcases h with ⟨a, t, hfault, hrefused, hf⟩ | ⟨t, r, hfault, hf⟩
  · rcases hg a t with ⟨b, u, hfault', hrefused', hgt⟩ | ⟨u, r, hfault', hgt⟩
    · exact .ok b (hfault'.trans hfault) (hrefused'.trans hrefused) fun rs => by
        rw [hf, Res.andThen_ok, hgt]
    · exact .stop r (hfault'.trans hfault) fun rs => by rw [hf, Res.andThen_ok, hgt]
  · exact .stop r hfault fun rs => by rw [hf, Res.andThen_stop]

/-- A procedure that is another one from a state with the same events. -/
theorem Quiet.congr {g : State → Res α} (h : Quiet g t) (hf : t.fault = s.fault) (hr : t.refused = s.refused)
    (hfg : ∀ rs, f (s.withResponses rs) = g (t.withResponses rs)) : Quiet f s := by
  simpa only [Quiet, hfg, hf, hr] using h

end Quiet

/-! ## A procedure repeated -/

/-- A procedure so many times, to the end or to the first stop. -/
def repeated {α : Type} (f : State → Res α) : Nat → State → Res Unit
  | 0, s => .ok () s
  | n + 1, s => (f s).andThen fun _ t => repeated f n t

theorem encodeBlocks_eq_repeated (n : Nat) (s : State) : encodeBlocks n s = repeated encodeNext n s := by
  induction n generalizing s with
  | zero => rfl
  | succ n ih => simp only [encodeBlocks, repeated, ih]

theorem decodeBlocks_eq_repeated (a n : Nat) (s : State) : decodeBlocks a n s = repeated (decodeBlock a) n s := by
  induction n generalizing s with
  | zero => rfl
  | succ n ih => simp only [decodeBlocks, repeated, ih]

section Commands
variable {i : Instr}

/-- Commands given to a stopped core add only responses (`60_exceptions.md` R288). -/
theorem execAll_replicate_stopped {body : State → Res Response} (hexec : ∀ s, exec i s = gated body s) (n : Nat)
    {s : State} {r : Response} (hp : s.pending = some r) :
    ∃ rs, execAll (List.replicate n i) s = .next (s.withResponses rs) := by
  induction n generalizing s with
  | zero => exact ⟨s.responses, rfl⟩
  | succ n ih =>
    obtain ⟨rs, hrest⟩ := ih (s := s.answer r) hp
    exact ⟨rs, by rw [List.replicate_succ, execAll_cons ((hexec s).trans (gated_pending hp)), hrest]; rfl⟩

/-- A command of a quiet procedure given `n` times, and the procedure `n` times in one command. -/
theorem execAll_replicate {α : Type} {f : State → Res α} {v : α → Nat}
    (hexec : ∀ s, exec i s = gated (fun s => (f s).andThen fun a t => okWith (v a) t) s) (hquiet : ∀ s, Quiet f s)
    (n : Nat) {s : State} (hr : Running s) : ∃ w, execAll (List.replicate n i) s = .next w ∧
      ∀ rs x, ((repeated f n (s.withResponses rs)).andThen fun _ t => okWith x t).finish =
        .next (w.withResponses (rs ++ [w.ending (BitVec.ofNat 64 x)])) := by
  induction n generalizing s with
  | zero => exact ⟨s, rfl, fun rs x => by rw [State.ending_ok _ hr.2]; rfl⟩
  | succ n ih =>
    have hfirst := (hexec s).trans (gated_running hr)
    rcases hquiet s with ⟨a, t, hfault, hrefused, hf⟩ | ⟨t, r, hfault, hf⟩
    · rw [show f s = _ from hf s.responses] at hfirst
      obtain ⟨w, hrest, hloop⟩ := ih (s := (t.withResponses s.responses).answer (.okValue (v a)))
        ⟨hfault.trans hr.1, hrefused.trans hr.2⟩
      refine ⟨w, by rw [List.replicate_succ, execAll_cons hfirst, hrest], fun rs x => ?_⟩
      rw [repeated, hf, Res.andThen_ok, ← hloop]
      rfl
    · rw [show f s = _ from hf s.responses] at hfirst
      obtain ⟨rs', hrest⟩ := execAll_replicate_stopped hexec n (State.pending_refused
        (s := (t.withResponses s.responses).takeRefusal r) (hfault.trans hr.1) rfl)
      refine ⟨_, by rw [List.replicate_succ, execAll_cons hfirst, hrest], fun rs x => ?_⟩
      rw [State.ending_refused _ rfl, repeated, hf]
      rfl

end Commands

/-! ## The block procedures -/

theorem push_quiet (L : LayerNo) (x : Symbol) (s : State) : Quiet (push L x) s := by
  by_cases h : (s.layer L).seq.length = maxSeqLength
  · exact .stop (t := s) .capacity rfl fun _ => if_pos h
  · exact .ok (t := s.setLayer L ((s.layer L).pushed x)) () rfl rfl fun _ => if_neg h

theorem pushAll_quiet (L : LayerNo) (xs : List Symbol) (s : State) : Quiet (pushAll L xs) s := by
  induction xs generalizing s with
  | nil => exact .ok () rfl rfl fun _ => rfl
  | cons x xs ih => exact (push_quiet L x s).andThen fun _ => ih

theorem pushEach_quiet (f : LayerNo → List Symbol) (Ls : List LayerNo) (s : State) : Quiet (pushEach f Ls) s := by
  induction Ls generalizing s with
  | nil => exact .ok () rfl rfl fun _ => rfl
  | cons L Ls ih => exact (pushAll_quiet L (f L) s).andThen fun _ => ih

theorem encodeBlock_quiet (blk : Block) (s : State) : Quiet (encodeBlock blk) s := by
  by_cases hout : s.layersField = 0 ∨ 8 < s.layersField
  · exact .stop (t := s) .layerCount rfl fun rs => encodeBlock_out (s := s.withResponses rs) blk hout
  · obtain ⟨N, hN⟩ := LayerNo.exists_num (n := s.layersField) (by omega) (by omega)
    exact (pushEach_quiet (fun L => frame s.cfg.neutral blk L N) (LayerNo.upTo N.num) s).congr rfl rfl fun rs =>
      encodeBlock_eq_pushEach (s := s.withResponses rs) hN blk

theorem encodeNext_block {s : State} {blk : Block} (h : s.binData[s.binPos]? = some blk) :
    encodeNext s = encodeBlock blk { s with binPos := s.binPos + 1 } := by
  rw [encodeNext, blockIn, h]

theorem encodeNext_end {s : State} (h : s.binData[s.binPos]? = none) :
    encodeNext s = .stop (s.takeRefusal .blockSourceEnd) := by
  rw [encodeNext, blockIn_eq_none.mpr h]
  rfl

theorem encodeNext_quiet (s : State) : Quiet encodeNext s := by
  cases h : s.binData[s.binPos]? with
  | none => exact .stop (t := s) .blockSourceEnd rfl fun rs => encodeNext_end (s := s.withResponses rs) h
  | some blk =>
    exact (encodeBlock_quiet blk { s with binPos := s.binPos + 1 }).congr rfl rfl fun rs =>
      encodeNext_block (s := s.withResponses rs) h

theorem decodeBlock_quiet (a : Nat) (s : State) : Quiet (decodeBlock a) s := by
  by_cases hout : s.layersField = 0 ∨ 8 < s.layersField
  · exact .stop (t := s) .layerCount rfl fun rs => decodeBlock_out (s := s.withResponses rs) hout a
  · obtain ⟨N, hN⟩ := LayerNo.exists_num (n := s.layersField) (by omega) (by omega)
    rcases wholeFrames_or_frameStop N s.queues (maxLayer a N) with hwhole | ⟨L, r, n, hL, hwhole, hstop⟩
    · exact .ok (t := blockOut (shownBlock s.cfg.neutral N (maxLayer a N) s.queues)
        (s.advance (takenFrames s.queues (LayerNo.upTo (maxLayer a N))))) (maxLayer a N) rfl rfl fun rs =>
          decodeBlock_wholeFrames (s := s.withResponses rs) hN hwhole
    · exact .stop (t := s.advance fun K =>
        if K.num < L.num then frameTaken K (s.queues K) else if K = L then n else 0) r rfl fun rs =>
          decodeBlock_frameStop (s := s.withResponses rs) hN hL hwhole hstop

end Sys2Proof.Machine
end

section
/-!
PROOF. Reconstruction of a grid (`45_frame_sequencer.md` R235, R236, R238, R243): the frame of a block is a whole frame
in every layer, and the block told from the frames of a block shows its values, so that each round of the loop consumes
the frames of one block and sends it.
-/

namespace Sys2Proof.Machine

/-! ## The frame of a block at the head of a queue -/

section Frame
variable {L N : LayerNo} (hLN : L.num ≤ N.num) (neutral : Symbol) (blk : Block) (rest : List Symbol)
include hLN

/-- The frame of a layer above 1 counts the values it keeps. -/
theorem frame_counted (h1 : L ≠ .l1) : ∃ vals : List Symbol,
    vals = (layerValues blk L N).take (keepCount neutral (layerValues blk L N)) ∧ vals.length ≤ layerSize L N ∧
      frame neutral blk L N = BitVec.ofNat 8 vals.length :: vals := by
  have hlen : ((layerValues blk L N).take (keepCount neutral (layerValues blk L N))).length =
      keepCount neutral (layerValues blk L N) := by rw [List.length_take, Nat.min_eq_left (keepCount_le _ _)]
  refine ⟨_, rfl, ?_, ?_⟩
  · rw [hlen]
    exact keepCount_layerValues_le neutral blk hLN
  · rw [hlen, frame_of_ne h1]

theorem wholeFrame_frame : WholeFrame L N (frame neutral blk L N ++ rest) := by
  by_cases h1 : L = .l1
  · subst h1
    exact (if_pos rfl).mpr (List.cons_ne_nil _ _)
  · obtain ⟨vals, -, hlen, hframe⟩ := frame_counted hLN neutral blk h1
    exact hframe ▸ wholeFrame_counted h1 hLN hlen rest

theorem frameTaken_frame : frameTaken L (frame neutral blk L N ++ rest) = (frame neutral blk L N).length := by
  by_cases h1 : L = .l1
  · subst h1
    rfl
  · obtain ⟨vals, -, hlen, hframe⟩ := frame_counted hLN neutral blk h1
    rw [hframe, List.cons_append, frameTaken_counted h1 hLN hlen, List.length_cons, Nat.add_comm]

/-- What the frame keeps and what it drops are the block's values (`45_frame_sequencer.md` R245). -/
theorem frameValues_frame (h1 : L ≠ .l1) {i : Fin 64} (hi : layerOf i N = L.num) :
    (frameValues (frame neutral blk L N ++ rest))[indexInLayer i N]?.getD neutral = blockGet blk (zz i) := by
  obtain ⟨vals, hvals, hlen, hframe⟩ := frame_counted hLN neutral blk h1
  have hvalue := layerValues_indexInLayer blk hLN hi
  rw [hframe, List.cons_append, frameValues_counted h1 hLN hlen, hvals, List.getElem?_take]
  split
  next => rw [hvalue, Option.getD_some]
  next hdropped => exact (eq_neutral_of_keepCount_le (Nat.not_lt.mp hdropped) hvalue).symm

end Frame

/-! ## The block shown -/

/-- Two blocks that agree at every scan index are one. -/
theorem Block.ext_zz {b b' : Block} (h : ∀ i, blockGet b (zz i) = blockGet b' (zz i)) : b = b' := by
  refine Vector.ext fun k hk => ?_
  obtain ⟨i, hi⟩ := zz_surjective ⟨⟨k / 8, by omega⟩, ⟨k % 8, by omega⟩⟩
  have hraster : (zz i).raster.val = k := by
    rw [hi]
    exact Nat.div_add_mod k 8
  have hget := h i
  simpa only [blockGet, Fin.getElem_fin, hraster] using hget

theorem blockGet_revealed (neutral : Symbol) (N : LayerNo) (m : Nat) (blk : Block) (p : Pos) :
    blockGet (revealed neutral N m blk) p =
      if min (p.band + 1) N.num ≤ m ∧ (N ≠ .l1 ∨ p = ⟨0, 0⟩) then blockGet blk p else neutral := by
  have hval : p.raster.val = 8 * p.r.val + p.c.val := rfl
  have hr : p.raster.val / 8 = p.r.val := by omega
  have hc : p.raster.val % 8 = p.c.val := by omega
  have h0 : p.raster = 0 ↔ p = ⟨0, 0⟩ := ⟨fun h => Pos.raster_inj h, fun h => h ▸ rfl⟩
  rw [blockGet, revealed, Fin.getElem_fin, Vector.getElem_ofFn]
  refine if_congr ?_ rfl rfl
  rw [Fin.eta, hr, hc, h0, Pos.band]

/-- With several layers, layer 1 is position (0,0) alone (`41_scanner.md` R124). -/
theorem eq_zero_of_layerOf_eq_one {i : Fin 64} {N : LayerNo} (h1 : N ≠ .l1) (hi : layerOf i N = 1) : i = 0 := by
  have h2 := LayerNo.ne_l1_iff.mp h1
  have hrange := (layerOf_eq_num_iff (L := .l1) N.num_pos i).mp hi
  rw [layerSize_of_lt (L := .l1) h2] at hrange
  exact Fin.ext (Nat.lt_one_iff.mp hrange.2)

/-- Queues that begin with the frames of a block show its values (`45_frame_sequencer.md` R234, R235). -/
theorem shownBlock_frames (neutral : Symbol) (blk : Block) {N : LayerNo} {m : Nat} (hpos : 1 ≤ m) (hm : m ≤ N.num)
    {q rest : LayerNo → List Symbol} (hq : ∀ L : LayerNo, L.num ≤ m → q L = frame neutral blk L N ++ rest L) :
    shownBlock neutral N m q = revealed neutral N m blk := by
  refine Block.ext_zz fun i => ?_
  obtain ⟨L, hi, hLN⟩ := exists_layerOf i N
  rw [blockGet_shownBlock neutral hm q hi, blockGet_revealed, show min ((zz i).band + 1) N.num = L.num from hi]
  by_cases h0 : i = 0
  · subst h0
    rw [layerOf_zero] at hi
    rw [if_pos rfl, if_pos ⟨hi ▸ hpos, .inr rfl⟩, hq .l1 hpos]
    rfl
  · rw [if_neg h0]
    have hplaced : 2 ≤ L.num ∧ L.num ≤ m ↔ L.num ≤ m ∧ (N ≠ .l1 ∨ zz i = ⟨0, 0⟩) := by
      refine ⟨fun ⟨h2, hLm⟩ => ⟨hLm, .inl (LayerNo.ne_l1_iff.mpr (h2.trans hLN))⟩, fun ⟨hLm, hplace⟩ => ⟨?_, hLm⟩⟩
      refine LayerNo.ne_l1_iff.mp fun h1 => ?_
      rcases hplace with hN | hzero
      · exact h0 (eq_zero_of_layerOf_eq_one hN (hi.trans (congrArg LayerNo.num h1)))
      · exact h0 (zz_injective hzero)
    rw [← if_congr hplaced rfl rfl]
    refine if_ctx_congr Iff.rfl (fun ⟨h2, hLm⟩ => ?_) fun _ => rfl
    rw [hq L hLm]
    exact frameValues_frame hLN neutral blk (rest L) (LayerNo.ne_l1_iff.mpr h2) hi

/-! ## Blocks one after another -/

/-- The frames of blocks in one layer, in block order (`45_frame_sequencer.md` R230). -/
abbrev gridFrames (neutral : Symbol) (blocks : List Block) (L N : LayerNo) : List Symbol :=
  blocks.flatMap fun blk => frame neutral blk L N

/-- The state with blocks sent and every slot's cursor moved on. -/
def State.shown (s : State) (blocks : List Block) (n : LayerNo → Nat) : State :=
  { s with layers := s.layers.advance n, bout := s.bout ++ blocks }

theorem State.shown_shown (s : State) (xs ys : List Block) (m n : LayerNo → Nat) :
    (s.shown xs m).shown ys n = s.shown (xs ++ ys) fun L => m L + n L := by
  simp only [State.shown, Layers.advance_advance, List.append_assoc]

theorem State.shown_advance (s : State) (xs : List Block) (m n : LayerNo → Nat) :
    (s.shown xs m).advance n = s.shown xs fun L => m L + n L := by
  simp only [State.shown, State.advance, Layers.advance_advance]

theorem State.shown_nil (s : State) : s.shown [] (fun _ => 0) = s := by
  rw [State.shown, List.append_nil]
  exact s.advance_zero

theorem State.queues_shown (s : State) (blocks : List Block) (n : LayerNo → Nat) (L : LayerNo) :
    (s.shown blocks n).queues L = (s.queues L).drop (n L) :=
  (congrArg Layer.queue (Layers.get_advance ..)).trans (Layer.queue_skip ..)

/-- The queues behind what was taken of the layers up to `m`. -/
theorem State.queues_shown_front {s : State} {m : Nat} {front rest : LayerNo → List Symbol}
    (hq : ∀ L : LayerNo, L.num ≤ m → s.queues L = front L ++ rest L) (blocks : List Block) {L : LayerNo}
    (hL : L.num ≤ m) : (s.shown blocks fun L => if L.num ≤ m then (front L).length else 0).queues L = rest L := by
  rw [State.queues_shown, if_pos hL, hq L hL]
  exact List.drop_left

section DecodeBlocks
variable {s : State} {a : Nat} {N : LayerNo} (hN : s.layersField = N.num)
include hN

/-- The frames of a block at the heads of the queues: the block is sent. -/
theorem decodeBlock_frames (blk : Block) {rest : LayerNo → List Symbol}
    (hq : ∀ L : LayerNo, L.num ≤ maxLayer a N → s.queues L = frame s.cfg.neutral blk L N ++ rest L) :
    decodeBlock a s = .ok (maxLayer a N) (s.shown [revealed s.cfg.neutral N (maxLayer a N) blk] fun L =>
      if L.num ≤ maxLayer a N then (frame s.cfg.neutral blk L N).length else 0) := by
  have hle := maxLayer_le a N
  have hwhole : ∀ L : LayerNo, L.num ≤ maxLayer a N → WholeFrame L N (s.queues L) := fun L hL =>
    hq L hL ▸ wholeFrame_frame (hL.trans hle) _ blk _
  have htaken : takenFrames s.queues (LayerNo.upTo (maxLayer a N)) = fun L =>
      if L.num ≤ maxLayer a N then (frame s.cfg.neutral blk L N).length else 0 := funext fun L => by
    rw [takenFrames_upTo_eq _ (hle.trans N.num_le)]
    refine if_ctx_congr Iff.rfl (fun hL => ?_) fun _ => rfl
    rw [hq L hL, frameTaken_frame (hL.trans hle)]
  rw [decodeBlock_wholeFrames hN hwhole, shownBlock_frames _ blk (maxLayer_pos a N) hle hq, htaken]
  rfl

/-- The frames of blocks at the heads of the queues: the blocks are sent, and the loop goes on behind them. -/
theorem decodeBlocks_frames (blocks : List Block) {rest : LayerNo → List Symbol}
    (hq : ∀ L : LayerNo, L.num ≤ maxLayer a N → s.queues L = gridFrames s.cfg.neutral blocks L N ++ rest L) (n : Nat) :
    decodeBlocks a (blocks.length + n) s =
      decodeBlocks a n (s.shown (blocks.map (revealed s.cfg.neutral N (maxLayer a N))) fun L =>
        if L.num ≤ maxLayer a N then (gridFrames s.cfg.neutral blocks L N).length else 0) := by
  induction blocks generalizing s with
  | nil =>
    simp only [gridFrames, List.flatMap_nil, List.length_nil, ite_self, List.map_nil, Nat.zero_add, State.shown_nil]
  | cons blk blocks ih =>
    have hcons : ∀ L, gridFrames s.cfg.neutral (blk :: blocks) L N =
        frame s.cfg.neutral blk L N ++ gridFrames s.cfg.neutral blocks L N := fun _ => List.flatMap_cons
    simp only [hcons, List.append_assoc] at hq
    rw [List.length_cons, Nat.add_right_comm, decodeBlocks, decodeBlock_frames hN blk hq, Res.andThen_ok,
      ih (s := s.shown _ _) hN fun L hL => State.queues_shown_front hq _ hL, State.shown_shown]
    refine congrArg (fun k => decodeBlocks a n (s.shown _ k)) (funext fun L => ?_)
    rw [hcons, List.length_append]
    split <;> rfl

end DecodeBlocks

/-! ## The command -/

theorem exec_fsRec {s : State} (hr : Running s) {N : LayerNo} (hN : s.layersField = N.num) (a : Byte) (d : Word32) :
    exec (.fsRec a d) s =
      ((decodeBlocks a.toNat d.toNat (rewindAll s)).andThen fun _ t => okWith (maxLayer a.toNat N) t).finish := by
  rw [exec, execFsRec, gated_running hr, reconstruct, withLayerCount_num hN, Res.andThen_assoc]
  rfl

theorem exec_fsRec_out {s : State} (hr : Running s) (h : s.layersField = 0 ∨ 8 < s.layersField) (a : Byte)
    (d : Word32) : exec (.fsRec a d) s = .next (s.takeRefusal .layerCount) := by
  rw [exec, execFsRec, gated_running hr, reconstruct, withLayerCount_out h]
  rfl

/-- Settles O51: the loop over the frames of blocks, to its end or to the block that stops it, and the loop as
commands. -/
theorem gridIsReconstructed : Obligations.GridIsReconstructed := by
  intro s a d hr
  refine ⟨fun hout => exec_fsRec_out hr hout a d, fun N m hN hm => ?_⟩
  obtain rfl : m = maxLayer a.toNat N := hm
  rw [exec_fsRec hr hN]
  refine ⟨fun blocks rest hseq => ?_, ?commands⟩
  case commands =>
    obtain ⟨w, hall, hloop⟩ := execAll_replicate (i := .fsDecblk a) (v := id) (fun _ => rfl)
      (decodeBlock_quiet a.toNat) d.toNat (s := rewindAll s) hr
    refine ⟨(rewindAll s).layers, w, Layers.get_mapAll _ _, hall, ?_⟩
    rw [decodeBlocks_eq_repeated]
    exact hloop s.responses _
  have hq : ∀ L : LayerNo, L.num ≤ maxLayer a.toNat N →
      (rewindAll s).queues L = gridFrames (rewindAll s).cfg.neutral blocks L N ++ rest L := fun L hL => by
    rw [State.queues, State.layer_rewindAll]
    exact hseq L hL
  have hrewound : ∀ (n : LayerNo → Nat) (L : LayerNo),
      ((rewindAll s).layers.advance n).get L = { s.layers.get L with rp := n L } := fun n L => by
    rw [Layers.get_advance, rewindAll_layers, Layers.get_mapAll, Layer.skip, Nat.zero_add]
  refine ⟨fun hd => ?sent, fun L r n hd hL hwhole hstop => ?stop⟩
  case sent =>
    rw [← hd, ← Nat.add_zero blocks.length, decodeBlocks_frames (s := rewindAll s) hN blocks hq]
    exact ⟨_, rfl, hrewound _⟩
  case stop =>
    obtain ⟨k, hk⟩ : ∃ k, d.toNat = blocks.length + (k + 1) := ⟨d.toNat - blocks.length - 1, by omega⟩
    have hbehind := fun K => State.queues_shown_front hq
      (blocks.map (revealed (rewindAll s).cfg.neutral N (maxLayer a.toNat N))) (L := K)
    rw [hk, decodeBlocks_frames (s := rewindAll s) hN blocks hq, decodeBlocks,
      decodeBlock_frameStop (s := (rewindAll s).shown _ _) (L := L) (r := r) (n := n) hN hL
        (fun K hK => (hbehind K (hK.le.trans hL)).symm ▸ hwhole K hK) ((hbehind L hL).symm ▸ hstop),
      State.shown_advance]
    refine ⟨_, rfl, fun K => (hrewound _ K).trans ?_⟩
    refine congrArg (fun n => { s.layers.get K with rp := n }) ?_
    by_cases hK : maxLayer a.toNat N < K.num
    · have hKL : K ≠ L := by
        rintro rfl
        exact Nat.not_le.mpr hK hL
      rw [if_pos hK, if_neg (Nat.not_le.mpr hK), if_neg (by omega), if_neg hKL]
    · rw [if_neg hK, if_pos (Nat.not_lt.mp hK), hbehind K (Nat.not_lt.mp hK)]
      rfl

end Sys2Proof.Machine
end

section
/-!
PROOF. Encoding of a grid (`45_frame_sequencer.md` R232, R233, R237, R242): each round of the loop appends the frames of
the next block to the slots, until all blocks asked for are taken or the source ends.
-/

namespace Sys2Proof.Machine

/-! ## Pushes after pushes -/

/-- The count of a Symbol after pushes. -/
theorem Appended.count_eq {ly ly' : Layer} {xs : List Symbol} (h : Appended ly ly' xs) (y : Symbol) :
    ly'.count y = ly.count y + BitVec.ofNat 64 (xs.count y) := by
  obtain ⟨-, -, hget⟩ := h
  rw [Layer.count, hget y]
  split
  next => rfl
  next hy => rw [List.count_eq_zero_of_not_mem hy]; exact (BitVec.add_zero _).symm

/-- Appending Symbols and then more. -/
theorem Appended.append {ly ly' ly'' : Layer} {xs ys : List Symbol} (h : Appended ly ly' xs)
    (k : Appended ly' ly'' ys) : Appended ly ly'' (xs ++ ys) := by
  have hcount := h.count_eq
  obtain ⟨hnone, hsome, hget⟩ := h
  obtain ⟨knone, ksome, kget⟩ := k
  refine ⟨fun he => ?_, fun hne => ?_, fun y => ?_⟩
  · obtain ⟨hx, hy⟩ := List.append_eq_nil_iff.mp he
    rw [knone hy, hnone hx]
  · by_cases hy : ys = []
    · rw [hy, List.append_nil] at hne ⊢
      rw [knone hy]
      exact hsome hne
    · rw [ksome hy]
      by_cases hx : xs = []
      · rw [hnone hx, hx, List.nil_append]
      · rw [hsome hx, List.append_assoc]
  · rw [kget y, hcount, hget y, List.count_append, BitVec.ofNat_add, ← BitVec.add_assoc]
    by_cases hy : y ∈ ys
    · rw [if_pos hy, if_pos (List.mem_append_right xs hy)]
    · rw [if_neg hy, List.count_eq_zero_of_not_mem hy]
      simp only [List.mem_append, hy, or_false]
      rw [show BitVec.ofNat 64 0 = 0#64 from rfl, BitVec.add_zero]

/-- Every table is listed in ascending Symbol order (log entry 8). -/
abbrev TablesOrdered (s : State) : Prop := ∀ L, TableOrdered (s.layer L).freq

theorem push_ordered {L : LayerNo} {x : Symbol} {s t : State} (h : push L x s = .ok () t) (ho : TablesOrdered s) :
    TablesOrdered t := by
  rcases push_cases L x s with ⟨-, e⟩ | ⟨-, e⟩
  · cases e.symm.trans h
  · cases e.symm.trans h
    intro K
    by_cases hK : K = L
    · subst hK
      rw [State.layer_setLayer_same, Layer.pushed_freq]
      exact Table.set_ordered (ho K) _ _
    · rw [State.layer_setLayer_ne _ _ _ _ hK]
      exact ho K

theorem pushAll_ordered {L : LayerNo} {xs : List Symbol} {s t : State} (h : pushAll L xs s = .ok () t)
    (ho : TablesOrdered s) : TablesOrdered t := by
  induction xs generalizing s with
  | nil => cases h; exact ho
  | cons x xs ih =>
    obtain ⟨⟨⟩, u, hpush, hrest⟩ := Res.andThen_eq_ok.mp h
    exact ih hrest (push_ordered hpush ho)

theorem pushEach_ordered {f : LayerNo → List Symbol} {Ls : List LayerNo} {s t : State}
    (h : pushEach f Ls s = .ok () t) (ho : TablesOrdered s) : TablesOrdered t := by
  induction Ls generalizing s with
  | nil => cases h; exact ho
  | cons L Ls ih =>
    obtain ⟨⟨⟩, u, hpush, hrest⟩ := Res.andThen_eq_ok.mp h
    exact ih hrest (pushAll_ordered hpush ho)

/-! ## Blocks one after another -/

/-- The state with so many blocks taken from the source, and other slots. -/
def State.encoded (s : State) (n : Nat) (ls : Layers) : State := { s with binPos := s.binPos + n, layers := ls }

theorem State.encoded_encoded (s : State) (m n : Nat) (ls ls' : Layers) :
    (s.encoded m ls).encoded n ls' = s.encoded (m + n) ls' := by
  rw [encoded, encoded, encoded, Nat.add_assoc]

/-- The next block at the source, with frames that fit. -/
theorem encodeNext_fits {s : State} {N : LayerNo} {blk : Block} (hN : s.layersField = N.num)
    (hblk : s.binData[s.binPos]? = some blk)
    (hfit : ∀ L, L.num ≤ N.num → (s.layer L).seq.length + (frame s.cfg.neutral blk L N).length ≤ maxSeqLength) :
    ∃ ls : Layers, encodeNext s = .ok () (s.encoded 1 ls) ∧
      (∀ L, L.num ≤ N.num → Appended (s.layer L) (ls.get L) (frame s.cfg.neutral blk L N)) ∧
      (∀ L, N.num < L.num → ls.get L = s.layer L) ∧ (TablesOrdered s → TablesOrdered (s.encoded 1 ls)) := by
  obtain ⟨ls, henc, hin, hout⟩ := encodeBlock_fits (s := { s with binPos := s.binPos + 1 }) blk hN hfit
  refine ⟨ls, (encodeNext_block hblk).trans henc, hin, hout, fun ho => ?_⟩
  rw [encodeBlock_eq_pushEach (s := { s with binPos := s.binPos + 1 }) hN] at henc
  exact pushEach_ordered henc ho

/-- Blocks whose frames fit are taken and encoded, and the loop goes on behind them. -/
theorem encodeBlocks_fits {N : LayerNo} (blocks : List Block) {rest : List Block} {s : State}
    (hN : s.layersField = N.num) (hsrc : s.binData.drop s.binPos = blocks ++ rest)
    (hfit : ∀ L, L.num ≤ N.num →
      (s.layer L).seq.length + (gridFrames s.cfg.neutral blocks L N).length ≤ maxSeqLength) : ∃ ls : Layers,
    (∀ n, encodeBlocks (blocks.length + n) s = encodeBlocks n (s.encoded blocks.length ls)) ∧
    (∀ L, L.num ≤ N.num → Appended (s.layer L) (ls.get L) (gridFrames s.cfg.neutral blocks L N)) ∧
    (∀ L, N.num < L.num → ls.get L = s.layer L) ∧
    (TablesOrdered s → TablesOrdered (s.encoded blocks.length ls)) := by
  induction blocks generalizing s with
  | nil => exact ⟨s.layers, fun n => by rw [List.length_nil, Nat.zero_add]; rfl, fun L _ => .nil _, fun _ _ => rfl, id⟩
  | cons blk blocks ih =>
    have hcons : ∀ L, gridFrames s.cfg.neutral (blk :: blocks) L N =
        frame s.cfg.neutral blk L N ++ gridFrames s.cfg.neutral blocks L N := fun _ => List.flatMap_cons
    simp only [hcons, List.length_append] at hfit ⊢
    have hblk : s.binData[s.binPos]? = some blk := by
      rw [← List.head?_drop, hsrc]
      rfl
    have hsrc' : s.binData.drop (s.binPos + 1) = blocks ++ rest := by
      rw [← List.drop_drop, hsrc]
      rfl
    obtain ⟨ls, henc, hin, hout, ho⟩ := encodeNext_fits hN hblk fun L hL =>
      (Nat.add_le_add_left (Nat.le_add_right _ _) _).trans (hfit L hL)
    obtain ⟨ls', hloop, hin', hout', ho'⟩ := ih (s := s.encoded 1 ls) hN hsrc' fun L hL => by
      have hseq : ((s.encoded 1 ls).layer L).seq = _ := (hin L hL).seq_eq
      rw [hseq, List.length_append, Nat.add_assoc]
      exact hfit L hL
    have hcount : 1 + blocks.length = (blk :: blocks).length := Nat.add_comm ..
    rw [State.encoded_encoded, hcount] at ho'
    refine ⟨ls', fun n => ?_, fun L hL => (hin L hL).append (hin' L hL), fun L hL => (hout' L hL).trans (hout L hL),
      ho' ∘ ho⟩
    rw [← hcount, Nat.add_assoc, Nat.add_comm 1, encodeBlocks, henc, Res.andThen_ok, hloop, State.encoded_encoded]

/-! ## The layer count in the flags -/

theorem withLayersField_toNat (b : Byte) (N : LayerNo) :
    (withLayersField b N.num).toNat = b.toNat / 16 * 16 + N.num := by
  have hle := N.num_le
  have hhigh : (b.extractLsb' 4 4).toNat = b.toNat / 16 := by
    rw [BitVec.extractLsb'_toNat, Nat.shiftRight_eq_div_pow]
    have := b.isLt
    omega
  have happend := toNat_append_ofNat (b.extractLsb' 4 4) (n := 4) (x := N.num) (by omega)
  rw [hhigh] at happend
  rw [withLayersField]
  omega

theorem withLayersField_eq (b : Byte) (N : LayerNo) :
    withLayersField b N.num = BitVec.ofNat 8 (b.toNat / 16 * 16 + N.num) := by
  rw [← withLayersField_toNat, BitVec.ofNat_toNat, BitVec.setWidth_eq]

theorem State.layersField_eq (s : State) : s.layersField = s.hFlags.toNat % 16 := by
  rw [State.layersField, BitVec.extractLsb'_toNat, Nat.shiftRight_zero]

/-! ## The command -/

/-- The core with every slot empty and `LAYERS` set, as `FS.ENC` begins (`45_frame_sequencer.md` R237). -/
def State.gridStart (s : State) (N : LayerNo) : State :=
  { s with hFlags := withLayersField s.hFlags N.num, layers := .empty }

theorem State.gridStart_layersField (s : State) (N : LayerNo) : (s.gridStart N).layersField = N.num := by
  have hle := N.num_le
  rw [State.layersField_eq, State.gridStart, withLayersField_toNat]
  omega

theorem exec_fsEnc {s : State} (hr : Running s) {a : Byte} {N : LayerNo} (ha : a.toNat = N.num) (d : Word32) :
    exec (.fsEnc a d) s =
      ((encodeBlocks d.toNat (s.gridStart N)).andThen fun _ t => okWith d.toNat t).finish := by
  rw [exec, execFsEnc, gated_running hr, withLayerCount_num ha]
  rfl

/-- `FS.ENC` with blocks at the source whose frames fit: the loop behind them. -/
theorem encodeBlocks_gridStart {s : State} {N : LayerNo} {blocks rest : List Block}
    (hsrc : s.binData.drop s.binPos = blocks ++ rest)
    (hfit : ∀ L, L.num ≤ N.num → (gridFrames s.cfg.neutral blocks L N).length ≤ maxSeqLength) : ∃ ls : Layers,
    (∀ n, encodeBlocks (blocks.length + n) (s.gridStart N) =
      encodeBlocks n ((s.gridStart N).encoded blocks.length ls)) ∧
    (∀ L, L.num ≤ N.num → Appended .empty (ls.get L) (gridFrames s.cfg.neutral blocks L N)) ∧
    (∀ L, N.num < L.num → ls.get L = .empty) ∧ ∀ L, TableOrdered (ls.get L).freq := by
  have hempty : ∀ L, (s.gridStart N).layer L = .empty := Layers.get_empty
  obtain ⟨ls, hloop, hin, hout, hordered⟩ := encodeBlocks_fits blocks (s.gridStart_layersField N) hsrc fun L hL => by
    rw [hempty]
    exact (Nat.zero_add _).trans_le (hfit L hL)
  simp only [hempty] at hin hout
  exact ⟨ls, hloop, hin, hout, hordered fun L => hempty L ▸ .nil⟩

/-- Settles O50: the loop over the blocks at the source, and the loop as commands. -/
theorem gridIsEncoded : Obligations.GridIsEncoded := by
  intro s a d N blocks flags hr ha hblocks hflags
  rw [← withLayersField_eq] at hflags
  subst hflags
  have hvalue : Response.okValue d.toNat = ⟨.ok, d.zeroExtend 64⟩ := Response.okValue_toNat d
  rw [exec_fsEnc hr ha]
  refine ⟨fun hfit => ?_, ?commands⟩
  case commands =>
    obtain ⟨w, hall, hloop⟩ := execAll_replicate (i := .fsEncblk) (v := fun _ => 0) (fun _ => rfl) encodeNext_quiet
      d.toNat (s := s.gridStart N) hr
    refine ⟨w, hall, ?_⟩
    rw [encodeBlocks_eq_repeated, BitVec.zeroExtend, ← BitVec.ofNat_toNat]
    exact hloop s.responses _
  have hsrc : s.binData.drop s.binPos = blocks ++ (s.binData.drop s.binPos).drop d.toNat := by
    rw [hblocks, List.take_append_drop]
  obtain ⟨ls, hloop, hin, hout, -⟩ := encodeBlocks_gridStart hsrc hfit
  refine ⟨ls, hin, hout, fun hd => ?all, fun hd => ?fewer⟩
  case all =>
    rw [← hvalue, ← hd, ← Nat.add_zero blocks.length, hloop]
    rfl
  case fewer =>
    obtain ⟨k, hk⟩ : ∃ k, d.toNat = blocks.length + (k + 1) := ⟨d.toNat - blocks.length - 1, by omega⟩
    have hend : s.binData[s.binPos + blocks.length]? = none := by
      have hlen := congrArg List.length hblocks
      rw [List.length_take, List.length_drop] at hlen
      exact List.getElem?_eq_none (by omega)
    rw [hk, hloop, encodeBlocks, encodeNext_end (by exact hend)]
    rfl

end Sys2Proof.Machine
end

section
/-!
PROOF. The whole way (`45_frame_sequencer.md` R245): `FS.ENC` fills slots that can be written, `CF.SER` writes them and
`CF.DES` reads them back with their sequences, which are the frames that `FS.REC` turns into the blocks.
-/

namespace Sys2Proof.Machine

/-! ## Slots that hold the frames of blocks -/

/-- A frame is at most as long as a block. -/
theorem frame_length_le (neutral : Symbol) (blk : Block) {L N : LayerNo} (h : L.num ≤ N.num) :
    (frame neutral blk L N).length ≤ 64 := by
  by_cases h1 : L = .l1
  · subst h1
    exact (by decide : 1 ≤ 64)
  · obtain ⟨vals, -, hlen, hframe⟩ := frame_counted h neutral blk h1
    rw [hframe, List.length_cons]
    exact hlen.trans_lt (layerSize_lt h1 h)

theorem gridFrames_length_le (neutral : Symbol) (blocks : List Block) {L N : LayerNo} (h : L.num ≤ N.num) :
    (gridFrames neutral blocks L N).length ≤ 64 * blocks.length := by
  induction blocks with
  | nil => exact Nat.le_refl 0
  | cons blk blocks ih =>
    have hfirst := frame_length_le neutral blk h
    rw [gridFrames] at ih ⊢
    rw [List.flatMap_cons, List.length_append, List.length_cons]
    omega

/-- Codes of at most eight bits take at most a byte a Symbol (`42_huffman.md` R147). -/
theorem Layer.Encodable.codedBytes_length_le {ly : Layer} (h : ly.Encodable) :
    (codedBytes ly).length ≤ ly.seq.length := by
  have hbits : (codedSymbols ly.code ly.seq).length ≤ ly.seq.length * 8 := by
    rw [codedSymbols_length]
    refine (List.sum_le_card_nsmul _ 8 fun n hn => ?_).trans_eq (by rw [List.length_map, smul_eq_mul])
    obtain ⟨x, hx, rfl⟩ := List.mem_map.mp hn
    obtain ⟨e, he, hlen⟩ := h x hx
    rw [he]
    exact hlen
  rw [codedBytes, packBits_length]
  omega

/-- Pushes into an empty slot, few enough, leave a slot that can be written. -/
theorem Appended.writable {ly : Layer} {xs : List Symbol} (h : Appended .empty ly xs) (ht : TableOrdered ly.freq)
    (hlen : xs.length + 4 ≤ 4294967295) (cfg : Config) : Writable cfg ly := by
  have hseq : ly.seq = xs := h.seq_eq
  have hcounted : ∀ x ∈ ly.seq, (Table.get ly.freq x).isSome := fun x hx => by
    rw [h.get_of_empty, if_pos (hseq ▸ hx)]
    rfl
  have hcoded := (Layer.rebuilt_encodable ht hcounted).codedBytes_length_le
  rw [Layer.rebuilt_seq, hseq] at hcoded
  refine ⟨ht, hcounted, ?_, ?_⟩
  · rw [hseq]
    exact (Nat.le_add_right _ 4).trans hlen
  · split <;> omega

/-! ## Flags -/

/-- `HDR.SET` of the flags register (`46_system.md` R261, `44_container.md` R192). -/
theorem exec_hdrSet_flags {s : State} (hr : Running s) (flags : Byte) : exec (.hdrSet 4 (flags.zeroExtend 32)) s =
    .next (State.answer { s with hFlags := clearReserved flags } ⟨.ok, 0⟩) := by
  have hfits : ∀ b : Byte, (b.zeroExtend 32).extractLsb' 8 24 = 0 := by decide
  have hlow : ∀ b : Byte, (b.zeroExtend 32).extractLsb' 0 8 = b := by decide
  have hwrite : writeHeaderReg 4 (flags.zeroExtend 32) s =
    withByteValue (flags.zeroExtend 32) (fun v t => okWith 0 { t with hFlags := clearReserved v }) s := rfl
  rw [exec, execHdrSet, gated_running hr, hwrite, withByteValue, if_pos (hfits flags), hlow]
  rfl

theorem clearReserved_mod (b : Byte) : (clearReserved b).toNat % 16 = b.toNat % 16 := by
  revert b
  decide

theorem clearReserved_huff (b : Byte) : (clearReserved b).getLsbD 6 = b.getLsbD 6 := by
  revert b
  decide

/-! ## The block shown at full depth -/

/-- At full depth a block is shown whole, with one layer one that is `NEUTRAL` outside (0,0)
(`45_frame_sequencer.md` R234, R245). -/
theorem revealed_full {neutral : Symbol} {N : LayerNo} {blk : Block}
    (h : N ≠ .l1 ∨ ∀ p : Pos, p ≠ ⟨0, 0⟩ → blockGet blk p = neutral) : revealed neutral N N.num blk = blk := by
  refine Block.ext_zz fun i => ?_
  rw [blockGet_revealed]
  split
  next => rfl
  next hhidden =>
    have hplace : ¬(N ≠ .l1 ∨ zz i = ⟨0, 0⟩) := fun h => hhidden ⟨Nat.min_le_right _ _, h⟩
    obtain ⟨hN, hp⟩ := not_or.mp hplace
    exact (h.resolve_left hN _ hp).symm

/-! ## The commands one after another -/

theorem execAll_three {i j k : Instr} {s t u v : State} (hi : exec i s = .next t) (hj : exec j t = .next u)
    (hk : exec k u = .next v) : execAll [i, j, k] s = .next v := by
  rw [execAll_cons hi, execAll_cons hj, execAll_cons hk]
  rfl

/-- A core that is about to serialize blocks: running, at an aligned open writer, with `HUFF` and `LAYERS` = N in the
flags, and the frames of the blocks in slots that can be written. -/
structure HoldsGrid (s : State) (N : LayerNo) (blocks : List Block) : Prop where
  running : Running s
  opened : s.bwOpen = true
  aligned : s.bwFill = 0
  huff : s.huff = true
  count : s.layersField = N.num
  seq : ∀ L, L.num ≤ N.num → (s.layer L).seq = gridFrames s.cfg.neutral blocks L N
  writable : ∀ L, L.num ≤ N.num → Writable s.cfg (s.layer L)

/-- `FS.ENC` and `HDR.SET` of the flags make such a core. -/
theorem exec_encode {s : State} {a : Byte} {d : Word32} {flags : Byte} {N : LayerNo} {blocks : List Block}
    (hr : Running s) (ho : s.bwOpen = true) (h0 : s.bwFill = 0) (ha : a.toNat = N.num)
    (hd : blocks.length = d.toNat) (hblocks : blocks = (s.binData.drop s.binPos).take d.toNat)
    (hlen : 64 * d.toNat + 4 ≤ 4294967295) (hflags : flags.toNat % 16 = N.num) (hh : flags.getLsbD 6 = true) :
    ∃ t u, exec (.fsEnc a d) s = .next t ∧ exec (.hdrSet 4 (flags.zeroExtend 32)) t = .next u ∧
      HoldsGrid u N blocks ∧ u.snkData = s.snkData ∧ u.cfg = s.cfg := by
  have hframes : ∀ L, L.num ≤ N.num → (gridFrames s.cfg.neutral blocks L N).length ≤ 64 * d.toNat := fun L hL =>
    hd ▸ gridFrames_length_le _ blocks hL
  obtain ⟨ls, hloop, hin, -, hordered⟩ := encodeBlocks_gridStart (rest := (s.binData.drop s.binPos).drop d.toNat)
    (hblocks ▸ (List.take_append_drop ..).symm) fun L hL => (hframes L hL).trans (by rw [maxSeqLength]; omega)
  have henc : exec (.fsEnc a d) s =
      .next (((s.gridStart N).encoded blocks.length ls).answer (.okValue d.toNat)) := by
    have hall := hloop 0
    rw [Nat.add_zero, hd] at hall
    rw [exec_fsEnc hr ha, hall, hd]
    rfl
  refine ⟨_, _, henc, exec_hdrSet_flags (by exact hr) flags, ?_, rfl, rfl⟩
  exact {
    running := hr
    opened := ho
    aligned := h0
    huff := (clearReserved_huff flags).trans hh
    count := (State.layersField_eq _).trans ((clearReserved_mod flags).trans hflags)
    seq := fun L hL => (hin L hL).seq_eq
    writable := fun L hL => (hin L hL).writable (hordered L) (by have := hframes L hL; omega) _ }

/-- Settles O52: the container written from the frames is read back into them, and the frames into the blocks. -/
theorem containerRoundTrip : Obligations.ContainerRoundTrip := by
  intro s a d flags N blocks hr ho h0 ha hsrc hblocks hlen hflags hh hneutral
  have hd : blocks.length = d.toNat := by
    rw [hblocks, List.length_take, List.length_drop]
    omega
  obtain ⟨t, h, henc, hset, hgrid, hsnk, hcfg⟩ := exec_encode hr ho h0 ha hd hblocks hlen hflags hh
  have h8 : h.layersField ≤ 8 := hgrid.count.trans_le N.num_le
  obtain ⟨-, -, -, hwritten, -⟩ := containerIsWritten h hgrid.running hgrid.aligned
  obtain ⟨ls, hser, -⟩ := hwritten hgrid.huff h8 hgrid.opened fun L hL => hgrid.writable L (hL.trans_eq hgrid.count)
  refine ⟨_, containerBytes h, execAll_three henc hset hser, hgrid.running, congrArg (· ++ _) hsnk,
    fun u rest hru hrem hucfg hbytes => ?_⟩
  obtain ⟨hread, -⟩ := containerIsRead u h rest hru hrem (hcfg.trans hucfg.symm)
  obtain ⟨ls', hdes, hls'⟩ := hread hgrid.huff h8
    (fun L hL => by
      rw [hucfg, ← hcfg]
      exact hgrid.writable L (hL.trans_eq hgrid.count)) hbytes
  obtain ⟨-, hrec⟩ := gridIsReconstructed (State.answer { (u.pulled (containerBytes h).length).headerFrom h with
    layers := ls' } (.okValue h.layersField)) 0 d hru
  obtain ⟨hframes, -⟩ := hrec N N.num ((State.headerFrom_layersField u h).trans hgrid.count) (if_pos (.inl rfl)).symm
  obtain ⟨hsent, -⟩ := hframes blocks (fun _ => []) fun L hL => by
    rw [List.append_nil, State.answer_layers, hls', if_pos (hL.trans_eq hgrid.count.symm)]
    refine (hgrid.seq L hL).trans ?_
    rw [hcfg, ← hucfg]
    rfl
  obtain ⟨ls'', hrec, -⟩ := hsent hd
  refine ⟨_, (execAll_cons hdes _).trans (execAll_cons hrec []), hru, congrArg (u.bout ++ ·) ?_⟩
  refine (List.map_congr_left fun blk hblk => revealed_full ?_).trans (List.map_id _)
  exact hneutral.imp_right fun h p hp => (h blk hblk p hp).trans (congrArg Config.neutral hucfg.symm)

end Sys2Proof.Machine
end

section
/-!
PROOF. The system commands (`46_system.md` R260 to R264). `NOP`, `HDR.SET` and `HDR.GET` are gated and are their
procedure in a running core; `STAT.GET` and `SRESET` run in every state.
-/

namespace Sys2Proof.Machine

/-! ## `SRESET` and `NOP` -/

/-- Settles O8: `SRESET` resets and then answers, which writes no register and no stream. -/
theorem sresetResets : Obligations.SresetResets := fun s =>
  ⟨s.coreReset.answer (.okValue 0), rfl, coreReset_hasResetValues s, rfl, rfl, rfl, rfl, rfl, rfl, rfl, rfl, rfl, rfl⟩

theorem exec_nop (s : State) : exec .nop s = gated (okWith 0) s := rfl

/-- Settles O10: the three outcomes of the gate before a procedure that changes nothing. -/
theorem nopChangesNothing : Obligations.NopChangesNothing := by
  refine ⟨decode_encode .nop, fun s => ⟨fun hr => ?_, fun k hf => ?_, fun r hf hr => ?_⟩⟩
  · rw [exec_nop, gated_running hr]
    rfl
  · rw [exec_nop, gated_pending (State.pending_fault hf)]
    rfl
  · rw [exec_nop, gated_pending (State.pending_refused hf hr)]
    rfl

/-! ## Values of the 8-bit header registers -/

/-- The bits above a byte's are zero exactly in the values below 256. -/
theorem extractLsb'_above_byte_eq_zero {d : Word32} : d.extractLsb' 8 24 = 0 ↔ d.toNat < 256 := by
  have hd := d.isLt
  have hzero : (0 : BitVec 24).toNat = 0 := rfl
  rw [← BitVec.toNat_inj, BitVec.extractLsb'_toNat, Nat.shiftRight_eq_div_pow, hzero]
  omega

/-- A value that fits is given to the body as a byte (`46_system.md` R261). -/
theorem withByteValue_fits {α : Type} {d : Word32} (h : d.toNat < 256) (body : Byte → State → Res α) (s : State) :
    withByteValue d body s = body (BitVec.ofNat 8 d.toNat) s := by
  have hlow : d.extractLsb' 0 8 = BitVec.ofNat 8 d.toNat := rfl
  rw [withByteValue, if_pos (extractLsb'_above_byte_eq_zero.mpr h), hlow]

/-- A value that does not fit is refused (`46_system.md` R261). -/
theorem withByteValue_wide {α : Type} {d : Word32} (h : 256 ≤ d.toNat) (body : Byte → State → Res α) (s : State) :
    withByteValue d body s = .stop (s.takeRefusal .badRegister) := by
  rw [withByteValue, if_neg (mt extractLsb'_above_byte_eq_zero.mp (Nat.not_lt.mpr h)), refuse_eq]

/-! ## `HDR.SET` -/

/-- An index above 5, and a wide value for an 8-bit register, are refused (`46_system.md` R261). -/
theorem writeHeaderReg_refused {a : Byte} {d : Word32} (h : 5 < a.toNat ∨ 3 < a.toNat ∧ 256 ≤ d.toNat) (s : State) :
    writeHeaderReg a d s = .stop (s.takeRefusal .badRegister) := by
  unfold writeHeaderReg
  split
  case h_5 => exact withByteValue_wide (by omega) _ s
  case h_6 => exact withByteValue_wide (by omega) _ s
  case h_7 => exact refuse_eq _ s
  all_goals omega

/-- In a running core `HDR.SET` is the write of a header register. -/
theorem exec_hdrSet {s : State} (hr : Running s) (a : Byte) (d : Word32) :
    exec (.hdrSet a d) s = (writeHeaderReg a d s).finish := by
  rw [exec, execHdrSet, gated_running hr]

/-- An index that names an 8-bit register writes it with a value that fits (`46_system.md` R261). -/
theorem exec_hdrSet_byte {s : State} (hr : Running s) {a : Byte} {d : Word32} (hd : d.toNat < 256)
    (write : Byte → State → State)
    (h : writeHeaderReg a d s = withByteValue d (fun v t => okWith 0 (write v t)) s) :
    exec (.hdrSet a d) s = .next ((write (BitVec.ofNat 8 d.toNat) s).answer (.okValue 0)) := by
  rw [exec_hdrSet hr, h, withByteValue_fits hd, okWith_eq, Res.finish_ok]

/-- Settles O11: registers 0 to 3 take every value, 4 and 5 a byte, and the rest is refused. -/
theorem headerRegistersAreWritten : Obligations.HeaderRegistersAreWritten := by
  intro s d hr
  refine ⟨exec_hdrSet hr 0 d, exec_hdrSet hr 1 d, exec_hdrSet hr 2 d, exec_hdrSet hr 3 d,
    fun h => exec_hdrSet_byte hr h (fun v t => { t with hFlags := clearReserved v }) rfl,
    fun h => exec_hdrSet_byte hr h (fun v t => { t with hQuality := v }) rfl, fun a h => ?_⟩
  rw [exec_hdrSet hr, writeHeaderReg_refused h]
  rfl

/-! ## `HDR.GET` -/

/-- An index above 5 is refused (`46_system.md` R262). -/
theorem readHeaderReg_refused {a : Byte} (h : 5 < a.toNat) (s : State) :
    readHeaderReg a s = .stop (s.takeRefusal .badRegister) := by
  unfold readHeaderReg
  split
  case h_7 => exact refuse_eq _ s
  all_goals omega

/-- In a running core `HDR.GET` is the read of a header register. -/
theorem exec_hdrGet {s : State} (hr : Running s) (a : Byte) : exec (.hdrGet a) s = (readHeaderReg a s).finish := by
  rw [exec, execHdrGet, gated_running hr]

/-- An index that names a register answers its content, zero-extended (`46_system.md` R262). -/
theorem exec_hdrGet_register {s : State} (hr : Running s) {a : Byte} {w : Nat} {v : BitVec w}
    (h : readHeaderReg a s = okWith v.toNat s) : exec (.hdrGet a) s = .next (s.answer ⟨.ok, v.zeroExtend 64⟩) := by
  rw [exec_hdrGet hr, h, okWith_eq, Res.finish_ok, Response.okValue_toNat]

/-- Settles O12. -/
theorem headerRegistersAreRead : Obligations.HeaderRegistersAreRead := by
  intro s hr
  refine ⟨exec_hdrGet_register hr rfl, exec_hdrGet_register hr rfl, exec_hdrGet_register hr rfl,
    exec_hdrGet_register hr rfl, exec_hdrGet_register hr rfl, exec_hdrGet_register hr rfl, fun a h => ?_⟩
  rw [exec_hdrGet hr, readHeaderReg_refused h]
  rfl

/-! ## `STAT.GET` -/

/-- A fault code fits the four bits of its register (`10_state.md` R29). -/
theorem faultCode_lt (s : State) : s.faultCode < 2 ^ 4 := by
  unfold State.faultCode
  rcases s.fault with _ | k
  · decide
  · cases k <;> decide

/-- A refusal code fits the eight bits of its register (`10_state.md` R30). -/
theorem refusedCode_lt (s : State) : s.refusedCode < 2 ^ 8 := by
  unfold State.refusedCode
  rcases s.refused with _ | r
  · decide
  · cases r <;> decide

/-- The fields of `STAT.GET` as one number (`46_system.md` R263). -/
theorem statusValue_toNat (s : State) : (statusValue s).toNat = s.faultCode + 256 * s.refusedCode := by
  have hpad : (BitVec.ofNat 8 s.refusedCode ++ (0 : BitVec 4)).toNat =
      2 ^ 4 * (BitVec.ofNat 8 s.refusedCode).toNat + 0 := toNat_append_ofNat _ (by decide)
  rw [statusValue, BitVec.zeroExtend, BitVec.toNat_setWidth_of_le (by decide), toNat_append_ofNat _ (faultCode_lt s),
    hpad, BitVec.toNat_ofNat, Nat.mod_eq_of_lt (refusedCode_lt s)]
  omega

/-- Settles O13. -/
theorem statusIsReported : Obligations.StatusIsReported :=
  ⟨fun s => ⟨statusValue s, rfl, statusValue_toNat s⟩, rfl, rfl⟩

end Sys2Proof.Machine
end

section
/-!
PROOF. Refusal of illegal words and the gating of a stopped core (`60_exceptions.md` R285, R288). Every word but those of
`STAT.GET` and `SRESET`, legal or not, runs a gated procedure; so what a stopped core does is what the gate does.
-/

namespace Sys2Proof.Machine

/-! ## Words in a stopped core -/

/-- Every word but those of `STAT.GET` and `SRESET`, an illegal one too, is a gated procedure (R288, R290). -/
theorem runWord_gated {w : Command} (hget : w ≠ 0x0300000000000000) (hreset : w ≠ 0x0400000000000000) :
    ∃ body, ∀ s, runWord w s = gated body s := by
  cases hd : decode w with
  | none => exact ⟨_, fun s => by rw [runWord, hd, illegalWord]⟩
  | some i =>
    have hi : i ≠ .statGet := by rintro rfl; exact hget (encode_of_decode hd).symm
    have hi' : i ≠ .sreset := by rintro rfl; exact hreset (encode_of_decode hd).symm
    obtain ⟨body, hexec, -⟩ := exec_gated i hi hi'
    exact ⟨body, fun s => (runWord_of_decode hd s).trans (hexec s)⟩

/-- A stopped core answers every word but those of `STAT.GET` and `SRESET` with its pending event (R288). -/
theorem runWord_pending {w : Command} {s : State} {r : Response} (hget : w ≠ 0x0300000000000000)
    (hreset : w ≠ 0x0400000000000000) (hp : s.pending = some r) : runWord w s = .next (s.answer r) := by
  obtain ⟨body, hbody⟩ := runWord_gated hget hreset
  rw [hbody, gated_pending hp]

/-! ## One event at a time -/

/-- At most one of the two event registers is set. -/
abbrev AtMostOneEvent (s : State) : Prop := s.fault = none ∨ s.refused = none

/-- A running core takes one event when it stops. -/
theorem Stopped.atMostOneEvent {u t : State} (h : Stopped u t) (hr : Running u) : AtMostOneEvent t := by
  obtain ⟨hfault, hrefused⟩ := hr
  rcases h with ⟨k, rfl⟩ | ⟨r, rfl⟩
  · exact .inr hrefused
  · exact .inl hfault

/-- A procedure runs in a running core only, so it never adds an event to a pending one. -/
theorem runWord_atMostOneEvent {w : Command} {s t : State} (he : AtMostOneEvent s) (h : runWord w s = .next t) :
    AtMostOneEvent t := by
  rcases runWord_cases w s with e | ⟨-, e⟩ | ⟨body, e, hk⟩ <;> rw [e] at h
  · cases h; exact he
  · cases h; exact .inl rfl
  · rcases gated_ends hk h with ⟨-, r, rfl⟩ | ⟨hr, u, r, hf, -, rfl⟩ | ⟨hr, u, hf, -, ht⟩
    · exact he
    · exact .inl (hf.running hr).1
    · exact ht.atMostOneEvent (hf.running hr)

theorem step_atMostOneEvent {s t : State} (he : AtMostOneEvent s) (h : step s = .next t) : AtMostOneEvent t := by
  match hb : s.inbox with
  | [] => rw [step_nil hb] at h; cases h; exact he
  | .reset :: rest => rw [step_reset hb] at h; cases h; exact .inl rfl
  | .command w :: rest =>
    rw [step_command hb] at h
    exact runWord_atMostOneEvent (s := { s with inbox := rest }) he h

/-- Settles O6: two words decode to the commands that are not gated, the gate answers every other word, and a procedure
that takes an event began with none. -/
theorem stoppedCoreAnswersThePendingEvent : Obligations.StoppedCoreAnswersThePendingEvent := by
  refine ⟨fun s w rest hb => ?_, fun s t => step_atMostOneEvent⟩
  rw [step_command hb]
  refine ⟨?_, ?_, fun hget hreset => ⟨fun k hf => ?_, fun r hf hr => ?_⟩⟩
  · rintro rfl
    exact runWord_of_decode (decode_encode .statGet) _
  · rintro rfl
    exact runWord_of_decode (decode_encode .sreset) _
  · exact runWord_pending hget hreset (State.pending_fault hf)
  · exact runWord_pending hget hreset (State.pending_refused hf hr)

/-! ## Illegal words -/

/-- A word that matches no row of the opcode map does not decode (`30_encoding.md` R76). -/
theorem decode_eq_none {w : Command} (h : ∀ r ∈ opcodeTable, w &&& r.format.mask ≠ r.matchWord) : decode w = none := by
  rw [← Option.not_isSome_iff_eq_none, decodeAcceptsExactlyTheMaskMatches w]
  rintro ⟨r, hr, hmatch⟩
  exact h r hr hmatch

/-- A running core refuses a word that does not decode (R285). -/
theorem runWord_illegal {w : Command} {s : State} (hd : decode w = none) (hr : Running s) :
    runWord w s = .next (s.takeRefusal .illegalCommand) := by
  rw [runWord, hd, illegalWord, gated_running hr, refuse_eq, Res.finish_stop]

/-- Settles O5: the word does not decode, and the gate of a running core lets the refusal through. -/
theorem illegalWordIsRefused : Obligations.IllegalWordIsRefused := by
  intro s w rest hr hb hrow
  have hrun : Running { s with inbox := rest } := hr
  rw [step_command hb, runWord_illegal (decode_eq_none hrow) hrun]
  rfl

end Sys2Proof.Machine
end

section
/-!
PROOF. Reader and writer share no state (`70_reset_and_hazards.md` R325). A judgement about a procedure's end states
says which of the two bit units it leaves alone: a reading procedure the writer, a writing one the reader, any other
procedure both.
-/

namespace Sys2Proof.Machine

/-! ## The two bit units -/

/-- The reader registers and the source position (`10_state.md` R24, R25, R40). -/
abbrev ReaderRegs := Byte × Fin 9 × Nat

/-- The writer registers, the sink and `SNK_RELEASED` (`10_state.md` R21 to R23, R41). -/
abbrev WriterRegs := Byte × Fin 8 × Bool × List Byte × Bool

/-- The reader's part of the state and the writer's. -/
def State.bitUnits (s : State) : ReaderRegs × WriterRegs :=
  ((s.brCur, s.brRem, s.srcPos), (s.bwAcc, s.bwFill, s.bwOpen, s.snkData, s.snkReleased))

/-- A procedure that began in `s` leaves a part `f` of the bit units as it was, however it ends. -/
def Res.Preserves {α γ : Type} (f : ReaderRegs × WriterRegs → γ) (s : State) : Res α → Prop
  | .ok _ t => f t.bitUnits = f s.bitUnits
  | .stop t => f t.bitUnits = f s.bitUnits
  | .stuck _ => True

section Judgement
variable {α β γ : Type} {f : ReaderRegs × WriterRegs → γ} {s t : State} {r : Res α}

theorem Res.Preserves.pure (a : α) : (Res.ok a s).Preserves f s := rfl

theorem Res.Preserves.raise (k : FaultKind) : (raiseFault k s : Res α).Preserves f s := rfl

theorem Res.Preserves.refuse (e : Reason) : (refuse e s : Res α).Preserves f s := rfl

/-- A procedure that begins after an update of other state. -/
theorem Res.Preserves.after (h : r.Preserves f t) (e : f t.bitUnits = f s.bitUnits) : r.Preserves f s := by
  cases r with
  | ok a u => exact h.trans e
  | stop u => exact h.trans e
  | stuck x => trivial

/-- One procedure after another. -/
theorem Res.Preserves.andThen {g : α → State → Res β} (h : r.Preserves f s) (hg : ∀ a t, (g a t).Preserves f t) :
    (r.andThen g).Preserves f s := by
  cases r with
  | ok a t => exact (hg a t).after h
  | stop t => exact h
  | stuck x => trivial

/-- The response of a command says nothing about the bit units. -/
theorem Res.Preserves.thenOkWith (h : r.Preserves f s) (v : α → State → Nat) :
    (r.andThen fun a t => okWith (v a t) t).Preserves f s := h.andThen fun _ _ => .pure _

theorem withLayerIndex_preserves {a : Byte} {body : LayerNo → State → Res α} (h : ∀ L, (body L s).Preserves f s) :
    (withLayerIndex a body s).Preserves f s := by
  rcases withLayerIndex_cases a body s with ⟨L, -, e⟩ | ⟨-, e⟩ <;> rw [e]
  · exact h L
  · exact .refuse _

theorem withLayerCount_preserves {n : Nat} {body : LayerNo → State → Res α} (h : ∀ N, (body N s).Preserves f s) :
    (withLayerCount n body s).Preserves f s := by
  rcases withLayerCount_cases n body s with ⟨N, -, e⟩ | ⟨-, e⟩ <;> rw [e]
  · exact h N
  · exact .refuse _

theorem whenWriterAligned_preserves {body : State → Res α} (h : (body s).Preserves f s) :
    (whenWriterAligned body s).Preserves f s := by
  rcases whenWriterAligned_cases body s with ⟨-, e⟩ | ⟨-, e⟩ <;> rw [e]
  · exact h
  · exact .refuse _

theorem whenReaderAligned_preserves {body : State → Res α} (h : (body s).Preserves f s) :
    (whenReaderAligned body s).Preserves f s := by
  rcases whenReaderAligned_cases body s with ⟨-, e⟩ | ⟨-, e⟩ <;> rw [e]
  · exact h
  · exact .refuse _

/-- Moves of the slots' cursors touch neither unit. -/
theorem CursorsMove.bitUnits (h : CursorsMove s t) : t.bitUnits = s.bitUnits := by
  obtain ⟨ls, bout, fault, refused, responses, rfl, -⟩ := h
  rfl

end Judgement

/-! ## Procedures that use neither unit -/

section Neither
variable {γ : Type} {f : ReaderRegs × WriterRegs → γ}

theorem push_preserves (L : LayerNo) (x : Symbol) (s : State) : (push L x s).Preserves f s := by
  rcases push_cases L x s with ⟨-, e⟩ | ⟨-, e⟩ <;> rw [e] <;> exact rfl

theorem pushAll_preserves (L : LayerNo) (xs : List Symbol) (s : State) : (pushAll L xs s).Preserves f s := by
  induction xs generalizing s with
  | nil => exact .pure _
  | cons x rest ih => exact (push_preserves L x s).andThen fun _ t => ih t

theorem pushFrames_preserves (blk : Block) (N : LayerNo) (Ls : List LayerNo) (s : State) :
    (pushFrames blk N Ls s).Preserves f s := by
  induction Ls generalizing s with
  | nil => exact .pure _
  | cons L rest ih => exact (pushAll_preserves L _ s).andThen fun _ t => ih t

theorem encodeNext_preserves (s : State) : (encodeNext s).Preserves f s := by
  unfold encodeNext
  cases hb : blockIn s with
  | none => exact .refuse _
  | some p =>
    obtain ⟨blk, t⟩ := p
    obtain ⟨-, rfl⟩ := blockIn_eq_some hb
    refine Res.Preserves.after (withLayerCount_preserves fun N => ?_) rfl
    exact (push_preserves .l1 _ _).andThen fun _ t => pushFrames_preserves blk N _ t

theorem encodeBlocks_preserves (n : Nat) (s : State) : (encodeBlocks n s).Preserves f s := by
  induction n generalizing s with
  | zero => exact .pure _
  | succ n ih => exact (encodeNext_preserves s).andThen fun _ t => ih t

theorem encodeGrid_preserves (N : LayerNo) (n : Nat) (s : State) : (encodeGrid N n s).Preserves f s :=
  (encodeBlocks_preserves n _).after rfl

theorem traverse_preserves (L : LayerNo) (s : State) : (traverse L s).Preserves f s := by
  rcases traverse_cases L s with ⟨code, -, e⟩ | ⟨-, e⟩ <;> rw [e]
  · exact rfl
  · trivial

theorem headerEnd_preserves (buf : List Byte) (s : State) : (headerEnd buf s).Preserves f s := by
  rw [headerEnd_eq]
  exact rfl

theorem withByteValue_preserves {α : Type} {d : Word32} {body : Byte → State → Res α} {s : State}
    (h : ∀ v, (body v s).Preserves f s) : (withByteValue d body s).Preserves f s := by
  unfold withByteValue
  split
  · exact h _
  · exact .refuse _

theorem writeHeaderReg_preserves (a : Byte) (d : Word32) (s : State) : (writeHeaderReg a d s).Preserves f s := by
  unfold writeHeaderReg
  split
  case h_5 | h_6 => exact withByteValue_preserves fun _ => rfl
  all_goals exact rfl

theorem readHeaderReg_preserves (a : Byte) (s : State) : (readHeaderReg a s).Preserves f s := by
  unfold readHeaderReg
  split <;> exact rfl

end Neither

/-! ## Reading procedures leave the writer -/

theorem readBits_preserves_writer (len : Nat) (s : State) : (readBits len s).Preserves Prod.snd s := by
  obtain ⟨v, cur, rem, n, e⟩ := pullBits_reader len s
  unfold readBits
  split
  · exact .raise _
  · rw [e]
    cases v with
    | none => exact rfl
    | some v => exact rfl

theorem readBytes_preserves_writer (n : Nat) (s : State) : (readBytes n s).Preserves Prod.snd s := by
  induction n generalizing s with
  | zero => exact .pure _
  | succ n ih => exact (readBits_preserves_writer 8 s).andThen fun _ t => (ih t).andThen fun _ _ => .pure _

theorem getU_preserves_writer (n : Nat) (s : State) : (getU n s).Preserves Prod.snd s :=
  (readBytes_preserves_writer n s).andThen fun _ _ => .pure _

theorem descend_preserves_writer (nodes : List Node) (fuel k : Nat) (s : State) :
    (descend nodes fuel k s).Preserves Prod.snd s := by
  induction fuel generalizing k s with
  | zero => trivial
  | succ fuel ih =>
    rw [descend]
    split
    · trivial
    · exact .pure _
    · exact (readBits_preserves_writer 1 s).andThen fun _ t => ih _ t

theorem decodeOne_preserves_writer (L : LayerNo) (s : State) : (decodeOne L s).Preserves Prod.snd s := by
  rcases decodeOne_cases L s with ⟨-, e⟩ | ⟨k, -, -, e⟩ <;> rw [e]
  · exact .refuse _
  · exact descend_preserves_writer _ _ _ s

theorem pullHeader_preserves_writer (n : Nat) (buf : List Byte) (s : State) :
    (pullHeader n buf s).Preserves Prod.snd s := by
  induction n generalizing buf s with
  | zero => exact .pure _
  | succ n ih =>
    obtain ⟨v, cur, rem, k, e⟩ := pullBits_reader 8 s
    rw [pullHeader, e]
    cases v with
    | none => exact (headerEnd_preserves buf _).after rfl
    | some x => exact (ih _ _).after rfl

theorem getHeader_preserves_writer (s : State) : (getHeader s).Preserves Prod.snd s := by
  refine (pullHeader_preserves_writer 22 [] s).andThen fun buf t => ?_
  split
  · exact rfl
  · exact .raise _

theorem readEntries_preserves_writer (L : LayerNo) (n : Nat) (prev : Option Symbol) (s : State) :
    (readEntries L n prev s).Preserves Prod.snd s := by
  induction n generalizing prev s with
  | zero => exact .pure _
  | succ n ih =>
    refine (readBits_preserves_writer 8 s).andThen fun x t => (getU_preserves_writer 8 t).andThen fun c u => ?_
    split
    · exact .refuse _
    · exact (ih _ _).after rfl

theorem readTable_preserves_writer (L : LayerNo) (s : State) : (readTable L s).Preserves Prod.snd s := by
  refine (getU_preserves_writer 4 s).andThen fun e t => ?_
  split
  · exact .refuse _
  · refine Res.Preserves.andThen ((readEntries_preserves_writer L e none _).after rfl) fun _ u => ?_
    exact Res.Preserves.andThen ((getU_preserves_writer 4 _).after rfl) fun _ _ => rfl

theorem decodeSeq_preserves_writer (L : LayerNo) (n : Nat) (s : State) :
    (decodeSeq L n s).Preserves Prod.snd s := by
  induction n generalizing s with
  | zero => exact .pure _
  | succ n ih => exact (decodeOne_preserves_writer L s).andThen fun _ _ => (ih _).after rfl

theorem getLayer_preserves_writer (L : LayerNo) (s : State) : (getLayer L s).Preserves Prod.snd s :=
  (readTable_preserves_writer L s).andThen fun _ t => (getU_preserves_writer 4 t).andThen fun m _ =>
    Res.Preserves.andThen ((decodeSeq_preserves_writer L m _).after rfl) fun _ _ => rfl

theorem deserializeLayers_preserves_writer (Ls : List LayerNo) (s : State) :
    (deserializeLayers Ls s).Preserves Prod.snd s := by
  induction Ls generalizing s with
  | nil => exact .pure _
  | cons L rest ih => exact (getLayer_preserves_writer L s).andThen fun _ t => ih t

theorem deserialize_preserves_writer (s : State) : (deserialize s).Preserves Prod.snd s := by
  refine (getHeader_preserves_writer s).andThen fun _ t => ?_
  split
  · exact .refuse _
  · split
    · exact .refuse _
    · exact (deserializeLayers_preserves_writer _ _).after rfl

/-! ## Writing procedures leave the reader -/

theorem writeBits_preserves_reader (v : Byte) (len : Nat) (s : State) :
    (writeBits v len s).Preserves Prod.fst s := by
  rcases writeBits_cases v len s with ⟨-, e⟩ | ⟨-, -, e⟩ | ⟨-, -, e⟩ <;> rw [e]
  · exact .raise _
  · exact .refuse _
  · obtain ⟨acc, fill, snk, e', -⟩ := putBits_spec v len s
    rw [e']
    exact rfl

theorem writeBytes_preserves_reader (bs : List Byte) (s : State) : (writeBytes bs s).Preserves Prod.fst s := by
  induction bs generalizing s with
  | nil => exact .pure _
  | cons b rest ih => exact (writeBits_preserves_reader b 8 s).andThen fun _ t => ih t

theorem flush_preserves_reader (s : State) : (flush s).Preserves Prod.fst s := by
  rcases flush_cases s with ⟨-, e⟩ | ⟨-, -, e⟩ | ⟨-, -, e⟩ <;> rw [e] <;> exact rfl

theorem closeWriter_preserves_reader (s : State) : (closeWriter s).Preserves Prod.fst s :=
  (flush_preserves_reader s).andThen fun _ _ => rfl

theorem encodeOne_preserves_reader (L : LayerNo) (x : Symbol) (s : State) :
    (encodeOne L x s).Preserves Prod.fst s := by
  rcases encodeOne_cases L x s with ⟨-, e⟩ | ⟨c, -, -, e⟩ <;> rw [e]
  · exact .refuse _
  · exact (writeBits_preserves_reader c.bits c.len s).andThen fun _ _ => .pure _

theorem encodeAll_preserves_reader (L : LayerNo) (xs : List Symbol) (s : State) :
    (encodeAll L xs s).Preserves Prod.fst s := by
  induction xs generalizing s with
  | nil => exact .pure _
  | cons x rest ih => exact (encodeOne_preserves_reader L x s).andThen fun _ t => ih t

theorem putLayer_preserves_reader (L : LayerNo) (s : State) : (putLayer L s).Preserves Prod.fst s := by
  unfold putLayer
  split
  · exact .refuse _
  · cases codedBits (s.layer L).code (s.layer L).seq with
    | none => exact .refuse _
    | some nbits =>
      dsimp only
      split
      · exact .refuse _
      · exact (writeBytes_preserves_reader _ s).andThen fun _ t =>
          (encodeAll_preserves_reader L _ t).andThen fun _ u =>
          (flush_preserves_reader u).andThen fun _ _ => .pure _

theorem serializeLayers_preserves_reader (Ls : List LayerNo) (s : State) :
    (serializeLayers Ls s).Preserves Prod.fst s := by
  induction Ls generalizing s with
  | nil => exact .pure _
  | cons L rest ih =>
    refine Res.Preserves.andThen ((traverse_preserves L (buildTree L s)).after rfl) fun _ t => ?_
    exact (putLayer_preserves_reader L t).andThen fun _ u => ih u

theorem serialize_preserves_reader (s : State) : (serialize s).Preserves Prod.fst s := by
  unfold serialize
  split
  · exact .refuse _
  · split
    · exact .refuse _
    · exact (writeBytes_preserves_reader _ s).andThen fun _ t => serializeLayers_preserves_reader _ t

/-! ## Commands -/

/-- The commands that read from the source (`70_reset_and_hazards.md` R325). -/
def Reads (i : Instr) : Prop :=
  ∃ a, i ∈ [Instr.brRead a, .brBit, .brSkip, .hfDec a, .cfGethdr, .cfGetlayer a, .cfDes]

/-- The commands that write to the sink (`70_reset_and_hazards.md` R325). -/
def Writes (i : Instr) : Prop :=
  ∃ a b, i ∈ [Instr.bwWrite a b, .bwFlush, .bwClose, .hfEnc a b, .cfPuthdr, .cfPutlayer a, .cfSer]

/-- A command leaves a part `f` of the bit units as it was. -/
def ExecPreserves {γ : Type} (f : ReaderRegs × WriterRegs → γ) (i : Instr) : Prop :=
  ∀ s t, exec i s = .next t → f t.bitUnits = f s.bitUnits

/-- A gated command does as its procedure; a stopped core only answers. -/
theorem ExecPreserves.gated {γ : Type} {f : ReaderRegs × WriterRegs → γ} {i : Instr} {body : State → Res Response}
    (hexec : ∀ s, exec i s = gated body s) (hbody : ∀ s, (body s).Preserves f s) : ExecPreserves f i := by
  intro s t h
  have hb := hbody s
  rcases gated_cases ((hexec s).symm.trans h) with ⟨r, -, rfl⟩ | ⟨-, e⟩ | ⟨-, v, u, e, rfl⟩
  · rfl
  · rw [e] at hb; exact hb
  · rw [e] at hb; exact hb

/-- Reconstruction, pops and rewinds use neither unit. -/
theorem ExecPreserves.of_movesCursors {a : Byte} {d : Word32} {i : Instr}
    (hi : i ∈ [Instr.fsDecblk a, .fsRec a d, .lsPop a, .lsRewind]) : ExecPreserves id i := by
  obtain ⟨body, hexec, hbody⟩ := exec_movesCursors hi
  exact fun s t h => (gated_cursorsMove (hbody s) ((hexec s).symm.trans h)).bitUnits

/-- Each reading command is a gated procedure that leaves the writer. -/
theorem Reads.preserves_writer {i : Instr} (h : Reads i) : ExecPreserves Prod.snd i := by
  obtain ⟨a, hi⟩ := h
  fin_cases hi
  · exact .gated (fun _ => rfl) fun s => (readBits_preserves_writer a.toNat s).thenOkWith _
  · exact .gated (fun _ => rfl) fun s => (readBits_preserves_writer 1 s).thenOkWith _
  · exact .gated (fun _ => rfl) fun _ => rfl
  · exact .gated (fun _ => rfl) fun s => withLayerIndex_preserves fun L =>
      (decodeOne_preserves_writer L s).thenOkWith _
  · exact .gated (fun _ => rfl) fun s => whenReaderAligned_preserves ((getHeader_preserves_writer s).thenOkWith _)
  · exact .gated (fun _ => rfl) fun s => withLayerIndex_preserves fun L =>
      whenReaderAligned_preserves ((getLayer_preserves_writer L s).thenOkWith _)
  · exact .gated (fun _ => rfl) fun s => whenReaderAligned_preserves ((deserialize_preserves_writer s).thenOkWith _)

/-- Each writing command is a gated procedure that leaves the reader. -/
theorem Writes.preserves_reader {i : Instr} (h : Writes i) : ExecPreserves Prod.fst i := by
  obtain ⟨a, b, hi⟩ := h
  fin_cases hi
  · exact .gated (fun _ => rfl) fun s => (writeBits_preserves_reader b a.toNat s).thenOkWith _
  · exact .gated (fun _ => rfl) fun s => (flush_preserves_reader s).thenOkWith _
  · exact .gated (fun _ => rfl) fun s => (closeWriter_preserves_reader s).thenOkWith _
  · exact .gated (fun _ => rfl) fun s => withLayerIndex_preserves fun L =>
      (encodeOne_preserves_reader L b s).thenOkWith _
  · exact .gated (fun _ => rfl) fun s =>
      whenWriterAligned_preserves ((writeBytes_preserves_reader (headerBytes s) s).thenOkWith _)
  · exact .gated (fun _ => rfl) fun s => withLayerIndex_preserves fun L =>
      whenWriterAligned_preserves ((putLayer_preserves_reader L s).thenOkWith _)
  · exact .gated (fun _ => rfl) fun s => whenWriterAligned_preserves ((serialize_preserves_reader s).thenOkWith _)

/-- Every command but `SRESET` reads, writes, or uses neither unit. -/
theorem reads_or_writes_or_preserves (i : Instr) (hreset : i ≠ .sreset) :
    Reads i ∨ Writes i ∨ ExecPreserves id i := by
  cases i with
  | sreset => exact absurd rfl hreset
  | brRead a | hfDec a | cfGetlayer a => exact .inl ⟨a, by simp⟩
  | brBit | brSkip | cfGethdr | cfDes => exact .inl ⟨0, by simp⟩
  | bwWrite a b | hfEnc a b => exact .inr (.inl ⟨a, b, by simp⟩)
  | cfPutlayer a => exact .inr (.inl ⟨a, 0, by simp⟩)
  | bwFlush | bwClose | cfPuthdr | cfSer => exact .inr (.inl ⟨0, 0, by simp⟩)
  | statGet => exact .inr (.inr fun s t h => by cases h; rfl)
  | nop | lsClear => exact .inr (.inr (.gated (fun _ => rfl) fun _ => rfl))
  | hdrSet a d => exact .inr (.inr (.gated (fun _ => rfl) (writeHeaderReg_preserves a d)))
  | hdrGet a => exact .inr (.inr (.gated (fun _ => rfl) (readHeaderReg_preserves a)))
  | zsStart a => exact .inr (.inr (.gated (fun _ => rfl) fun _ => withLayerCount_preserves fun _ => rfl))
  | zsNext =>
    refine .inr (.inr (.gated (fun _ => rfl) fun s => ?_))
    split <;> exact rfl
  | hfBuild a | lsFreq a b | lsSetf a b d =>
    exact .inr (.inr (.gated (fun _ => rfl) fun _ => withLayerIndex_preserves fun _ => rfl))
  | hfTrav a =>
    refine .inr (.inr (.gated (fun _ => rfl) fun s => withLayerIndex_preserves fun L => ?_))
    split
    · exact .refuse _
    · exact (traverse_preserves L s).thenOkWith _
  | hfCode a b | lsInfo a b =>
    refine .inr (.inr (.gated (fun _ => rfl) fun s => withLayerIndex_preserves fun L => ?_))
    split <;> exact rfl
  | lsPush a b =>
    exact .inr (.inr (.gated (fun _ => rfl) fun s => withLayerIndex_preserves fun L =>
      (push_preserves L b s).thenOkWith _))
  | lsPop a => exact .inr (.inr (.of_movesCursors (a := a) (d := 0) (by simp)))
  | lsRewind => exact .inr (.inr (.of_movesCursors (a := 0) (d := 0) (by simp)))
  | fsDecblk a => exact .inr (.inr (.of_movesCursors (a := a) (d := 0) (by simp)))
  | fsRec a d => exact .inr (.inr (.of_movesCursors (a := a) (d := d) (by simp)))
  | fsEncblk => exact .inr (.inr (.gated (fun _ => rfl) fun s => (encodeNext_preserves s).thenOkWith _))
  | fsEnc a d =>
    exact .inr (.inr (.gated (fun _ => rfl) fun s => withLayerCount_preserves fun N =>
      (encodeGrid_preserves N d.toNat s).thenOkWith _))

/-- A command that does not read leaves the reader. -/
theorem preserves_reader_of_not_reads {i : Instr} (hreset : i ≠ .sreset) (h : ¬ Reads i) :
    ExecPreserves Prod.fst i := by
  rcases reads_or_writes_or_preserves i hreset with hr | hw | hn
  · exact absurd hr h
  · exact hw.preserves_reader
  · exact fun s t e => congrArg Prod.fst (hn s t e)

/-- A command that does not write leaves the writer. -/
theorem preserves_writer_of_not_writes {i : Instr} (hreset : i ≠ .sreset) (h : ¬ Writes i) :
    ExecPreserves Prod.snd i := by
  rcases reads_or_writes_or_preserves i hreset with hr | hw | hn
  · exact hr.preserves_writer
  · exact absurd hw h
  · exact fun s t e => congrArg Prod.snd (hn s t e)

/-- Settles O60: no procedure of a command uses both units. -/
theorem readerAndWriterAreIndependent : Obligations.ReaderAndWriterAreIndependent := by
  intro s t i hexec hreset
  refine ⟨fun hr => ?_, fun hw => ?_⟩
  · have h := preserves_reader_of_not_reads hreset (not_exists.mpr hr) s t hexec
    simpa only [State.bitUnits, Prod.mk.injEq] using h
  · have h := preserves_writer_of_not_writes hreset (fun ⟨a, b, hi⟩ => hw a b hi) s t hexec
    simpa only [State.bitUnits, Prod.mk.injEq] using h

end Sys2Proof.Machine
end
